-- ==== Sys2Proof/Word.lean ====
section
/-!
DEFINITION. Word.lean: the word, byte and table types of the model and their plainest arithmetic.
A register is held in 64 bits whatever XLEN is; the accessors of Machine/ keep the bits above XLEN zero.
-/

namespace Sys2Proof

/-- A register, an address or a datum while it is computed (00_scope R10, 10_state R45). -/
abbrev Word := BitVec 64

/-- The smallest addressable unit of memory (20_memory R160). -/
abbrev Byte := BitVec 8

/-- Sparse data by number: the numbers strictly rise and no entry is zero, so equal contents are equal lists.
A number that is not listed holds zero. Memory, register files and translation buffers are tables. -/
abbrev Table (w : Nat) := List (Nat × BitVec w)

namespace Word

/-- The low 32 bits of a word. -/
def lo32 (x : Word) : BitVec 32 := x.setWidth 32

/-- A 32-bit value zero-extended to a word. -/
def ofLo32 (x : BitVec 32) : Word := x.setWidth 64

end Word

end Sys2Proof
end

