-- ==== Sys2Proof/Config.lean ====
section
/-!
DEFINITION. Config.lean: what an implementation fixes (the parameters of 00_scope R9, constants of the machine that
State carries) and the free values, which the spec leaves open and nothing in the model can evaluate.
-/

namespace Sys2Proof

/-- `XLEN`: the width of the general registers, the program counter and effective addresses (00_scope R9). -/
inductive Xlen where
  | x32
  | x64
deriving DecidableEq, Repr

/-- The number of bits of `XLEN`. -/
def Xlen.bits : Xlen → Nat
  | .x32 => 32
  | .x64 => 64

/-- The class II instructions, which an implementation may leave out (44 R530; `lv.muls.h` 47 R669). The custom
placeholders are not listed: this model implements none (30 R330). -/
inductive ClassII where
  | cmov | csync | div | divu | extbs | extbz | exths | exthz | extws | extwz | ff1 | fl1 | lwa | mac | maci | macrc
  | macu | msb | msbu | msync | muld | muldu | muli | psync | ror | rori | swa | trap | lvMulsH
deriving DecidableEq, Repr

/-- The geometry of one MMU and which of its optional registers exist (10_state R113, R114). -/
structure MmuConfig where
  /-- TLB ways, 1 to 4. -/
  ways : Nat
  /-- log2 of the TLB sets per way, 0 to 7. -/
  setsLog : Nat
  /-- ATB entries, 0 to 4. -/
  atbs : Nat
  /-- xMMUCR exists. -/
  control : Bool
  /-- xMMUPR exists. -/
  protect : Bool
  /-- xTLBEIR exists. -/
  invalidate : Bool
  /-- `xMMUCFGR[HTR]`: entries are reloaded in hardware (20 R247). -/
  reload : Bool
deriving DecidableEq, Repr

/-- The geometry of one cache and which of its registers exist (10_state R115, R116). -/
structure CacheConfig where
  /-- log2 of the ways, 0 to 5. -/
  waysLog : Nat
  /-- log2 of the sets, 0 to 10. -/
  setsLog : Nat
  /-- The block size: 32 bytes where true, 16 where false. -/
  block32 : Bool
  /-- The control register exists. -/
  control : Bool
  /-- The block invalidate register exists. -/
  invalidate : Bool
  /-- The block prefetch register exists. -/
  prefetch : Bool
  /-- The block lock register exists. -/
  lock : Bool
  /-- The block flush register exists (data cache only). -/
  flush : Bool
  /-- The block write-back register exists (data cache only). -/
  writeBack : Bool
  /-- `DCCFGR[CWS]`: the write strategy is write-back, else write-through (data cache only). -/
  copyBack : Bool
deriving DecidableEq, Repr

/-- The geometry of the debug unit (10_state R117). -/
structure DebugConfig where
  /-- DVR/DCR pairs, 1 to 8. -/
  pairs : Nat
  /-- The watchpoint counters DWCR0 and DWCR1 exist. -/
  counters : Bool
deriving DecidableEq, Repr

/-- `USER_SPR_POLICY`: what a user-mode access to a supervisor-only special-purpose register does, and a user-mode
`l.rfe` (44 R515). -/
inductive UserSprPolicy where
  /-- The program has no meaning from there on: the step is refused. -/
  | refuse
  /-- The illegal instruction exception is raised. -/
  | illegal
  /-- `l.mfspr` writes 0; `l.mtspr` and `l.rfe` do nothing. -/
  | ignore
deriving DecidableEq, Repr

/-- `LV_FLAGGED`: what `lv.sll` and `lv.srl` do, which the manual itself calls incorrectly specified (47 R690, R697). -/
inductive FlaggedPolicy where
  /-- The step is refused. -/
  | refuse
  /-- The block as printed: a shift of the whole register by the low three bits of rB. -/
  | asWritten
deriving DecidableEq, Repr

/-- `TLB_PL1_POLICY`: what a translation does that a TLB entry with PL1 = 1 would match (20 R208). -/
inductive Pl1Policy where
  /-- The step is refused. -/
  | refuse
  /-- The entry translates a page of 16 Mbyte with the truncated page number, as an entry of the ATB does (log 19). -/
  | largePage
deriving DecidableEq, Repr

/-- `MMU64_LAYOUT`, which the spec leaves open: how many bits above their places on 32 bits the page numbers of the
match and of the translate registers stand on a 64-bit implementation (20 R206, log 17). -/
structure Mmu64Layout where
  /-- For xTLBWyMRn and xATBMRi. -/
  matchShift : Nat
  /-- For xTLBWyTRn and xATBTRi. -/
  translateShift : Nat
deriving DecidableEq, Repr

/-- `PTE_LAYOUT`: the lowest bit of each field of a page table entry (20 R244, R245). -/
structure PteLayout where
  /-- PPN, 22 bits. -/
  ppn : Nat
  /-- L. -/
  last : Nat
  /-- PPI, 3 bits. -/
  ppi : Nat
  /-- D. -/
  dirty : Nat
  /-- A. -/
  accessed : Nat
  /-- WOM. -/
  wom : Nat
  /-- WBC. -/
  wbc : Nat
  /-- CI. -/
  ci : Nat
  /-- CC. -/
  cc : Nat
deriving DecidableEq, Repr

/-- The layout 20 R245 gives from general knowledge. -/
def PteLayout.default : PteLayout :=
  { ppn := 10, last := 9, ppi := 6, dirty := 5, accessed := 4, wom := 3, wbc := 2, ci := 1, cc := 0 }

/-- Which bits of the word a field of `width` bits takes. -/
def fieldMask (low width : Nat) : BitVec 32 := BitVec.ofNat 32 ((2 ^ width - 1) * 2 ^ low)

/-- The fields, whose widths sum to 32, fill the word: none lies over another or beyond it. -/
def PteLayout.wf (l : PteLayout) : Bool :=
  decide (fieldMask l.ppn 22 ||| fieldMask l.last 1 ||| fieldMask l.ppi 3 ||| fieldMask l.dirty 1 |||
    fieldMask l.accessed 1 ||| fieldMask l.wom 1 ||| fieldMask l.wbc 1 ||| fieldMask l.ci 1 ||| fieldMask l.cc 1 =
    BitVec.allOnes 32)

/-- `FPNUM.rem_kind` (45 R541). -/
inductive RemKind where
  | ieeeRemainder
  | fmod
deriving DecidableEq, Repr

/-- `FPNUM.ftoi_round` (45 R541). -/
inductive FtoiRound where
  | rm
  | towardZero
deriving DecidableEq, Repr

/-- `FPNUM.denormals` (45 R541). -/
inductive Denormals where
  | ieee
  | flush
deriving DecidableEq, Repr

/-- One range of physical addresses where memory answers (20 R160, R178). -/
structure Region where
  base : Nat
  size : Nat
deriving DecidableEq, Repr

/-- The parameters of one implementation (00_scope R9). -/
structure Config where
  /-- `XLEN`. -/
  xlen : Xlen
  /-- `NGPR`: how many general registers exist. -/
  ngpr : Nat
  /-- `NSETS`: how many register sets exist, 1 to 16. -/
  nsets : Nat
  /-- `ND`: no delay slot. -/
  nd : Bool
  /-- ORBIS64 is supported. -/
  orbis64 : Bool
  /-- ORFPX32 is supported. -/
  orfpx32 : Bool
  /-- ORFPX64 is supported. -/
  orfpx64 : Bool
  /-- ORVDX64 is supported. -/
  orvdx64 : Bool
  /-- The class II instructions that are NOT implemented (the complement of `CLASS2`). -/
  omitted : List ClassII
  /-- The MAC unit is present. -/
  mac : Bool
  /-- The programmable interrupt controller is present. -/
  pic : Bool
  /-- The tick timer is present. -/
  tickTimer : Bool
  /-- Power management is present. -/
  power : Bool
  /-- The data MMU, where present. -/
  dmmu : Option MmuConfig
  /-- The instruction MMU, where present. -/
  immu : Option MmuConfig
  /-- The data cache, where present. -/
  dcache : Option CacheConfig
  /-- The instruction cache, where present. -/
  icache : Option CacheConfig
  /-- The debug unit, where present. -/
  debugUnit : Option DebugConfig
  /-- The number of performance counters, where the unit is present (1 to 8). -/
  counters : Option Nat
  /-- AVR exists. -/
  avrPresent : Bool
  /-- EVBAR exists. -/
  evbarPresent : Bool
  /-- ISR0 to ISR7 exist. -/
  isrPresent : Bool
  /-- AECR and AESR exist. -/
  aecsrPresent : Bool
  /-- The constant VR. -/
  vr : BitVec 32
  /-- The constant VR2 (exists where VR[UVRP] is 1). -/
  vr2 : BitVec 32
  /-- The constant AVR. -/
  avr : BitVec 32
  /-- The constants ISR0 to ISR7. -/
  isr : List (BitVec 32)
  /-- `UPR[CUP]`, bits 31-24: custom units announced (none is modelled). -/
  customUnits : BitVec 8
  /-- `PADDR_BITS`. -/
  paddrBits : Nat
  /-- The physical address map: where memory answers. -/
  memMap : List Region
  /-- `EVBAR_RESET`. -/
  evbarReset : BitVec 32
  /-- `LEE_SUPPORTED`. -/
  leeSupported : Bool
  /-- `UNALIGNED_SUPPORTED`. -/
  unalignedSupported : Bool
  /-- `PIC_FIXED_UNMASKED`. -/
  picFixedUnmasked : Bool
  /-- `PIC_EDGE`. -/
  picEdge : BitVec 32
  /-- `USER_SPR_POLICY`. -/
  userSpr : UserSprPolicy
  /-- `R0_HARDWIRED`. -/
  r0Hardwired : Bool
  /-- log2 of `RESV_GRANULE` (at least 2). -/
  granuleLog : Nat
  /-- `RANGE_WRITEBACK`. -/
  rangeWriteback : Bool
  /-- `FPNUM.rem_kind`. -/
  remKind : RemKind
  /-- `FPNUM.ftoi_round`. -/
  ftoiRound : FtoiRound
  /-- `FPNUM.denormals`. -/
  denormals : Denormals
  /-- `FPNUM.trap_mask`: which of FPCSR[11:3] raise the exception (bit 0 is OVF). -/
  trapMask : BitVec 9
  /-- `FPNUM.madd`: `lf.madd.s` and `lf.madd.d` exist; where they do they are refused (45 R556). -/
  maddPresent : Bool
  /-- `FP_FLAGS_STICKY`. -/
  fpFlagsSticky : Bool
  /-- `FP_CMP_FLAGS`. -/
  fpCmpFlags : Bool
  /-- `LV_WRITES_F`. -/
  lvWritesF : Bool
  /-- `LV_CMP_SIGNED`. -/
  lvCmpSigned : Bool
  /-- `LV_MERGE_INTERLEAVE`. -/
  lvMergeInterleave : Bool
  /-- `LV_FLAGGED`. -/
  lvFlagged : FlaggedPolicy
  /-- `MMU64_LAYOUT`. -/
  mmu64 : Mmu64Layout
  /-- `TLB_PL1_POLICY`. -/
  tlbPl1 : Pl1Policy
  /-- `PTE_LAYOUT`. -/
  pteLayout : PteLayout
  /-- `AD_ON_FAULT`. -/
  adOnFault : Bool
  /-- `DMR1_CW10_OP`: OR where true, AND where false. -/
  cw10Or : Bool
deriving DecidableEq, Repr

/-- An MMU with every optional part, reloaded by software: four ways of 128 sets, four ATB entries. -/
def MmuConfig.full : MmuConfig :=
  { ways := 4, setsLog := 7, atbs := 4, control := true, protect := true, invalidate := true, reload := false }

/-- A write-through cache with every register: two ways of 256 sets of 16-byte blocks. -/
def CacheConfig.full : CacheConfig :=
  { waysLog := 1, setsLog := 8, block32 := false, control := true, invalidate := true, prefetch := true, lock := true,
    flush := true, writeBack := true, copyBack := false }

/-- The parameters at the defaults that 00_scope R9 recommends for a first model: 32 bits, ORBIS32, MAC unit, PIC and
tick timer (UPR reads 0x00000521 and CPUCFGR 0x00000820). Where R9's default is "open" the value is the
model's own (log 1). -/
def Config.specDefault : Config :=
  { xlen := .x32, ngpr := 32, nsets := 1, nd := false, orbis64 := false, orfpx32 := false, orfpx64 := false,
    orvdx64 := false, omitted := [], mac := true, pic := true, tickTimer := true, power := false, dmmu := none,
    immu := none, dcache := none, icache := none, debugUnit := none, counters := none, avrPresent := true,
    evbarPresent := false, isrPresent := false, aecsrPresent := false, vr := 0x12000001#32, vr2 := 0#32,
    avr := 0x01010000#32, isr := [], customUnits := 0#8, paddrBits := 32, memMap := [{ base := 0, size := 2 ^ 32 }],
    evbarReset := 0#32, leeSupported := false, unalignedSupported := false, picFixedUnmasked := false,
    picEdge := 0#32, userSpr := .refuse, r0Hardwired := false, granuleLog := 2, rangeWriteback := false,
    remKind := .ieeeRemainder, ftoiRound := .rm, denormals := .ieee, trapMask := 0x1FF#9,
    maddPresent := false, fpFlagsSticky := true, fpCmpFlags := true, lvWritesF := false, lvCmpSigned := true,
    lvMergeInterleave := false, lvFlagged := .refuse, mmu64 := { matchShift := 0, translateShift := 0 },
    tlbPl1 := .refuse, pteLayout := PteLayout.default, adOnFault := false, cw10Or := true }

/-- The implementation with every subset, every unit and every optional register the spec gives, 64 bits wide, so that
every instruction and every special-purpose register exists (log 1). Every reading and every decision is as in
`Config.specDefault` but for the two defaults that refuse a whole instruction where R9 admits an effect:
`USER_SPR_POLICY` is illegal and `LV_FLAGGED` as written (logs 31 and 46). -/
def Config.full : Config :=
  { Config.specDefault with
    xlen := .x64, nsets := 16, orbis64 := true, orfpx32 := true, orfpx64 := true, orvdx64 := true, power := true,
    dmmu := some MmuConfig.full, immu := some MmuConfig.full, dcache := some CacheConfig.full,
    icache := some CacheConfig.full, debugUnit := some { pairs := 8, counters := true }, counters := some 8,
    evbarPresent := true, isrPresent := true, aecsrPresent := true, vr := 0x12000041#32, vr2 := 0x00000001#32,
    isr := [0#32, 0#32, 0#32, 0#32, 0#32, 0#32, 0#32, 0#32], paddrBits := 35,
    memMap := [{ base := 0, size := 2 ^ 35 }], leeSupported := true, userSpr := .illegal, lvFlagged := .asWritten }

/-- The parameter values that 00_scope R9 and the configuration registers of 10_state R110 to R120 admit. VR[CFG] is
below 50: the configuration registers are implemented (10_state R110). -/
def Config.wf (c : Config) : Bool :=
  decide (1 ≤ c.ngpr ∧ c.ngpr ≤ 32) && decide (1 ≤ c.nsets ∧ c.nsets ≤ 16) &&
  decide (1 ≤ c.paddrBits ∧ c.paddrBits ≤ 35) && decide (2 ≤ c.granuleLog) && decide (c.isr.length ≤ 8) &&
  decide (c.evbarReset &&& 0x1FFF#32 = 0#32) &&
  decide (0x10 ≤ c.vr.toNat / 2 ^ 24 ∧ c.vr.toNat / 2 ^ 24 ≤ 0x19 ∧ c.vr.toNat / 2 ^ 16 % 2 ^ 8 < 50) &&
  decide (c.mmu64.matchShift ≤ 18 ∧ c.mmu64.translateShift ≤ 29) && c.pteLayout.wf &&
  (match c.dmmu with
   | none => true
   | some m => decide (1 ≤ m.ways ∧ m.ways ≤ 4 ∧ m.setsLog ≤ 7 ∧ m.atbs ≤ 4)) &&
  (match c.immu with
   | none => true
   | some m => decide (1 ≤ m.ways ∧ m.ways ≤ 4 ∧ m.setsLog ≤ 7 ∧ m.atbs ≤ 4)) &&
  (match c.dcache with
   | none => true
   | some d => decide (d.waysLog ≤ 5 ∧ d.setsLog ≤ 10)) &&
  (match c.icache with
   | none => true
   | some d => decide (d.waysLog ≤ 5 ∧ d.setsLog ≤ 10)) &&
  (match c.debugUnit with
   | none => true
   | some d => decide (1 ≤ d.pairs ∧ d.pairs ≤ 8)) &&
  (match c.counters with
   | none => true
   | some n => decide (1 ≤ n ∧ n ≤ 8))

/-- FREE VALUE. `DIV0_RESULT(a, b)`: what a division by zero that does not trap leaves in rD (40 R389); the first
argument tells the signed division (0) from the unsigned one (1) (log 10). -/
opaque Config.freeQuotient : Nat → Word → Word → Word

/-- FREE VALUE. `FPNUM.nan(op, a, b)`: the pattern a NaN result takes before it is made a quiet NaN of its format (45
R541); the first argument numbers the operation (log 11). -/
opaque Config.freeNan : Nat → Word → Word → Word

/-- FREE VALUE. `FPNUM.ftoi_invalid(a)`: the integer an invalid conversion delivers (45 R541, R560); the first argument
is the width of the result (log 12). -/
opaque Config.freeFtoi : Nat → Word → Word

/-- FREE VALUE. `FPNUM.tininess`: true where underflow is detected after rounding (45 R541) (log 13). -/
opaque Config.freeTininess : Bool

/-- FREE VALUE. Which of several matching translation entries is used, and which one hardware reload replaces, at the
n-th draw (20 R208, R224, R247) (logs 14, 19, 61). -/
opaque Config.freeWay : Nat → Nat

/-- FREE VALUE. Where a page table entry lies, in hardware reload: the level, the base of its table, the context and the
number of the entry (20 R240) (log 61). -/
opaque Config.freePte : Nat → Nat → Nat → Nat → Nat

/-- FREE VALUE. An entry with L = 0 in a page table of the last level, which points nowhere, serves as the entry of the
page all the same (20 R240) (log 61). -/
opaque Config.freeFinal : BitVec 32 → Bool

/-- FREE VALUE. The LRU field hardware leaves in a match register, at the n-th draw (20 R211) (log 21). -/
opaque Config.freeLru : Nat → Nat → BitVec 2

/-- FREE VALUE. How much a performance counter adds for the pipeline events of one step, at the n-th draw, for counter k
(60 R802) (log 41). -/
opaque Config.freeCount : Nat → Nat → BitVec 32

/-- FREE VALUE. Which of the bytes an instruction cache may hold a fetch gets, at the n-th draw (20 R273) (log 22). -/
opaque Config.freeStale : Nat → Nat

/-- FREE VALUE. An untranslated access at a physical address may be cached: the implementation decides (20 R188)
(log 62). -/
opaque Config.freeCacheable : Nat → Bool

/-- FREE VALUE. Which of the bytes main memory may hold behind a write-back data cache a discarded block leaves there,
at the n-th draw, for the byte at a physical address (20 R279) (log 63). -/
opaque Config.freeDiscard : Nat → Nat → Nat

/-- FREE VALUE. What a reset of a running machine leaves in a register without a reset value: the n-th draw, the
register file's number, the register's number in it (10_state R141) (log 16). -/
opaque Config.freeReset : Nat → Nat → Nat → Word

end Sys2Proof
end

