-- ==== Sys2Proof/Machine/Params.lean ====
section
/-!
DEFINITION. Machine/Params.lean: which implementation the machine after reset is.
-/

namespace Sys2Proof.Machine

/-- The implementation `State.reset` describes: every subset, unit and register the spec gives (log 1). -/
def implementation : Config := Config.full

end Sys2Proof.Machine
end

