-- ==== Sys2Proof/Machine/State.lean ====
section
/-!
DEFINITION. Machine/State.lean: every piece of state the spec gives the processor (10_state R40), as plain data, the
reasons a step can stop, and the machine right after reset (10_state R140, 70_reset R820).
-/

namespace Sys2Proof.Machine

/-- The fourteen exceptions of 60_exceptions R722 but Reset, which is not entered like the others (60 R740). -/
inductive Exc where
  | busError
  | dataPageFault
  | insnPageFault
  | tick
  | alignment
  | illegal
  | external
  | dtlbMiss
  | itlbMiss
  | range
  | systemCall
  | floatingPoint
  | trap
deriving DecidableEq, Repr

/-- The delay-slot state `some(j, n)` (43 R480, 10_state R54): the address of the jump whose delay slot is about to
execute, and where to go after it. -/
structure DelaySlot where
  jump : Word
  next : Word
deriving DecidableEq, Repr

/-- One memory management unit (20 R207 to R234). A match or translate register of way y and set n stands at number
256*y + n; the LRU fields of the match registers stand in a table of their own. -/
structure Mmu where
  /-- xMMUCR. -/
  control : BitVec 32
  /-- xMMUPR. -/
  protect : BitVec 32
  /-- xTLBWyMRn but for LRU. -/
  tlbMr : Table 64
  /-- xTLBWyTRn. -/
  tlbTr : Table 64
  /-- xTLBWyMRn[LRU]. -/
  tlbLru : Table 2
  /-- xATBMRi. -/
  atbMr : Table 64
  /-- xATBTRi. -/
  atbTr : Table 64
deriving DecidableEq, Repr

/-- The debug unit (60 R805 to R812). -/
structure Debug where
  /-- DVR0 to DVR7. -/
  dvr : Table 32
  /-- DCR0 to DCR7 but for DP. -/
  dcr : Table 32
  dmr1 : BitVec 32
  dmr2 : BitVec 32
  dwcr0 : BitVec 32
  dwcr1 : BitVec 32
  dsr : BitVec 32
  drr : BitVec 32
  /-- The external watchpoint input. -/
  extWatch : Bool
deriving DecidableEq, Repr

/-- The programmable interrupt controller and the interrupt inputs (60 R780 to R782). -/
structure Pic where
  /-- PICMR. -/
  mask : BitVec 32
  /-- The latches of the edge-triggered inputs. -/
  latch : BitVec 32
  /-- The levels of the interrupt inputs. -/
  irq : BitVec 32
deriving DecidableEq, Repr

/-- An event of the environment between two instructions (00_scope R18), or the processor's turn. -/
inductive Input where
  /-- The processor takes a step. -/
  | cpu
  /-- The interrupt inputs take these levels (60 R780). -/
  | irq (lines : BitVec 32)
  /-- One edge of the tick timer's clock (60 R792). -/
  | tick
  /-- Reset (70 R820). -/
  | reset
  /-- The external watchpoint input takes this level (60 R808). -/
  | watch (level : Bool)
  /-- Another master or a device writes one byte of memory at a physical address (20 R187). -/
  | write (pa : Nat) (value : Byte)
  /-- The reservation is lost for no reason the processor sees (20 R197). -/
  | loseReservation
deriving DecidableEq, Repr

/-- The processor (10_state R40). INVENTORY.md, "State", gives the rule and the reset value of every field. -/
structure State where
  /-- The constants of the implementation (00 R9). -/
  cfg : Config
  /-- The general registers: register i of set s at number 32*s + i (10_state R45, R49). -/
  gprs : Table 64
  /-- The address of the instruction to be executed next (10_state R50). -/
  pc : Word
  /-- The address of the instruction executed before (10_state R53). -/
  ppc : Word
  /-- The delay-slot state (10_state R54). -/
  ds : Option DelaySlot
  /-- SR (10_state R60). -/
  sr : BitVec 32
  /-- EPCR0 to EPCR15, by context (10_state R80). -/
  epcr : Table 64
  /-- EEAR0 to EEAR15, by context (10_state R81). -/
  eear : Table 64
  /-- ESR0 to ESR15, by context (10_state R82). -/
  esr : Table 32
  /-- FPCSR (10_state R85). -/
  fpcsr : BitVec 32
  /-- MACHI (10_state R90). -/
  machi : BitVec 32
  /-- MACLO (10_state R90). -/
  maclo : BitVec 32
  /-- EVBAR (10_state R121). -/
  evbar : BitVec 32
  /-- AECR (10_state R122). -/
  aecr : BitVec 32
  /-- AESR (10_state R123). -/
  aesr : BitVec 32
  /-- The data MMU (20 R200). -/
  dmmu : Mmu
  /-- The instruction MMU (20 R200). -/
  immu : Mmu
  /-- DCCR (20 R275). -/
  dccr : BitVec 32
  /-- ICCR (20 R276). -/
  iccr : BitVec 32
  /-- Older bytes that the instruction cache may still hold, the newest first (20 R273). -/
  stale : List Host.Cell
  /-- Older bytes that main memory may still hold behind a write-back data cache, the newest first (20 R279, R287). -/
  unwritten : List Host.Cell
  /-- The debug unit (60 R805). -/
  debugUnit : Debug
  /-- Control is with the development interface (60 R811). -/
  stopped : Bool
  /-- PCCR0 to PCCR7 (60 R800). -/
  pccr : Table 32
  /-- PCMR0 to PCMR7 but for CP (60 R801). -/
  pcmr : Table 32
  /-- PMR; its bits SUME, SME and DME are the power mode (60 R803). -/
  pmr : BitVec 32
  /-- The PIC and the interrupt inputs (60 R780). -/
  pic : Pic
  /-- TTMR (60 R793). -/
  ttmr : BitVec 32
  /-- TTCR (60 R794). -/
  ttcr : BitVec 32
  /-- The reservation of `l.lwa`, a physical address (20 R195). -/
  resv : Option Nat
  /-- Memory by physical address (20 R160); an unlisted byte reads 0 (log 8). -/
  mem : List Host.Cell
  /-- The model's own: the coming events of the environment (log 15). -/
  inputs : List Input
  /-- The model's own: how many free values have been drawn (log 14). -/
  draws : Nat
  /-- The model's own: the exception the current step has entered (log 41). -/
  raised : Option Exc
  /-- The model's own: the data TLB misses of the current step (log 41). -/
  dtlbMisses : Nat
  /-- The model's own: the instruction TLB misses of the current step (log 41). -/
  itlbMisses : Nat
deriving DecidableEq, Repr

/-- The model stops where the spec says the machine stops. -/
inductive Fault where
  /-- Raised by `step` on a processor that an exception selected in DSR has stopped; what the development interface
  then does is outside the manual (60 R811). Safe: no behaviour is claimed after the stop. -/
  | debugStopped
deriving DecidableEq, Repr

/-- The model declines where the spec itself declines to give a behaviour. -/
inductive Refusal where
  /-- Raised by an arm of `exec` whose instruction has no meaning yet. Safe. -/
  | notModelled (mnemonic : String)
  /-- Raised by a jump, a branch or `l.rfe` in a delay slot (43 R479 (e)). Safe. -/
  | jumpInDelaySlot
  /-- Raised by exception entry where SR[CID] would leave the register sets (60 R735). Safe. -/
  | cidOverflow
  /-- Raised by `l.rfe` with SR[CE] = 1 in context 0 (60 R736). Safe. -/
  | cidUnderflow
  /-- Raised by a write to SR, or an `l.rfe`, that selects a context that does not exist (10_state R62). Safe. -/
  | cidOutOfRange
  /-- Raised by a program's `l.mtspr` to NPC or PPC (10_state R53). Safe. -/
  | writeOfNpcOrPpc
  /-- Raised by a translation that a TLB entry with PL1 = 1 would match (20 R208). Safe. -/
  | tlbLevel1Match
  /-- Raised in user mode by an access to a supervisor-only special-purpose register and by `l.rfe`, where the
  implementation's USER_SPR_POLICY is to refuse (44 R515). Safe. -/
  | userViolation
  /-- Raised by `lv.sll` and `lv.srl` where LV_FLAGGED is to refuse (47 R690, R697). Safe. -/
  | vectorFlagged
  /-- Raised by `lf.madd.s` and `lf.madd.d` where FPNUM.madd is present: their accumulator is defined nowhere (45 R556,
  R557). Safe. -/
  | maddUndefined
  /-- Raised by `lv.madds.h` and `lv.msubs.h`: "VMAC is not defined" (47 R661, R668). Safe. -/
  | vmacUndefined
deriving DecidableEq, Repr

/-- The outcome of a step or of an instruction. -/
abbrev Result := Host.Outcome State Fault Refusal

/-- An MMU after reset (10_state R140): every entry invalid; the fields the spec leaves unspecified are 0 (log 5). -/
def Mmu.reset : Mmu :=
  { control := 0#32, protect := 0#32, tlbMr := [], tlbTr := [], tlbLru := [], atbMr := [], atbTr := [] }

/-- The debug unit after reset (60 R806 to R812). -/
def Debug.reset : Debug :=
  { dvr := [], dcr := [], dmr1 := 0#32, dmr2 := 0#32, dwcr0 := 0#32, dwcr1 := 0#32, dsr := 0#32, drr := 0#32,
    extWatch := false }

/-- The reset vector (70 R820): offset 0x100 from the base EVBAR resets to. -/
def resetVector (c : Config) : Word :=
  Word.ofLo32 ((if c.evbarPresent then c.evbarReset &&& 0xFFFFE000#32 else 0#32) ||| 0x100#32)

/-- The machine of a given implementation right after power-on reset (10_state R140, 70 R820). What the spec leaves
unspecified takes the values of logs 2 to 6 and 8; that an instruction cache holds no older byte is the model's choice
(log 62), and so is that EPCR, EEAR and ESR of the contexts above 0 are 0 as 10_state R140 has them (log 64). -/
def State.resetOf (c : Config) : State :=
  { cfg := c, gprs := [], pc := resetVector c, ppc := 0#64, ds := none, sr := 0x00008001#32, epcr := [], eear := [],
    esr := [], fpcsr := 0#32, machi := 0#32, maclo := 0#32,
    evbar := if c.evbarPresent then c.evbarReset &&& 0xFFFFE000#32 else 0#32, aecr := 0#32, aesr := 0#32,
    dmmu := Mmu.reset, immu := Mmu.reset, dccr := 0#32, iccr := 0#32, stale := [], unwritten := [],
    debugUnit := Debug.reset,
    stopped := false, pccr := [], pcmr := [], pmr := 0#32,
    pic := { mask := if c.picFixedUnmasked then 3#32 else 0#32, latch := 0#32, irq := 0#32 }, ttmr := 0#32,
    ttcr := 0#32, resv := none, mem := [], inputs := [], draws := 0, raised := none,
    dtlbMisses := 0, itlbMisses := 0 }

/-- The machine right after reset. -/
def State.reset : State := State.resetOf implementation

end Sys2Proof.Machine
end

