-- ==== Sys2Proof/Syntax.lean ====
section
/-!
DEFINITION. Syntax.lean: the instructions, one constructor per row of `spec/opcode_table.json`, in the table's order,
with the operands of the row's format (30_encoding R302, R303). Registers are numbers, immediates are raw bits; the meanings
extend them (30 R304).
-/

namespace Sys2Proof

/-- A general register number: the fields D, A and B (30 R302). -/
abbrev Reg := BitVec 5

/-- The 16-bit immediates I and K (30 R302, R306). -/
abbrev Imm16 := BitVec 16

/-- The 26-bit word offset N of jumps and branches (30 R302). -/
abbrev Imm26 := BitVec 26

/-- The 6-bit shift amount L (30 R302). -/
abbrev Imm6 := BitVec 6

/-- The 5-bit immediate K of `l.cust5` (30 R302). -/
abbrev Imm5 := BitVec 5

/-- The instruction set (30 R310 to R319). -/
inductive Instr where
  /-- `l.add` (R354). -/
  | lAdd (d : Reg) (a : Reg) (b : Reg)
  /-- `l.addc` (R355). -/
  | lAddc (d : Reg) (a : Reg) (b : Reg)
  /-- `l.addi` (R356). -/
  | lAddi (d : Reg) (a : Reg) (i : Imm16)
  /-- `l.addic` (R357). -/
  | lAddic (d : Reg) (a : Reg) (i : Imm16)
  /-- `l.sub` (R358). -/
  | lSub (d : Reg) (a : Reg) (b : Reg)
  /-- `l.and` (R360). -/
  | lAnd (d : Reg) (a : Reg) (b : Reg)
  /-- `l.andi` (R361). -/
  | lAndi (d : Reg) (a : Reg) (k : Imm16)
  /-- `l.or` (R362). -/
  | lOr (d : Reg) (a : Reg) (b : Reg)
  /-- `l.ori` (R363). -/
  | lOri (d : Reg) (a : Reg) (k : Imm16)
  /-- `l.xor` (R364). -/
  | lXor (d : Reg) (a : Reg) (b : Reg)
  /-- `l.xori` (R365). -/
  | lXori (d : Reg) (a : Reg) (i : Imm16)
  /-- `l.sll` (R370). -/
  | lSll (d : Reg) (a : Reg) (b : Reg)
  /-- `l.slli` (R371). -/
  | lSlli (d : Reg) (a : Reg) (l : Imm6)
  /-- `l.srl` (R372). -/
  | lSrl (d : Reg) (a : Reg) (b : Reg)
  /-- `l.srli` (R373). -/
  | lSrli (d : Reg) (a : Reg) (l : Imm6)
  /-- `l.sra` (R374). -/
  | lSra (d : Reg) (a : Reg) (b : Reg)
  /-- `l.srai` (R375). -/
  | lSrai (d : Reg) (a : Reg) (l : Imm6)
  /-- `l.ror` (R376). -/
  | lRor (d : Reg) (a : Reg) (b : Reg)
  /-- `l.rori` (R377). -/
  | lRori (d : Reg) (a : Reg) (l : Imm6)
  /-- `l.cmov` (R380). -/
  | lCmov (d : Reg) (a : Reg) (b : Reg)
  /-- `l.ff1` (R381). -/
  | lFf1 (d : Reg) (a : Reg)
  /-- `l.fl1` (R382). -/
  | lFl1 (d : Reg) (a : Reg)
  /-- `l.movhi` (R383). -/
  | lMovhi (d : Reg) (k : Imm16)
  /-- `l.mul` (R385). -/
  | lMul (d : Reg) (a : Reg) (b : Reg)
  /-- `l.mulu` (R386). -/
  | lMulu (d : Reg) (a : Reg) (b : Reg)
  /-- `l.muli` (R387). -/
  | lMuli (d : Reg) (a : Reg) (i : Imm16)
  /-- `l.div` (R390). -/
  | lDiv (d : Reg) (a : Reg) (b : Reg)
  /-- `l.divu` (R391). -/
  | lDivu (d : Reg) (a : Reg) (b : Reg)
  /-- `l.exths` (R395). -/
  | lExths (d : Reg) (a : Reg)
  /-- `l.extbs` (R396). -/
  | lExtbs (d : Reg) (a : Reg)
  /-- `l.exthz` (R397). -/
  | lExthz (d : Reg) (a : Reg)
  /-- `l.extbz` (R398). -/
  | lExtbz (d : Reg) (a : Reg)
  /-- `l.extws` (R399). -/
  | lExtws (d : Reg) (a : Reg)
  /-- `l.extwz` (R400). -/
  | lExtwz (d : Reg) (a : Reg)
  /-- `l.sfeq` (R421). -/
  | lSfeq (a : Reg) (b : Reg)
  /-- `l.sfne` (R422). -/
  | lSfne (a : Reg) (b : Reg)
  /-- `l.sfgtu` (R423). -/
  | lSfgtu (a : Reg) (b : Reg)
  /-- `l.sfgeu` (R424). -/
  | lSfgeu (a : Reg) (b : Reg)
  /-- `l.sfltu` (R425). -/
  | lSfltu (a : Reg) (b : Reg)
  /-- `l.sfleu` (R426). -/
  | lSfleu (a : Reg) (b : Reg)
  /-- `l.sfgts` (R427). -/
  | lSfgts (a : Reg) (b : Reg)
  /-- `l.sfges` (R428). -/
  | lSfges (a : Reg) (b : Reg)
  /-- `l.sflts` (R429). -/
  | lSflts (a : Reg) (b : Reg)
  /-- `l.sfles` (R430). -/
  | lSfles (a : Reg) (b : Reg)
  /-- `l.sfeqi` (R431). -/
  | lSfeqi (a : Reg) (i : Imm16)
  /-- `l.sfnei` (R432). -/
  | lSfnei (a : Reg) (i : Imm16)
  /-- `l.sfgtui` (R433). -/
  | lSfgtui (a : Reg) (i : Imm16)
  /-- `l.sfgeui` (R434). -/
  | lSfgeui (a : Reg) (i : Imm16)
  /-- `l.sfltui` (R435). -/
  | lSfltui (a : Reg) (i : Imm16)
  /-- `l.sfleui` (R436). -/
  | lSfleui (a : Reg) (i : Imm16)
  /-- `l.sfgtsi` (R437). -/
  | lSfgtsi (a : Reg) (i : Imm16)
  /-- `l.sfgesi` (R438). -/
  | lSfgesi (a : Reg) (i : Imm16)
  /-- `l.sfltsi` (R439). -/
  | lSfltsi (a : Reg) (i : Imm16)
  /-- `l.sflesi` (R440). -/
  | lSflesi (a : Reg) (i : Imm16)
  /-- `l.ld` (R450). -/
  | lLd (d : Reg) (a : Reg) (i : Imm16)
  /-- `l.lwz` (R451). -/
  | lLwz (d : Reg) (a : Reg) (i : Imm16)
  /-- `l.lws` (R452). -/
  | lLws (d : Reg) (a : Reg) (i : Imm16)
  /-- `l.lbz` (R453). -/
  | lLbz (d : Reg) (a : Reg) (i : Imm16)
  /-- `l.lbs` (R454). -/
  | lLbs (d : Reg) (a : Reg) (i : Imm16)
  /-- `l.lhz` (R455). -/
  | lLhz (d : Reg) (a : Reg) (i : Imm16)
  /-- `l.lhs` (R456). -/
  | lLhs (d : Reg) (a : Reg) (i : Imm16)
  /-- `l.lwa` (R458). -/
  | lLwa (d : Reg) (a : Reg) (i : Imm16)
  /-- `l.sd` (R460). -/
  | lSd (a : Reg) (b : Reg) (i : Imm16)
  /-- `l.sw` (R461). -/
  | lSw (a : Reg) (b : Reg) (i : Imm16)
  /-- `l.sb` (R462). -/
  | lSb (a : Reg) (b : Reg) (i : Imm16)
  /-- `l.sh` (R463). -/
  | lSh (a : Reg) (b : Reg) (i : Imm16)
  /-- `l.swa` (R468). -/
  | lSwa (a : Reg) (b : Reg) (i : Imm16)
  /-- `l.bf` (R481). -/
  | lBf (n : Imm26)
  /-- `l.bnf` (R482). -/
  | lBnf (n : Imm26)
  /-- `l.j` (R483). -/
  | lJ (n : Imm26)
  /-- `l.jal` (R484). -/
  | lJal (n : Imm26)
  /-- `l.jr` (R485). -/
  | lJr (b : Reg)
  /-- `l.jalr` (R486). -/
  | lJalr (b : Reg)
  /-- `l.rfe` (R489). -/
  | lRfe
  /-- `l.mac` (R500). -/
  | lMac (a : Reg) (b : Reg)
  /-- `l.maci` (R501). -/
  | lMaci (a : Reg) (i : Imm16)
  /-- `l.msb` (R502). -/
  | lMsb (a : Reg) (b : Reg)
  /-- `l.macu` (R503). -/
  | lMacu (a : Reg) (b : Reg)
  /-- `l.msbu` (R504). -/
  | lMsbu (a : Reg) (b : Reg)
  /-- `l.macrc` (R506). -/
  | lMacrc (d : Reg)
  /-- `l.muld` (R507). -/
  | lMuld (a : Reg) (b : Reg)
  /-- `l.muldu` (R508). -/
  | lMuldu (a : Reg) (b : Reg)
  /-- `l.mfspr` (R510). -/
  | lMfspr (d : Reg) (a : Reg) (k : Imm16)
  /-- `l.mtspr` (R511). -/
  | lMtspr (a : Reg) (b : Reg) (k : Imm16)
  /-- `l.sys` (R517). -/
  | lSys (k : Imm16)
  /-- `l.trap` (R518). -/
  | lTrap (k : Imm16)
  /-- `l.nop` (R519). -/
  | lNop (k : Imm16)
  /-- `l.csync` (R521). -/
  | lCsync
  /-- `l.msync` (R522). -/
  | lMsync
  /-- `l.psync` (R523). -/
  | lPsync
  /-- `l.cust1` (R525). -/
  | lCust1
  /-- `l.cust2` (R525). -/
  | lCust2
  /-- `l.cust3` (R525). -/
  | lCust3
  /-- `l.cust4` (R525). -/
  | lCust4
  /-- `l.cust5` (R525). -/
  | lCust5 (d : Reg) (a : Reg) (b : Reg) (l : Imm6) (k : Imm5)
  /-- `l.cust6` (R525). -/
  | lCust6
  /-- `l.cust7` (R525). -/
  | lCust7
  /-- `l.cust8` (R525). -/
  | lCust8
  /-- `lf.add.s` (R546). -/
  | lfAddS (d : Reg) (a : Reg) (b : Reg)
  /-- `lf.add.d` (R547). -/
  | lfAddD (d : Reg) (a : Reg) (b : Reg)
  /-- `lf.sub.s` (R548). -/
  | lfSubS (d : Reg) (a : Reg) (b : Reg)
  /-- `lf.sub.d` (R549). -/
  | lfSubD (d : Reg) (a : Reg) (b : Reg)
  /-- `lf.mul.s` (R550). -/
  | lfMulS (d : Reg) (a : Reg) (b : Reg)
  /-- `lf.mul.d` (R551). -/
  | lfMulD (d : Reg) (a : Reg) (b : Reg)
  /-- `lf.div.s` (R552). -/
  | lfDivS (d : Reg) (a : Reg) (b : Reg)
  /-- `lf.div.d` (R553). -/
  | lfDivD (d : Reg) (a : Reg) (b : Reg)
  /-- `lf.rem.s` (R554). -/
  | lfRemS (d : Reg) (a : Reg) (b : Reg)
  /-- `lf.rem.d` (R555). -/
  | lfRemD (d : Reg) (a : Reg) (b : Reg)
  /-- `lf.madd.s` (R556). -/
  | lfMaddS (d : Reg) (a : Reg) (b : Reg)
  /-- `lf.madd.d` (R557). -/
  | lfMaddD (d : Reg) (a : Reg) (b : Reg)
  /-- `lf.itof.s` (R558). -/
  | lfItofS (d : Reg) (a : Reg)
  /-- `lf.itof.d` (R559). -/
  | lfItofD (d : Reg) (a : Reg)
  /-- `lf.ftoi.s` (R560). -/
  | lfFtoiS (d : Reg) (a : Reg)
  /-- `lf.ftoi.d` (R561). -/
  | lfFtoiD (d : Reg) (a : Reg)
  /-- `lf.sfeq.s` (R562). -/
  | lfSfeqS (a : Reg) (b : Reg)
  /-- `lf.sfeq.d` (R563). -/
  | lfSfeqD (a : Reg) (b : Reg)
  /-- `lf.sfne.s` (R564). -/
  | lfSfneS (a : Reg) (b : Reg)
  /-- `lf.sfne.d` (R565). -/
  | lfSfneD (a : Reg) (b : Reg)
  /-- `lf.sfgt.s` (R566). -/
  | lfSfgtS (a : Reg) (b : Reg)
  /-- `lf.sfgt.d` (R567). -/
  | lfSfgtD (a : Reg) (b : Reg)
  /-- `lf.sfge.s` (R568). -/
  | lfSfgeS (a : Reg) (b : Reg)
  /-- `lf.sfge.d` (R569). -/
  | lfSfgeD (a : Reg) (b : Reg)
  /-- `lf.sflt.s` (R570). -/
  | lfSfltS (a : Reg) (b : Reg)
  /-- `lf.sflt.d` (R571). -/
  | lfSfltD (a : Reg) (b : Reg)
  /-- `lf.sfle.s` (R572). -/
  | lfSfleS (a : Reg) (b : Reg)
  /-- `lf.sfle.d` (R573). -/
  | lfSfleD (a : Reg) (b : Reg)
  /-- `lf.cust1.s` (R574). -/
  | lfCust1S (a : Reg) (b : Reg)
  /-- `lf.cust1.d` (R575). -/
  | lfCust1D (a : Reg) (b : Reg)
  /-- `lv.all_eq.b` (R603). -/
  | lvAllEqB (d : Reg) (a : Reg) (b : Reg)
  /-- `lv.all_eq.h` (R604). -/
  | lvAllEqH (d : Reg) (a : Reg) (b : Reg)
  /-- `lv.all_ge.b` (R605). -/
  | lvAllGeB (d : Reg) (a : Reg) (b : Reg)
  /-- `lv.all_ge.h` (R606). -/
  | lvAllGeH (d : Reg) (a : Reg) (b : Reg)
  /-- `lv.all_gt.b` (R607). -/
  | lvAllGtB (d : Reg) (a : Reg) (b : Reg)
  /-- `lv.all_gt.h` (R608). -/
  | lvAllGtH (d : Reg) (a : Reg) (b : Reg)
  /-- `lv.all_le.b` (R609). -/
  | lvAllLeB (d : Reg) (a : Reg) (b : Reg)
  /-- `lv.all_le.h` (R610). -/
  | lvAllLeH (d : Reg) (a : Reg) (b : Reg)
  /-- `lv.all_lt.b` (R611). -/
  | lvAllLtB (d : Reg) (a : Reg) (b : Reg)
  /-- `lv.all_lt.h` (R612). -/
  | lvAllLtH (d : Reg) (a : Reg) (b : Reg)
  /-- `lv.all_ne.b` (R613). -/
  | lvAllNeB (d : Reg) (a : Reg) (b : Reg)
  /-- `lv.all_ne.h` (R614). -/
  | lvAllNeH (d : Reg) (a : Reg) (b : Reg)
  /-- `lv.any_eq.b` (R615). -/
  | lvAnyEqB (d : Reg) (a : Reg) (b : Reg)
  /-- `lv.any_eq.h` (R616). -/
  | lvAnyEqH (d : Reg) (a : Reg) (b : Reg)
  /-- `lv.any_ge.b` (R617). -/
  | lvAnyGeB (d : Reg) (a : Reg) (b : Reg)
  /-- `lv.any_ge.h` (R618). -/
  | lvAnyGeH (d : Reg) (a : Reg) (b : Reg)
  /-- `lv.any_gt.b` (R619). -/
  | lvAnyGtB (d : Reg) (a : Reg) (b : Reg)
  /-- `lv.any_gt.h` (R620). -/
  | lvAnyGtH (d : Reg) (a : Reg) (b : Reg)
  /-- `lv.any_le.b` (R621). -/
  | lvAnyLeB (d : Reg) (a : Reg) (b : Reg)
  /-- `lv.any_le.h` (R622). -/
  | lvAnyLeH (d : Reg) (a : Reg) (b : Reg)
  /-- `lv.any_lt.b` (R623). -/
  | lvAnyLtB (d : Reg) (a : Reg) (b : Reg)
  /-- `lv.any_lt.h` (R624). -/
  | lvAnyLtH (d : Reg) (a : Reg) (b : Reg)
  /-- `lv.any_ne.b` (R625). -/
  | lvAnyNeB (d : Reg) (a : Reg) (b : Reg)
  /-- `lv.any_ne.h` (R626). -/
  | lvAnyNeH (d : Reg) (a : Reg) (b : Reg)
  /-- `lv.add.b` (R594). -/
  | lvAddB (d : Reg) (a : Reg) (b : Reg)
  /-- `lv.add.h` (R595). -/
  | lvAddH (d : Reg) (a : Reg) (b : Reg)
  /-- `lv.adds.b` (R596). -/
  | lvAddsB (d : Reg) (a : Reg) (b : Reg)
  /-- `lv.adds.h` (R597). -/
  | lvAddsH (d : Reg) (a : Reg) (b : Reg)
  /-- `lv.addu.b` (R598). -/
  | lvAdduB (d : Reg) (a : Reg) (b : Reg)
  /-- `lv.addu.h` (R599). -/
  | lvAdduH (d : Reg) (a : Reg) (b : Reg)
  /-- `lv.addus.b` (R600). -/
  | lvAddusB (d : Reg) (a : Reg) (b : Reg)
  /-- `lv.addus.h` (R601). -/
  | lvAddusH (d : Reg) (a : Reg) (b : Reg)
  /-- `lv.and` (R627). -/
  | lvAnd (d : Reg) (a : Reg) (b : Reg)
  /-- `lv.avg.b` (R628). -/
  | lvAvgB (d : Reg) (a : Reg) (b : Reg)
  /-- `lv.avg.h` (R629). -/
  | lvAvgH (d : Reg) (a : Reg) (b : Reg)
  /-- `lv.cmp_eq.b` (R630). -/
  | lvCmpEqB (d : Reg) (a : Reg) (b : Reg)
  /-- `lv.cmp_eq.h` (R631). -/
  | lvCmpEqH (d : Reg) (a : Reg) (b : Reg)
  /-- `lv.cmp_ge.b` (R632). -/
  | lvCmpGeB (d : Reg) (a : Reg) (b : Reg)
  /-- `lv.cmp_ge.h` (R633). -/
  | lvCmpGeH (d : Reg) (a : Reg) (b : Reg)
  /-- `lv.cmp_gt.b` (R634). -/
  | lvCmpGtB (d : Reg) (a : Reg) (b : Reg)
  /-- `lv.cmp_gt.h` (R635). -/
  | lvCmpGtH (d : Reg) (a : Reg) (b : Reg)
  /-- `lv.cmp_le.b` (R636). -/
  | lvCmpLeB (d : Reg) (a : Reg) (b : Reg)
  /-- `lv.cmp_le.h` (R637). -/
  | lvCmpLeH (d : Reg) (a : Reg) (b : Reg)
  /-- `lv.cmp_lt.b` (R638). -/
  | lvCmpLtB (d : Reg) (a : Reg) (b : Reg)
  /-- `lv.cmp_lt.h` (R639). -/
  | lvCmpLtH (d : Reg) (a : Reg) (b : Reg)
  /-- `lv.cmp_ne.b` (R640). -/
  | lvCmpNeB (d : Reg) (a : Reg) (b : Reg)
  /-- `lv.cmp_ne.h` (R641). -/
  | lvCmpNeH (d : Reg) (a : Reg) (b : Reg)
  /-- `lv.madds.h` (R661). -/
  | lvMaddsH (d : Reg) (a : Reg) (b : Reg)
  /-- `lv.max.b` (R662). -/
  | lvMaxB (d : Reg) (a : Reg) (b : Reg)
  /-- `lv.max.h` (R663). -/
  | lvMaxH (d : Reg) (a : Reg) (b : Reg)
  /-- `lv.merge.b` (R664). -/
  | lvMergeB (d : Reg) (a : Reg) (b : Reg)
  /-- `lv.merge.h` (R665). -/
  | lvMergeH (d : Reg) (a : Reg) (b : Reg)
  /-- `lv.min.b` (R666). -/
  | lvMinB (d : Reg) (a : Reg) (b : Reg)
  /-- `lv.min.h` (R667). -/
  | lvMinH (d : Reg) (a : Reg) (b : Reg)
  /-- `lv.msubs.h` (R668). -/
  | lvMsubsH (d : Reg) (a : Reg) (b : Reg)
  /-- `lv.muls.h` (R669). -/
  | lvMulsH (d : Reg) (a : Reg) (b : Reg)
  /-- `lv.nand` (R670). -/
  | lvNand (d : Reg) (a : Reg) (b : Reg)
  /-- `lv.nor` (R671). -/
  | lvNor (d : Reg) (a : Reg) (b : Reg)
  /-- `lv.or` (R672). -/
  | lvOr (d : Reg) (a : Reg) (b : Reg)
  /-- `lv.pack.b` (R673). -/
  | lvPackB (d : Reg) (a : Reg) (b : Reg)
  /-- `lv.pack.h` (R674). -/
  | lvPackH (d : Reg) (a : Reg) (b : Reg)
  /-- `lv.packs.b` (R675). -/
  | lvPacksB (d : Reg) (a : Reg) (b : Reg)
  /-- `lv.packs.h` (R676). -/
  | lvPacksH (d : Reg) (a : Reg) (b : Reg)
  /-- `lv.packus.b` (R677). -/
  | lvPackusB (d : Reg) (a : Reg) (b : Reg)
  /-- `lv.packus.h` (R678). -/
  | lvPackusH (d : Reg) (a : Reg) (b : Reg)
  /-- `lv.perm.n` (R679). -/
  | lvPermN (d : Reg) (a : Reg) (b : Reg)
  /-- `lv.rl.b` (R680). -/
  | lvRlB (d : Reg) (a : Reg) (b : Reg)
  /-- `lv.rl.h` (R681). -/
  | lvRlH (d : Reg) (a : Reg) (b : Reg)
  /-- `lv.sll.b` (R691). -/
  | lvSllB (d : Reg) (a : Reg) (b : Reg)
  /-- `lv.sll.h` (R692). -/
  | lvSllH (d : Reg) (a : Reg) (b : Reg)
  /-- `lv.sll` (R690). -/
  | lvSll (d : Reg) (a : Reg) (b : Reg)
  /-- `lv.srl.b` (R698). -/
  | lvSrlB (d : Reg) (a : Reg) (b : Reg)
  /-- `lv.srl.h` (R699). -/
  | lvSrlH (d : Reg) (a : Reg) (b : Reg)
  /-- `lv.sra.b` (R693). -/
  | lvSraB (d : Reg) (a : Reg) (b : Reg)
  /-- `lv.sra.h` (R694). -/
  | lvSraH (d : Reg) (a : Reg) (b : Reg)
  /-- `lv.srl` (R697). -/
  | lvSrl (d : Reg) (a : Reg) (b : Reg)
  /-- `lv.sub.b` (R700). -/
  | lvSubB (d : Reg) (a : Reg) (b : Reg)
  /-- `lv.sub.h` (R701). -/
  | lvSubH (d : Reg) (a : Reg) (b : Reg)
  /-- `lv.subs.b` (R702). -/
  | lvSubsB (d : Reg) (a : Reg) (b : Reg)
  /-- `lv.subs.h` (R703). -/
  | lvSubsH (d : Reg) (a : Reg) (b : Reg)
  /-- `lv.subu.b` (R704). -/
  | lvSubuB (d : Reg) (a : Reg) (b : Reg)
  /-- `lv.subu.h` (R705). -/
  | lvSubuH (d : Reg) (a : Reg) (b : Reg)
  /-- `lv.subus.b` (R706). -/
  | lvSubusB (d : Reg) (a : Reg) (b : Reg)
  /-- `lv.subus.h` (R707). -/
  | lvSubusH (d : Reg) (a : Reg) (b : Reg)
  /-- `lv.unpack.b` (R708). -/
  | lvUnpackB (d : Reg) (a : Reg) (b : Reg)
  /-- `lv.unpack.h` (R709). -/
  | lvUnpackH (d : Reg) (a : Reg) (b : Reg)
  /-- `lv.xor` (R710). -/
  | lvXor (d : Reg) (a : Reg) (b : Reg)
  /-- `lv.cust1` (R642). -/
  | lvCust1
  /-- `lv.cust2` (R642). -/
  | lvCust2
  /-- `lv.cust3` (R642). -/
  | lvCust3
  /-- `lv.cust4` (R642). -/
  | lvCust4
deriving DecidableEq, Repr

end Sys2Proof
end

