-- ==== Sys2Proof/Decode.lean ====
section
/-!
DEFINITION. Decode.lean: the decoder (total, rejecting by name) and, after it, the encoder, both written from the maps
of 30_encoding R303, R306, R310 to R319. An instruction is one 32-bit word, the most significant byte at the lowest
address (30 R300, 20 R167). Reserved bits are ignored by the decoder and written as zero by the encoder (30 R320,
log 51).
-/

namespace Sys2Proof

/-- Why bytes are no instruction (30 R332 (a), (b)). -/
inductive DecodeError where
  /-- Fewer than four bytes were given. -/
  | truncated
  /-- The major opcode `insn[31:26]` is unassigned (30 R310). -/
  | unassignedMajor (op : BitVec 6)
  /-- The secondary opcode bits under an assigned major opcode select nothing (30 R311 to R319). -/
  | unassignedSub (op : BitVec 6) (rest : BitVec 26)
deriving DecidableEq, Repr

/-- The pieces every format is made of: major opcode, the places of D, A and B, and the low eleven bits (30 R302). -/
structure Fields where
  op : BitVec 6
  d : BitVec 5
  a : BitVec 5
  b : BitVec 5
  lo : BitVec 11
deriving DecidableEq, Repr

/-- The pieces of a word. -/
def Fields.ofWord (w : BitVec 32) : Fields :=
  { op := w.extractLsb' 26 6, d := w.extractLsb' 21 5, a := w.extractLsb' 16 5, b := w.extractLsb' 11 5,
    lo := w.extractLsb' 0 11 }

/-- The word with the given pieces. -/
def Fields.toWord (f : Fields) : BitVec 32 := f.op ++ f.d ++ f.a ++ f.b ++ f.lo

/-- I or K in bits 15-0 (30 R302). -/
def Fields.imm (f : Fields) : Imm16 := f.b ++ f.lo

/-- The split immediate of stores and `l.mtspr`: bits 25-21, then 10-0 (30 R306). -/
def Fields.simm (f : Fields) : Imm16 := f.d ++ f.lo

/-- N in bits 25-0 (30 R302). -/
def Fields.off (f : Fields) : Imm26 := f.d ++ f.a ++ f.b ++ f.lo

/-- L in bits 5-0 (30 R302). -/
def Fields.shamt (f : Fields) : Imm6 := f.lo.extractLsb' 0 6

/-- L of `l.cust5`, bits 10-5 (30 R302). -/
def Fields.custL (f : Fields) : Imm6 := f.lo.extractLsb' 5 6

/-- K of `l.cust5`, bits 4-0 (30 R302). -/
def Fields.custK (f : Fields) : Imm5 := f.lo.extractLsb' 0 5

/-- Bits 3-0, the last opcode box of the ALU and MAC groups. -/
def Fields.op30 (f : Fields) : Nat := f.lo.toNat % 16

/-- Bits 9-8, the second opcode of formats ALU, ALU0 and ALU1. -/
def Fields.op98 (f : Fields) : Nat := f.lo.toNat / 256 % 4

/-- Bits 9-6, the second opcode of formats SHR and EXT. -/
def Fields.op96 (f : Fields) : Nat := f.lo.toNat / 64 % 16

/-- Bits 7-6, the second opcode of format SHI. -/
def Fields.op76 (f : Fields) : Nat := f.lo.toNat / 64 % 4

/-- Bits 7-0, the opcode of the ORFPX and ORVDX groups. -/
def Fields.op70 (f : Fields) : Nat := f.lo.toNat % 256

/-- The rejection of a word whose secondary opcode selects nothing. -/
def Fields.bad (f : Fields) : Except DecodeError Instr := .error (.unassignedSub f.op f.off)

/-- The register shifts of major opcode 0x38 (30 R311). -/
def decodeShift (f : Fields) : Except DecodeError Instr :=
  match f.op96 with
  | 0 => .ok (.lSll f.d f.a f.b)
  | 1 => .ok (.lSrl f.d f.a f.b)
  | 2 => .ok (.lSra f.d f.a f.b)
  | 3 => .ok (.lRor f.d f.a f.b)
  | _ => f.bad

/-- The byte and half-word extensions of major opcode 0x38 (30 R311). -/
def decodeExt (f : Fields) : Except DecodeError Instr :=
  match f.op96 with
  | 0 => .ok (.lExths f.d f.a)
  | 1 => .ok (.lExtbs f.d f.a)
  | 2 => .ok (.lExthz f.d f.a)
  | 3 => .ok (.lExtbz f.d f.a)
  | _ => f.bad

/-- The word extensions of major opcode 0x38 (30 R311). -/
def decodeExtw (f : Fields) : Except DecodeError Instr :=
  match f.op96 with
  | 0 => .ok (.lExtws f.d f.a)
  | 1 => .ok (.lExtwz f.d f.a)
  | _ => f.bad

/-- Major opcode 0x38 (30 R311). -/
def decodeAlu (f : Fields) : Except DecodeError Instr :=
  match f.op30 with
  | 0 => if f.op98 = 0 then .ok (.lAdd f.d f.a f.b) else f.bad
  | 1 => if f.op98 = 0 then .ok (.lAddc f.d f.a f.b) else f.bad
  | 2 => if f.op98 = 0 then .ok (.lSub f.d f.a f.b) else f.bad
  | 3 => if f.op98 = 0 then .ok (.lAnd f.d f.a f.b) else f.bad
  | 4 => if f.op98 = 0 then .ok (.lOr f.d f.a f.b) else f.bad
  | 5 => if f.op98 = 0 then .ok (.lXor f.d f.a f.b) else f.bad
  | 6 => if f.op98 = 3 then .ok (.lMul f.d f.a f.b) else f.bad
  | 7 => if f.op98 = 3 then .ok (.lMuld f.a f.b) else f.bad
  | 8 => decodeShift f
  | 9 => if f.op98 = 3 then .ok (.lDiv f.d f.a f.b) else f.bad
  | 10 => if f.op98 = 3 then .ok (.lDivu f.d f.a f.b) else f.bad
  | 11 => if f.op98 = 3 then .ok (.lMulu f.d f.a f.b) else f.bad
  | 12 => if f.op98 = 3 then .ok (.lMuldu f.a f.b) else decodeExt f
  | 13 => decodeExtw f
  | 14 => if f.op98 = 0 then .ok (.lCmov f.d f.a f.b) else f.bad
  | 15 => if f.op98 = 0 then .ok (.lFf1 f.d f.a) else if f.op98 = 1 then .ok (.lFl1 f.d f.a) else f.bad
  | _ => f.bad

/-- Major opcode 0x2e (30 R312). -/
def decodeShi (f : Fields) : Except DecodeError Instr :=
  match f.op76 with
  | 0 => .ok (.lSlli f.d f.a f.shamt)
  | 1 => .ok (.lSrli f.d f.a f.shamt)
  | 2 => .ok (.lSrai f.d f.a f.shamt)
  | 3 => .ok (.lRori f.d f.a f.shamt)
  | _ => f.bad

/-- Major opcode 0x2f (30 R313). -/
def decodeSfi (f : Fields) : Except DecodeError Instr :=
  match f.d.toNat with
  | 0 => .ok (.lSfeqi f.a f.imm)
  | 1 => .ok (.lSfnei f.a f.imm)
  | 2 => .ok (.lSfgtui f.a f.imm)
  | 3 => .ok (.lSfgeui f.a f.imm)
  | 4 => .ok (.lSfltui f.a f.imm)
  | 5 => .ok (.lSfleui f.a f.imm)
  | 10 => .ok (.lSfgtsi f.a f.imm)
  | 11 => .ok (.lSfgesi f.a f.imm)
  | 12 => .ok (.lSfltsi f.a f.imm)
  | 13 => .ok (.lSflesi f.a f.imm)
  | _ => f.bad

/-- Major opcode 0x39 (30 R313). -/
def decodeSf (f : Fields) : Except DecodeError Instr :=
  match f.d.toNat with
  | 0 => .ok (.lSfeq f.a f.b)
  | 1 => .ok (.lSfne f.a f.b)
  | 2 => .ok (.lSfgtu f.a f.b)
  | 3 => .ok (.lSfgeu f.a f.b)
  | 4 => .ok (.lSfltu f.a f.b)
  | 5 => .ok (.lSfleu f.a f.b)
  | 10 => .ok (.lSfgts f.a f.b)
  | 11 => .ok (.lSfges f.a f.b)
  | 12 => .ok (.lSflts f.a f.b)
  | 13 => .ok (.lSfles f.a f.b)
  | _ => f.bad

/-- Major opcode 0x31 (30 R314). -/
def decodeMac (f : Fields) : Except DecodeError Instr :=
  match f.op30 with
  | 1 => .ok (.lMac f.a f.b)
  | 2 => .ok (.lMsb f.a f.b)
  | 3 => .ok (.lMacu f.a f.b)
  | 4 => .ok (.lMsbu f.a f.b)
  | _ => f.bad

/-- Major opcode 0x06: bit 16 tells `l.movhi` from `l.macrc`, whose bits 15-0 are zero (30 R315). -/
def decodeMovhi (f : Fields) : Except DecodeError Instr :=
  if f.a.toNat % 2 = 0 then .ok (.lMovhi f.d f.imm)
  else if f.b.toNat = 0 ∧ f.lo.toNat = 0 then .ok (.lMacrc f.d)
  else f.bad

/-- Major opcode 0x08 (30 R316). -/
def decodeSys (f : Fields) : Except DecodeError Instr :=
  match f.d.toNat with
  | 0 => if f.a.toNat = 0 then .ok (.lSys f.imm) else f.bad
  | 8 => if f.a.toNat = 0 then .ok (.lTrap f.imm) else f.bad
  | 16 => .ok .lMsync
  | 20 => .ok .lPsync
  | 24 => .ok .lCsync
  | _ => f.bad

/-- Major opcode 0x05: only `l.nop`, bits 25-24 = 01 (30 R317). -/
def decodeNop (f : Fields) : Except DecodeError Instr :=
  if f.d.toNat / 8 = 1 then .ok (.lNop f.imm) else f.bad

/-- Major opcode 0x32 (30 R318); in format FP1 bits 15-11 are opcode bits of value 0 (45 R545). -/
def decodeFp (f : Fields) : Except DecodeError Instr :=
  match f.op70 with
  | 0 => .ok (.lfAddS f.d f.a f.b)
  | 16 => .ok (.lfAddD f.d f.a f.b)
  | 1 => .ok (.lfSubS f.d f.a f.b)
  | 17 => .ok (.lfSubD f.d f.a f.b)
  | 2 => .ok (.lfMulS f.d f.a f.b)
  | 18 => .ok (.lfMulD f.d f.a f.b)
  | 3 => .ok (.lfDivS f.d f.a f.b)
  | 19 => .ok (.lfDivD f.d f.a f.b)
  | 6 => .ok (.lfRemS f.d f.a f.b)
  | 22 => .ok (.lfRemD f.d f.a f.b)
  | 7 => .ok (.lfMaddS f.d f.a f.b)
  | 23 => .ok (.lfMaddD f.d f.a f.b)
  | 4 => if f.b.toNat = 0 then .ok (.lfItofS f.d f.a) else f.bad
  | 20 => if f.b.toNat = 0 then .ok (.lfItofD f.d f.a) else f.bad
  | 5 => if f.b.toNat = 0 then .ok (.lfFtoiS f.d f.a) else f.bad
  | 21 => if f.b.toNat = 0 then .ok (.lfFtoiD f.d f.a) else f.bad
  | 8 => .ok (.lfSfeqS f.a f.b)
  | 24 => .ok (.lfSfeqD f.a f.b)
  | 9 => .ok (.lfSfneS f.a f.b)
  | 25 => .ok (.lfSfneD f.a f.b)
  | 10 => .ok (.lfSfgtS f.a f.b)
  | 26 => .ok (.lfSfgtD f.a f.b)
  | 11 => .ok (.lfSfgeS f.a f.b)
  | 27 => .ok (.lfSfgeD f.a f.b)
  | 12 => .ok (.lfSfltS f.a f.b)
  | 28 => .ok (.lfSfltD f.a f.b)
  | 13 => .ok (.lfSfleS f.a f.b)
  | 29 => .ok (.lfSfleD f.a f.b)
  | n => if n / 16 = 13 then .ok (.lfCust1S f.a f.b) else if n / 16 = 14 then .ok (.lfCust1D f.a f.b) else f.bad

/-- Major opcode 0x0a (30 R319). -/
def decodeV (f : Fields) : Except DecodeError Instr :=
  match f.op70 with
  | 16 => .ok (.lvAllEqB f.d f.a f.b)
  | 17 => .ok (.lvAllEqH f.d f.a f.b)
  | 18 => .ok (.lvAllGeB f.d f.a f.b)
  | 19 => .ok (.lvAllGeH f.d f.a f.b)
  | 20 => .ok (.lvAllGtB f.d f.a f.b)
  | 21 => .ok (.lvAllGtH f.d f.a f.b)
  | 22 => .ok (.lvAllLeB f.d f.a f.b)
  | 23 => .ok (.lvAllLeH f.d f.a f.b)
  | 24 => .ok (.lvAllLtB f.d f.a f.b)
  | 25 => .ok (.lvAllLtH f.d f.a f.b)
  | 26 => .ok (.lvAllNeB f.d f.a f.b)
  | 27 => .ok (.lvAllNeH f.d f.a f.b)
  | 32 => .ok (.lvAnyEqB f.d f.a f.b)
  | 33 => .ok (.lvAnyEqH f.d f.a f.b)
  | 34 => .ok (.lvAnyGeB f.d f.a f.b)
  | 35 => .ok (.lvAnyGeH f.d f.a f.b)
  | 36 => .ok (.lvAnyGtB f.d f.a f.b)
  | 37 => .ok (.lvAnyGtH f.d f.a f.b)
  | 38 => .ok (.lvAnyLeB f.d f.a f.b)
  | 39 => .ok (.lvAnyLeH f.d f.a f.b)
  | 40 => .ok (.lvAnyLtB f.d f.a f.b)
  | 41 => .ok (.lvAnyLtH f.d f.a f.b)
  | 42 => .ok (.lvAnyNeB f.d f.a f.b)
  | 43 => .ok (.lvAnyNeH f.d f.a f.b)
  | 48 => .ok (.lvAddB f.d f.a f.b)
  | 49 => .ok (.lvAddH f.d f.a f.b)
  | 50 => .ok (.lvAddsB f.d f.a f.b)
  | 51 => .ok (.lvAddsH f.d f.a f.b)
  | 52 => .ok (.lvAdduB f.d f.a f.b)
  | 53 => .ok (.lvAdduH f.d f.a f.b)
  | 54 => .ok (.lvAddusB f.d f.a f.b)
  | 55 => .ok (.lvAddusH f.d f.a f.b)
  | 56 => .ok (.lvAnd f.d f.a f.b)
  | 57 => .ok (.lvAvgB f.d f.a f.b)
  | 58 => .ok (.lvAvgH f.d f.a f.b)
  | 64 => .ok (.lvCmpEqB f.d f.a f.b)
  | 65 => .ok (.lvCmpEqH f.d f.a f.b)
  | 66 => .ok (.lvCmpGeB f.d f.a f.b)
  | 67 => .ok (.lvCmpGeH f.d f.a f.b)
  | 68 => .ok (.lvCmpGtB f.d f.a f.b)
  | 69 => .ok (.lvCmpGtH f.d f.a f.b)
  | 70 => .ok (.lvCmpLeB f.d f.a f.b)
  | 71 => .ok (.lvCmpLeH f.d f.a f.b)
  | 72 => .ok (.lvCmpLtB f.d f.a f.b)
  | 73 => .ok (.lvCmpLtH f.d f.a f.b)
  | 74 => .ok (.lvCmpNeB f.d f.a f.b)
  | 75 => .ok (.lvCmpNeH f.d f.a f.b)
  | 84 => .ok (.lvMaddsH f.d f.a f.b)
  | 85 => .ok (.lvMaxB f.d f.a f.b)
  | 86 => .ok (.lvMaxH f.d f.a f.b)
  | 87 => .ok (.lvMergeB f.d f.a f.b)
  | 88 => .ok (.lvMergeH f.d f.a f.b)
  | 89 => .ok (.lvMinB f.d f.a f.b)
  | 90 => .ok (.lvMinH f.d f.a f.b)
  | 91 => .ok (.lvMsubsH f.d f.a f.b)
  | 92 => .ok (.lvMulsH f.d f.a f.b)
  | 93 => .ok (.lvNand f.d f.a f.b)
  | 94 => .ok (.lvNor f.d f.a f.b)
  | 95 => .ok (.lvOr f.d f.a f.b)
  | 96 => .ok (.lvPackB f.d f.a f.b)
  | 97 => .ok (.lvPackH f.d f.a f.b)
  | 98 => .ok (.lvPacksB f.d f.a f.b)
  | 99 => .ok (.lvPacksH f.d f.a f.b)
  | 100 => .ok (.lvPackusB f.d f.a f.b)
  | 101 => .ok (.lvPackusH f.d f.a f.b)
  | 102 => .ok (.lvPermN f.d f.a f.b)
  | 103 => .ok (.lvRlB f.d f.a f.b)
  | 104 => .ok (.lvRlH f.d f.a f.b)
  | 105 => .ok (.lvSllB f.d f.a f.b)
  | 106 => .ok (.lvSllH f.d f.a f.b)
  | 107 => .ok (.lvSll f.d f.a f.b)
  | 108 => .ok (.lvSrlB f.d f.a f.b)
  | 109 => .ok (.lvSrlH f.d f.a f.b)
  | 110 => .ok (.lvSraB f.d f.a f.b)
  | 111 => .ok (.lvSraH f.d f.a f.b)
  | 112 => .ok (.lvSrl f.d f.a f.b)
  | 113 => .ok (.lvSubB f.d f.a f.b)
  | 114 => .ok (.lvSubH f.d f.a f.b)
  | 115 => .ok (.lvSubsB f.d f.a f.b)
  | 116 => .ok (.lvSubsH f.d f.a f.b)
  | 117 => .ok (.lvSubuB f.d f.a f.b)
  | 118 => .ok (.lvSubuH f.d f.a f.b)
  | 119 => .ok (.lvSubusB f.d f.a f.b)
  | 120 => .ok (.lvSubusH f.d f.a f.b)
  | 121 => .ok (.lvUnpackB f.d f.a f.b)
  | 122 => .ok (.lvUnpackH f.d f.a f.b)
  | 123 => .ok (.lvXor f.d f.a f.b)
  | n =>
    if n / 16 = 12 then .ok .lvCust1 else if n / 16 = 13 then .ok .lvCust2
    else if n / 16 = 14 then .ok .lvCust3 else if n / 16 = 15 then .ok .lvCust4 else f.bad

/-- The major opcode map (30 R310). -/
def decodeFields (f : Fields) : Except DecodeError Instr :=
  match f.op.toNat with
  | 0 => .ok (.lJ f.off)
  | 1 => .ok (.lJal f.off)
  | 3 => .ok (.lBnf f.off)
  | 4 => .ok (.lBf f.off)
  | 5 => decodeNop f
  | 6 => decodeMovhi f
  | 8 => decodeSys f
  | 9 => .ok .lRfe
  | 10 => decodeV f
  | 17 => .ok (.lJr f.b)
  | 18 => .ok (.lJalr f.b)
  | 19 => .ok (.lMaci f.a f.imm)
  | 27 => .ok (.lLwa f.d f.a f.imm)
  | 28 => .ok .lCust1
  | 29 => .ok .lCust2
  | 30 => .ok .lCust3
  | 31 => .ok .lCust4
  | 32 => .ok (.lLd f.d f.a f.imm)
  | 33 => .ok (.lLwz f.d f.a f.imm)
  | 34 => .ok (.lLws f.d f.a f.imm)
  | 35 => .ok (.lLbz f.d f.a f.imm)
  | 36 => .ok (.lLbs f.d f.a f.imm)
  | 37 => .ok (.lLhz f.d f.a f.imm)
  | 38 => .ok (.lLhs f.d f.a f.imm)
  | 39 => .ok (.lAddi f.d f.a f.imm)
  | 40 => .ok (.lAddic f.d f.a f.imm)
  | 41 => .ok (.lAndi f.d f.a f.imm)
  | 42 => .ok (.lOri f.d f.a f.imm)
  | 43 => .ok (.lXori f.d f.a f.imm)
  | 44 => .ok (.lMuli f.d f.a f.imm)
  | 45 => .ok (.lMfspr f.d f.a f.imm)
  | 46 => decodeShi f
  | 47 => decodeSfi f
  | 48 => .ok (.lMtspr f.a f.b f.simm)
  | 49 => decodeMac f
  | 50 => decodeFp f
  | 51 => .ok (.lSwa f.a f.b f.simm)
  | 52 => .ok (.lSd f.a f.b f.simm)
  | 53 => .ok (.lSw f.a f.b f.simm)
  | 54 => .ok (.lSb f.a f.b f.simm)
  | 55 => .ok (.lSh f.a f.b f.simm)
  | 56 => decodeAlu f
  | 57 => decodeSf f
  | 60 => .ok (.lCust5 f.d f.a f.b f.custL f.custK)
  | 61 => .ok .lCust6
  | 62 => .ok .lCust7
  | 63 => .ok .lCust8
  | _ => .error (.unassignedMajor f.op)

/-- The instruction a word is (30 R300). -/
def decode (w : BitVec 32) : Except DecodeError Instr := decodeFields (Fields.ofWord w)

/-- The word of four bytes, the first most significant (20 R167, R170). -/
def wordOfBytes (b0 b1 b2 b3 : Byte) : BitVec 32 := b0 ++ b1 ++ b2 ++ b3

/-- The four bytes of a word, the most significant first (20 R167, R170). -/
def bytesOfWord (w : BitVec 32) : List Byte :=
  [w.extractLsb' 24 8, w.extractLsb' 16 8, w.extractLsb' 8 8, w.extractLsb' 0 8]

/-- The instruction the first four bytes are, and the bytes after it. -/
def decodeBytes : List Byte → Except DecodeError (Instr × List Byte)
  | b0 :: b1 :: b2 :: b3 :: rest => (decode (wordOfBytes b0 b1 b2 b3)).map fun i => (i, rest)
  | _ => .error .truncated

/-- The instruction the decoder reads where the opcode table's bits are `w`: the table gives every row one 32-bit word,
stored most significant byte first. -/
def decodeTableWord (nbits w : Nat) : Option Instr :=
  match decodeBytes (bytesOfWord (BitVec.ofNat 32 (w % 2 ^ nbits))) with
  | .ok (i, _) => some i
  | .error _ => none

/-- Format J: N in bits 25-0. -/
def Fields.ofOff (op : BitVec 6) (n : Imm26) : Fields :=
  { op := op, d := n.extractLsb' 21 5, a := n.extractLsb' 16 5, b := n.extractLsb' 11 5, lo := n.extractLsb' 0 11 }

/-- Formats with I or K in bits 15-0. -/
def Fields.ofImm (op : BitVec 6) (d a : BitVec 5) (i : Imm16) : Fields :=
  { op := op, d := d, a := a, b := i.extractLsb' 11 5, lo := i.extractLsb' 0 11 }

/-- Formats ST and MTSPR: the split immediate (30 R306). -/
def Fields.ofSplit (op : BitVec 6) (a b : BitVec 5) (i : Imm16) : Fields :=
  { op := op, d := i.extractLsb' 11 5, a := a, b := b, lo := i.extractLsb' 0 11 }

/-- Format SHI: bits 10-8 reserved, the second opcode in 7-6, L in 5-0. -/
def Fields.ofShamt (d a : BitVec 5) (op2 : BitVec 2) (l : Imm6) : Fields :=
  { op := 0x2e#6, d := d, a := a, b := 0#5, lo := 0#3 ++ op2 ++ l }

/-- The pieces of an instruction's word, reserved bits zero. -/
def Instr.fields : Instr → Fields
  | .lAdd d a b => ⟨0x38#6, d, a, b, 0x000#11⟩
  | .lAddc d a b => ⟨0x38#6, d, a, b, 0x001#11⟩
  | .lAddi d a i => .ofImm 0x27#6 d a i
  | .lAddic d a i => .ofImm 0x28#6 d a i
  | .lSub d a b => ⟨0x38#6, d, a, b, 0x002#11⟩
  | .lAnd d a b => ⟨0x38#6, d, a, b, 0x003#11⟩
  | .lAndi d a k => .ofImm 0x29#6 d a k
  | .lOr d a b => ⟨0x38#6, d, a, b, 0x004#11⟩
  | .lOri d a k => .ofImm 0x2a#6 d a k
  | .lXor d a b => ⟨0x38#6, d, a, b, 0x005#11⟩
  | .lXori d a i => .ofImm 0x2b#6 d a i
  | .lSll d a b => ⟨0x38#6, d, a, b, 0x008#11⟩
  | .lSlli d a l => .ofShamt d a 0#2 l
  | .lSrl d a b => ⟨0x38#6, d, a, b, 0x048#11⟩
  | .lSrli d a l => .ofShamt d a 1#2 l
  | .lSra d a b => ⟨0x38#6, d, a, b, 0x088#11⟩
  | .lSrai d a l => .ofShamt d a 2#2 l
  | .lRor d a b => ⟨0x38#6, d, a, b, 0x0c8#11⟩
  | .lRori d a l => .ofShamt d a 3#2 l
  | .lCmov d a b => ⟨0x38#6, d, a, b, 0x00e#11⟩
  | .lFf1 d a => ⟨0x38#6, d, a, 0#5, 0x00f#11⟩
  | .lFl1 d a => ⟨0x38#6, d, a, 0#5, 0x10f#11⟩
  | .lMovhi d k => .ofImm 0x06#6 d 0#5 k
  | .lMul d a b => ⟨0x38#6, d, a, b, 0x306#11⟩
  | .lMulu d a b => ⟨0x38#6, d, a, b, 0x30b#11⟩
  | .lMuli d a i => .ofImm 0x2c#6 d a i
  | .lDiv d a b => ⟨0x38#6, d, a, b, 0x309#11⟩
  | .lDivu d a b => ⟨0x38#6, d, a, b, 0x30a#11⟩
  | .lExths d a => ⟨0x38#6, d, a, 0#5, 0x00c#11⟩
  | .lExtbs d a => ⟨0x38#6, d, a, 0#5, 0x04c#11⟩
  | .lExthz d a => ⟨0x38#6, d, a, 0#5, 0x08c#11⟩
  | .lExtbz d a => ⟨0x38#6, d, a, 0#5, 0x0cc#11⟩
  | .lExtws d a => ⟨0x38#6, d, a, 0#5, 0x00d#11⟩
  | .lExtwz d a => ⟨0x38#6, d, a, 0#5, 0x04d#11⟩
  | .lSfeq a b => ⟨0x39#6, 0#5, a, b, 0x000#11⟩
  | .lSfne a b => ⟨0x39#6, 1#5, a, b, 0x000#11⟩
  | .lSfgtu a b => ⟨0x39#6, 2#5, a, b, 0x000#11⟩
  | .lSfgeu a b => ⟨0x39#6, 3#5, a, b, 0x000#11⟩
  | .lSfltu a b => ⟨0x39#6, 4#5, a, b, 0x000#11⟩
  | .lSfleu a b => ⟨0x39#6, 5#5, a, b, 0x000#11⟩
  | .lSfgts a b => ⟨0x39#6, 10#5, a, b, 0x000#11⟩
  | .lSfges a b => ⟨0x39#6, 11#5, a, b, 0x000#11⟩
  | .lSflts a b => ⟨0x39#6, 12#5, a, b, 0x000#11⟩
  | .lSfles a b => ⟨0x39#6, 13#5, a, b, 0x000#11⟩
  | .lSfeqi a i => .ofImm 0x2f#6 0#5 a i
  | .lSfnei a i => .ofImm 0x2f#6 1#5 a i
  | .lSfgtui a i => .ofImm 0x2f#6 2#5 a i
  | .lSfgeui a i => .ofImm 0x2f#6 3#5 a i
  | .lSfltui a i => .ofImm 0x2f#6 4#5 a i
  | .lSfleui a i => .ofImm 0x2f#6 5#5 a i
  | .lSfgtsi a i => .ofImm 0x2f#6 10#5 a i
  | .lSfgesi a i => .ofImm 0x2f#6 11#5 a i
  | .lSfltsi a i => .ofImm 0x2f#6 12#5 a i
  | .lSflesi a i => .ofImm 0x2f#6 13#5 a i
  | .lLd d a i => .ofImm 0x20#6 d a i
  | .lLwz d a i => .ofImm 0x21#6 d a i
  | .lLws d a i => .ofImm 0x22#6 d a i
  | .lLbz d a i => .ofImm 0x23#6 d a i
  | .lLbs d a i => .ofImm 0x24#6 d a i
  | .lLhz d a i => .ofImm 0x25#6 d a i
  | .lLhs d a i => .ofImm 0x26#6 d a i
  | .lLwa d a i => .ofImm 0x1b#6 d a i
  | .lSd a b i => .ofSplit 0x34#6 a b i
  | .lSw a b i => .ofSplit 0x35#6 a b i
  | .lSb a b i => .ofSplit 0x36#6 a b i
  | .lSh a b i => .ofSplit 0x37#6 a b i
  | .lSwa a b i => .ofSplit 0x33#6 a b i
  | .lBf n => .ofOff 0x04#6 n
  | .lBnf n => .ofOff 0x03#6 n
  | .lJ n => .ofOff 0x00#6 n
  | .lJal n => .ofOff 0x01#6 n
  | .lJr b => ⟨0x11#6, 0#5, 0#5, b, 0x000#11⟩
  | .lJalr b => ⟨0x12#6, 0#5, 0#5, b, 0x000#11⟩
  | .lRfe => ⟨0x09#6, 0#5, 0#5, 0#5, 0x000#11⟩
  | .lMac a b => ⟨0x31#6, 0#5, a, b, 0x001#11⟩
  | .lMaci a i => .ofImm 0x13#6 0#5 a i
  | .lMsb a b => ⟨0x31#6, 0#5, a, b, 0x002#11⟩
  | .lMacu a b => ⟨0x31#6, 0#5, a, b, 0x003#11⟩
  | .lMsbu a b => ⟨0x31#6, 0#5, a, b, 0x004#11⟩
  | .lMacrc d => ⟨0x06#6, d, 1#5, 0#5, 0x000#11⟩
  | .lMuld a b => ⟨0x38#6, 0#5, a, b, 0x307#11⟩
  | .lMuldu a b => ⟨0x38#6, 0#5, a, b, 0x30c#11⟩
  | .lMfspr d a k => .ofImm 0x2d#6 d a k
  | .lMtspr a b k => .ofSplit 0x30#6 a b k
  | .lSys k => .ofImm 0x08#6 0#5 0#5 k
  | .lTrap k => .ofImm 0x08#6 8#5 0#5 k
  | .lNop k => .ofImm 0x05#6 8#5 0#5 k
  | .lCsync => ⟨0x08#6, 24#5, 0#5, 0#5, 0x000#11⟩
  | .lMsync => ⟨0x08#6, 16#5, 0#5, 0#5, 0x000#11⟩
  | .lPsync => ⟨0x08#6, 20#5, 0#5, 0#5, 0x000#11⟩
  | .lCust1 => ⟨0x1c#6, 0#5, 0#5, 0#5, 0x000#11⟩
  | .lCust2 => ⟨0x1d#6, 0#5, 0#5, 0#5, 0x000#11⟩
  | .lCust3 => ⟨0x1e#6, 0#5, 0#5, 0#5, 0x000#11⟩
  | .lCust4 => ⟨0x1f#6, 0#5, 0#5, 0#5, 0x000#11⟩
  | .lCust5 d a b l k => ⟨0x3c#6, d, a, b, l ++ k⟩
  | .lCust6 => ⟨0x3d#6, 0#5, 0#5, 0#5, 0x000#11⟩
  | .lCust7 => ⟨0x3e#6, 0#5, 0#5, 0#5, 0x000#11⟩
  | .lCust8 => ⟨0x3f#6, 0#5, 0#5, 0#5, 0x000#11⟩
  | .lfAddS d a b => ⟨0x32#6, d, a, b, 0x000#11⟩
  | .lfAddD d a b => ⟨0x32#6, d, a, b, 0x010#11⟩
  | .lfSubS d a b => ⟨0x32#6, d, a, b, 0x001#11⟩
  | .lfSubD d a b => ⟨0x32#6, d, a, b, 0x011#11⟩
  | .lfMulS d a b => ⟨0x32#6, d, a, b, 0x002#11⟩
  | .lfMulD d a b => ⟨0x32#6, d, a, b, 0x012#11⟩
  | .lfDivS d a b => ⟨0x32#6, d, a, b, 0x003#11⟩
  | .lfDivD d a b => ⟨0x32#6, d, a, b, 0x013#11⟩
  | .lfRemS d a b => ⟨0x32#6, d, a, b, 0x006#11⟩
  | .lfRemD d a b => ⟨0x32#6, d, a, b, 0x016#11⟩
  | .lfMaddS d a b => ⟨0x32#6, d, a, b, 0x007#11⟩
  | .lfMaddD d a b => ⟨0x32#6, d, a, b, 0x017#11⟩
  | .lfItofS d a => ⟨0x32#6, d, a, 0#5, 0x004#11⟩
  | .lfItofD d a => ⟨0x32#6, d, a, 0#5, 0x014#11⟩
  | .lfFtoiS d a => ⟨0x32#6, d, a, 0#5, 0x005#11⟩
  | .lfFtoiD d a => ⟨0x32#6, d, a, 0#5, 0x015#11⟩
  | .lfSfeqS a b => ⟨0x32#6, 0#5, a, b, 0x008#11⟩
  | .lfSfeqD a b => ⟨0x32#6, 0#5, a, b, 0x018#11⟩
  | .lfSfneS a b => ⟨0x32#6, 0#5, a, b, 0x009#11⟩
  | .lfSfneD a b => ⟨0x32#6, 0#5, a, b, 0x019#11⟩
  | .lfSfgtS a b => ⟨0x32#6, 0#5, a, b, 0x00a#11⟩
  | .lfSfgtD a b => ⟨0x32#6, 0#5, a, b, 0x01a#11⟩
  | .lfSfgeS a b => ⟨0x32#6, 0#5, a, b, 0x00b#11⟩
  | .lfSfgeD a b => ⟨0x32#6, 0#5, a, b, 0x01b#11⟩
  | .lfSfltS a b => ⟨0x32#6, 0#5, a, b, 0x00c#11⟩
  | .lfSfltD a b => ⟨0x32#6, 0#5, a, b, 0x01c#11⟩
  | .lfSfleS a b => ⟨0x32#6, 0#5, a, b, 0x00d#11⟩
  | .lfSfleD a b => ⟨0x32#6, 0#5, a, b, 0x01d#11⟩
  | .lfCust1S a b => ⟨0x32#6, 0#5, a, b, 0x0d0#11⟩
  | .lfCust1D a b => ⟨0x32#6, 0#5, a, b, 0x0e0#11⟩
  | .lvAllEqB d a b => ⟨0x0a#6, d, a, b, 0x010#11⟩
  | .lvAllEqH d a b => ⟨0x0a#6, d, a, b, 0x011#11⟩
  | .lvAllGeB d a b => ⟨0x0a#6, d, a, b, 0x012#11⟩
  | .lvAllGeH d a b => ⟨0x0a#6, d, a, b, 0x013#11⟩
  | .lvAllGtB d a b => ⟨0x0a#6, d, a, b, 0x014#11⟩
  | .lvAllGtH d a b => ⟨0x0a#6, d, a, b, 0x015#11⟩
  | .lvAllLeB d a b => ⟨0x0a#6, d, a, b, 0x016#11⟩
  | .lvAllLeH d a b => ⟨0x0a#6, d, a, b, 0x017#11⟩
  | .lvAllLtB d a b => ⟨0x0a#6, d, a, b, 0x018#11⟩
  | .lvAllLtH d a b => ⟨0x0a#6, d, a, b, 0x019#11⟩
  | .lvAllNeB d a b => ⟨0x0a#6, d, a, b, 0x01a#11⟩
  | .lvAllNeH d a b => ⟨0x0a#6, d, a, b, 0x01b#11⟩
  | .lvAnyEqB d a b => ⟨0x0a#6, d, a, b, 0x020#11⟩
  | .lvAnyEqH d a b => ⟨0x0a#6, d, a, b, 0x021#11⟩
  | .lvAnyGeB d a b => ⟨0x0a#6, d, a, b, 0x022#11⟩
  | .lvAnyGeH d a b => ⟨0x0a#6, d, a, b, 0x023#11⟩
  | .lvAnyGtB d a b => ⟨0x0a#6, d, a, b, 0x024#11⟩
  | .lvAnyGtH d a b => ⟨0x0a#6, d, a, b, 0x025#11⟩
  | .lvAnyLeB d a b => ⟨0x0a#6, d, a, b, 0x026#11⟩
  | .lvAnyLeH d a b => ⟨0x0a#6, d, a, b, 0x027#11⟩
  | .lvAnyLtB d a b => ⟨0x0a#6, d, a, b, 0x028#11⟩
  | .lvAnyLtH d a b => ⟨0x0a#6, d, a, b, 0x029#11⟩
  | .lvAnyNeB d a b => ⟨0x0a#6, d, a, b, 0x02a#11⟩
  | .lvAnyNeH d a b => ⟨0x0a#6, d, a, b, 0x02b#11⟩
  | .lvAddB d a b => ⟨0x0a#6, d, a, b, 0x030#11⟩
  | .lvAddH d a b => ⟨0x0a#6, d, a, b, 0x031#11⟩
  | .lvAddsB d a b => ⟨0x0a#6, d, a, b, 0x032#11⟩
  | .lvAddsH d a b => ⟨0x0a#6, d, a, b, 0x033#11⟩
  | .lvAdduB d a b => ⟨0x0a#6, d, a, b, 0x034#11⟩
  | .lvAdduH d a b => ⟨0x0a#6, d, a, b, 0x035#11⟩
  | .lvAddusB d a b => ⟨0x0a#6, d, a, b, 0x036#11⟩
  | .lvAddusH d a b => ⟨0x0a#6, d, a, b, 0x037#11⟩
  | .lvAnd d a b => ⟨0x0a#6, d, a, b, 0x038#11⟩
  | .lvAvgB d a b => ⟨0x0a#6, d, a, b, 0x039#11⟩
  | .lvAvgH d a b => ⟨0x0a#6, d, a, b, 0x03a#11⟩
  | .lvCmpEqB d a b => ⟨0x0a#6, d, a, b, 0x040#11⟩
  | .lvCmpEqH d a b => ⟨0x0a#6, d, a, b, 0x041#11⟩
  | .lvCmpGeB d a b => ⟨0x0a#6, d, a, b, 0x042#11⟩
  | .lvCmpGeH d a b => ⟨0x0a#6, d, a, b, 0x043#11⟩
  | .lvCmpGtB d a b => ⟨0x0a#6, d, a, b, 0x044#11⟩
  | .lvCmpGtH d a b => ⟨0x0a#6, d, a, b, 0x045#11⟩
  | .lvCmpLeB d a b => ⟨0x0a#6, d, a, b, 0x046#11⟩
  | .lvCmpLeH d a b => ⟨0x0a#6, d, a, b, 0x047#11⟩
  | .lvCmpLtB d a b => ⟨0x0a#6, d, a, b, 0x048#11⟩
  | .lvCmpLtH d a b => ⟨0x0a#6, d, a, b, 0x049#11⟩
  | .lvCmpNeB d a b => ⟨0x0a#6, d, a, b, 0x04a#11⟩
  | .lvCmpNeH d a b => ⟨0x0a#6, d, a, b, 0x04b#11⟩
  | .lvMaddsH d a b => ⟨0x0a#6, d, a, b, 0x054#11⟩
  | .lvMaxB d a b => ⟨0x0a#6, d, a, b, 0x055#11⟩
  | .lvMaxH d a b => ⟨0x0a#6, d, a, b, 0x056#11⟩
  | .lvMergeB d a b => ⟨0x0a#6, d, a, b, 0x057#11⟩
  | .lvMergeH d a b => ⟨0x0a#6, d, a, b, 0x058#11⟩
  | .lvMinB d a b => ⟨0x0a#6, d, a, b, 0x059#11⟩
  | .lvMinH d a b => ⟨0x0a#6, d, a, b, 0x05a#11⟩
  | .lvMsubsH d a b => ⟨0x0a#6, d, a, b, 0x05b#11⟩
  | .lvMulsH d a b => ⟨0x0a#6, d, a, b, 0x05c#11⟩
  | .lvNand d a b => ⟨0x0a#6, d, a, b, 0x05d#11⟩
  | .lvNor d a b => ⟨0x0a#6, d, a, b, 0x05e#11⟩
  | .lvOr d a b => ⟨0x0a#6, d, a, b, 0x05f#11⟩
  | .lvPackB d a b => ⟨0x0a#6, d, a, b, 0x060#11⟩
  | .lvPackH d a b => ⟨0x0a#6, d, a, b, 0x061#11⟩
  | .lvPacksB d a b => ⟨0x0a#6, d, a, b, 0x062#11⟩
  | .lvPacksH d a b => ⟨0x0a#6, d, a, b, 0x063#11⟩
  | .lvPackusB d a b => ⟨0x0a#6, d, a, b, 0x064#11⟩
  | .lvPackusH d a b => ⟨0x0a#6, d, a, b, 0x065#11⟩
  | .lvPermN d a b => ⟨0x0a#6, d, a, b, 0x066#11⟩
  | .lvRlB d a b => ⟨0x0a#6, d, a, b, 0x067#11⟩
  | .lvRlH d a b => ⟨0x0a#6, d, a, b, 0x068#11⟩
  | .lvSllB d a b => ⟨0x0a#6, d, a, b, 0x069#11⟩
  | .lvSllH d a b => ⟨0x0a#6, d, a, b, 0x06a#11⟩
  | .lvSll d a b => ⟨0x0a#6, d, a, b, 0x06b#11⟩
  | .lvSrlB d a b => ⟨0x0a#6, d, a, b, 0x06c#11⟩
  | .lvSrlH d a b => ⟨0x0a#6, d, a, b, 0x06d#11⟩
  | .lvSraB d a b => ⟨0x0a#6, d, a, b, 0x06e#11⟩
  | .lvSraH d a b => ⟨0x0a#6, d, a, b, 0x06f#11⟩
  | .lvSrl d a b => ⟨0x0a#6, d, a, b, 0x070#11⟩
  | .lvSubB d a b => ⟨0x0a#6, d, a, b, 0x071#11⟩
  | .lvSubH d a b => ⟨0x0a#6, d, a, b, 0x072#11⟩
  | .lvSubsB d a b => ⟨0x0a#6, d, a, b, 0x073#11⟩
  | .lvSubsH d a b => ⟨0x0a#6, d, a, b, 0x074#11⟩
  | .lvSubuB d a b => ⟨0x0a#6, d, a, b, 0x075#11⟩
  | .lvSubuH d a b => ⟨0x0a#6, d, a, b, 0x076#11⟩
  | .lvSubusB d a b => ⟨0x0a#6, d, a, b, 0x077#11⟩
  | .lvSubusH d a b => ⟨0x0a#6, d, a, b, 0x078#11⟩
  | .lvUnpackB d a b => ⟨0x0a#6, d, a, b, 0x079#11⟩
  | .lvUnpackH d a b => ⟨0x0a#6, d, a, b, 0x07a#11⟩
  | .lvXor d a b => ⟨0x0a#6, d, a, b, 0x07b#11⟩
  | .lvCust1 => ⟨0x0a#6, 0#5, 0#5, 0#5, 0x0c0#11⟩
  | .lvCust2 => ⟨0x0a#6, 0#5, 0#5, 0#5, 0x0d0#11⟩
  | .lvCust3 => ⟨0x0a#6, 0#5, 0#5, 0#5, 0x0e0#11⟩
  | .lvCust4 => ⟨0x0a#6, 0#5, 0#5, 0#5, 0x0f0#11⟩

/-- The word of an instruction (30 R310 to R319), reserved bits zero (30 R320). -/
def encode (i : Instr) : BitVec 32 := i.fields.toWord

/-- The bytes of an instruction as memory holds them. -/
def encodeBytes (i : Instr) : List Byte := bytesOfWord (encode i)

end Sys2Proof
end

