-- ==== Sys2Proof/Machine/Table.lean ====
section
/-!
DEFINITION. Machine/Table.lean: reading and writing sparse tables (memory, register files, translation buffers) in their
one canonical form.
-/

namespace Sys2Proof

/-- The datum at number `k`; 0 where the table lists none. -/
def Table.read {w : Nat} : Table w → Nat → BitVec w
  | [], _ => 0#w
  | (j, v) :: rest, k => if k < j then 0#w else if k = j then v else Table.read rest k

/-- The table with `v` at number `k`: the canonical form is kept, a zero is not listed. -/
def Table.write {w : Nat} : Table w → Nat → BitVec w → Table w
  | [], k, v => if v = 0#w then [] else [(k, v)]
  | (j, u) :: rest, k, v =>
    if k < j then (if v = 0#w then (j, u) :: rest else (k, v) :: (j, u) :: rest)
    else if k = j then (if v = 0#w then rest.dropWhile (fun c => decide (c.1 ≤ k)) else (k, v) :: rest)
    else (j, u) :: Table.write rest k v

/-- The canonical form above a bound: numbers strictly rise from `lo` on and no datum is zero. -/
def Table.wfFrom {w : Nat} : Nat → Table w → Bool
  | _, [] => true
  | lo, (j, v) :: rest => decide (lo ≤ j) && decide (v ≠ 0#w) && Table.wfFrom (j + 1) rest

/-- The canonical form: equal contents are equal tables. -/
def Table.wf {w : Nat} (t : Table w) : Bool := Table.wfFrom 0 t

/-- The table whose numbers below `n` hold `f`. -/
def Table.tabulate {w : Nat} (n : Nat) (f : Nat → BitVec w) : Table w :=
  (List.range n).foldl (fun t k => Table.write t k (f k)) []

/-- Every listed datum changed by `f`; what becomes zero is no longer listed. -/
def Table.mapData {w : Nat} (f : BitVec w → BitVec w) : Table w → Table w
  | [] => []
  | (j, v) :: rest => if f v = 0#w then Table.mapData f rest else (j, f v) :: Table.mapData f rest

end Sys2Proof

namespace Sys2Proof.Machine

/-- The canonical form of memory. -/
abbrev Memory.wf (m : List (Nat × Byte)) : Bool := Table.wf m

end Sys2Proof.Machine
end

