-- ==== Sys2Proof/Machine/Operands.lean ====
section
/-!
DEFINITION. Machine/Operands.lean: the register width, the general registers, the extension of immediates and what an
implementation must support for an instruction to exist.
-/

namespace Sys2Proof.Machine

/-- `trunc_W`: the value modulo 2^XLEN (00 R15). -/
def narrow (c : Config) (x : Word) : Word :=
  match c.xlen with
  | .x32 => Word.ofLo32 (Word.lo32 x)
  | .x64 => x

/-- `unsigned(x)` of a W-bit value (00 R15). -/
def unsignedW (c : Config) (x : Word) : Nat := (narrow c x).toNat

/-- `signed(x)` of a W-bit value (00 R15). -/
def signedW (c : Config) (x : Word) : Int :=
  match c.xlen with
  | .x32 => (Word.lo32 x).toInt
  | .x64 => x.toInt

/-- `trunc_W` of an exact integer (00 R15). -/
def wordOfInt (c : Config) (i : Int) : Word := narrow c (BitVec.ofInt 64 i)

/-- `sext_W(I)` (30 R304). -/
def sextImm (c : Config) (i : Imm16) : Word := narrow c (i.signExtend 64)

/-- `zext_W(K)` (30 R304). -/
def zextImm (k : Imm16) : Word := k.setWidth 64

/-- `sext_W(N ‖ 00)`, the byte offset of a jump or branch (30 R304). -/
def jumpOffset (c : Config) (n : Imm26) : Word := narrow c ((n ++ 0#2).signExtend 64)

/-- A bit of SR. -/
def srBit (s : State) (i : Nat) : Bool := s.sr.getLsbD i

/-- A 32-bit register with one bit replaced. -/
def putBit (v : BitVec 32) (i : Nat) (b : Bool) : BitVec 32 :=
  if b then v ||| (1#32 <<< i) else v &&& ~~~(1#32 <<< i)

/-- SR with one bit replaced. -/
def State.setSrBit (s : State) (i : Nat) (b : Bool) : State := { s with sr := putBit s.sr i b }

/-- The places of the fields of SR (10_state R61). -/
abbrev srSM : Nat := 0
abbrev srTEE : Nat := 1
abbrev srIEE : Nat := 2
abbrev srDCE : Nat := 3
abbrev srICE : Nat := 4
abbrev srDME : Nat := 5
abbrev srIME : Nat := 6
abbrev srLEE : Nat := 7
abbrev srCE : Nat := 8
abbrev srF : Nat := 9
abbrev srCY : Nat := 10
abbrev srOV : Nat := 11
abbrev srOVE : Nat := 12
abbrev srDSX : Nat := 13
abbrev srEPH : Nat := 14
abbrev srFO : Nat := 15
abbrev srSUMRA : Nat := 16

/-- The current context: SR[CID], and 0 where there is one register set (10_state R62, R83). -/
def context (s : State) : Nat := if s.cfg.nsets ≤ 1 then 0 else (s.sr.extractLsb' 28 4).toNat

/-- Register `r` of set `set` (10_state R46, R49). -/
def gprOf (s : State) (set : Nat) (r : Nat) : Word :=
  if s.cfg.r0Hardwired && r == 0 then 0#64 else narrow s.cfg (Table.read s.gprs (32 * set + r))

/-- Writing register `r` of set `set` (10_state R46, R49). -/
def State.setGprOf (s : State) (set : Nat) (r : Nat) (v : Word) : State :=
  if s.cfg.r0Hardwired && r == 0 then s
  else { s with gprs := Table.write s.gprs (32 * set + r) (narrow s.cfg v) }

/-- `GPR[r]`: register r of the current set (10_state R49). -/
def gpr (s : State) (r : Reg) : Word := gprOf s (context s) r.toNat

/-- `GPR[r] <- v` (10_state R49). -/
def State.setGpr (s : State) (r : Reg) (v : Word) : State := s.setGprOf (context s) r.toNat v

/-- What an instruction needs of the implementation in order to exist (30 R331, R330). -/
inductive Needs where
  /-- Class I of ORBIS32. -/
  | base
  /-- A class II instruction. -/
  | classII (c : ClassII)
  /-- A class II instruction of the MAC unit. -/
  | macUnit (c : ClassII)
  /-- The 64-bit loads and stores, which ORBIS64 and ORFPX64 both hold, on a 64-bit implementation (00 R2). -/
  | doubleWord
  /-- ORFPX32. -/
  | single
  /-- ORFPX64, on a 64-bit implementation. -/
  | double
  /-- ORVDX64, on a 64-bit implementation. -/
  | vector
  /-- A class II instruction of ORVDX64. -/
  | vectorII (c : ClassII)
  /-- Multiply-and-add, single or double, which FPNUM.madd leaves out by default (45 R541, R556, R557). -/
  | madd (double : Bool)
  /-- An instruction no implementation of this spec has: the custom placeholders (30 R330). -/
  | nothing
deriving DecidableEq, Repr

/-- The implementation has what an instruction needs (30 R331). -/
def implemented (c : Config) : Needs → Bool
  | .base => true
  | .classII x => !c.omitted.contains x
  | .macUnit x => c.mac && !c.omitted.contains x
  | .doubleWord => (c.orbis64 || c.orfpx64) && decide (c.xlen = .x64)
  | .single => c.orfpx32
  | .double => c.orfpx64 && decide (c.xlen = .x64)
  | .vector => c.orvdx64 && decide (c.xlen = .x64)
  | .vectorII x => c.orvdx64 && decide (c.xlen = .x64) && !c.omitted.contains x
  | .madd double =>
    c.maddPresent && (if double then c.orfpx64 && decide (c.xlen = .x64) else c.orfpx32)
  | .nothing => false

/-- Every register named exists: numbers below `NGPR` (10_state R48). -/
def regsExist (c : Config) (regs : List Reg) : Bool := regs.all fun r => decide (r.toNat < c.ngpr)

end Sys2Proof.Machine
end

