-- ==== Sys2Proof/Machine/Flags.lean ====
section
/-!
DEFINITION. Machine/Flags.lean: carry and overflow from exact integers (40 R350), the flags an instruction writes, and
the condition of the range exception (40 R352).
-/

namespace Sys2Proof.Machine

/-- An exact integer is a signed W-bit number. -/
def fitsSigned (bits : Nat) (i : Int) : Bool := decide (-(2 : Int) ^ (bits - 1) ≤ i ∧ i < (2 : Int) ^ (bits - 1))

/-- An exact integer is an unsigned W-bit number. -/
def fitsUnsigned (bits : Nat) (i : Int) : Bool := decide (0 ≤ i ∧ i < (2 : Int) ^ bits)

/-- A result with the flags its instruction writes; a flag the instruction does not write is `none` (10_state R78). -/
structure Arith where
  value : Word
  cy : Option Bool
  ov : Option Bool
deriving DecidableEq, Repr

/-- Addition with carry-in (40 R350): `carry_add` and `ovf_add`. -/
def addArith (c : Config) (a b : Word) (cin : Bool) : Arith :=
  let u : Int := unsignedW c a + unsignedW c b + cin.toNat
  let t : Int := signedW c a + signedW c b + cin.toNat
  { value := wordOfInt c u, cy := some (!fitsUnsigned c.xlen.bits u), ov := some (!fitsSigned c.xlen.bits t) }

/-- Subtraction (40 R350): `carry_sub` is the borrow, `ovf_sub`. -/
def subArith (c : Config) (a b : Word) : Arith :=
  let u : Int := (unsignedW c a : Int) - unsignedW c b
  let t : Int := signedW c a - signedW c b
  { value := wordOfInt c u, cy := some (!fitsUnsigned c.xlen.bits u), ov := some (!fitsSigned c.xlen.bits t) }

/-- Signed multiplication (40 R350): `ovf_mul`; CY is not written. -/
def mulArith (c : Config) (a b : Word) : Arith :=
  let p : Int := signedW c a * signedW c b
  { value := wordOfInt c p, cy := none, ov := some (!fitsSigned c.xlen.bits p) }

/-- Unsigned multiplication (40 R350): `carry_mul`; OV is not written. -/
def muluArith (c : Config) (a b : Word) : Arith :=
  let p : Int := (unsignedW c a : Int) * unsignedW c b
  { value := wordOfInt c p, cy := some (!fitsUnsigned c.xlen.bits p), ov := none }

/-- Signed division (40 R389, R390): truncated toward zero; a zero divisor sets OV and gives the free quotient. -/
def divArith (c : Config) (a b : Word) : Arith :=
  if signedW c b = 0 then { value := narrow c (Config.freeQuotient 0 a b), cy := none, ov := some true }
  else { value := wordOfInt c (Int.tdiv (signedW c a) (signedW c b)), cy := none, ov := some false }

/-- Unsigned division (40 R389, R391): a zero divisor sets CY and gives the free quotient. -/
def divuArith (c : Config) (a b : Word) : Arith :=
  if unsignedW c b = 0 then { value := narrow c (Config.freeQuotient 1 a b), cy := some true, ov := none }
  else { value := wordOfInt c ((unsignedW c a / unsignedW c b : Nat) : Int), cy := some false, ov := none }

/-- SR with the flags an instruction writes (10_state R78). -/
def State.setFlags (s : State) (cy ov : Option Bool) : State :=
  let s := match cy with
    | some b => s.setSrBit srCY b
    | none => s
  match ov with
  | some b => s.setSrBit srOV b
  | none => s

/-- Which enable bits of AECR an instruction's flags are tested with (40 R352): the bits for CY and for OV. -/
structure Causes where
  cyBit : Nat
  ovBit : Nat
deriving DecidableEq, Repr

/-- CYADDE and OVADDE. -/
def addCauses : Causes := { cyBit := 0, ovBit := 1 }

/-- CYMULE and OVMULE. -/
def mulCauses : Causes := { cyBit := 2, ovBit := 3 }

/-- DBZE. -/
def divCauses : Causes := { cyBit := 4, ovBit := 4 }

/-- CYMACADDE and OVMACADDE. -/
def macCauses : Causes := { cyBit := 5, ovBit := 6 }

/-- A flag that an instruction writes as 1. -/
def fired (f : Option Bool) : Bool := f == some true

/-- The carry is a cause of the range exception: only where AECR exists and enables it (40 R352). -/
def cyTraps (s : State) (k : Causes) (cy : Option Bool) : Bool :=
  s.cfg.aecsrPresent && fired cy && s.aecr.getLsbD k.cyBit

/-- The overflow is a cause of the range exception: where AECR exists and enables it, or where AECR does not exist
(40 R352). -/
def ovTraps (s : State) (k : Causes) (ov : Option Bool) : Bool :=
  fired ov && (!s.cfg.aecsrPresent || s.aecr.getLsbD k.ovBit)

/-- The range exception is raised (40 R352). -/
def rangeTraps (s : State) (k : Causes) (cy ov : Option Bool) : Bool :=
  srBit s srOVE && (cyTraps s k cy || ovTraps s k ov)

/-- AESR after a range exception: the bits whose cause fired are set, where the register exists (40 R352). -/
def aesrAfter (s : State) (k : Causes) (cy ov : Option Bool) : BitVec 32 :=
  if s.cfg.aecsrPresent then
    s.aesr ||| (if cyTraps s k cy then 1#32 <<< k.cyBit else 0#32) |||
      (if ovTraps s k ov then 1#32 <<< k.ovBit else 0#32)
  else s.aesr

end Sys2Proof.Machine
end

