-- ==== Sys2Proof/Machine/Ops.lean ====
section
/-!
DEFINITION. Machine/Ops.lean: the operations the meanings share: sequencing and the delay slot (43 R480), taking an
exception and returning from one (60 R730, R736), writing SR, translation (20 R207), data access (20 R175), fetching
(20 R177) and the reservation (20 R195 to R198).
-/

namespace Sys2Proof.Machine

/-! ### Sequencing -/

/-- `seq` of 43 R480 step 5: the pending delay-slot target, else the next word, modulo 2^W (10_state R52). -/
def seqPc (s : State) : Word :=
  match s.ds with
  | some d => d.next
  | none => narrow s.cfg (s.pc + 4#64)

/-- An instruction that calls neither `branch_to` nor `fall_through_branch` completes (43 R480 step 5). -/
def State.advance (s : State) : State := { s with pc := seqPc s, ppc := s.pc, ds := none }

/-- `branch_to(t)` (43 R480 step 5). -/
def State.branchTo (s : State) (t : Word) : State :=
  if s.cfg.nd then { s with pc := t, ppc := s.pc, ds := none }
  else { s with pc := seqPc s, ppc := s.pc, ds := some { jump := s.pc, next := t } }

/-- `fall_through_branch()` (43 R480 step 5). -/
def State.fallThrough (s : State) : State :=
  if s.cfg.nd then s.advance
  else { s with pc := seqPc s, ppc := s.pc, ds := some { jump := s.pc, next := narrow s.cfg (seqPc s + 4#64) } }

/-- A control transfer, which the spec gives no meaning in a delay slot (43 R479 (e)). -/
def transfer (s : State) (t : State) : Result :=
  if s.ds.isSome then .refused .jumpInDelaySlot else .next t

/-! ### SR -/

/-- The bits of SR that a write changes (10_state R61 to R79): FO, the reserved bits and the fields hard-wired for want
of their unit keep their value. -/
def srWritable (c : Config) : BitVec 32 :=
  0x00017E07#32 ||| (if c.nsets ≤ 1 then 0#32 else 0xF0000100#32) ||| (if c.leeSupported then 0x80#32 else 0#32) |||
    (if c.immu.isSome then 0x40#32 else 0#32) ||| (if c.dmmu.isSome then 0x20#32 else 0#32) |||
    (if c.icache.isSome then 0x10#32 else 0#32) ||| (if c.dcache.isSome then 0x08#32 else 0#32)

/-- What SR holds after `v` is written to it: FO reads 1, reserved and hard-wired fields read 0 (10_state R79). -/
def srValue (c : Config) (v : BitVec 32) : BitVec 32 := (v &&& srWritable c) ||| 0x8000#32

/-- The CID field of a value for SR. -/
def cidField (v : BitVec 32) : Nat := (v.extractLsb' 28 4).toNat

/-- SR with its CID field replaced. -/
def putCid (v : BitVec 32) (n : Nat) : BitVec 32 := (v &&& 0x0FFFFFFF#32) ||| (BitVec.ofNat 4 n ++ 0#28)

/-! ### Taking an exception -/

/-- The number of an exception: its vector offset divided by 0x100 (60 R722). -/
def Exc.number : Exc → Nat
  | .busError => 2
  | .dataPageFault => 3
  | .insnPageFault => 4
  | .tick => 5
  | .alignment => 6
  | .illegal => 7
  | .external => 8
  | .dtlbMiss => 9
  | .itlbMiss => 10
  | .range => 11
  | .systemCall => 12
  | .floatingPoint => 13
  | .trap => 14

/-- The exceptions that save the address of the next instruction (60 R723, R741). -/
def Exc.savesNext : Exc → Bool
  | .systemCall => true
  | .floatingPoint => true
  | _ => false

/-- `vector(X)` (60 R733). -/
def vectorOf (s : State) (e : Exc) : Word :=
  Word.ofLo32
    ((if s.cfg.evbarPresent then s.evbar &&& 0xFFFFE000#32 else 0#32) |||
      (if srBit s srEPH then 0xF0000000#32 else 0#32) ||| BitVec.ofNat 32 (256 * e.number))

/-- `epc` (60 R731, R741): the jump in a delay slot, else this instruction or the next one. -/
def savedPc (s : State) (e : Exc) : Word :=
  match s.ds with
  | some d => d.jump
  | none => if e.savesNext then narrow s.cfg (s.pc + 4#64) else s.pc

/-- The new SR of exception entry in context `c` (60 R732). -/
def entrySr (s : State) (c : Nat) : BitVec 32 :=
  let v := (s.sr &&& ~~~0x00002066#32) ||| 1#32 ||| (if s.ds.isSome then 0x2000#32 else 0#32)
  if s.cfg.nsets ≤ 1 then v else putCid v c

/-- The context whose EPCR, EEAR and ESR an exception uses (60 R730 step 3, R735). -/
def entryContext (s : State) : Nat :=
  if s.cfg.nsets ≤ 1 then 0 else if srBit s srCE then context s + 1 else context s

/-- Exception entry into context `c` (60 R730 steps 4 to 7). -/
def enterAt (e : Exc) (ea : Option Word) (c : Nat) (s : State) : State :=
  { s with
    epcr := Table.write s.epcr c (savedPc s e)
    esr := Table.write s.esr c s.sr
    eear := match ea with
      | some a => Table.write s.eear c a
      | none => s.eear
    sr := entrySr s c
    resv := none
    pc := vectorOf s e
    ds := none
    raised := some e }

/-- The debug unit takes an exception over: its bit of DSR is set (60 R811). -/
def debugTakes (s : State) (e : Exc) : Bool := s.cfg.debugUnit.isSome && s.debugUnit.dsr.getLsbD (e.number - 1)

/-- `raise X(ea)` at the instruction at pc (60 R730), or the stop DSR asks for (60 R811). -/
def enter (e : Exc) (ea : Option Word) (s : State) : Result :=
  if debugTakes s e then
    .next { s with debugUnit := { s.debugUnit with drr := putBit s.debugUnit.drr (e.number - 1) true }, stopped := true,
                   raised := some e }
  else if s.cfg.nsets ≤ entryContext s then .refused .cidOverflow
  else .next (enterAt e ea (entryContext s) s)

/-- The illegal instruction exception: EEAR receives the address of the instruction (60 R745). -/
def illegal (s : State) : Result := enter .illegal (some s.pc) s

/-- Return from exception (60 R736): pc and SR come back from the current context. -/
def returnFrom (s : State) : Result :=
  let c := context s
  let sr := srValue s.cfg (Table.read s.esr c)
  let done (v : BitVec 32) : Result :=
    .next { s with pc := narrow s.cfg (Table.read s.epcr c), ppc := s.pc, sr := v, ds := none }
  if s.cfg.nsets ≤ 1 then done sr
  else if srBit s srCE then (if c = 0 then .refused .cidUnderflow else done (putCid sr (c - 1)))
  else if s.cfg.nsets ≤ cidField sr then .refused .cidOutOfRange
  else done sr

/-! ### Guards common to all instructions -/

/-- What every instruction checks before its own effect: it exists in this implementation, else the illegal instruction
exception (30 R331); the registers it uses exist, else the range exception (10_state R48). -/
def checked (s : State) (needs : Needs) (regs : List Reg) (body : Result) : Result :=
  if !implemented s.cfg needs then illegal s
  else if !regsExist s.cfg regs then enter .range none s
  else body

/-- The instruction completes with `rD <- v` (43 R480). -/
def writeBack (s : State) (d : Reg) (v : Word) : Result := .next (s.setGpr d v).advance

/-- The instruction completes with `SR[F] <- v` (43 R480). -/
def writeFlag (s : State) (v : Bool) : Result := .next (s.setSrBit srF v).advance

/-- An arithmetic instruction writes its flags and, unless the range exception is raised, its destination (40 R352). -/
def arithWith (s : State) (k : Causes) (cy ov : Option Bool) (store : State → State) : Result :=
  let t := s.setFlags cy ov
  if rangeTraps s k cy ov then
    let t := { t with aesr := aesrAfter s k cy ov }
    enter .range none (if s.cfg.rangeWriteback then store t else t)
  else .next (store t).advance

/-- `arithWith` with a general register as destination. -/
def arith (s : State) (k : Causes) (d : Reg) (r : Arith) : Result :=
  arithWith s k r.cy r.ov fun t => t.setGpr d r.value

/-! ### Outcomes of an access -/

/-- What an access gives: a value, an exception whose EEAR is the address of the access, or a refusal. -/
inductive Attempt (α : Type) where
  | ok (value : α) (s : State)
  | raise (e : Exc) (s : State)
  | refuse (r : Refusal)

/-- The access goes on where the first part succeeded. -/
def Attempt.andThen {α β : Type} (x : Attempt α) (f : α → State → Attempt β) : Attempt β :=
  match x with
  | .ok v s => f v s
  | .raise e s => .raise e s
  | .refuse r => .refuse r

/-- The instruction ends in what the access gave; an exception records the effective address (60 R742). -/
def Attempt.finish {α : Type} (x : Attempt α) (ea : Word) (f : α → State → Result) : Result :=
  match x with
  | .ok v s => f v s
  | .raise e s => enter e (some ea) s
  | .refuse r => .refused r

/-! ### Bytes of memory -/

/-- Memory answers at a physical address (20 R178). -/
def mapped (c : Config) (pa : Nat) : Bool := c.memMap.any fun r => decide (r.base ≤ pa ∧ pa < r.base + r.size)

/-- The byte of memory at a physical address (20 R160). -/
def readByte (s : State) (pa : Nat) : Byte := Table.read s.mem pa

/-- Two physical addresses lie in one reservation granule (20 R197). -/
def sameGranule (c : Config) (p q : Nat) : Bool := p / 2 ^ c.granuleLog == q / 2 ^ c.granuleLog

/-- The reservation after a byte is written by anyone (20 R197 items 1 and 2). -/
def resvAfterWrite (s : State) (pa : Nat) : Option Nat :=
  match s.resv with
  | some p => if sameGranule s.cfg p pa then none else some p
  | none => none

/-- A list of older bytes with the byte of memory at a physical address put in front, where it changes and is not there
already. -/
def rememberByte (s : State) (old : List Host.Cell) (pa : Nat) (v : Byte) : List Host.Cell :=
  if readByte s pa != v && !old.contains (pa, readByte s pa) then (pa, readByte s pa) :: old else old

/-- The bytes an instruction cache may still hold once main memory is known to hold the newest bytes at the addresses `p`:
also those it held there until now behind a write-back data cache, which a fetch may have brought in since the block was
invalidated last (20 R273, 70 R843): only with the cache. -/
def staleAfterUpdate (s : State) (p : Nat → Bool) : List Host.Cell :=
  if s.cfg.icache.isSome then (s.unwritten.filter fun c => p c.1 && !s.stale.contains c) ++ s.stale else s.stale

/-- Main memory holds the newest bytes at the addresses `p` from now on. -/
def State.updateMemory (s : State) (p : Nat → Bool) : State :=
  { s with stale := staleAfterUpdate s p, unwritten := s.unwritten.filter fun c => !p c.1 }

/-- The bytes an instruction cache may still hold after a byte of memory changes (20 R273): only with the cache. -/
def staleAfterWrite (s : State) (pa : Nat) (v : Byte) : List Host.Cell :=
  if s.cfg.icache.isSome then rememberByte s s.stale pa v else s.stale

/-- One byte of memory is written: by another master, by hardware, or by a store that reaches memory. -/
def State.writeByte (s : State) (pa : Nat) (v : Byte) : State :=
  let t := s.updateMemory (· == pa)
  { t with mem := Table.write s.mem pa v, resv := resvAfterWrite s pa, stale := staleAfterWrite t pa v }

/-- Bytes of memory are written in order. -/
def State.writeBytes (s : State) : List (Nat × Byte) → State
  | [] => s
  | (pa, v) :: rest => (s.writeByte pa v).writeBytes rest

/-! ### Page attributes (20 R250) -/

/-- The attributes an access takes from its translation entry (20 R212, R250). -/
structure Attributes where
  /-- Write-back cache. -/
  wbc : Bool
  /-- Cache inhibit. -/
  ci : Bool
  /-- Weakly ordered memory. -/
  wom : Bool
  /-- Cache coherency. -/
  cc : Bool
deriving DecidableEq, Repr

/-- Where an access goes: a physical address and the attributes of its page, none where it is untranslated. -/
structure Place where
  pa : Nat
  attributes : Option Attributes
deriving DecidableEq, Repr

/-- The place a number of bytes further on in the same page. -/
def Place.offset (p : Place) (i : Nat) : Place := { p with pa := p.pa + i }

/-- The physical addresses of places. -/
def addressesOf (ps : List Place) : List Nat := ps.map (·.pa)

/-- The access may go through a cache: its page is not cache-inhibited (20 R286); of an untranslated access the
implementation decides by the physical address (20 R188, log 62). -/
def Place.cacheable (p : Place) : Bool :=
  match p.attributes with
  | some a => !a.ci
  | none => Config.freeCacheable p.pa

/-- A store may stay in the data cache: the cache is present, enabled and of the write-back strategy, the access may go
through it, and the page, where there is one, is a write-back page (20 R287, log 63). -/
def staysInCache (s : State) (p : Place) : Bool :=
  s.cfg.dcache.any (·.copyBack) && srBit s srDCE && p.cacheable && p.attributes.all (·.wbc)

/-- One byte is stored by the processor; memory may not receive it yet (20 R287). -/
def State.storeByte (s : State) (p : Place) (v : Byte) : State :=
  if staysInCache s p then { s.writeByte p.pa v with unwritten := rememberByte s s.unwritten p.pa v }
  else s.writeByte p.pa v

/-- Bytes are stored in order. -/
def State.storeBytes (s : State) : List (Place × Byte) → State
  | [] => s
  | (p, v) :: rest => (s.storeByte p v).storeBytes rest

/-! ### Translation -/

/-- The kind of an access (20 R235). -/
inductive Access where
  | load
  | store
  | fetch
deriving DecidableEq, Repr

/-- The MMU an access goes through. -/
def mmuOf (s : State) : Access → Mmu
  | .fetch => s.immu
  | _ => s.dmmu

/-- The state with the MMU of an access replaced. -/
def State.setMmu (s : State) (k : Access) (m : Mmu) : State :=
  match k with
  | .fetch => { s with immu := m }
  | _ => { s with dmmu := m }

/-- The geometry of the MMU of an access, where the unit is present. -/
def mmuConfig (c : Config) : Access → Option MmuConfig
  | .fetch => c.immu
  | _ => c.dmmu

/-- The MMU of an access is present and enabled (20 R200). -/
def translates (s : State) (k : Access) : Bool :=
  (mmuConfig s.cfg k).isSome && (match k with
    | .fetch => srBit s srIME
    | _ => srBit s srDME)

/-- The physical address with translation off: the low PADDR_BITS bits (20 R200). -/
def physical (c : Config) (ea : Word) : Nat := ea.toNat % 2 ^ c.paddrBits

/-- The bits of the effective address that take part in translation: 32, or 46 on a 64-bit implementation (20 R205,
R206; the layout of the registers there is the model's, log 17). -/
def vaBits (c : Config) : Nat :=
  match c.xlen with
  | .x32 => 32
  | .x64 => 46

/-- Bits hi-1 down to lo of a word as a number. -/
def slice (x : Word) (hi lo : Nat) : Nat := x.toNat % 2 ^ hi / 2 ^ lo

/-- The TLB set an effective address selects: the low bits of the level-2 page number (20 R208, log 18). -/
def tlbSet (m : MmuConfig) (ea : Word) : Nat := ea.toNat / 2 ^ 13 % 2 ^ m.setsLog

/-- The number of the entry of way `y` in set `n`. -/
def tlbIndex (y n : Nat) : Nat := 256 * y + n

/-- The context of a match register is the current one, compared where there are shadow sets (20 R208). -/
def cidMatches (s : State) (cid : Nat) : Bool := s.cfg.nsets ≤ 1 || cid == context s

/-- How far above their places on 32 bits the page numbers of a match register stand (20 R206, log 17). -/
def matchShift (c : Config) : Nat :=
  match c.xlen with
  | .x32 => 0
  | .x64 => c.mmu64.matchShift

/-- How far above their places on 32 bits the page numbers of a translate register stand (20 R206, log 17). -/
def translateShift (c : Config) : Nat :=
  match c.xlen with
  | .x32 => 0
  | .x64 => c.mmu64.translateShift

/-- The page number of a match register is the effective address's, from bit `lo` up. -/
def pageMatches (c : Config) (r ea : Word) (lo : Nat) : Bool :=
  slice r (vaBits c + matchShift c) (lo + matchShift c) == slice ea (vaBits c) lo

/-- Way `y` of set `n` matches the effective address (20 R208). -/
def tlbHit (s : State) (m : Mmu) (ea : Word) (n y : Nat) : Bool :=
  let r := Table.read m.tlbMr (tlbIndex y n)
  r.getLsbD 0 && !r.getLsbD 1 && cidMatches s (slice r 6 2) && pageMatches s.cfg r ea 13

/-- Way `y` of set `n` claims the 16-Mbyte page of the effective address (PL1 = 1). The manual gives such an entry no
match rule (20 R208); that it is looked for in the set of the level-2 page number, and compared from bit 24 up, is the
model's choice (log 19). -/
def tlbHitLevel1 (s : State) (m : Mmu) (ea : Word) (n y : Nat) : Bool :=
  let r := Table.read m.tlbMr (tlbIndex y n)
  r.getLsbD 0 && r.getLsbD 1 && cidMatches s (slice r 6 2) && pageMatches s.cfg r ea 24

/-- log2 of the size of the page of an ATB entry: 16 Mbyte, or 32 Gbyte where PS = 1 (20 R221). -/
def atbPageLog (r : Word) : Nat := if r.getLsbD 5 then 35 else 24

/-- ATB entry `i` matches the effective address (20 R224); PS = 1 only with 64-bit effective addresses. -/
def atbHit (s : State) (m : Mmu) (ea : Word) (i : Nat) : Bool :=
  let r := Table.read m.atbMr i
  r.getLsbD 0 && !(r.getLsbD 5 && decide (s.cfg.xlen = .x32)) && cidMatches s (slice r 5 1) &&
    pageMatches s.cfg r ea (atbPageLog r)

/-- Which translate register a translation uses: of the TLB (number 256*y + n) or of the ATB. -/
inductive Entry where
  | tlb (index : Nat)
  | atb (index : Nat)
deriving DecidableEq, Repr

/-- The translate register of an entry. -/
def Entry.translate (e : Entry) (m : Mmu) : Word :=
  match e with
  | .tlb j => Table.read m.tlbTr j
  | .atb j => Table.read m.atbTr j

/-- The MMU with the translate register of an entry replaced. -/
def Mmu.setTranslate (m : Mmu) (e : Entry) (v : Word) : Mmu :=
  match e with
  | .tlb j => { m with tlbTr := Table.write m.tlbTr j v }
  | .atb j => { m with atbTr := Table.write m.atbTr j v }

/-- log2 of the size of an entry's page: in the TLB 8 Kbyte, or 16 Mbyte where PL1 = 1. -/
def Entry.pageLog (e : Entry) (m : Mmu) : Nat :=
  match e with
  | .tlb j => if (Table.read m.tlbMr j).getLsbD 1 then 24 else 13
  | .atb j => atbPageLog (Table.read m.atbMr j)

/-- The physical address an entry gives (20 R207 step 5): the page number above the page offset. -/
def Entry.physical (e : Entry) (c : Config) (m : Mmu) (ea : Word) : Nat :=
  let log := e.pageLog m
  ((e.translate m).toNat / 2 ^ (log + translateShift c) * 2 ^ log + ea.toNat % 2 ^ log) % 2 ^ c.paddrBits

/-- The attributes of a translate register (20 R212, R213, R222, R223). -/
def Attributes.ofRegister (r : Word) : Attributes :=
  { wbc := r.getLsbD 2, ci := r.getLsbD 1, wom := r.getLsbD 3, cc := r.getLsbD 0 }

/-- Where an access through an entry goes (20 R207 steps 5 and 6). -/
def Entry.place (e : Entry) (c : Config) (m : Mmu) (ea : Word) : Place :=
  { pa := e.physical c m ea, attributes := some (Attributes.ofRegister (e.translate m)) }

/-- The bit of the translate register that permits an access in a mode (20 R212, R213, R222, R223, R235). -/
def Entry.permitBit (e : Entry) (k : Access) (supervisor : Bool) : Nat :=
  match e, k, supervisor with
  | _, .fetch, true => 6
  | _, .fetch, false => 7
  | .tlb _, .load, true => 8
  | .tlb _, .load, false => 6
  | .tlb _, .store, true => 9
  | .tlb _, .store, false => 7
  | .atb _, .load, true => 6
  | .atb _, .load, false => 8
  | .atb _, .store, true => 7
  | .atb _, .store, false => 9

/-- One of several candidates, chosen by a free value (20 R208, R224); the first where the list has one. -/
def chooseOne (n : Nat) (l : List Nat) (dflt : Nat) : Nat :=
  match l with
  | [] => dflt
  | [x] => x
  | l => l.getD (Config.freeWay n % l.length) dflt

/-- What a lookup finds: an entry, nothing, or a level-1 entry in the TLB (20 R207 steps 1 to 3). -/
inductive Lookup where
  | hit (e : Entry)
  | miss
  | level1
deriving DecidableEq, Repr

/-- Way `y` of set `n` takes part in a translation: at either level (20 R208). -/
def tlbClaims (s : State) (m : Mmu) (ea : Word) (n y : Nat) : Bool := tlbHit s m ea n y || tlbHitLevel1 s m ea n y

/-- The lookup of 20 R207 steps 1 to 3: the TLB first, then the ATB. Where TLB_PL1_POLICY is to refuse, a way with
PL1 = 1 that would match is found whatever the other ways hold (log 19). -/
def lookup (s : State) (k : Access) (g : MmuConfig) (ea : Word) : Lookup :=
  let m := mmuOf s k
  let n := tlbSet g ea
  if s.cfg.tlbPl1 = .refuse ∧ (List.range g.ways).any (tlbHitLevel1 s m ea n) then .level1
  else
    match (List.range g.ways).filter (tlbClaims s m ea n) with
    | y :: ys => .hit (.tlb (tlbIndex (chooseOne s.draws (y :: ys) y) n))
    | [] =>
      match (List.range g.atbs).filter (atbHit s m ea) with
      | i :: is => .hit (.atb (chooseOne s.draws (i :: is) i))
      | [] => .miss

/-- The LRU fields of a set after a translated access: hardware may leave any value (20 R211, log 21). -/
def Mmu.touchLru (m : Mmu) (g : MmuConfig) (n draw : Nat) : Mmu :=
  let put (t : Table 2) (y : Nat) : Table 2 := Table.write t (tlbIndex y n) (Config.freeLru draw y)
  { m with tlbLru := (List.range g.ways).foldl put m.tlbLru }

/-- The accessed bit, and for a store the dirty bit, of a translate register (20 R248). -/
def markUsed (k : Access) (r : Word) : Word :=
  r ||| (match k with
    | .store => 0x30#64
    | _ => 0x10#64)

/-- The exception of a lookup that finds nothing, and of one whose entry forbids the access (20 R207). -/
def missExc : Access → Exc
  | .fetch => .itlbMiss
  | _ => .dtlbMiss

/-- See `missExc`. -/
def faultExc : Access → Exc
  | .fetch => .insnPageFault
  | _ => .dataPageFault

/-! ### Page tables (20 R240 to R248) -/

/-- A page table entry's PPI, 0 in an invalid one (20 R244). -/
def pteGroup (l : PteLayout) (p : BitVec 32) : Nat := (p.extractLsb' l.ppi 3).toNat

/-- A page table entry's L: it describes the page itself. -/
def pteLast (l : PteLayout) (p : BitVec 32) : Bool := p.getLsbD l.last

/-- A page table entry's PPN: the number of an 8-Kbyte frame. -/
def pteFrame (l : PteLayout) (p : BitVec 32) : Nat := (p.extractLsb' l.ppn 22).toNat

/-- A page table entry's D, A, WOM, WBC, CI and CC in their places in a translate register (20 R212). -/
def pteLowBits (l : PteLayout) (p : BitVec 32) : Word :=
  let put (i place : Nat) : Word := if p.getLsbD i then 1#64 <<< place else 0#64
  put l.dirty 5 ||| put l.accessed 4 ||| put l.wom 3 ||| put l.wbc 2 ||| put l.ci 1 ||| put l.cc 0

/-- A page table entry with its A, for a store also its D, set (20 R248). -/
def pteUsed (l : PteLayout) (k : Access) (p : BitVec 32) : BitVec 32 :=
  p ||| (1#32 <<< l.accessed) ||| (match k with
    | .store => 1#32 <<< l.dirty
    | _ => 0#32)

/-- The fields of the effective address that number the entries of the tables, the outermost first, each as its end and
its start (20 R205, R206, R240). -/
def walkFields (c : Config) : List (Nat × Nat) :=
  match c.xlen with
  | .x32 => [(32, 24), (24, 13)]
  | .x64 => [(46, 35), (35, 24), (24, 13)]

/-- What a search of the page tables finds: the entry of the page, its own address and log2 of the page's size, no valid
entry, or an address at which no memory answers. -/
inductive Walk where
  | page (pte : BitVec 32) (pa log : Nat)
  | invalid
  | unanswered
deriving DecidableEq, Repr

/-- The four bytes of memory from a physical address on, the first most significant. That they are the newest bytes, also
where a write-back data cache may not have written them to main memory yet, is the model's choice: the spec does not say
whether the search of the page tables sees them (20 R247, log 61). -/
def readEntry (s : State) (pa : Nat) : BitVec 32 :=
  readByte s pa ++ readByte s (pa + 1) ++ readByte s (pa + 2) ++ readByte s (pa + 3)

/-- The search of the page tables (20 R240, R246, R247) from a table at `base`, `level` levels below the first. Where an
entry lies is a free value (log 61); its bytes are read untranslated, most significant first. In a table of the last
level an entry with L = 0 points nowhere: whether it serves as the entry of the page is a free value, and where it does
not the search finds no valid entry (log 61). -/
def walkFrom (s : State) (ea : Word) (level base : Nat) : List (Nat × Nat) → Walk
  | [] => .invalid
  | (hi, lo) :: rest =>
    let pa := Config.freePte level base (context s) (slice ea hi lo)
    if [pa, pa + 1, pa + 2, pa + 3].all (mapped s.cfg) then
      let p := readEntry s pa
      if pteGroup s.cfg.pteLayout p = 0 then .invalid
      else if pteLast s.cfg.pteLayout p || (rest.isEmpty && Config.freeFinal p) then .page p pa lo
      else walkFrom s ea (level + 1) (pteFrame s.cfg.pteLayout p) rest
    else .unanswered

/-- The search for a page from xMMUCR[PTBP]. -/
def walk (s : State) (k : Access) (ea : Word) : Walk :=
  walkFrom s ea 0 ((mmuOf s k).control.extractLsb' 10 22).toNat (walkFields s.cfg)

/-- A page table entry is written back to memory, most significant byte first. -/
def State.writeEntry (s : State) (pa : Nat) (p : BitVec 32) : State :=
  s.writeBytes [(pa, p.extractLsb' 24 8), (pa + 1, p.extractLsb' 16 8), (pa + 2, p.extractLsb' 8 8),
    (pa + 3, p.extractLsb' 0 8)]

/-- Where the MMU reloads its entries in hardware, A and D are set in the page table too, at the first access that sets
them in the translate register `r` (20 R248, log 61). The access is of the kind `k`, whose tables are searched; it
leaves the marks of the kind `mark`. -/
def State.useTable (s : State) (k mark : Access) (g : MmuConfig) (ea r : Word) : State :=
  if g.reload && markUsed mark r != r then
    match walk s k ea with
    | .page p pa _ => s.writeEntry pa (pteUsed s.cfg.pteLayout mark p)
    | _ => s
  else s

/-- An access through an entry that matches (20 R207 steps 4 to 6, R248): where it goes, or the page fault. -/
def translateHit (s : State) (k : Access) (g : MmuConfig) (ea : Word) (e : Entry) : Attempt Place :=
  let m := mmuOf s k
  let r := e.translate m
  if r.getLsbD (e.permitBit k (srBit s srSM)) then
    let m' := (m.setTranslate e (markUsed k r)).touchLru g (tlbSet g ea) s.draws
    .ok (e.place s.cfg m ea) { (s.useTable k k g ea r).setMmu k m' with draws := s.draws + 1 }
  else if s.cfg.adOnFault then
    .raise (faultExc k)
      { (s.useTable k .load g ea r).setMmu k (m.setTranslate e (markUsed .load r)) with draws := s.draws + 1 }
  else .raise (faultExc k) { s with draws := s.draws + 1 }

/-- The protection bits of a loaded entry: group `x` of xMMUPR in the places of the translate register (20 R231, R233,
R235). -/
def Entry.protection (e : Entry) (k : Access) (v : BitVec 32) (x : Nat) : Word :=
  let put (n place : Nat) : Word := if v.getLsbD n then 1#64 <<< place else 0#64
  match k with
  | .fetch => put (2 * (x - 1)) (e.permitBit .fetch true) ||| put (2 * (x - 1) + 1) (e.permitBit .fetch false)
  | _ =>
    put (4 * (x - 1)) (e.permitBit .load true) ||| put (4 * (x - 1) + 1) (e.permitBit .store true) |||
      put (4 * (x - 1) + 2) (e.permitBit .load false) ||| put (4 * (x - 1) + 3) (e.permitBit .store false)

/-- Which entry receives a page (20 R247: the implementation chooses): a way of the TLB, which holds the 8 Kbyte around
the address, or for a larger page also an entry of the ATB. -/
def reloadEntry (s : State) (g : MmuConfig) (ea : Word) (log : Nat) : Entry :=
  let choice := Config.freeWay s.draws % (g.ways + if log = 13 then 0 else g.atbs)
  if choice < g.ways then .tlb (tlbIndex choice (tlbSet g ea)) else .atb (choice - g.ways)

/-- The frame of a page of a given size: the entry's, truncated (20 R205). -/
def pageFrame (l : PteLayout) (p : BitVec 32) (log : Nat) : Nat := pteFrame l p * 2 ^ 13 / 2 ^ log * 2 ^ log

/-- A page number in its place in a register whose page numbers are shifted (20 R206). -/
def putPage (c : Config) (v shift : Nat) : Word := narrow c (BitVec.ofNat 64 (v * 2 ^ shift))

/-- The MMU with a page loaded into an entry: its match and its translate register (20 R211 to R223, R247). -/
def Mmu.load (m : Mmu) (s : State) (k : Access) (ea : Word) (p : BitVec 32) (log : Nat) (e : Entry) : Mmu :=
  let c := s.cfg
  let low := e.protection k m.protect (pteGroup c.pteLayout p) ||| pteLowBits c.pteLayout p
  match e with
  | .tlb j =>
    { m with
      tlbMr := Table.write m.tlbMr j
        (putPage c (slice ea (vaBits c) 13 * 2 ^ 13) (matchShift c) ||| BitVec.ofNat 64 (4 * context s + 1))
      tlbTr := Table.write m.tlbTr j
        (putPage c (pageFrame c.pteLayout p log + slice ea log 13 * 2 ^ 13) (translateShift c) ||| low) }
  | .atb j =>
    { m with
      atbMr := Table.write m.atbMr j
        (putPage c (slice ea (vaBits c) log * 2 ^ log) (matchShift c) |||
          BitVec.ofNat 64 ((if log = 35 then 32 else 0) + 2 * context s + 1))
      atbTr := Table.write m.atbTr j (putPage c (pageFrame c.pteLayout p log) (translateShift c) ||| low) }

/-- An access that no entry matches where the hardware reloads entries (20 R247): the page's entry is loaded and the
access made through it. -/
def reload (s : State) (k : Access) (g : MmuConfig) (ea : Word) : Attempt Place :=
  match walk s k ea with
  | .page p _ log =>
    let e := reloadEntry s g ea log
    translateHit { s.setMmu k ((mmuOf s k).load s k ea p log e) with draws := s.draws + 1 } k g ea e
  | .invalid => .raise (faultExc k) s
  | .unanswered => .raise .busError s

/-- A TLB miss is counted (60 R802), whether or not it raises. -/
def State.countMiss (s : State) (k : Access) : State :=
  match k with
  | .fetch => { s with itlbMisses := s.itlbMisses + 1 }
  | _ => { s with dtlbMisses := s.dtlbMisses + 1 }

/-- The translation procedure (20 R200, R207, R247): where an access at an effective address goes. -/
def translate (s : State) (k : Access) (ea : Word) : Attempt Place :=
  match translates s k, mmuConfig s.cfg k with
  | true, some g =>
    match lookup s k g ea with
    | .level1 => .refuse .tlbLevel1Match
    | .miss => if g.reload then reload (s.countMiss k) k g ea else .raise (missExc k) (s.countMiss k)
    | .hit e => translateHit s k g ea e
  | _, _ => .ok { pa := physical s.cfg ea, attributes := none } s

/-- What is left of the state `s` where an access whose translation led to `t` comes to nothing after all: no entry and
no table has changed, but free values were drawn and misses counted. -/
def State.abandon (s t : State) : State :=
  { s with draws := t.draws, dtlbMisses := t.dtlbMisses, itlbMisses := t.itlbMisses }

/-! ### Memory -/

/-- The bytes of memory at physical addresses, in order. -/
def readBytes (s : State) (pas : List Nat) : List Byte := pas.map (readByte s)

/-- The number whose bytes, most significant first, are given (20 R170). -/
def joinBytes : List Byte → Nat
  | [] => 0
  | b :: rest => b.toNat * 256 ^ rest.length + joinBytes rest

/-- The n low bytes of a number, most significant first (20 R170). -/
def splitBytes (v : Nat) : Nat → List Byte
  | 0 => []
  | n + 1 => BitVec.ofNat 8 (v / 256 ^ n) :: splitBytes v n

/-- The bytes of a datum in the current byte order of data: reversed where SR[LEE] is set (20 R170, R171). -/
def ordered (s : State) (l : List Byte) : List Byte := if srBit s srLEE then l.reverse else l

/-- The effective addresses of the bytes of an operand (20 R164: modulo 2^W). -/
def byteEas (c : Config) (ea : Word) (n : Nat) : List Word :=
  (List.range n).map fun i => narrow c (ea + BitVec.ofNat 64 i)

/-- The places of several effective addresses, each translated on its own (20 R166). -/
def translateAll (s : State) (k : Access) : List Word → Attempt (List Place)
  | [] => .ok [] s
  | ea :: rest =>
    (translate s k ea).andThen fun p s => (translateAll s k rest).andThen fun ps s => .ok (p :: ps) s

/-- An operand is naturally aligned (20 R165). -/
def aligned (ea : Word) (n : Nat) : Bool := ea.toNat % n == 0

/-- Steps 1 and 2 of an access (20 R175): alignment, then translation; the places of the bytes. An operand
that is not aligned is accessed byte by byte where the implementation supports it and `strict` does not forbid it
(20 R166); where one of its bytes raises an exception no translation entry has changed. -/
def dataAddresses (s : State) (k : Access) (ea : Word) (n : Nat) (strict : Bool) : Attempt (List Place) :=
  if aligned ea n then
    (translate s k ea).andThen fun p s => .ok ((List.range n).map p.offset) s
  else if s.cfg.unalignedSupported && !strict then
    match translateAll s k (byteEas s.cfg ea n) with
    | .raise e t => .raise e (s.abandon t)
    | x => x
  else .raise .alignment s

/-- The datum in memory at physical addresses, in the current byte order of data. -/
def datumAt (s : State) (pas : List Nat) : Word := BitVec.ofNat 64 (joinBytes (ordered s (readBytes s pas)))

/-- `MemRead(EA, n)` (20 R175): the datum and the physical addresses it was read at. Where the bus does not answer,
no translation entry has changed. -/
def memRead (s : State) (ea : Word) (n : Nat) (strict : Bool) : Attempt (Word × List Nat) :=
  (dataAddresses s .load ea n strict).andThen fun ps t =>
    if (addressesOf ps).all (mapped s.cfg) then .ok (datumAt t (addressesOf ps), addressesOf ps) t
    else .raise .busError (s.abandon t)

/-- Step 4 of a write (20 R175): the n low bytes of a datum are stored at places. -/
def State.storeAt (s : State) (ps : List Place) (n : Nat) (v : Word) : State :=
  s.storeBytes (ps.zip (ordered s (splitBytes v.toNat n)))

/-- `MemWrite(EA, n, v)` (20 R175). Where the bus does not answer, no translation entry has
changed. -/
def memWrite (s : State) (ea : Word) (n : Nat) (v : Word) : Attempt Unit :=
  (dataAddresses s .store ea n false).andThen fun ps t =>
    if (addressesOf ps).all (mapped s.cfg) then .ok () (t.storeAt ps n v) else .raise .busError (s.abandon t)

/-- The effective address of a load or store (42 R445). -/
def effective (s : State) (a : Reg) (i : Imm16) : Word := narrow s.cfg (gpr s a + sextImm s.cfg i)

/-! ### Fetching -/

/-- The older bytes a list holds for a physical address. -/
def olderBytes (l : List Host.Cell) (pa : Nat) : List Byte := (l.filter fun c => c.1 == pa).map (·.2)

/-- The bytes a fetch may get: the newest, what main memory may still hold behind a write-back data cache, and older
ones that an enabled instruction cache may hold unless the page is cache-inhibited (20 R270, R273, R286). Whatever
ICCR[EW] holds (20 R276) is the model's choice (logs 22 and 62). -/
def fetchCandidates (s : State) (p : Place) : List Byte :=
  readByte s p.pa ::
    (olderBytes s.unwritten p.pa ++ if srBit s srICE && p.cacheable then olderBytes s.stale p.pa else [])

/-- A fetched byte: the newest where no older one may be got, else one chosen by the n-th free value. -/
def fetchByte (s : State) (p : Place) (n : Nat) : Byte :=
  match fetchCandidates s p with
  | [b] => b
  | l => l.getD (Config.freeStale n % l.length) 0#8

/-- `Fetch(pc)` (20 R177): the word at pc, most significant byte first whatever SR[LEE] says. -/
def fetch (s : State) : Attempt (BitVec 32) :=
  if !aligned s.pc 4 then .raise .alignment s
  else
    (translate s .fetch s.pc).andThen fun p t =>
      if [p.pa, p.pa + 1, p.pa + 2, p.pa + 3].all (mapped s.cfg) then
        let byte (i : Nat) : Byte := fetchByte t (p.offset i) (t.draws + i)
        .ok (byte 0 ++ byte 1 ++ byte 2 ++ byte 3)
          { t with draws := if t.stale.isEmpty && t.unwritten.isEmpty then t.draws else t.draws + 4 }
      else .raise .busError (s.abandon t)

end Sys2Proof.Machine
end

