-- ==== Sys2Proof/Machine/Arith.lean ====
section
/-!
DEFINITION. Machine/Arith.lean: addition, logic, shifts, moves, multiplication, division and extension
(40_orbis_arith_logic).
-/

namespace Sys2Proof.Machine

/-- `n` of a register shift: rB[4:0], or rB[5:0] where W = 64 (30 R304). -/
def shiftAmount (c : Config) (b : Word) : Nat := b.toNat % c.xlen.bits

/-- `n` of an immediate shift: L, without its bit 5 where W = 32 (30 R304). -/
def shiftAmountImm (c : Config) (l : Imm6) : Nat := l.toNat % c.xlen.bits

/-- Shift left (40 R370). -/
def shiftLeft (c : Config) (x : Word) (n : Nat) : Word := narrow c (x <<< n)

/-- Logical shift right (40 R372). -/
def shiftRight (c : Config) (x : Word) (n : Nat) : Word := narrow c x >>> n

/-- Arithmetic shift right (40 R374). -/
def shiftArith (c : Config) (x : Word) (n : Nat) : Word :=
  match c.xlen with
  | .x32 => Word.ofLo32 ((Word.lo32 x).sshiftRight n)
  | .x64 => x.sshiftRight n

/-- Rotate right (40 R376). -/
def rotateRight (c : Config) (x : Word) (n : Nat) : Word :=
  if n = 0 then narrow c x else (narrow c x >>> n) ||| narrow c (x <<< (c.xlen.bits - n))

/-- The 1-based place of the lowest 1, or 0 (40 R381). -/
def findFirst (c : Config) (x : Word) : Word :=
  match (List.range c.xlen.bits).find? (fun k => x.getLsbD k) with
  | some k => BitVec.ofNat 64 (k + 1)
  | none => 0#64

/-- The 1-based place of the highest 1, or 0 (40 R382). -/
def findLast (c : Config) (x : Word) : Word :=
  match (List.range c.xlen.bits).reverse.find? (fun k => x.getLsbD k) with
  | some k => BitVec.ofNat 64 (k + 1)
  | none => 0#64

/-- The low `n` bits, sign-extended to W bits (40 R394). -/
def signFrom (c : Config) (n : Nat) (x : Word) : Word := narrow c ((x.setWidth n).signExtend 64)

/-- The low `n` bits, zero-extended (40 R394). -/
def zeroFrom (c : Config) (n : Nat) (x : Word) : Word := narrow c ((x.setWidth n).setWidth 64)

/-- `l.add` (40 R354): rD <- rA + rB; CY and OV. -/
def execLAdd (d a b : Reg) (s : State) : Result :=
  checked s .base [d, a, b] (arith s addCauses d (addArith s.cfg (gpr s a) (gpr s b) false))

/-- `l.addc` (40 R355): rD <- rA + rB + CY; CY and OV. -/
def execLAddc (d a b : Reg) (s : State) : Result :=
  checked s .base [d, a, b] (arith s addCauses d (addArith s.cfg (gpr s a) (gpr s b) (srBit s srCY)))

/-- `l.addi` (40 R356): rD <- rA + sext(I); CY and OV. -/
def execLAddi (d a : Reg) (i : Imm16) (s : State) : Result :=
  checked s .base [d, a] (arith s addCauses d (addArith s.cfg (gpr s a) (sextImm s.cfg i) false))

/-- `l.addic` (40 R357): rD <- rA + sext(I) + CY; CY and OV. -/
def execLAddic (d a : Reg) (i : Imm16) (s : State) : Result :=
  checked s .base [d, a] (arith s addCauses d (addArith s.cfg (gpr s a) (sextImm s.cfg i) (srBit s srCY)))

/-- `l.sub` (40 R358): rD <- rA - rB; CY is the borrow, OV. -/
def execLSub (d a b : Reg) (s : State) : Result :=
  checked s .base [d, a, b] (arith s addCauses d (subArith s.cfg (gpr s a) (gpr s b)))

/-- `l.and` (40 R360): bit-wise, no flag. -/
def execLAnd (d a b : Reg) (s : State) : Result :=
  checked s .base [d, a, b] (writeBack s d (gpr s a &&& gpr s b))

/-- `l.andi` (40 R361): the immediate is zero-extended. -/
def execLAndi (d a : Reg) (k : Imm16) (s : State) : Result :=
  checked s .base [d, a] (writeBack s d (gpr s a &&& zextImm k))

/-- `l.or` (40 R362): bit-wise, no flag. -/
def execLOr (d a b : Reg) (s : State) : Result :=
  checked s .base [d, a, b] (writeBack s d (gpr s a ||| gpr s b))

/-- `l.ori` (40 R363): the immediate is zero-extended. -/
def execLOri (d a : Reg) (k : Imm16) (s : State) : Result :=
  checked s .base [d, a] (writeBack s d (gpr s a ||| zextImm k))

/-- `l.xor` (40 R364): bit-wise, no flag. -/
def execLXor (d a b : Reg) (s : State) : Result :=
  checked s .base [d, a, b] (writeBack s d (gpr s a ^^^ gpr s b))

/-- `l.xori` (40 R365): the immediate is sign-extended. -/
def execLXori (d a : Reg) (i : Imm16) (s : State) : Result :=
  checked s .base [d, a] (writeBack s d (gpr s a ^^^ sextImm s.cfg i))

/-- `l.sll` (40 R370): zeros enter at the right. -/
def execLSll (d a b : Reg) (s : State) : Result :=
  checked s .base [d, a, b] (writeBack s d (shiftLeft s.cfg (gpr s a) (shiftAmount s.cfg (gpr s b))))

/-- `l.slli` (40 R371): zeros enter at the right. -/
def execLSlli (d a : Reg) (l : Imm6) (s : State) : Result :=
  checked s .base [d, a] (writeBack s d (shiftLeft s.cfg (gpr s a) (shiftAmountImm s.cfg l)))

/-- `l.srl` (40 R372): zeros enter at the left. -/
def execLSrl (d a b : Reg) (s : State) : Result :=
  checked s .base [d, a, b] (writeBack s d (shiftRight s.cfg (gpr s a) (shiftAmount s.cfg (gpr s b))))

/-- `l.srli` (40 R373): zeros enter at the left. -/
def execLSrli (d a : Reg) (l : Imm6) (s : State) : Result :=
  checked s .base [d, a] (writeBack s d (shiftRight s.cfg (gpr s a) (shiftAmountImm s.cfg l)))

/-- `l.sra` (40 R374): the sign enters at the left. -/
def execLSra (d a b : Reg) (s : State) : Result :=
  checked s .base [d, a, b] (writeBack s d (shiftArith s.cfg (gpr s a) (shiftAmount s.cfg (gpr s b))))

/-- `l.srai` (40 R375): the sign enters at the left. -/
def execLSrai (d a : Reg) (l : Imm6) (s : State) : Result :=
  checked s .base [d, a] (writeBack s d (shiftArith s.cfg (gpr s a) (shiftAmountImm s.cfg l)))

/-- `l.ror` (40 R376): what leaves at the right enters at the left. -/
def execLRor (d a b : Reg) (s : State) : Result :=
  checked s (.classII .ror) [d, a, b] (writeBack s d (rotateRight s.cfg (gpr s a) (shiftAmount s.cfg (gpr s b))))

/-- `l.rori` (40 R377): what leaves at the right enters at the left. -/
def execLRori (d a : Reg) (l : Imm6) (s : State) : Result :=
  checked s (.classII .rori) [d, a] (writeBack s d (rotateRight s.cfg (gpr s a) (shiftAmountImm s.cfg l)))

/-- `l.cmov` (40 R380): rD <- F ? rA : rB. -/
def execLCmov (d a b : Reg) (s : State) : Result :=
  checked s (.classII .cmov) [d, a, b] (writeBack s d (if srBit s srF then gpr s a else gpr s b))

/-- `l.ff1` (40 R381): the 1-based place of the lowest 1, or 0. -/
def execLFf1 (d a : Reg) (s : State) : Result :=
  checked s (.classII .ff1) [d, a] (writeBack s d (findFirst s.cfg (gpr s a)))

/-- `l.fl1` (40 R382): the 1-based place of the highest 1, or 0. -/
def execLFl1 (d a : Reg) (s : State) : Result :=
  checked s (.classII .fl1) [d, a] (writeBack s d (findLast s.cfg (gpr s a)))

/-- `l.movhi` (40 R383): rD <- zext(K) << 16. -/
def execLMovhi (d : Reg) (k : Imm16) (s : State) : Result :=
  checked s .base [d] (writeBack s d (zextImm k <<< 16))

/-- `l.mul` (40 R385): signed product, OV. -/
def execLMul (d a b : Reg) (s : State) : Result :=
  checked s .base [d, a, b] (arith s mulCauses d (mulArith s.cfg (gpr s a) (gpr s b)))

/-- `l.mulu` (40 R386): unsigned product, CY. -/
def execLMulu (d a b : Reg) (s : State) : Result :=
  checked s .base [d, a, b] (arith s mulCauses d (muluArith s.cfg (gpr s a) (gpr s b)))

/-- `l.muli` (40 R387): signed product with sext(I), OV. -/
def execLMuli (d a : Reg) (i : Imm16) (s : State) : Result :=
  checked s (.classII .muli) [d, a] (arith s mulCauses d (mulArith s.cfg (gpr s a) (sextImm s.cfg i)))

/-- `l.div` (40 R390): signed quotient; OV tells a zero divisor. -/
def execLDiv (d a b : Reg) (s : State) : Result :=
  checked s (.classII .div) [d, a, b] (arith s divCauses d (divArith s.cfg (gpr s a) (gpr s b)))

/-- `l.divu` (40 R391): unsigned quotient; CY tells a zero divisor. -/
def execLDivu (d a b : Reg) (s : State) : Result :=
  checked s (.classII .divu) [d, a, b] (arith s divCauses d (divuArith s.cfg (gpr s a) (gpr s b)))

/-- `l.exths` (40 R395): the low 16 bits, sign-extended. -/
def execLExths (d a : Reg) (s : State) : Result :=
  checked s (.classII .exths) [d, a] (writeBack s d (signFrom s.cfg 16 (gpr s a)))

/-- `l.extbs` (40 R396): the low 8 bits, sign-extended. -/
def execLExtbs (d a : Reg) (s : State) : Result :=
  checked s (.classII .extbs) [d, a] (writeBack s d (signFrom s.cfg 8 (gpr s a)))

/-- `l.exthz` (40 R397): the low 16 bits, zero-extended. -/
def execLExthz (d a : Reg) (s : State) : Result :=
  checked s (.classII .exthz) [d, a] (writeBack s d (zeroFrom s.cfg 16 (gpr s a)))

/-- `l.extbz` (40 R398): the low 8 bits, zero-extended. -/
def execLExtbz (d a : Reg) (s : State) : Result :=
  checked s (.classII .extbz) [d, a] (writeBack s d (zeroFrom s.cfg 8 (gpr s a)))

/-- `l.extws` (40 R399): the low 32 bits, sign-extended. -/
def execLExtws (d a : Reg) (s : State) : Result :=
  checked s (.classII .extws) [d, a] (writeBack s d (signFrom s.cfg 32 (gpr s a)))

/-- `l.extwz` (40 R400): the low 32 bits, zero-extended. -/
def execLExtwz (d a : Reg) (s : State) : Result :=
  checked s (.classII .extwz) [d, a] (writeBack s d (zeroFrom s.cfg 32 (gpr s a)))

end Sys2Proof.Machine
end

