-- ==== Sys2Proof/Machine/Compare.lean ====
section
/-!
DEFINITION. Machine/Compare.lean: the twenty set-flag instructions (41_orbis_compare).
-/

namespace Sys2Proof.Machine

/-- The ten conditions on W-bit operands (41 R420). -/
def cmpEq (c : Config) (a b : Word) : Bool := decide (unsignedW c a = unsignedW c b)

/-- See `cmpEq`. -/
def cmpNe (c : Config) (a b : Word) : Bool := decide (unsignedW c a ≠ unsignedW c b)

/-- See `cmpEq`. -/
def cmpGtu (c : Config) (a b : Word) : Bool := decide (unsignedW c b < unsignedW c a)

/-- See `cmpEq`. -/
def cmpGeu (c : Config) (a b : Word) : Bool := decide (unsignedW c b ≤ unsignedW c a)

/-- See `cmpEq`. -/
def cmpLtu (c : Config) (a b : Word) : Bool := decide (unsignedW c a < unsignedW c b)

/-- See `cmpEq`. -/
def cmpLeu (c : Config) (a b : Word) : Bool := decide (unsignedW c a ≤ unsignedW c b)

/-- See `cmpEq`. -/
def cmpGts (c : Config) (a b : Word) : Bool := decide (signedW c b < signedW c a)

/-- See `cmpEq`. -/
def cmpGes (c : Config) (a b : Word) : Bool := decide (signedW c b ≤ signedW c a)

/-- See `cmpEq`. -/
def cmpLts (c : Config) (a b : Word) : Bool := decide (signedW c a < signedW c b)

/-- See `cmpEq`. -/
def cmpLes (c : Config) (a b : Word) : Bool := decide (signedW c a ≤ signedW c b)

/-- `l.sfeq` (41 R421): equal. -/
def execLSfeq (a b : Reg) (s : State) : Result :=
  checked s .base [a, b] (writeFlag s (cmpEq s.cfg (gpr s a) (gpr s b)))

/-- `l.sfne` (41 R422): not equal. -/
def execLSfne (a b : Reg) (s : State) : Result :=
  checked s .base [a, b] (writeFlag s (cmpNe s.cfg (gpr s a) (gpr s b)))

/-- `l.sfgtu` (41 R423): greater, unsigned. -/
def execLSfgtu (a b : Reg) (s : State) : Result :=
  checked s .base [a, b] (writeFlag s (cmpGtu s.cfg (gpr s a) (gpr s b)))

/-- `l.sfgeu` (41 R424): greater or equal, unsigned. -/
def execLSfgeu (a b : Reg) (s : State) : Result :=
  checked s .base [a, b] (writeFlag s (cmpGeu s.cfg (gpr s a) (gpr s b)))

/-- `l.sfltu` (41 R425): less, unsigned. -/
def execLSfltu (a b : Reg) (s : State) : Result :=
  checked s .base [a, b] (writeFlag s (cmpLtu s.cfg (gpr s a) (gpr s b)))

/-- `l.sfleu` (41 R426): less or equal, unsigned. -/
def execLSfleu (a b : Reg) (s : State) : Result :=
  checked s .base [a, b] (writeFlag s (cmpLeu s.cfg (gpr s a) (gpr s b)))

/-- `l.sfgts` (41 R427): greater, signed. -/
def execLSfgts (a b : Reg) (s : State) : Result :=
  checked s .base [a, b] (writeFlag s (cmpGts s.cfg (gpr s a) (gpr s b)))

/-- `l.sfges` (41 R428): greater or equal, signed. -/
def execLSfges (a b : Reg) (s : State) : Result :=
  checked s .base [a, b] (writeFlag s (cmpGes s.cfg (gpr s a) (gpr s b)))

/-- `l.sflts` (41 R429): less, signed. -/
def execLSflts (a b : Reg) (s : State) : Result :=
  checked s .base [a, b] (writeFlag s (cmpLts s.cfg (gpr s a) (gpr s b)))

/-- `l.sfles` (41 R430): less or equal, signed. -/
def execLSfles (a b : Reg) (s : State) : Result :=
  checked s .base [a, b] (writeFlag s (cmpLes s.cfg (gpr s a) (gpr s b)))

/-- `l.sfeqi` (41 R431): equal; the immediate is sign-extended. -/
def execLSfeqi (a : Reg) (i : Imm16) (s : State) : Result :=
  checked s .base [a] (writeFlag s (cmpEq s.cfg (gpr s a) (sextImm s.cfg i)))

/-- `l.sfnei` (41 R432): not equal; the immediate is sign-extended. -/
def execLSfnei (a : Reg) (i : Imm16) (s : State) : Result :=
  checked s .base [a] (writeFlag s (cmpNe s.cfg (gpr s a) (sextImm s.cfg i)))

/-- `l.sfgtui` (41 R433): greater, unsigned; the immediate is sign-extended. -/
def execLSfgtui (a : Reg) (i : Imm16) (s : State) : Result :=
  checked s .base [a] (writeFlag s (cmpGtu s.cfg (gpr s a) (sextImm s.cfg i)))

/-- `l.sfgeui` (41 R434): greater or equal, unsigned; the immediate is sign-extended. -/
def execLSfgeui (a : Reg) (i : Imm16) (s : State) : Result :=
  checked s .base [a] (writeFlag s (cmpGeu s.cfg (gpr s a) (sextImm s.cfg i)))

/-- `l.sfltui` (41 R435): less, unsigned; the immediate is sign-extended. -/
def execLSfltui (a : Reg) (i : Imm16) (s : State) : Result :=
  checked s .base [a] (writeFlag s (cmpLtu s.cfg (gpr s a) (sextImm s.cfg i)))

/-- `l.sfleui` (41 R436): less or equal, unsigned; the immediate is sign-extended. -/
def execLSfleui (a : Reg) (i : Imm16) (s : State) : Result :=
  checked s .base [a] (writeFlag s (cmpLeu s.cfg (gpr s a) (sextImm s.cfg i)))

/-- `l.sfgtsi` (41 R437): greater, signed; the immediate is sign-extended. -/
def execLSfgtsi (a : Reg) (i : Imm16) (s : State) : Result :=
  checked s .base [a] (writeFlag s (cmpGts s.cfg (gpr s a) (sextImm s.cfg i)))

/-- `l.sfgesi` (41 R438): greater or equal, signed; the immediate is sign-extended. -/
def execLSfgesi (a : Reg) (i : Imm16) (s : State) : Result :=
  checked s .base [a] (writeFlag s (cmpGes s.cfg (gpr s a) (sextImm s.cfg i)))

/-- `l.sfltsi` (41 R439): less, signed; the immediate is sign-extended. -/
def execLSfltsi (a : Reg) (i : Imm16) (s : State) : Result :=
  checked s .base [a] (writeFlag s (cmpLts s.cfg (gpr s a) (sextImm s.cfg i)))

/-- `l.sflesi` (41 R440): less or equal, signed; the immediate is sign-extended. -/
def execLSflesi (a : Reg) (i : Imm16) (s : State) : Result :=
  checked s .base [a] (writeFlag s (cmpLes s.cfg (gpr s a) (sextImm s.cfg i)))

end Sys2Proof.Machine
end

