-- ==== Sys2Proof/Machine/Control.lean ====
section
/-!
DEFINITION. Machine/Control.lean: jumps, branches and the return from exception (43_orbis_control).
-/

namespace Sys2Proof.Machine

/-- r9, the link register (10_state R47). -/
def linkReg : Reg := 9#5

/-- The return address `l.jal` and `l.jalr` leave in r9 (43 R484, R486). -/
def linkAddress (s : State) : Word := narrow s.cfg (s.pc + if s.cfg.nd then 4#64 else 8#64)

/-- The target of a program-counter-relative jump (20 R163). -/
def jumpTarget (s : State) (n : Imm26) : Word := narrow s.cfg (s.pc + jumpOffset s.cfg n)

/-- A user-mode access to what only the supervisor may access (44 R515): refused, or the illegal instruction exception,
or the instruction completes as `ignored` says. -/
def userViolation (s : State) (ignored : State) : Result :=
  match s.cfg.userSpr with
  | .refuse => .refused .userViolation
  | .illegal => illegal s
  | .ignore => .next ignored

/-- `l.bf` (43 R481): branches where F is set. -/
def execLBf (n : Imm26) (s : State) : Result :=
  checked s .base [] (transfer s (if srBit s srF then s.branchTo (jumpTarget s n) else s.fallThrough))

/-- `l.bnf` (43 R482): branches where F is clear. -/
def execLBnf (n : Imm26) (s : State) : Result :=
  checked s .base [] (transfer s (if srBit s srF then s.fallThrough else s.branchTo (jumpTarget s n)))

/-- `l.j` (43 R483): jumps. -/
def execLJ (n : Imm26) (s : State) : Result :=
  checked s .base [] (transfer s (s.branchTo (jumpTarget s n)))

/-- `l.jal` (43 R484): jumps; r9 is the return address. -/
def execLJal (n : Imm26) (s : State) : Result :=
  checked s .base [] (transfer s ((s.setGpr linkReg (linkAddress s)).branchTo (jumpTarget s n)))

/-- `l.jr` (43 R485): jumps to rB. -/
def execLJr (b : Reg) (s : State) : Result :=
  checked s .base [b] (transfer s (s.branchTo (gpr s b)))

/-- `l.jalr` (43 R486): jumps to rB, read before r9 is written. -/
def execLJalr (b : Reg) (s : State) : Result :=
  checked s .base [b] (transfer s ((s.setGpr linkReg (linkAddress s)).branchTo (gpr s b)))

/-- `l.rfe` (43 R489): restores pc and SR; privileged like a supervisor register (44 R515). -/
def execLRfe (s : State) : Result :=
  checked s .base [] <|
    if !srBit s srSM then userViolation s s.advance
    else if s.ds.isSome then .refused .jumpInDelaySlot
    else returnFrom s

end Sys2Proof.Machine
end

