-- ==== Sys2Proof/Machine/LoadStore.lean ====
section
/-!
DEFINITION. Machine/LoadStore.lean: loads and stores (42_orbis_load_store).
-/

namespace Sys2Proof.Machine

/-- A load of `n` bytes (42 R446); the datum reaches rD through `ext`. -/
def loadWith (s : State) (d : Reg) (ea : Word) (n : Nat) (ext : Word → Word) : Result :=
  (memRead s ea n false).finish ea fun r t => writeBack t d (ext r.1)

/-- `l.lwa` (42 R458): the load, then the reservation on the physical address of the word. -/
def loadReserve (s : State) (d : Reg) (ea : Word) : Result :=
  (memRead s ea 4 true).finish ea fun r t => writeBack { t with resv := r.2.head? } d r.1

/-- A store of the `n` low bytes of a datum (42 R447). -/
def storeWith (s : State) (ea : Word) (n : Nat) (v : Word) : Result :=
  (memWrite s ea n v).finish ea fun _ t => .next t.advance

/-- `l.swa` (42 R468): alignment and translation first; the store only where the reservation is for this word; then
F tells whether it was, and the reservation is gone. Where nothing is stored no access is performed (log 27). -/
def storeConditional (s : State) (ea : Word) (v : Word) : Result :=
  (dataAddresses s .store ea 4 true).finish ea fun ps t =>
    if t.resv = (addressesOf ps).head? ∧ t.resv ≠ none then
      if (addressesOf ps).all (mapped t.cfg) then writeFlag { t.storeAt ps 4 v with resv := none } true
      else enter .busError (some ea) (s.abandon t)
    else writeFlag { s.abandon t with resv := none } false

/-- `l.ld` (42 R450): a double word. -/
def execLLd (d a : Reg) (i : Imm16) (s : State) : Result :=
  checked s .doubleWord [d, a] (loadWith s d (effective s a i) 8 id)

/-- `l.lwz` (42 R451): a word, zero-extended. -/
def execLLwz (d a : Reg) (i : Imm16) (s : State) : Result :=
  checked s .base [d, a] (loadWith s d (effective s a i) 4 id)

/-- `l.lws` (42 R452): a word, sign-extended. -/
def execLLws (d a : Reg) (i : Imm16) (s : State) : Result :=
  checked s .base [d, a] (loadWith s d (effective s a i) 4 (signFrom s.cfg 32))

/-- `l.lbz` (42 R453): a byte, zero-extended. -/
def execLLbz (d a : Reg) (i : Imm16) (s : State) : Result :=
  checked s .base [d, a] (loadWith s d (effective s a i) 1 id)

/-- `l.lbs` (42 R454): a byte, sign-extended. -/
def execLLbs (d a : Reg) (i : Imm16) (s : State) : Result :=
  checked s .base [d, a] (loadWith s d (effective s a i) 1 (signFrom s.cfg 8))

/-- `l.lhz` (42 R455): a half-word, zero-extended. -/
def execLLhz (d a : Reg) (i : Imm16) (s : State) : Result :=
  checked s .base [d, a] (loadWith s d (effective s a i) 2 id)

/-- `l.lhs` (42 R456): a half-word, sign-extended. -/
def execLLhs (d a : Reg) (i : Imm16) (s : State) : Result :=
  checked s .base [d, a] (loadWith s d (effective s a i) 2 (signFrom s.cfg 16))

/-- `l.lwa` (42 R458): a word, zero-extended, and the reservation. -/
def execLLwa (d a : Reg) (i : Imm16) (s : State) : Result :=
  checked s (.classII .lwa) [d, a] (loadReserve s d (effective s a i))

/-- `l.sd` (42 R460): a double word. -/
def execLSd (a b : Reg) (i : Imm16) (s : State) : Result :=
  checked s .doubleWord [a, b] (storeWith s (effective s a i) 8 (gpr s b))

/-- `l.sw` (42 R461): the low word. -/
def execLSw (a b : Reg) (i : Imm16) (s : State) : Result :=
  checked s .base [a, b] (storeWith s (effective s a i) 4 (gpr s b))

/-- `l.sb` (42 R462): the low byte. -/
def execLSb (a b : Reg) (i : Imm16) (s : State) : Result :=
  checked s .base [a, b] (storeWith s (effective s a i) 1 (gpr s b))

/-- `l.sh` (42 R463): the low half-word. -/
def execLSh (a b : Reg) (i : Imm16) (s : State) : Result :=
  checked s .base [a, b] (storeWith s (effective s a i) 2 (gpr s b))

/-- `l.swa` (42 R468): the low word where the reservation still holds; F tells. -/
def execLSwa (a b : Reg) (i : Imm16) (s : State) : Result :=
  checked s (.classII .swa) [a, b] (storeConditional s (effective s a i) (gpr s b))

end Sys2Proof.Machine
end

