-- ==== Sys2Proof/Machine/Mac.lean ====
section
/-!
DEFINITION. Machine/Mac.lean: the multiply-accumulate unit (44_orbis_mac_system).
-/

namespace Sys2Proof.Machine

/-- `MAC`, MACHI above MACLO (10_state R90). -/
def macValue (s : State) : BitVec 64 := s.machi ++ s.maclo

/-- `MAC <- v`. -/
def State.setMac (s : State) (v : BitVec 64) : State :=
  { s with machi := v.extractLsb' 32 32, maclo := v.extractLsb' 0 32 }

/-- MAC plus a signed product: exact sum, OV where it is not a signed 64-bit number (44 R500). -/
def macSigned (s : State) (p : Int) : Arith :=
  let t := (macValue s).toInt + p
  { value := BitVec.ofInt 64 t, cy := none, ov := some (!fitsSigned 64 t) }

/-- MAC plus an unsigned product: exact sum, CY where it is not an unsigned 64-bit number (44 R503, R504). -/
def macUnsigned (s : State) (p : Int) : Arith :=
  let t := ((macValue s).toNat : Int) + p
  { value := BitVec.ofInt 64 t, cy := some (!fitsUnsigned 64 t), ov := none }

/-- A signed product alone (44 R507). -/
def muldSigned (p : Int) : Arith := { value := BitVec.ofInt 64 p, cy := none, ov := some (!fitsSigned 64 p) }

/-- An unsigned product alone (44 R508). -/
def muldUnsigned (p : Int) : Arith := { value := BitVec.ofInt 64 p, cy := some (!fitsUnsigned 64 p), ov := none }

/-- MAC and the flags receive a result; the range exception by OVMACADDE or CYMACADDE (40 R352). -/
def accumulate (s : State) (r : Arith) : Result := arithWith s macCauses r.cy r.ov fun t => t.setMac r.value

/-- MAC and the flags receive a product; the range exception by OVMULE or CYMULE (40 R352). -/
def multiplyDouble (s : State) (r : Arith) : Result := arithWith s mulCauses r.cy r.ov fun t => t.setMac r.value

/-- What `l.macrc` reads: MACLO, or all of MAC where W = 64 (44 R506). -/
def macRead (s : State) : Word :=
  match s.cfg.xlen with
  | .x32 => Word.ofLo32 s.maclo
  | .x64 => macValue s

/-- `l.mac` (44 R500): MAC <- MAC + rA * rB, signed; OV. -/
def execLMac (a b : Reg) (s : State) : Result :=
  checked s (.macUnit .mac) [a, b]
    (accumulate s (macSigned s (signedW s.cfg (gpr s a) * signedW s.cfg (gpr s b))))

/-- `l.maci` (44 R501): MAC <- MAC + rA * sext(I), signed; OV. -/
def execLMaci (a : Reg) (i : Imm16) (s : State) : Result :=
  checked s (.macUnit .maci) [a]
    (accumulate s (macSigned s (signedW s.cfg (gpr s a) * signedW s.cfg (sextImm s.cfg i))))

/-- `l.msb` (44 R502): MAC <- MAC - rA * rB, signed; OV. -/
def execLMsb (a b : Reg) (s : State) : Result :=
  checked s (.macUnit .msb) [a, b]
    (accumulate s (macSigned s (-(signedW s.cfg (gpr s a) * signedW s.cfg (gpr s b)))))

/-- `l.macu` (44 R503): MAC <- MAC + rA * rB, unsigned; CY. -/
def execLMacu (a b : Reg) (s : State) : Result :=
  checked s (.macUnit .macu) [a, b]
    (accumulate s (macUnsigned s ((unsignedW s.cfg (gpr s a) : Int) * unsignedW s.cfg (gpr s b))))

/-- `l.msbu` (44 R504): MAC <- MAC - rA * rB, unsigned; CY is the borrow. -/
def execLMsbu (a b : Reg) (s : State) : Result :=
  checked s (.macUnit .msbu) [a, b]
    (accumulate s (macUnsigned s (-((unsignedW s.cfg (gpr s a) : Int) * unsignedW s.cfg (gpr s b)))))

/-- `l.macrc` (44 R506): rD <- MAC, which is cleared. -/
def execLMacrc (d : Reg) (s : State) : Result :=
  checked s (.macUnit .macrc) [d] (.next ((s.setGpr d (macRead s)).setMac 0#64).advance)

/-- `l.muld` (44 R507): MAC <- rA * rB, signed; OV. -/
def execLMuld (a b : Reg) (s : State) : Result :=
  checked s (.macUnit .muld) [a, b]
    (multiplyDouble s (muldSigned (signedW s.cfg (gpr s a) * signedW s.cfg (gpr s b))))

/-- `l.muldu` (44 R508): MAC <- rA * rB, unsigned; CY. -/
def execLMuldu (a b : Reg) (s : State) : Result :=
  checked s (.macUnit .muldu) [a, b]
    (multiplyDouble s (muldUnsigned ((unsignedW s.cfg (gpr s a) : Int) * unsignedW s.cfg (gpr s b))))

end Sys2Proof.Machine
end

