-- ==== Sys2Proof/Machine/Float.lean ====
section
/-!
DEFINITION. Machine/Float.lean: the floating-point operations of 45 R541 to R545 on exact integers: every finite number
is a natural number times a power of two, results are computed exactly and rounded once.
-/

namespace Sys2Proof.Machine

/-! ### Formats and values -/

/-- The widths of the exponent and of the fraction (45 R541). -/
structure FloatFormat where
  expBits : Nat
  fracBits : Nat
deriving DecidableEq, Repr

/-- Single precision (45 R541). -/
def singleFormat : FloatFormat := { expBits := 8, fracBits := 23 }

/-- Double precision (45 R541). -/
def doubleFormat : FloatFormat := { expBits := 11, fracBits := 52 }

/-- The width of a format. -/
def FloatFormat.width (f : FloatFormat) : Nat := 1 + f.expBits + f.fracBits

/-- The exponent bias. -/
def FloatFormat.bias (f : FloatFormat) : Int := 2 ^ (f.expBits - 1) - 1

/-- The exponent of the smallest normal number. -/
def FloatFormat.emin (f : FloatFormat) : Int := 1 - f.bias

/-- Exponent and fraction of infinity, as one number. -/
def FloatFormat.infCode (f : FloatFormat) : Nat := (2 ^ f.expBits - 1) * 2 ^ f.fracBits

/-- What a pattern stands for; `finite neg m e` is m * 2^e, negated where `neg`. -/
inductive FloatValue where
  | nan (signaling : Bool)
  | infinity (neg : Bool)
  | finite (neg : Bool) (m : Nat) (e : Int)
deriving DecidableEq, Repr

/-- The pattern of a sign and of an exponent and fraction taken as one number. -/
def FloatFormat.pattern (f : FloatFormat) (neg : Bool) (code : Nat) : Word :=
  BitVec.ofNat 64 ((if neg then 2 ^ (f.expBits + f.fracBits) else 0) + code)

/-- What the low bits of a register stand for (45 R541); subnormal operands may be flushed to zero. -/
def floatValue (c : Config) (f : FloatFormat) (x : Word) : FloatValue :=
  let frac := x.toNat % 2 ^ f.fracBits
  let exp := x.toNat / 2 ^ f.fracBits % 2 ^ f.expBits
  let neg := x.getLsbD (f.expBits + f.fracBits)
  if exp = 2 ^ f.expBits - 1 then
    if frac = 0 then .infinity neg else .nan (!x.getLsbD (f.fracBits - 1))
  else if exp = 0 then
    match c.denormals with
    | .ieee => .finite neg frac (f.emin - f.fracBits)
    | .flush => .finite neg 0 0
  else .finite neg (2 ^ f.fracBits + frac) (exp - f.bias - f.fracBits)

/-! ### Flags (45 R544): bit i of a set of flags is bit i + 3 of FPCSR -/

/-- Result overflowed. -/
def flagOvf : BitVec 9 := 0x001#9
/-- Result underflowed. -/
def flagUnf : BitVec 9 := 0x002#9
/-- Result a quiet NaN. -/
def flagQnf : BitVec 9 := 0x008#9
/-- Result zero. -/
def flagZf : BitVec 9 := 0x010#9
/-- Result inexact. -/
def flagIxf : BitVec 9 := 0x020#9
/-- Invalid operation. -/
def flagIvf : BitVec 9 := 0x040#9
/-- Result infinite. -/
def flagInf : BitVec 9 := 0x080#9
/-- Division by zero. -/
def flagDzf : BitVec 9 := 0x100#9

/-- A flag where a condition holds. -/
def flagIf (b : Bool) (f : BitVec 9) : BitVec 9 := if b then f else 0#9

/-- A result and the flags its instruction raises. -/
structure FloatResult where
  value : Word
  flags : BitVec 9
deriving DecidableEq, Repr

/-! ### Rounding (45 R542) -/

/-- FPCSR[RM]. -/
inductive Rounding where
  | nearest
  | zero
  | up
  | down
deriving DecidableEq, Repr

/-- The rounding mode FPCSR selects. -/
def roundingOf (fpcsr : BitVec 32) : Rounding :=
  match fpcsr.getLsbD 2, fpcsr.getLsbD 1 with
  | false, false => .nearest
  | false, true => .zero
  | true, false => .up
  | true, true => .down

/-- Whether `sig + rem / unit`, of the given sign, is rounded away from zero. -/
def roundsAway (r : Rounding) (neg : Bool) (sig rem unit : Nat) : Bool :=
  match r with
  | .nearest => decide (unit < 2 * rem) || (decide (2 * rem = unit) && decide (sig % 2 = 1))
  | .zero => false
  | .up => !neg && decide (rem ≠ 0)
  | .down => neg && decide (rem ≠ 0)

/-- An integer part, and whether something was left over. -/
structure Rounded where
  sig : Nat
  inexact : Bool
deriving DecidableEq, Repr

/-- m * 2^e in units of 2^q, rounded to an integer. -/
def roundTo (r : Rounding) (neg : Bool) (m : Nat) (e q : Int) : Rounded :=
  if q ≤ e then { sig := m * 2 ^ (e - q).toNat, inexact := false }
  else
    let unit := 2 ^ (q - e).toNat
    { sig := m / unit + (roundsAway r neg (m / unit) (m % unit) unit).toNat, inexact := decide (m % unit ≠ 0) }

/-- Zero with a sign. -/
def zeroResult (f : FloatFormat) (neg : Bool) : FloatResult := { value := f.pattern neg 0, flags := flagZf }

/-- Infinity with a sign. -/
def infResult (f : FloatFormat) (neg : Bool) (flags : BitVec 9) : FloatResult :=
  { value := f.pattern neg f.infCode, flags := flags ||| flagInf }

/-- The bits of a register that an operand of the format takes (45 R540): the others do not matter (R576 (e)). -/
def FloatFormat.cut (f : FloatFormat) (x : Word) : Word := BitVec.ofNat 64 (x.toNat % 2 ^ f.width)

/-- A quiet NaN: exponent all ones and the first bit of the fraction set; the other bits are free (45 R541, log 11). -/
def nanResult (f : FloatFormat) (op : Nat) (a b : Word) (flags : BitVec 9) : FloatResult :=
  let free := (Config.freeNan (op + 16 * f.width) (f.cut a) (f.cut b)).toNat % 2 ^ f.width
  { value := BitVec.ofNat 64 free ||| f.pattern false (f.infCode + 2 ^ (f.fracBits - 1)), flags := flags ||| flagQnf }

/-- An invalid operation (45 R544). -/
def invalidResult (f : FloatFormat) (op : Nat) (a b : Word) : FloatResult := nanResult f op a b flagIvf

/-- The result beyond the largest finite number (45 R544, R550). -/
def overflowResult (f : FloatFormat) (r : Rounding) (neg : Bool) : FloatResult :=
  let away := match r with
    | .nearest => true
    | .zero => false
    | .up => !neg
    | .down => neg
  if away then infResult f neg (flagOvf ||| flagIxf)
  else { value := f.pattern neg (f.infCode - 1), flags := flagOvf ||| flagIxf }

/-- The number m * 2^e (m not zero) lies below the smallest normal number once rounded as if the exponent had no
bound. -/
def tinyAfter (f : FloatFormat) (r : Rounding) (neg : Bool) (m : Nat) (e : Int) : Bool :=
  let top : Int := e + Nat.log2 m
  decide (top < f.emin) &&
    !(decide (top + 1 = f.emin) && decide ((roundTo r neg m e (top - f.fracBits)).sig = 2 ^ (f.fracBits + 1)))

/-- The number m * 2^e (m not zero) is tiny, before or after rounding as the implementation detects it (45 R541). -/
def isTiny (f : FloatFormat) (r : Rounding) (neg : Bool) (m : Nat) (e : Int) : Bool :=
  decide (e + Nat.log2 m < f.emin) && (tinyAfter f r neg m e || !Config.freeTininess)

/-- The number m * 2^e, rounded to the format, with the flags of 45 R544. -/
def roundResult (c : Config) (f : FloatFormat) (r : Rounding) (neg : Bool) (m : Nat) (e : Int) : FloatResult :=
  if m = 0 then zeroResult f neg
  else
    let top := max (e + Nat.log2 m) f.emin
    let x := roundTo r neg m e (top - f.fracBits)
    let code := (top - f.emin).toNat * 2 ^ f.fracBits + x.sig
    if f.infCode ≤ code then overflowResult f r neg
    else if c.denormals = .flush ∧ code < 2 ^ f.fracBits then
      { value := f.pattern neg 0, flags := flagUnf ||| flagIxf ||| flagZf }
    else
      { value := f.pattern neg code
        flags := flagIf x.inexact flagIxf ||| flagIf (x.inexact && isTiny f r neg m e) flagUnf |||
          flagIf (decide (code = 0)) flagZf }

/-! ### Arithmetic -/

/-- A NaN operand gives a quiet NaN, invalid where an operand is signalling (45 R544). -/
def nanOperand (f : FloatFormat) (op : Nat) (a b : Word) (signaling : Bool) : FloatResult :=
  nanResult f op a b (flagIf signaling flagIvf)

/-- An exact finite number in units of 2^q. -/
def signedUnits (neg : Bool) (m : Nat) (e q : Int) : Int :=
  if neg then -((m * 2 ^ (e - q).toNat : Nat) : Int) else ((m * 2 ^ (e - q).toNat : Nat) : Int)

/-- The sum of two values; a sum that is exactly zero is -0 where both are negative or the mode rounds down (45
R546). -/
def floatSum (c : Config) (f : FloatFormat) (r : Rounding) (op : Nat) (a b : Word) (x y : FloatValue) : FloatResult :=
  match x, y with
  | .nan p, .nan q => nanOperand f op a b (p || q)
  | .nan p, _ => nanOperand f op a b p
  | _, .nan q => nanOperand f op a b q
  | .infinity n, .infinity n' => if n = n' then infResult f n 0#9 else invalidResult f op a b
  | .infinity n, _ => infResult f n 0#9
  | _, .infinity n => infResult f n 0#9
  | .finite n m e, .finite n' m' e' =>
    let q := min e e'
    let t := signedUnits n m e q + signedUnits n' m' e' q
    if t = 0 then zeroResult f (if n = n' then n else decide (r = .down))
    else roundResult c f r (decide (t < 0)) t.natAbs q

/-- The value with its sign changed. -/
def FloatValue.negated : FloatValue → FloatValue
  | .nan p => .nan p
  | .infinity n => .infinity (!n)
  | .finite n m e => .finite (!n) m e

/-- `add` (45 R546). -/
def floatAdd (c : Config) (f : FloatFormat) (r : Rounding) (a b : Word) : FloatResult :=
  floatSum c f r 0 a b (floatValue c f a) (floatValue c f b)

/-- `sub` (45 R548). -/
def floatSub (c : Config) (f : FloatFormat) (r : Rounding) (a b : Word) : FloatResult :=
  floatSum c f r 1 a b (floatValue c f a) (floatValue c f b).negated

/-- `mul` (45 R550). -/
def floatMul (c : Config) (f : FloatFormat) (r : Rounding) (a b : Word) : FloatResult :=
  match floatValue c f a, floatValue c f b with
  | .nan p, .nan q => nanOperand f 2 a b (p || q)
  | .nan p, _ => nanOperand f 2 a b p
  | _, .nan q => nanOperand f 2 a b q
  | .infinity n, .infinity n' => infResult f (n != n') 0#9
  | .infinity n, .finite n' m _ => if m = 0 then invalidResult f 2 a b else infResult f (n != n') 0#9
  | .finite n m _, .infinity n' => if m = 0 then invalidResult f 2 a b else infResult f (n != n') 0#9
  | .finite n m e, .finite n' m' e' => roundResult c f r (n != n') (m * m') (e + e')

/-- The quotient of two natural numbers scaled by 2^k, its last bit telling whether something was left over. -/
def stickyQuotient (m m' k : Nat) : Nat := 2 * (m * 2 ^ k / m') + (decide (m * 2 ^ k % m' ≠ 0)).toNat

/-- `div` (45 R552). -/
def floatDiv (c : Config) (f : FloatFormat) (r : Rounding) (a b : Word) : FloatResult :=
  match floatValue c f a, floatValue c f b with
  | .nan p, .nan q => nanOperand f 3 a b (p || q)
  | .nan p, _ => nanOperand f 3 a b p
  | _, .nan q => nanOperand f 3 a b q
  | .infinity _, .infinity _ => invalidResult f 3 a b
  | .infinity n, .finite n' _ _ => infResult f (n != n') 0#9
  | .finite n _ _, .infinity n' => zeroResult f (n != n')
  | .finite n m e, .finite n' m' e' =>
    if m' = 0 then
      if m = 0 then invalidResult f 3 a b else infResult f (n != n') flagDzf
    else
      let k := 2 * f.fracBits + 6
      roundResult c f r (n != n') (stickyQuotient m m' k) (e - e' - k - 1)

/-- The remainder of i by j in units: the magnitude, and whether the sign is the dividend's (45 R554). -/
def remainderUnits (kind : RemKind) (i j : Nat) : Nat × Bool :=
  let rest := i % j
  match kind with
  | .fmod => (rest, true)
  | .ieeeRemainder =>
    if j < 2 * rest ∨ (2 * rest = j ∧ i / j % 2 = 1) then (j - rest, false) else (rest, true)

/-- `rem` (45 R554): always exact; a zero result has the sign of the dividend. -/
def floatRem (c : Config) (f : FloatFormat) (a b : Word) : FloatResult :=
  match floatValue c f a, floatValue c f b with
  | .nan p, .nan q => nanOperand f 4 a b (p || q)
  | .nan p, _ => nanOperand f 4 a b p
  | _, .nan q => nanOperand f 4 a b q
  | .infinity _, _ => invalidResult f 4 a b
  | .finite n m e, .infinity _ => roundResult c f .nearest n m e
  | .finite n m e, .finite _ m' e' =>
    if m' = 0 then invalidResult f 4 a b
    else
      let q := min e e'
      let x := remainderUnits c.remKind (m * 2 ^ (e - q).toNat) (m' * 2 ^ (e' - q).toNat)
      roundResult c f .nearest (if x.1 = 0 || x.2 then n else !n) x.1 q

/-! ### Conversions -/

/-- `convertFromInt` (45 R558). -/
def floatOfInt (c : Config) (f : FloatFormat) (r : Rounding) (i : Int) : FloatResult :=
  roundResult c f r (decide (i < 0)) i.natAbs 0

/-- The mode of `lf.ftoi` (45 R541). -/
def ftoiRounding (c : Config) (r : Rounding) : Rounding :=
  match c.ftoiRound with
  | .rm => r
  | .towardZero => .zero

/-- `ftoi` to an integer as wide as the format (45 R560). -/
def floatToInt (c : Config) (f : FloatFormat) (r : Rounding) (a : Word) : FloatResult :=
  let invalid : FloatResult :=
    { value := BitVec.ofNat 64 ((Config.freeFtoi f.width (f.cut a)).toNat % 2 ^ f.width), flags := flagIvf }
  match floatValue c f a with
  | .nan _ => invalid
  | .infinity _ => invalid
  | .finite neg m e =>
    let x := roundTo (ftoiRounding c r) neg m e 0
    let n : Int := if neg then -(x.sig : Int) else x.sig
    if -(2 : Int) ^ (f.width - 1) ≤ n ∧ n < (2 : Int) ^ (f.width - 1) then
      { value := BitVec.ofNat 64 (n % (2 : Int) ^ f.width).toNat
        flags := flagIf x.inexact flagIxf ||| flagIf (decide (n = 0)) flagZf }
    else invalid

/-! ### Comparison (45 R545 (d)) -/

/-- The four relations of IEEE 754. -/
inductive FloatRel where
  | less
  | equal
  | greater
  | unordered
deriving DecidableEq, Repr

/-- The relation of two integers. -/
def relOfInts (i j : Int) : FloatRel := if i < j then .less else if i = j then .equal else .greater

/-- `cmp(a, b)` on values. -/
def relOfValues (x y : FloatValue) : FloatRel :=
  match x, y with
  | .nan _, _ => .unordered
  | _, .nan _ => .unordered
  | .infinity n, .infinity n' => if n = n' then .equal else if n then .less else .greater
  | .infinity n, .finite _ _ _ => if n then .less else .greater
  | .finite _ _ _, .infinity n => if n then .greater else .less
  | .finite n m e, .finite n' m' e' => relOfInts (signedUnits n m e (min e e')) (signedUnits n' m' e' (min e e'))

/-- `cmp(a, b)` (45 R562). -/
def floatCompare (c : Config) (f : FloatFormat) (a b : Word) : FloatRel :=
  relOfValues (floatValue c f a) (floatValue c f b)

/-- A value is a NaN. -/
def FloatValue.isNan : FloatValue → Bool
  | .nan _ => true
  | _ => false

/-- A value is a signalling NaN. -/
def FloatValue.isSignaling : FloatValue → Bool
  | .nan p => p
  | _ => false

/-- A comparison signals invalid: a signalling NaN, or for the ordering relations any NaN (45 R545 (d)). -/
def compareInvalid (c : Config) (f : FloatFormat) (ordering : Bool) (a b : Word) : Bool :=
  let x := floatValue c f a
  let y := floatValue c f b
  x.isSignaling || y.isSignaling || (ordering && (x.isNan || y.isNan))

end Sys2Proof.Machine
end

