-- ==== Sys2Proof/Machine/Orfpx.lean ====
section
/-!
DEFINITION. Machine/Orfpx.lean: the floating-point instructions (45_orfpx).
-/

namespace Sys2Proof.Machine

/-- FPCSR after an instruction raised flags: ORed in, or replaced (45 R543). -/
def fpcsrAfter (s : State) (flags : BitVec 9) : BitVec 32 :=
  if s.cfg.fpFlagsSticky then s.fpcsr ||| (flags.setWidth 32 <<< 3)
  else (s.fpcsr &&& 0xFFFFF007#32) ||| (flags.setWidth 32 <<< 3)

/-- The floating-point exception is raised (45 R543 step 4). -/
def floatTraps (s : State) (flags : BitVec 9) : Bool :=
  s.fpcsr.getLsbD 0 && decide (flags &&& s.cfg.trapMask ≠ 0#9)

/-- The instruction writes rD and FPCSR, then completes, or raises the exception as one that has completed: PPC is its
address (45 R543, 60 R741, 10_state R53). -/
def floatComplete (s : State) (d : Reg) (r : FloatResult) : Result :=
  let t := { s.setGpr d r.value with fpcsr := fpcsrAfter s r.flags }
  if floatTraps s r.flags then enter .floatingPoint none { t with ppc := s.pc } else .next t.advance

/-- A comparison writes F, and ORs IVF into FPCSR where the comparison is invalid (45 R545 (d)). -/
def floatFlag (s : State) (v invalid : Bool) : Result :=
  writeFlag { s with fpcsr := if s.cfg.fpCmpFlags && invalid then s.fpcsr ||| 0x200#32 else s.fpcsr } v

/-- The rounding mode in force. -/
def rounding (s : State) : Rounding := roundingOf s.fpcsr

/-- The signed integer that `lf.itof.s` converts: the low 32 bits (45 R558). -/
def intOfLow (x : Word) : Int := (Word.lo32 x).toInt

/-- The six conditions on a relation (45 R562 to R573); unordered satisfies only "not equal". -/
def floatEq (r : FloatRel) : Bool := r == .equal

/-- See `floatEq`. -/
def floatNe (r : FloatRel) : Bool := r != .equal

/-- See `floatEq`. -/
def floatGt (r : FloatRel) : Bool := r == .greater

/-- See `floatEq`. -/
def floatGe (r : FloatRel) : Bool := r == .greater || r == .equal

/-- See `floatEq`. -/
def floatLt (r : FloatRel) : Bool := r == .less

/-- See `floatEq`. -/
def floatLe (r : FloatRel) : Bool := r == .less || r == .equal

/-- `lf.add.s` (45 R546): sum, single. -/
def execLfAddS (d a b : Reg) (s : State) : Result :=
  checked s .single [d, a, b] (floatComplete s d (floatAdd s.cfg singleFormat (rounding s) (gpr s a) (gpr s b)))

/-- `lf.add.d` (45 R547): sum, double. -/
def execLfAddD (d a b : Reg) (s : State) : Result :=
  checked s .double [d, a, b] (floatComplete s d (floatAdd s.cfg doubleFormat (rounding s) (gpr s a) (gpr s b)))

/-- `lf.sub.s` (45 R548): difference, single. -/
def execLfSubS (d a b : Reg) (s : State) : Result :=
  checked s .single [d, a, b] (floatComplete s d (floatSub s.cfg singleFormat (rounding s) (gpr s a) (gpr s b)))

/-- `lf.sub.d` (45 R549): difference, double. -/
def execLfSubD (d a b : Reg) (s : State) : Result :=
  checked s .double [d, a, b] (floatComplete s d (floatSub s.cfg doubleFormat (rounding s) (gpr s a) (gpr s b)))

/-- `lf.mul.s` (45 R550): product, single. -/
def execLfMulS (d a b : Reg) (s : State) : Result :=
  checked s .single [d, a, b] (floatComplete s d (floatMul s.cfg singleFormat (rounding s) (gpr s a) (gpr s b)))

/-- `lf.mul.d` (45 R551): product, double. -/
def execLfMulD (d a b : Reg) (s : State) : Result :=
  checked s .double [d, a, b] (floatComplete s d (floatMul s.cfg doubleFormat (rounding s) (gpr s a) (gpr s b)))

/-- `lf.div.s` (45 R552): quotient, single. -/
def execLfDivS (d a b : Reg) (s : State) : Result :=
  checked s .single [d, a, b] (floatComplete s d (floatDiv s.cfg singleFormat (rounding s) (gpr s a) (gpr s b)))

/-- `lf.div.d` (45 R553): quotient, double. -/
def execLfDivD (d a b : Reg) (s : State) : Result :=
  checked s .double [d, a, b] (floatComplete s d (floatDiv s.cfg doubleFormat (rounding s) (gpr s a) (gpr s b)))

/-- `lf.rem.s` (45 R554): remainder, single. -/
def execLfRemS (d a b : Reg) (s : State) : Result :=
  checked s .single [d, a, b] (floatComplete s d (floatRem s.cfg singleFormat (gpr s a) (gpr s b)))

/-- `lf.rem.d` (45 R555): remainder, double. -/
def execLfRemD (d a b : Reg) (s : State) : Result :=
  checked s .double [d, a, b] (floatComplete s d (floatRem s.cfg doubleFormat (gpr s a) (gpr s b)))

/-- `lf.madd.s` (45 R556): illegal where FPNUM.madd is absent; else refused, for its accumulator is defined nowhere (log
44). -/
def execLfMaddS (_d _a _b : Reg) (s : State) : Result :=
  checked s (.madd false) [] (.refused .maddUndefined)

/-- `lf.madd.d` (45 R557): illegal where FPNUM.madd is absent; else refused, for its accumulator is defined nowhere (log
44). -/
def execLfMaddD (_d _a _b : Reg) (s : State) : Result :=
  checked s (.madd true) [] (.refused .maddUndefined)

/-- `lf.itof.s` (45 R558): signed integer to single. -/
def execLfItofS (d a : Reg) (s : State) : Result :=
  checked s .single [d, a] (floatComplete s d (floatOfInt s.cfg singleFormat (rounding s) (intOfLow (gpr s a))))

/-- `lf.itof.d` (45 R559): signed integer to double. -/
def execLfItofD (d a : Reg) (s : State) : Result :=
  checked s .double [d, a] (floatComplete s d (floatOfInt s.cfg doubleFormat (rounding s) (gpr s a).toInt))

/-- `lf.ftoi.s` (45 R560): single to signed integer. -/
def execLfFtoiS (d a : Reg) (s : State) : Result :=
  checked s .single [d, a] (floatComplete s d (floatToInt s.cfg singleFormat (rounding s) (gpr s a)))

/-- `lf.ftoi.d` (45 R561): double to signed integer. -/
def execLfFtoiD (d a : Reg) (s : State) : Result :=
  checked s .double [d, a] (floatComplete s d (floatToInt s.cfg doubleFormat (rounding s) (gpr s a)))

/-- `lf.sfeq.s` (45 R562): equal, single. -/
def execLfSfeqS (a b : Reg) (s : State) : Result :=
  checked s .single [a, b] <|
    floatFlag s (floatEq (floatCompare s.cfg singleFormat (gpr s a) (gpr s b)))
      (compareInvalid s.cfg singleFormat false (gpr s a) (gpr s b))

/-- `lf.sfeq.d` (45 R563): equal, double. -/
def execLfSfeqD (a b : Reg) (s : State) : Result :=
  checked s .double [a, b] <|
    floatFlag s (floatEq (floatCompare s.cfg doubleFormat (gpr s a) (gpr s b)))
      (compareInvalid s.cfg doubleFormat false (gpr s a) (gpr s b))

/-- `lf.sfne.s` (45 R564): not equal, single. -/
def execLfSfneS (a b : Reg) (s : State) : Result :=
  checked s .single [a, b] <|
    floatFlag s (floatNe (floatCompare s.cfg singleFormat (gpr s a) (gpr s b)))
      (compareInvalid s.cfg singleFormat false (gpr s a) (gpr s b))

/-- `lf.sfne.d` (45 R565): not equal, double. -/
def execLfSfneD (a b : Reg) (s : State) : Result :=
  checked s .double [a, b] <|
    floatFlag s (floatNe (floatCompare s.cfg doubleFormat (gpr s a) (gpr s b)))
      (compareInvalid s.cfg doubleFormat false (gpr s a) (gpr s b))

/-- `lf.sfgt.s` (45 R566): greater, single. -/
def execLfSfgtS (a b : Reg) (s : State) : Result :=
  checked s .single [a, b] <|
    floatFlag s (floatGt (floatCompare s.cfg singleFormat (gpr s a) (gpr s b)))
      (compareInvalid s.cfg singleFormat true (gpr s a) (gpr s b))

/-- `lf.sfgt.d` (45 R567): greater, double. -/
def execLfSfgtD (a b : Reg) (s : State) : Result :=
  checked s .double [a, b] <|
    floatFlag s (floatGt (floatCompare s.cfg doubleFormat (gpr s a) (gpr s b)))
      (compareInvalid s.cfg doubleFormat true (gpr s a) (gpr s b))

/-- `lf.sfge.s` (45 R568): greater or equal, single. -/
def execLfSfgeS (a b : Reg) (s : State) : Result :=
  checked s .single [a, b] <|
    floatFlag s (floatGe (floatCompare s.cfg singleFormat (gpr s a) (gpr s b)))
      (compareInvalid s.cfg singleFormat true (gpr s a) (gpr s b))

/-- `lf.sfge.d` (45 R569): greater or equal, double. -/
def execLfSfgeD (a b : Reg) (s : State) : Result :=
  checked s .double [a, b] <|
    floatFlag s (floatGe (floatCompare s.cfg doubleFormat (gpr s a) (gpr s b)))
      (compareInvalid s.cfg doubleFormat true (gpr s a) (gpr s b))

/-- `lf.sflt.s` (45 R570): less, single. -/
def execLfSfltS (a b : Reg) (s : State) : Result :=
  checked s .single [a, b] <|
    floatFlag s (floatLt (floatCompare s.cfg singleFormat (gpr s a) (gpr s b)))
      (compareInvalid s.cfg singleFormat true (gpr s a) (gpr s b))

/-- `lf.sflt.d` (45 R571): less, double. -/
def execLfSfltD (a b : Reg) (s : State) : Result :=
  checked s .double [a, b] <|
    floatFlag s (floatLt (floatCompare s.cfg doubleFormat (gpr s a) (gpr s b)))
      (compareInvalid s.cfg doubleFormat true (gpr s a) (gpr s b))

/-- `lf.sfle.s` (45 R572): less or equal, single. -/
def execLfSfleS (a b : Reg) (s : State) : Result :=
  checked s .single [a, b] <|
    floatFlag s (floatLe (floatCompare s.cfg singleFormat (gpr s a) (gpr s b)))
      (compareInvalid s.cfg singleFormat true (gpr s a) (gpr s b))

/-- `lf.sfle.d` (45 R573): less or equal, double. -/
def execLfSfleD (a b : Reg) (s : State) : Result :=
  checked s .double [a, b] <|
    floatFlag s (floatLe (floatCompare s.cfg doubleFormat (gpr s a) (gpr s b)))
      (compareInvalid s.cfg doubleFormat true (gpr s a) (gpr s b))

/-- `lf.cust1.s` (45 R574): no custom instruction is implemented (30 R330). -/
def execLfCust1S (_a _b : Reg) (s : State) : Result :=
  checked s .nothing [] (illegal s)

/-- `lf.cust1.d` (45 R575): no custom instruction is implemented (30 R330). -/
def execLfCust1D (_a _b : Reg) (s : State) : Result :=
  checked s .nothing [] (illegal s)

end Sys2Proof.Machine
end

