-- ==== Sys2Proof/Machine/Orvdx.lean ====
section
/-!
DEFINITION. Machine/Orvdx.lean: the vector instructions (46_orvdx_a, 47_orvdx_b).
-/

namespace Sys2Proof.Machine

/-! ### Elements (46 R591) -/

/-- Element `i` of width `w`: `B_i`, `H_i` or `N_i`; element 0 is the least significant. -/
def elem (w : Nat) (x : Word) (i : Nat) : BitVec w := x.extractLsb' (w * i) w

/-- The value whose `n` elements of width `w` are given. -/
def ofElems (w n : Nat) (f : Nat → BitVec w) : Word :=
  (List.range n).foldl (fun acc i => acc ||| ((f i).setWidth 64 <<< (w * i))) 0#64

/-- Element by element, `n` elements of width `w`. -/
def mapElems (w n : Nat) (f : BitVec w → BitVec w → BitVec w) (a b : Word) : Word :=
  ofElems w n fun i => f (elem w a i) (elem w b i)

/-- `satNs`: clamped to the signed range of `n` bits. -/
def satS (n : Nat) (z : Int) : BitVec n := BitVec.ofInt n (max (-(2 ^ (n - 1))) (min (2 ^ (n - 1) - 1) z))

/-- `satNu`: clamped to the unsigned range of `n` bits. -/
def satU (n : Nat) (z : Int) : BitVec n := BitVec.ofInt n (max 0 (min (2 ^ n - 1) z))

/-- `repl_w`: all ones where the condition holds. -/
def repl (w : Nat) (c : Bool) : BitVec w := if c then BitVec.allOnes w else 0#w

/-- `rotl_w`. -/
def rotl {w : Nat} (x : BitVec w) (k : Nat) : BitVec w := (x <<< k) ||| (x >>> (w - k))

/-- `u_w`: an element as an unsigned integer. -/
def uInt {w : Nat} (x : BitVec w) : Int := x.toNat

/-- An element as the integer that comparisons, maximum, minimum and average see (46 R592 (a), log 45). -/
def elemInt (c : Config) {w : Nat} (x : BitVec w) : Int := if c.lvCmpSigned then x.toInt else x.toNat

/-! ### Relations between elements -/

/-- The six relations of the comparing instructions (46 R592 (a)). -/
def relEq (_c : Config) {w : Nat} (x y : BitVec w) : Bool := decide (x = y)

/-- See `relEq`. -/
def relNe (_c : Config) {w : Nat} (x y : BitVec w) : Bool := decide (x ≠ y)

/-- See `relEq`. -/
def relGe (c : Config) {w : Nat} (x y : BitVec w) : Bool := decide (elemInt c y ≤ elemInt c x)

/-- See `relEq`. -/
def relGt (c : Config) {w : Nat} (x y : BitVec w) : Bool := decide (elemInt c y < elemInt c x)

/-- See `relEq`. -/
def relLe (c : Config) {w : Nat} (x y : BitVec w) : Bool := decide (elemInt c x ≤ elemInt c y)

/-- See `relEq`. -/
def relLt (c : Config) {w : Nat} (x y : BitVec w) : Bool := decide (elemInt c x < elemInt c y)

/-- The relation holds of every pair of elements. -/
def allElems (w n : Nat) (r : BitVec w → BitVec w → Bool) (a b : Word) : Bool :=
  (List.range n).all fun i => r (elem w a i) (elem w b i)

/-- The relation holds of some pair of elements. -/
def anyElems (w n : Nat) (r : BitVec w → BitVec w → Bool) (a b : Word) : Bool :=
  (List.range n).any fun i => r (elem w a i) (elem w b i)

/-- The mask of the elements of which the relation holds. -/
def cmpElems (w n : Nat) (r : BitVec w → BitVec w → Bool) (a b : Word) : Word :=
  mapElems w n (fun x y => repl w (r x y)) a b

/-! ### Functions of elements -/

/-- `lv.avg`: the floor of half the exact sum (46 R628). -/
def avg (c : Config) {w : Nat} (x y : BitVec w) : BitVec w := BitVec.ofInt w ((elemInt c x + elemInt c y) / 2)

/-- `lv.max` (47 R662). -/
def maxElem (c : Config) {w : Nat} (x y : BitVec w) : BitVec w := if relGt c x y then x else y

/-- `lv.min` (47 R666). -/
def minElem (c : Config) {w : Nat} (x y : BitVec w) : BitVec w := if relLt c x y then x else y

/-- `lv.merge`: even elements from b, odd ones from a, each from its own place, or interleaved from the lower halves
(47 R664, log 45). -/
def mergeElems (c : Config) (w n : Nat) (a b : Word) : Word :=
  if c.lvMergeInterleave then ofElems w n fun i => if i % 2 = 0 then elem w b (i / 2) else elem w a (i / 2)
  else ofElems w n fun i => if i % 2 = 0 then elem w b i else elem w a i

/-- `lv.pack`: the `n` elements of b, narrowed, in the lower half, those of a in the upper half (47 R673). -/
def packElems (w h n : Nat) (f : BitVec w → BitVec h) (a b : Word) : Word :=
  ofElems h (2 * n) fun i => if i < n then f (elem w b i) else f (elem w a (i - n))

/-- `lv.perm.n`: the nibbles of b number the nibbles of a (47 R679). -/
def permNibbles (a b : Word) : Word := ofElems 4 16 fun i => elem 4 a (elem 4 b i).toNat

/-- `lv.unpack`: the `n` low elements of width `h`, sign-extended to width `w` (47 R708). -/
def unpackElems (h w n : Nat) (a : Word) : Word := ofElems w n fun i => (elem h a i).signExtend w

/-- The shift or rotate count in an element: its low 3 bits for bytes, its low 4 bits for half-words (47 R680). -/
def elemCount {w : Nat} (y : BitVec w) : Nat := y.toNat % w

/-- `lv.all_*` and `lv.any_*` complete: the flag in every bit of rD, and in F where the implementation has it so
(46 R592 (b), log 45). -/
def vectorFlag (s : State) (d : Reg) (flag : Bool) : Result :=
  writeBack (if s.cfg.lvWritesF then s.setSrBit srF flag else s) d (repl 64 flag)

/-- An instruction the manual itself calls incorrectly specified: refused, or executed as printed (47 R690, R697, log
46). -/
def flagged (s : State) (asWritten : Result) : Result :=
  match s.cfg.lvFlagged with
  | .refuse => .refused .vectorFlagged
  | .asWritten => asWritten

/-- `lv.all_eq.b` (46 R603): rD <- all ones where every pair of bytes satisfies the relation, else 0. -/
def execLvAllEqB (d a b : Reg) (s : State) : Result :=
  checked s .vector [d, a, b] (vectorFlag s d (allElems 8 8 (relEq s.cfg) (gpr s a) (gpr s b)))

/-- `lv.all_eq.h` (46 R604): rD <- all ones where every pair of half-words satisfies the relation, else 0. -/
def execLvAllEqH (d a b : Reg) (s : State) : Result :=
  checked s .vector [d, a, b] (vectorFlag s d (allElems 16 4 (relEq s.cfg) (gpr s a) (gpr s b)))

/-- `lv.all_ge.b` (46 R605): rD <- all ones where every pair of bytes satisfies the relation, else 0. -/
def execLvAllGeB (d a b : Reg) (s : State) : Result :=
  checked s .vector [d, a, b] (vectorFlag s d (allElems 8 8 (relGe s.cfg) (gpr s a) (gpr s b)))

/-- `lv.all_ge.h` (46 R606): rD <- all ones where every pair of half-words satisfies the relation, else 0. -/
def execLvAllGeH (d a b : Reg) (s : State) : Result :=
  checked s .vector [d, a, b] (vectorFlag s d (allElems 16 4 (relGe s.cfg) (gpr s a) (gpr s b)))

/-- `lv.all_gt.b` (46 R607): rD <- all ones where every pair of bytes satisfies the relation, else 0. -/
def execLvAllGtB (d a b : Reg) (s : State) : Result :=
  checked s .vector [d, a, b] (vectorFlag s d (allElems 8 8 (relGt s.cfg) (gpr s a) (gpr s b)))

/-- `lv.all_gt.h` (46 R608): rD <- all ones where every pair of half-words satisfies the relation, else 0. -/
def execLvAllGtH (d a b : Reg) (s : State) : Result :=
  checked s .vector [d, a, b] (vectorFlag s d (allElems 16 4 (relGt s.cfg) (gpr s a) (gpr s b)))

/-- `lv.all_le.b` (46 R609): rD <- all ones where every pair of bytes satisfies the relation, else 0. -/
def execLvAllLeB (d a b : Reg) (s : State) : Result :=
  checked s .vector [d, a, b] (vectorFlag s d (allElems 8 8 (relLe s.cfg) (gpr s a) (gpr s b)))

/-- `lv.all_le.h` (46 R610): rD <- all ones where every pair of half-words satisfies the relation, else 0. -/
def execLvAllLeH (d a b : Reg) (s : State) : Result :=
  checked s .vector [d, a, b] (vectorFlag s d (allElems 16 4 (relLe s.cfg) (gpr s a) (gpr s b)))

/-- `lv.all_lt.b` (46 R611): rD <- all ones where every pair of bytes satisfies the relation, else 0. -/
def execLvAllLtB (d a b : Reg) (s : State) : Result :=
  checked s .vector [d, a, b] (vectorFlag s d (allElems 8 8 (relLt s.cfg) (gpr s a) (gpr s b)))

/-- `lv.all_lt.h` (46 R612): rD <- all ones where every pair of half-words satisfies the relation, else 0. -/
def execLvAllLtH (d a b : Reg) (s : State) : Result :=
  checked s .vector [d, a, b] (vectorFlag s d (allElems 16 4 (relLt s.cfg) (gpr s a) (gpr s b)))

/-- `lv.all_ne.b` (46 R613): rD <- all ones where every pair of bytes satisfies the relation, else 0. -/
def execLvAllNeB (d a b : Reg) (s : State) : Result :=
  checked s .vector [d, a, b] (vectorFlag s d (allElems 8 8 (relNe s.cfg) (gpr s a) (gpr s b)))

/-- `lv.all_ne.h` (46 R614): rD <- all ones where every pair of half-words satisfies the relation, else 0. -/
def execLvAllNeH (d a b : Reg) (s : State) : Result :=
  checked s .vector [d, a, b] (vectorFlag s d (allElems 16 4 (relNe s.cfg) (gpr s a) (gpr s b)))

/-- `lv.any_eq.b` (46 R615): rD <- all ones where some pair of bytes satisfies the relation, else 0. -/
def execLvAnyEqB (d a b : Reg) (s : State) : Result :=
  checked s .vector [d, a, b] (vectorFlag s d (anyElems 8 8 (relEq s.cfg) (gpr s a) (gpr s b)))

/-- `lv.any_eq.h` (46 R616): rD <- all ones where some pair of half-words satisfies the relation, else 0. -/
def execLvAnyEqH (d a b : Reg) (s : State) : Result :=
  checked s .vector [d, a, b] (vectorFlag s d (anyElems 16 4 (relEq s.cfg) (gpr s a) (gpr s b)))

/-- `lv.any_ge.b` (46 R617): rD <- all ones where some pair of bytes satisfies the relation, else 0. -/
def execLvAnyGeB (d a b : Reg) (s : State) : Result :=
  checked s .vector [d, a, b] (vectorFlag s d (anyElems 8 8 (relGe s.cfg) (gpr s a) (gpr s b)))

/-- `lv.any_ge.h` (46 R618): rD <- all ones where some pair of half-words satisfies the relation, else 0. -/
def execLvAnyGeH (d a b : Reg) (s : State) : Result :=
  checked s .vector [d, a, b] (vectorFlag s d (anyElems 16 4 (relGe s.cfg) (gpr s a) (gpr s b)))

/-- `lv.any_gt.b` (46 R619): rD <- all ones where some pair of bytes satisfies the relation, else 0. -/
def execLvAnyGtB (d a b : Reg) (s : State) : Result :=
  checked s .vector [d, a, b] (vectorFlag s d (anyElems 8 8 (relGt s.cfg) (gpr s a) (gpr s b)))

/-- `lv.any_gt.h` (46 R620): rD <- all ones where some pair of half-words satisfies the relation, else 0. -/
def execLvAnyGtH (d a b : Reg) (s : State) : Result :=
  checked s .vector [d, a, b] (vectorFlag s d (anyElems 16 4 (relGt s.cfg) (gpr s a) (gpr s b)))

/-- `lv.any_le.b` (46 R621): rD <- all ones where some pair of bytes satisfies the relation, else 0. -/
def execLvAnyLeB (d a b : Reg) (s : State) : Result :=
  checked s .vector [d, a, b] (vectorFlag s d (anyElems 8 8 (relLe s.cfg) (gpr s a) (gpr s b)))

/-- `lv.any_le.h` (46 R622): rD <- all ones where some pair of half-words satisfies the relation, else 0. -/
def execLvAnyLeH (d a b : Reg) (s : State) : Result :=
  checked s .vector [d, a, b] (vectorFlag s d (anyElems 16 4 (relLe s.cfg) (gpr s a) (gpr s b)))

/-- `lv.any_lt.b` (46 R623): rD <- all ones where some pair of bytes satisfies the relation, else 0. -/
def execLvAnyLtB (d a b : Reg) (s : State) : Result :=
  checked s .vector [d, a, b] (vectorFlag s d (anyElems 8 8 (relLt s.cfg) (gpr s a) (gpr s b)))

/-- `lv.any_lt.h` (46 R624): rD <- all ones where some pair of half-words satisfies the relation, else 0. -/
def execLvAnyLtH (d a b : Reg) (s : State) : Result :=
  checked s .vector [d, a, b] (vectorFlag s d (anyElems 16 4 (relLt s.cfg) (gpr s a) (gpr s b)))

/-- `lv.any_ne.b` (46 R625): rD <- all ones where some pair of bytes satisfies the relation, else 0. -/
def execLvAnyNeB (d a b : Reg) (s : State) : Result :=
  checked s .vector [d, a, b] (vectorFlag s d (anyElems 8 8 (relNe s.cfg) (gpr s a) (gpr s b)))

/-- `lv.any_ne.h` (46 R626): rD <- all ones where some pair of half-words satisfies the relation, else 0. -/
def execLvAnyNeH (d a b : Reg) (s : State) : Result :=
  checked s .vector [d, a, b] (vectorFlag s d (anyElems 16 4 (relNe s.cfg) (gpr s a) (gpr s b)))

/-- `lv.add.b` (46 R594): sums of bytes, modulo 2^8. -/
def execLvAddB (d a b : Reg) (s : State) : Result :=
  checked s .vector [d, a, b] (writeBack s d (mapElems 8 8 (· + ·) (gpr s a) (gpr s b)))

/-- `lv.add.h` (46 R595): sums of half-words, modulo 2^16. -/
def execLvAddH (d a b : Reg) (s : State) : Result :=
  checked s .vector [d, a, b] (writeBack s d (mapElems 16 4 (· + ·) (gpr s a) (gpr s b)))

/-- `lv.adds.b` (46 R596): sums of signed bytes, saturated. -/
def execLvAddsB (d a b : Reg) (s : State) : Result :=
  checked s .vector [d, a, b]
    (writeBack s d (mapElems 8 8 (fun x y => satS 8 (x.toInt + y.toInt)) (gpr s a) (gpr s b)))

/-- `lv.adds.h` (46 R597): sums of signed half-words, saturated. -/
def execLvAddsH (d a b : Reg) (s : State) : Result :=
  checked s .vector [d, a, b]
    (writeBack s d (mapElems 16 4 (fun x y => satS 16 (x.toInt + y.toInt)) (gpr s a) (gpr s b)))

/-- `lv.addu.b` (46 R598): sums of bytes, modulo 2^8. -/
def execLvAdduB (d a b : Reg) (s : State) : Result :=
  checked s .vector [d, a, b] (writeBack s d (mapElems 8 8 (· + ·) (gpr s a) (gpr s b)))

/-- `lv.addu.h` (46 R599): sums of half-words, modulo 2^16. -/
def execLvAdduH (d a b : Reg) (s : State) : Result :=
  checked s .vector [d, a, b] (writeBack s d (mapElems 16 4 (· + ·) (gpr s a) (gpr s b)))

/-- `lv.addus.b` (46 R600): sums of unsigned bytes, saturated. -/
def execLvAddusB (d a b : Reg) (s : State) : Result :=
  checked s .vector [d, a, b]
    (writeBack s d (mapElems 8 8 (fun x y => satU 8 (uInt x + uInt y)) (gpr s a) (gpr s b)))

/-- `lv.addus.h` (46 R601): sums of unsigned half-words, saturated. -/
def execLvAddusH (d a b : Reg) (s : State) : Result :=
  checked s .vector [d, a, b]
    (writeBack s d (mapElems 16 4 (fun x y => satU 16 (uInt x + uInt y)) (gpr s a) (gpr s b)))

/-- `lv.and` (46 R627): all 64 bits. -/
def execLvAnd (d a b : Reg) (s : State) : Result :=
  checked s .vector [d, a, b] (writeBack s d (gpr s a &&& gpr s b))

/-- `lv.avg.b` (46 R628): averages of bytes. -/
def execLvAvgB (d a b : Reg) (s : State) : Result :=
  checked s .vector [d, a, b] (writeBack s d (mapElems 8 8 (avg s.cfg) (gpr s a) (gpr s b)))

/-- `lv.avg.h` (46 R629): averages of half-words. -/
def execLvAvgH (d a b : Reg) (s : State) : Result :=
  checked s .vector [d, a, b] (writeBack s d (mapElems 16 4 (avg s.cfg) (gpr s a) (gpr s b)))

/-- `lv.cmp_eq.b` (46 R630): the mask of the pairs of bytes that satisfy the relation. -/
def execLvCmpEqB (d a b : Reg) (s : State) : Result :=
  checked s .vector [d, a, b] (writeBack s d (cmpElems 8 8 (relEq s.cfg) (gpr s a) (gpr s b)))

/-- `lv.cmp_eq.h` (46 R631): the mask of the pairs of half-words that satisfy the relation. -/
def execLvCmpEqH (d a b : Reg) (s : State) : Result :=
  checked s .vector [d, a, b] (writeBack s d (cmpElems 16 4 (relEq s.cfg) (gpr s a) (gpr s b)))

/-- `lv.cmp_ge.b` (46 R632): the mask of the pairs of bytes that satisfy the relation. -/
def execLvCmpGeB (d a b : Reg) (s : State) : Result :=
  checked s .vector [d, a, b] (writeBack s d (cmpElems 8 8 (relGe s.cfg) (gpr s a) (gpr s b)))

/-- `lv.cmp_ge.h` (46 R633): the mask of the pairs of half-words that satisfy the relation. -/
def execLvCmpGeH (d a b : Reg) (s : State) : Result :=
  checked s .vector [d, a, b] (writeBack s d (cmpElems 16 4 (relGe s.cfg) (gpr s a) (gpr s b)))

/-- `lv.cmp_gt.b` (46 R634): the mask of the pairs of bytes that satisfy the relation. -/
def execLvCmpGtB (d a b : Reg) (s : State) : Result :=
  checked s .vector [d, a, b] (writeBack s d (cmpElems 8 8 (relGt s.cfg) (gpr s a) (gpr s b)))

/-- `lv.cmp_gt.h` (46 R635): the mask of the pairs of half-words that satisfy the relation. -/
def execLvCmpGtH (d a b : Reg) (s : State) : Result :=
  checked s .vector [d, a, b] (writeBack s d (cmpElems 16 4 (relGt s.cfg) (gpr s a) (gpr s b)))

/-- `lv.cmp_le.b` (46 R636): the mask of the pairs of bytes that satisfy the relation. -/
def execLvCmpLeB (d a b : Reg) (s : State) : Result :=
  checked s .vector [d, a, b] (writeBack s d (cmpElems 8 8 (relLe s.cfg) (gpr s a) (gpr s b)))

/-- `lv.cmp_le.h` (46 R637): the mask of the pairs of half-words that satisfy the relation. -/
def execLvCmpLeH (d a b : Reg) (s : State) : Result :=
  checked s .vector [d, a, b] (writeBack s d (cmpElems 16 4 (relLe s.cfg) (gpr s a) (gpr s b)))

/-- `lv.cmp_lt.b` (46 R638): the mask of the pairs of bytes that satisfy the relation. -/
def execLvCmpLtB (d a b : Reg) (s : State) : Result :=
  checked s .vector [d, a, b] (writeBack s d (cmpElems 8 8 (relLt s.cfg) (gpr s a) (gpr s b)))

/-- `lv.cmp_lt.h` (46 R639): the mask of the pairs of half-words that satisfy the relation. -/
def execLvCmpLtH (d a b : Reg) (s : State) : Result :=
  checked s .vector [d, a, b] (writeBack s d (cmpElems 16 4 (relLt s.cfg) (gpr s a) (gpr s b)))

/-- `lv.cmp_ne.b` (46 R640): the mask of the pairs of bytes that satisfy the relation. -/
def execLvCmpNeB (d a b : Reg) (s : State) : Result :=
  checked s .vector [d, a, b] (writeBack s d (cmpElems 8 8 (relNe s.cfg) (gpr s a) (gpr s b)))

/-- `lv.cmp_ne.h` (46 R641): the mask of the pairs of half-words that satisfy the relation. -/
def execLvCmpNeH (d a b : Reg) (s : State) : Result :=
  checked s .vector [d, a, b] (writeBack s d (cmpElems 16 4 (relNe s.cfg) (gpr s a) (gpr s b)))

/-- `lv.madds.h` (47 R661): "VMAC is not defined": a model must refuse to step it (log 47). -/
def execLvMaddsH (d a b : Reg) (s : State) : Result :=
  checked s .vector [d, a, b] (.refused .vmacUndefined)

/-- `lv.max.b` (47 R662): the larger of each pair of bytes. -/
def execLvMaxB (d a b : Reg) (s : State) : Result :=
  checked s .vector [d, a, b] (writeBack s d (mapElems 8 8 (maxElem s.cfg) (gpr s a) (gpr s b)))

/-- `lv.max.h` (47 R663): the larger of each pair of half-words. -/
def execLvMaxH (d a b : Reg) (s : State) : Result :=
  checked s .vector [d, a, b] (writeBack s d (mapElems 16 4 (maxElem s.cfg) (gpr s a) (gpr s b)))

/-- `lv.merge.b` (47 R664): bytes of rB and rA in turn. -/
def execLvMergeB (d a b : Reg) (s : State) : Result :=
  checked s .vector [d, a, b] (writeBack s d (mergeElems s.cfg 8 8 (gpr s a) (gpr s b)))

/-- `lv.merge.h` (47 R665): half-words of rB and rA in turn. -/
def execLvMergeH (d a b : Reg) (s : State) : Result :=
  checked s .vector [d, a, b] (writeBack s d (mergeElems s.cfg 16 4 (gpr s a) (gpr s b)))

/-- `lv.min.b` (47 R666): the smaller of each pair of bytes. -/
def execLvMinB (d a b : Reg) (s : State) : Result :=
  checked s .vector [d, a, b] (writeBack s d (mapElems 8 8 (minElem s.cfg) (gpr s a) (gpr s b)))

/-- `lv.min.h` (47 R667): the smaller of each pair of half-words. -/
def execLvMinH (d a b : Reg) (s : State) : Result :=
  checked s .vector [d, a, b] (writeBack s d (mapElems 16 4 (minElem s.cfg) (gpr s a) (gpr s b)))

/-- `lv.msubs.h` (47 R668): "VMAC is not defined": a model must refuse to step it (log 47). -/
def execLvMsubsH (d a b : Reg) (s : State) : Result :=
  checked s .vector [d, a, b] (.refused .vmacUndefined)

/-- `lv.muls.h` (47 R669): products of signed half-words, saturated. -/
def execLvMulsH (d a b : Reg) (s : State) : Result :=
  checked s (.vectorII .lvMulsH) [d, a, b]
    (writeBack s d (mapElems 16 4 (fun x y => satS 16 (x.toInt * y.toInt)) (gpr s a) (gpr s b)))

/-- `lv.nand` (47 R670): all 64 bits. -/
def execLvNand (d a b : Reg) (s : State) : Result :=
  checked s .vector [d, a, b] (writeBack s d (~~~(gpr s a &&& gpr s b)))

/-- `lv.nor` (47 R671): all 64 bits. -/
def execLvNor (d a b : Reg) (s : State) : Result :=
  checked s .vector [d, a, b] (writeBack s d (~~~(gpr s a ||| gpr s b)))

/-- `lv.or` (47 R672): all 64 bits. -/
def execLvOr (d a b : Reg) (s : State) : Result :=
  checked s .vector [d, a, b] (writeBack s d (gpr s a ||| gpr s b))

/-- `lv.pack.b` (47 R673): bytes truncated to 4 bits each. -/
def execLvPackB (d a b : Reg) (s : State) : Result :=
  checked s .vector [d, a, b] (writeBack s d (packElems 8 4 8 (fun x => x.setWidth 4) (gpr s a) (gpr s b)))

/-- `lv.pack.h` (47 R674): half-words truncated to 8 bits each. -/
def execLvPackH (d a b : Reg) (s : State) : Result :=
  checked s .vector [d, a, b] (writeBack s d (packElems 16 8 4 (fun x => x.setWidth 8) (gpr s a) (gpr s b)))

/-- `lv.packs.b` (47 R675): signed bytes saturated to 4 bits each. -/
def execLvPacksB (d a b : Reg) (s : State) : Result :=
  checked s .vector [d, a, b] (writeBack s d (packElems 8 4 8 (fun x => satS 4 x.toInt) (gpr s a) (gpr s b)))

/-- `lv.packs.h` (47 R676): signed half-words saturated to 8 bits each. -/
def execLvPacksH (d a b : Reg) (s : State) : Result :=
  checked s .vector [d, a, b] (writeBack s d (packElems 16 8 4 (fun x => satS 8 x.toInt) (gpr s a) (gpr s b)))

/-- `lv.packus.b` (47 R677): unsigned bytes saturated to 4 bits each. -/
def execLvPackusB (d a b : Reg) (s : State) : Result :=
  checked s .vector [d, a, b] (writeBack s d (packElems 8 4 8 (fun x => satU 4 (uInt x)) (gpr s a) (gpr s b)))

/-- `lv.packus.h` (47 R678): unsigned half-words saturated to 8 bits each. -/
def execLvPackusH (d a b : Reg) (s : State) : Result :=
  checked s .vector [d, a, b] (writeBack s d (packElems 16 8 4 (fun x => satU 8 (uInt x)) (gpr s a) (gpr s b)))

/-- `lv.perm.n` (47 R679): the nibbles of rA in the order rB gives. -/
def execLvPermN (d a b : Reg) (s : State) : Result :=
  checked s .vector [d, a, b] (writeBack s d (permNibbles (gpr s a) (gpr s b)))

/-- `lv.rl.b` (47 R680): bytes rotated left. -/
def execLvRlB (d a b : Reg) (s : State) : Result :=
  checked s .vector [d, a, b] (writeBack s d (mapElems 8 8 (fun x y => rotl x (elemCount y)) (gpr s a) (gpr s b)))

/-- `lv.rl.h` (47 R681): half-words rotated left. -/
def execLvRlH (d a b : Reg) (s : State) : Result :=
  checked s .vector [d, a, b]
    (writeBack s d (mapElems 16 4 (fun x y => rotl x (elemCount y)) (gpr s a) (gpr s b)))

/-- `lv.sll.b` (47 R691): bytes shifted left. -/
def execLvSllB (d a b : Reg) (s : State) : Result :=
  checked s .vector [d, a, b] (writeBack s d (mapElems 8 8 (fun x y => x <<< elemCount y) (gpr s a) (gpr s b)))

/-- `lv.sll.h` (47 R692): half-words shifted left. -/
def execLvSllH (d a b : Reg) (s : State) : Result :=
  checked s .vector [d, a, b] (writeBack s d (mapElems 16 4 (fun x y => x <<< elemCount y) (gpr s a) (gpr s b)))

/-- `lv.sll` (47 R690): the block as printed, a whole-register shift by rB[2:0] (log 46). -/
def execLvSll (d a b : Reg) (s : State) : Result :=
  checked s .vector [d, a, b] (flagged s (writeBack s d (gpr s a <<< ((gpr s b).toNat % 8))))

/-- `lv.srl.b` (47 R698): bytes shifted right, zeros entering. -/
def execLvSrlB (d a b : Reg) (s : State) : Result :=
  checked s .vector [d, a, b] (writeBack s d (mapElems 8 8 (fun x y => x >>> elemCount y) (gpr s a) (gpr s b)))

/-- `lv.srl.h` (47 R699): half-words shifted right, zeros entering. -/
def execLvSrlH (d a b : Reg) (s : State) : Result :=
  checked s .vector [d, a, b] (writeBack s d (mapElems 16 4 (fun x y => x >>> elemCount y) (gpr s a) (gpr s b)))

/-- `lv.sra.b` (47 R693): bytes shifted right, the sign entering. -/
def execLvSraB (d a b : Reg) (s : State) : Result :=
  checked s .vector [d, a, b]
    (writeBack s d (mapElems 8 8 (fun x y => x.sshiftRight (elemCount y)) (gpr s a) (gpr s b)))

/-- `lv.sra.h` (47 R694): half-words shifted right, the sign entering. -/
def execLvSraH (d a b : Reg) (s : State) : Result :=
  checked s .vector [d, a, b]
    (writeBack s d (mapElems 16 4 (fun x y => x.sshiftRight (elemCount y)) (gpr s a) (gpr s b)))

/-- `lv.srl` (47 R697): the block as printed, a whole-register shift by rB[2:0] (log 46). -/
def execLvSrl (d a b : Reg) (s : State) : Result :=
  checked s .vector [d, a, b] (flagged s (writeBack s d (gpr s a >>> ((gpr s b).toNat % 8))))

/-- `lv.sub.b` (47 R700): differences of bytes, modulo 2^8. -/
def execLvSubB (d a b : Reg) (s : State) : Result :=
  checked s .vector [d, a, b] (writeBack s d (mapElems 8 8 (· - ·) (gpr s a) (gpr s b)))

/-- `lv.sub.h` (47 R701): differences of half-words, modulo 2^16. -/
def execLvSubH (d a b : Reg) (s : State) : Result :=
  checked s .vector [d, a, b] (writeBack s d (mapElems 16 4 (· - ·) (gpr s a) (gpr s b)))

/-- `lv.subs.b` (47 R702): differences of signed bytes, saturated. -/
def execLvSubsB (d a b : Reg) (s : State) : Result :=
  checked s .vector [d, a, b]
    (writeBack s d (mapElems 8 8 (fun x y => satS 8 (x.toInt - y.toInt)) (gpr s a) (gpr s b)))

/-- `lv.subs.h` (47 R703): differences of signed half-words, saturated. -/
def execLvSubsH (d a b : Reg) (s : State) : Result :=
  checked s .vector [d, a, b]
    (writeBack s d (mapElems 16 4 (fun x y => satS 16 (x.toInt - y.toInt)) (gpr s a) (gpr s b)))

/-- `lv.subu.b` (47 R704): differences of bytes, modulo 2^8. -/
def execLvSubuB (d a b : Reg) (s : State) : Result :=
  checked s .vector [d, a, b] (writeBack s d (mapElems 8 8 (· - ·) (gpr s a) (gpr s b)))

/-- `lv.subu.h` (47 R705): differences of half-words, modulo 2^16. -/
def execLvSubuH (d a b : Reg) (s : State) : Result :=
  checked s .vector [d, a, b] (writeBack s d (mapElems 16 4 (· - ·) (gpr s a) (gpr s b)))

/-- `lv.subus.b` (47 R706): differences of unsigned bytes, saturated. -/
def execLvSubusB (d a b : Reg) (s : State) : Result :=
  checked s .vector [d, a, b]
    (writeBack s d (mapElems 8 8 (fun x y => satU 8 (uInt x - uInt y)) (gpr s a) (gpr s b)))

/-- `lv.subus.h` (47 R707): differences of unsigned half-words, saturated. -/
def execLvSubusH (d a b : Reg) (s : State) : Result :=
  checked s .vector [d, a, b]
    (writeBack s d (mapElems 16 4 (fun x y => satU 16 (uInt x - uInt y)) (gpr s a) (gpr s b)))

/-- `lv.unpack.b` (47 R708): 4-bit elements of the lower half of rA, sign-extended; rB takes no part. -/
def execLvUnpackB (d a _b : Reg) (s : State) : Result :=
  checked s .vector [d, a] (writeBack s d (unpackElems 4 8 8 (gpr s a)))

/-- `lv.unpack.h` (47 R709): 8-bit elements of the lower half of rA, sign-extended; rB takes no part. -/
def execLvUnpackH (d a _b : Reg) (s : State) : Result :=
  checked s .vector [d, a] (writeBack s d (unpackElems 8 16 4 (gpr s a)))

/-- `lv.xor` (47 R710): all 64 bits. -/
def execLvXor (d a b : Reg) (s : State) : Result :=
  checked s .vector [d, a, b] (writeBack s d (gpr s a ^^^ gpr s b))

/-- `lv.cust1` (46 R642): no custom instruction is implemented (30 R330). -/
def execLvCust1 (s : State) : Result :=
  checked s .nothing [] (illegal s)

/-- `lv.cust2` (46 R642): no custom instruction is implemented (30 R330). -/
def execLvCust2 (s : State) : Result :=
  checked s .nothing [] (illegal s)

/-- `lv.cust3` (46 R642): no custom instruction is implemented (30 R330). -/
def execLvCust3 (s : State) : Result :=
  checked s .nothing [] (illegal s)

/-- `lv.cust4` (46 R642): no custom instruction is implemented (30 R330). -/
def execLvCust4 (s : State) : Result :=
  checked s .nothing [] (illegal s)

end Sys2Proof.Machine
end

