-- ==== Sys2Proof/Machine/Spr.lean ====
section
/-!
DEFINITION. Machine/Spr.lean: the special-purpose registers by address (10_state R100), what a read delivers (44 R514),
what a write changes (44 R516), and what user mode may access (44 R515). Address = group * 2048 + index (10_state R42).
-/

namespace Sys2Proof.Machine

/-! ### Configuration registers (10_state R110 to R120) -/

/-- A bit of a configuration register. -/
def flagBit (b : Bool) (i : Nat) : BitVec 32 := if b then 1#32 <<< i else 0#32

/-- A field of a configuration register. -/
def fieldAt (v i : Nat) : BitVec 32 := BitVec.ofNat 32 v <<< i

/-- UPR (10_state R111). -/
def uprValue (c : Config) : BitVec 32 :=
  (c.customUnits ++ 0#24) ||| flagBit c.tickTimer 10 ||| flagBit c.power 9 ||| flagBit c.pic 8 |||
    flagBit c.counters.isSome 7 ||| flagBit c.debugUnit.isSome 6 ||| flagBit c.mac 5 ||| flagBit c.immu.isSome 4 |||
    flagBit c.dmmu.isSome 3 ||| flagBit c.icache.isSome 2 ||| flagBit c.dcache.isSome 1 ||| 1#32

/-- CPUCFGR (10_state R112). ORBIS32 is always supported. -/
def cpucfgrValue (c : Config) : BitVec 32 :=
  flagBit c.aecsrPresent 14 ||| flagBit c.isrPresent 13 ||| flagBit c.evbarPresent 12 ||| flagBit c.avrPresent 11 |||
    flagBit c.nd 10 ||| flagBit c.orvdx64 9 ||| flagBit c.orfpx64 8 ||| flagBit c.orfpx32 7 ||| flagBit c.orbis64 6 |||
    0x20#32 ||| flagBit (decide (c.ngpr < 32)) 4 ||| fieldAt ((c.nsets - 1) % 16) 0

/-- DMMUCFGR and IMMUCFGR (10_state R113, R114). -/
def mmucfgrValue : Option MmuConfig → BitVec 32
  | none => 0#32
  | some m =>
    flagBit m.reload 11 ||| flagBit m.invalidate 10 ||| flagBit m.protect 9 ||| flagBit m.control 8 |||
      fieldAt (m.atbs % 8) 5 ||| fieldAt (m.setsLog % 8) 2 ||| fieldAt ((m.ways - 1) % 4) 0

/-- DCCFGR (10_state R115). -/
def dccfgrValue : Option CacheConfig → BitVec 32
  | none => 0#32
  | some d =>
    flagBit d.writeBack 14 ||| flagBit d.flush 13 ||| flagBit d.lock 12 ||| flagBit d.prefetch 11 |||
      flagBit d.invalidate 10 ||| flagBit d.control 9 ||| flagBit d.copyBack 8 ||| flagBit d.block32 7 |||
      fieldAt (d.setsLog % 16) 3 ||| fieldAt (d.waysLog % 8) 0

/-- ICCFGR (10_state R116). -/
def iccfgrValue : Option CacheConfig → BitVec 32
  | none => 0#32
  | some d =>
    flagBit d.lock 12 ||| flagBit d.prefetch 11 ||| flagBit d.invalidate 10 ||| flagBit d.control 9 |||
      flagBit d.block32 7 ||| fieldAt (d.setsLog % 16) 3 ||| fieldAt (d.waysLog % 8) 0

/-- DCFGR (10_state R117). -/
def dcfgrValue : Option DebugConfig → BitVec 32
  | none => 0#32
  | some d => flagBit d.counters 3 ||| fieldAt ((d.pairs - 1) % 8) 0

/-- PCCFGR (10_state R118). -/
def pccfgrValue : Option Nat → BitVec 32
  | none => 0#32
  | some n => fieldAt ((n - 1) % 8) 0

/-- FPCSR exists (45 R540). -/
def fpcsrPresent (c : Config) : Bool := c.orfpx32 || (c.orfpx64 && decide (c.xlen = .x64))

/-! ### PICSR -/

/-- PICSR (60 R782): the level of a level-triggered input, the latch of an edge-triggered one. -/
def picsr (s : State) : BitVec 32 := (s.pic.irq &&& ~~~s.cfg.picEdge) ||| (s.pic.latch &&& s.cfg.picEdge)

/-- PICMR as it reads (60 R781). -/
def picmr (s : State) : BitVec 32 := if s.cfg.picFixedUnmasked then s.pic.mask ||| 3#32 else s.pic.mask

/-! ### Reading -/

/-- A general register through the SPR space, where it exists (10_state R49). -/
def readWindow (s : State) (j : Nat) : Word :=
  if j / 32 < s.cfg.nsets ∧ j % 32 < s.cfg.ngpr then gprOf s (j / 32) (j % 32) else 0#64

/-- A register that each context has, where the context exists (10_state R83). -/
def readContext {w : Nat} (s : State) (t : Table w) (j : Nat) : BitVec w :=
  if j < s.cfg.nsets then Table.read t j else 0#w

/-- VR; its reserved bits 15-7 read 0 (10_state R110). -/
def vrValue (c : Config) : BitVec 32 := c.vr &&& 0xFFFF007F#32

/-- AVR; its reserved bits 7-0 read 0 (10_state R120, log 7). -/
def avrValue (c : Config) : BitVec 32 := c.avr &&& 0xFFFFFF00#32

/-- Group 0 (10_state R100). -/
def readGroup0 (s : State) (j : Nat) : Word :=
  let c := s.cfg
  if j = 0 then Word.ofLo32 (vrValue c)
  else if j = 1 then Word.ofLo32 (uprValue c)
  else if j = 2 then Word.ofLo32 (cpucfgrValue c)
  else if j = 3 then Word.ofLo32 (mmucfgrValue c.dmmu)
  else if j = 4 then Word.ofLo32 (mmucfgrValue c.immu)
  else if j = 5 then Word.ofLo32 (dccfgrValue c.dcache)
  else if j = 6 then Word.ofLo32 (iccfgrValue c.icache)
  else if j = 7 then Word.ofLo32 (dcfgrValue c.debugUnit)
  else if j = 8 then Word.ofLo32 (pccfgrValue c.counters)
  else if j = 9 then (if c.vr.getLsbD 6 then Word.ofLo32 c.vr2 else 0#64)
  else if j = 10 then (if c.avrPresent then Word.ofLo32 (avrValue c) else 0#64)
  else if j = 11 then (if c.evbarPresent then Word.ofLo32 s.evbar else 0#64)
  else if j = 12 then (if c.aecsrPresent then Word.ofLo32 s.aecr else 0#64)
  else if j = 13 then (if c.aecsrPresent then Word.ofLo32 s.aesr else 0#64)
  else if j = 16 then seqPc s
  else if j = 17 then Word.ofLo32 s.sr
  else if j = 18 then narrow c s.ppc
  else if j = 20 then (if fpcsrPresent c then Word.ofLo32 s.fpcsr else 0#64)
  else if 21 ≤ j ∧ j ≤ 28 then (if c.isrPresent then Word.ofLo32 (c.isr.getD (j - 21) 0#32) else 0#64)
  else if 32 ≤ j ∧ j ≤ 47 then narrow c (readContext s s.epcr (j - 32))
  else if 48 ≤ j ∧ j ≤ 63 then narrow c (readContext s s.eear (j - 48))
  else if 64 ≤ j ∧ j ≤ 79 then Word.ofLo32 (readContext s s.esr (j - 64))
  else if 1024 ≤ j ∧ j ≤ 1535 then readWindow s (j - 1024)
  else 0#64

/-- The translation buffer register an index of group 1 or 2 names (20 R208): true for a match register, and its number
256*y + n; none where the way or the set does not exist. -/
def tlbRegister (g : MmuConfig) (j : Nat) : Option (Bool × Nat) :=
  let y := (j - 512) / 256
  let r := (j - 512) % 256
  if y < g.ways ∧ r % 128 < 2 ^ g.setsLog then some (decide (r < 128), tlbIndex y (r % 128)) else none

/-- Groups 1 and 2 (20 R208, R211 to R234). -/
def readMmu (s : State) (k : Access) (j : Nat) : Word :=
  match mmuConfig s.cfg k with
  | none => 0#64
  | some g =>
    let m := mmuOf s k
    if j = 0 then (if g.control then Word.ofLo32 m.control else 0#64)
    else if j = 1 then (if g.protect then Word.ofLo32 m.protect else 0#64)
    else if 4 ≤ j ∧ j ≤ 7 then (if j - 4 < g.atbs then Table.read m.atbMr (j - 4) else 0#64)
    else if 8 ≤ j ∧ j ≤ 11 then (if j - 8 < g.atbs then Table.read m.atbTr (j - 8) else 0#64)
    else if 512 ≤ j ∧ j ≤ 1535 then
      match tlbRegister g j with
      | some (true, e) => Table.read m.tlbMr e ||| ((Table.read m.tlbLru e).setWidth 64 <<< 6)
      | some (false, e) => Table.read m.tlbTr e
      | none => 0#64
    else 0#64

/-- Group 6 (60 R806 to R812). -/
def readDebug (s : State) (j : Nat) : BitVec 32 :=
  match s.cfg.debugUnit with
  | none => 0#32
  | some g =>
    if j < 8 then (if j < g.pairs then Table.read s.debugUnit.dvr j else 0#32)
    else if j < 16 then (if j - 8 < g.pairs then Table.read s.debugUnit.dcr (j - 8) ||| 1#32 else 0#32)
    else if j = 16 then s.debugUnit.dmr1
    else if j = 17 then s.debugUnit.dmr2
    else if j = 18 then (if g.counters then s.debugUnit.dwcr0 else 0#32)
    else if j = 19 then (if g.counters then s.debugUnit.dwcr1 else 0#32)
    else if j = 20 then s.debugUnit.dsr
    else if j = 21 then s.debugUnit.drr
    else 0#32

/-- Group 7 (60 R800, R801); CP reads 1 in every counter that exists. -/
def readCounters (s : State) (j : Nat) : BitVec 32 :=
  match s.cfg.counters with
  | none => 0#32
  | some n =>
    if j < 8 then (if j < n then Table.read s.pccr j else 0#32)
    else if j < 16 then (if j - 8 < n then Table.read s.pcmr (j - 8) ||| 1#32 else 0#32)
    else 0#32

/-- A cache has its control register. -/
def hasControl : Option CacheConfig → Bool
  | some d => d.control
  | none => false

/-- `spr_read(addr)` (44 R514). Unimplemented, unassigned and write-only registers read 0 (10_state R43). -/
def sprRead (s : State) (addr : Nat) : Word :=
  let j := addr % 2048
  match addr / 2048 with
  | 0 => readGroup0 s j
  | 1 => narrow s.cfg (readMmu s .load j)
  | 2 => narrow s.cfg (readMmu s .fetch j)
  | 3 => if j = 0 ∧ hasControl s.cfg.dcache then Word.ofLo32 s.dccr else 0#64
  | 4 => if j = 0 ∧ hasControl s.cfg.icache then Word.ofLo32 s.iccr else 0#64
  | 5 => if !s.cfg.mac then 0#64 else if j = 1 then Word.ofLo32 s.maclo else if j = 2 then Word.ofLo32 s.machi else 0#64
  | 6 => Word.ofLo32 (readDebug s j)
  | 7 => Word.ofLo32 (readCounters s j)
  | 8 => if j = 0 ∧ s.cfg.power then Word.ofLo32 s.pmr else 0#64
  | 9 =>
    if !s.cfg.pic then 0#64
    else if j = 0 then Word.ofLo32 (picmr s) else if j = 2 then Word.ofLo32 (picsr s) else 0#64
  | 10 =>
    if !s.cfg.tickTimer then 0#64
    else if j = 0 then Word.ofLo32 s.ttmr else if j = 1 then Word.ofLo32 s.ttcr else 0#64
  | _ => 0#64

/-! ### Writing -/

/-- A write to SR (10_state R79); a context that does not exist is refused (10_state R62). -/
def writeSr (s : State) (v : BitVec 32) : Except Refusal State :=
  if 1 < s.cfg.nsets ∧ s.cfg.nsets ≤ cidField v then .error .cidOutOfRange
  else .ok { s with sr := srValue s.cfg v }

/-- A write to a general register through the SPR space, where it exists (10_state R49). -/
def State.writeWindow (s : State) (j : Nat) (v : Word) : State :=
  if j / 32 < s.cfg.nsets ∧ j % 32 < s.cfg.ngpr then s.setGprOf (j / 32) (j % 32) v else s

/-- Group 0 (10_state R100); the configuration registers and ISR0 to ISR7 are constants. -/
def writeGroup0 (s : State) (j : Nat) (v : Word) : Except Refusal State :=
  let c := s.cfg
  let x := Word.lo32 v
  if j = 11 then .ok (if c.evbarPresent then { s with evbar := x &&& 0xFFFFE000#32 } else s)
  else if j = 12 then .ok (if c.aecsrPresent then { s with aecr := x &&& 0x7F#32 } else s)
  else if j = 13 then .ok (if c.aecsrPresent then { s with aesr := x &&& 0x7F#32 } else s)
  else if j = 16 then .error .writeOfNpcOrPpc
  else if j = 17 then writeSr s x
  else if j = 18 then .error .writeOfNpcOrPpc
  else if j = 20 then .ok (if fpcsrPresent c then { s with fpcsr := x &&& 0xFFF#32 } else s)
  else if 32 ≤ j ∧ j ≤ 47 then
    .ok (if j - 32 < c.nsets then { s with epcr := Table.write s.epcr (j - 32) (narrow c v) } else s)
  else if 48 ≤ j ∧ j ≤ 63 then
    .ok (if j - 48 < c.nsets then { s with eear := Table.write s.eear (j - 48) (narrow c v) } else s)
  else if 64 ≤ j ∧ j ≤ 79 then
    .ok (if j - 64 < c.nsets then { s with esr := Table.write s.esr (j - 64) x } else s)
  else if 1024 ≤ j ∧ j ≤ 1535 then .ok (s.writeWindow (j - 1024) v)
  else .ok s

/-- The bits of a match or translate register that a write changes (20 R211 to R223): the fields below the page number,
and the page number, which on a 64-bit implementation is wider and may stand higher (log 17). -/
def fields (c : Config) (low page32 page64 : Word) (shift : Nat) : Word :=
  match c.xlen with
  | .x32 => low ||| page32
  | .x64 => low ||| (page64 <<< shift)

/-- The writable bits of xTLBWyMRn but for LRU. -/
def tlbMrMask (c : Config) : Word := fields c 0x3F#64 0xFFFFE000#64 0x00003FFFFFFFE000#64 (matchShift c)

/-- The writable bits of DTLBWyTRn and of ITLBWyTRn. -/
def tlbTrMask (c : Config) (k : Access) : Word :=
  fields c (match k with
    | .fetch => 0xFF#64
    | _ => 0x3FF#64) 0xFFFFE000#64 0xFFFFFFFFFFFFE000#64 (translateShift c)

/-- The writable bits of xATBMRi. -/
def atbMrMask (c : Config) : Word := fields c 0x3F#64 0xFFFFFC00#64 0x00003FFFFFFFFC00#64 (matchShift c)

/-- The writable bits of DATBTRi and of IATBTRi. -/
def atbTrMask (c : Config) (k : Access) : Word :=
  fields c (match k with
    | .fetch => 0xFF#64
    | _ => 0x3FF#64) 0xFFFFFC00#64 0xFFFFFFFFFFFFFC00#64 (translateShift c)

/-- The writable bits of DMMUPR and of IMMUPR (20 R231, R233). -/
def protectMask : Access → BitVec 32
  | .fetch => 0x00003FFF#32
  | _ => 0x0FFFFFFF#32

/-- An MMU whose TLB entries are all invalid (20 R230). -/
def Mmu.flush (m : Mmu) : Mmu := { m with tlbMr := Table.mapData (fun r => r &&& ~~~1#64) m.tlbMr }

/-- The effect of a write of `a` to xTLBEIR (20 R234): every entry that matches `a`, at either level, becomes invalid.
-/
def invalidated (s : State) (m : Mmu) (g : MmuConfig) (a : Word) : Mmu :=
  let n := tlbSet g a
  let clear (t : Table 64) (y : Nat) : Table 64 :=
    Table.write t (tlbIndex y n) (Table.read t (tlbIndex y n) &&& ~~~1#64)
  { m with tlbMr := ((List.range g.ways).filter (tlbClaims s m a n)).foldl clear m.tlbMr }

/-- Groups 1 and 2 (20 R209, R211 to R234). -/
def State.writeMmu (s : State) (k : Access) (j : Nat) (v : Word) : State :=
  match mmuConfig s.cfg k with
  | none => s
  | some g =>
    let m := mmuOf s k
    let c := s.cfg
    if j = 0 then
      if g.control then
        let m := { m with control := Word.lo32 v &&& 0xFFFFFC00#32 }
        s.setMmu k (if v.getLsbD 0 then m.flush else m)
      else s
    else if j = 1 then (if g.protect then s.setMmu k { m with protect := Word.lo32 v &&& protectMask k } else s)
    else if j = 2 then (if g.invalidate then s.setMmu k (invalidated s m g (narrow c v)) else s)
    else if 4 ≤ j ∧ j ≤ 7 then
      (if j - 4 < g.atbs then s.setMmu k { m with atbMr := Table.write m.atbMr (j - 4) (v &&& atbMrMask c) } else s)
    else if 8 ≤ j ∧ j ≤ 11 then
      (if j - 8 < g.atbs then s.setMmu k { m with atbTr := Table.write m.atbTr (j - 8) (v &&& atbTrMask c k) } else s)
    else if 512 ≤ j ∧ j ≤ 1535 then
      match tlbRegister g j with
      | some (true, e) =>
        s.setMmu k { m with
          tlbMr := Table.write m.tlbMr e (v &&& tlbMrMask c)
          tlbLru := Table.write m.tlbLru e (v.extractLsb' 6 2) }
      | some (false, e) => s.setMmu k { m with tlbTr := Table.write m.tlbTr e (v &&& tlbTrMask c k) }
      | none => s
    else s

/-- The physical address a cache operation acts on; none where the address cannot be translated (20 R272). That the data
MMU translates for the data cache and the instruction MMU for the instruction cache, and that an entry which forbids the
access serves all the same, is the model's choice (log 62). -/
def cacheAddress (s : State) (k : Access) (ea : Word) : Option Nat :=
  match translates s k, mmuConfig s.cfg k with
  | true, some g =>
    match lookup s k g ea with
    | .hit e => some (e.physical s.cfg (mmuOf s k) ea)
    | .miss =>
      if g.reload then
        match walk s k ea with
        | .page p _ log => some ((pageFrame s.cfg.pteLayout p log + ea.toNat % 2 ^ log) % 2 ^ s.cfg.paddrBits)
        | _ => none
      else none
    | .level1 => none
  | _, _ => some (physical s.cfg ea)

/-- Two physical addresses lie in one block of a cache. -/
def sameBlock (g : CacheConfig) (p q : Nat) : Bool :=
  let log := if g.block32 then 5 else 4
  p / 2 ^ log == q / 2 ^ log

/-- An operation on the block of a cache that an effective address names; nothing happens where the cache, or the
register of the operation, is absent, or the address cannot be translated (20 R271, R272). -/
def State.onBlock (s : State) (k : Access) (cache : Option CacheConfig) (present : CacheConfig → Bool) (ea : Word)
    (f : State → CacheConfig → Nat → State) : State :=
  match cache with
  | none => s
  | some g =>
    if present g then
      match cacheAddress s k ea with
      | some pa => f { s with draws := s.draws + 1 } g pa
      | none => s
    else s

/-- A write to ICBIR (20 R283): the block is fetched anew from memory from now on (20 R273). -/
def State.invalidateBlock (s : State) (ea : Word) : State :=
  s.onBlock .fetch s.cfg.icache (·.invalidate) ea fun s g pa =>
    { s with stale := s.stale.filter fun c => !sameBlock g c.1 pa }

/-- A write to DCBFR or DCBWR (20 R278, R280): what is modified in the block is in memory now; an instruction
cache may still hold what memory held before (20 R273). -/
def State.writeBackBlock (s : State) (present : CacheConfig → Bool) (ea : Word) : State :=
  s.onBlock .load s.cfg.dcache present ea fun s g pa =>
    s.updateMemory (sameBlock g · pa)

/-- The byte of memory at a physical address becomes what main memory holds behind a write-back cache: the newest byte,
where the cache has written it back, or an older one (20 R279, log 63). -/
def State.discardByte (s : State) (draw : Nat) (pa : Nat) : State :=
  let l := readByte s pa :: olderBytes s.unwritten pa
  let v := l.getD (Config.freeDiscard draw pa % l.length) 0#8
  { s with mem := Table.write s.mem pa v, stale := staleAfterWrite s pa v }

/-- A write to DCBIR (20 R279): what is modified in the block and not yet in memory is lost. -/
def State.discardBlock (s : State) (ea : Word) : State :=
  s.onBlock .load s.cfg.dcache (·.invalidate) ea fun s g pa =>
    let t := ((s.unwritten.filter fun c => sameBlock g c.1 pa).map (·.1)).dedup.foldl (State.discardByte · s.draws ·) s
    t.updateMemory (sameBlock g · pa)

/-- Group 3 (20 R275 to R281): prefetch and lock change nothing a program sees. -/
def State.writeDataCache (s : State) (j : Nat) (v : Word) : State :=
  let ea := narrow s.cfg v
  if j = 0 then (if hasControl s.cfg.dcache then { s with dccr := Word.lo32 v &&& 0xFF#32 } else s)
  else if j = 2 then s.writeBackBlock (·.flush) ea
  else if j = 3 then s.discardBlock ea
  else if j = 4 then s.writeBackBlock (·.writeBack) ea
  else s

/-- Group 4 (20 R276, R282 to R284): prefetch and lock change nothing a program sees. -/
def State.writeInsnCache (s : State) (j : Nat) (v : Word) : State :=
  if j = 0 then (if hasControl s.cfg.icache then { s with iccr := Word.lo32 v &&& 0xFF#32 } else s)
  else if j = 2 then s.invalidateBlock (narrow s.cfg v)
  else s

/-- Group 6 (60 R806 to R812). -/
def State.writeDebug (s : State) (j : Nat) (x : BitVec 32) : State :=
  match s.cfg.debugUnit with
  | none => s
  | some g =>
    let d := s.debugUnit
    if j < 8 then (if j < g.pairs then { s with debugUnit := { d with dvr := Table.write d.dvr j x } } else s)
    else if j < 16 then
      (if j - 8 < g.pairs then
        { s with debugUnit := { d with dcr := Table.write d.dcr (j - 8) (x &&& 0xFE#32) } }
      else s)
    else if j = 16 then { s with debugUnit := { d with dmr1 := x &&& 0x00CFFFFF#32 } }
    else if j = 17 then
      { s with debugUnit := { d with dmr2 := (x &&& 0x003FFFFF#32) ||| (d.dmr2 &&& x &&& 0xFFC00000#32) } }
    else if j = 18 then (if g.counters then { s with debugUnit := { d with dwcr0 := x } } else s)
    else if j = 19 then (if g.counters then { s with debugUnit := { d with dwcr1 := x } } else s)
    else if j = 20 then { s with debugUnit := { d with dsr := x &&& 0x3FFF#32 } }
    else if j = 21 then { s with debugUnit := { d with drr := x &&& 0x3FFF#32 } }
    else s

/-- Group 7 (60 R800, R801). -/
def State.writeCounters (s : State) (j : Nat) (x : BitVec 32) : State :=
  match s.cfg.counters with
  | none => s
  | some n =>
    if j < 8 then (if j < n then { s with pccr := Table.write s.pccr j x } else s)
    else if j < 16 then
      (if j - 8 < n then { s with pcmr := Table.write s.pcmr (j - 8) (x &&& 0x03FFFFFC#32) } else s)
    else s

/-- Group 9 (60 R781, R782). -/
def State.writePic (s : State) (j : Nat) (x : BitVec 32) : State :=
  if !s.cfg.pic then s
  else if j = 0 then
    { s with pic := { s.pic with mask := if s.cfg.picFixedUnmasked then x ||| 3#32 else x } }
  else if j = 2 then { s with pic := { s.pic with latch := s.pic.latch &&& ~~~(x &&& s.cfg.picEdge) } }
  else s

/-- Group 10 (60 R793, R794): TTMR[IP] is cleared by writing 0 and cannot be set. -/
def State.writeTimer (s : State) (j : Nat) (x : BitVec 32) : State :=
  if !s.cfg.tickTimer then s
  else if j = 0 then { s with ttmr := (x &&& 0xEFFFFFFF#32) ||| (s.ttmr &&& x &&& 0x10000000#32) }
  else if j = 1 then { s with ttcr := x }
  else s

/-! ### Interrupt requests (60 R780) and power modes (60 R803) -/

/-- `int_request` (60 R780): with a PIC the unmasked pending inputs, without one the single input line. -/
def intRequest (s : State) : Bool :=
  if s.cfg.pic then decide (picsr s &&& picmr s ≠ 0#32) else s.pic.irq.getLsbD 0

/-- `TTMR[IP]`, where the tick timer is present. -/
def tickPending (s : State) : Bool := s.cfg.tickTimer && s.ttmr.getLsbD 28

/-- PMR[SUME]: suspend mode, which only reset leaves. -/
def suspended (s : State) : Bool := s.cfg.power && s.pmr.getLsbD 7

/-- PMR[SME]: sleep mode. -/
def sleeping (s : State) : Bool := s.cfg.power && s.pmr.getLsbD 5

/-- PMR[DME]: doze mode. -/
def dozing (s : State) : Bool := s.cfg.power && s.pmr.getLsbD 4

/-- No instruction executes. -/
def waiting (s : State) : Bool := suspended s || sleeping s || dozing s

/-- What ends doze and sleep: an interrupt request, or in doze mode a pending tick interrupt. -/
def wakes (s : State) : Bool := !suspended s && (intRequest s || (!sleeping s && tickPending s))

/-- Doze and sleep mode end at the first instant at which what ends them holds; DME and SME are cleared. -/
def State.wake (s : State) : State := if waiting s && wakes s then { s with pmr := s.pmr &&& 0xFFFFFFCF#32 } else s

/-- Group 8 (60 R803); a mode that what ends it holds for already ends at once. -/
def State.writePower (s : State) (j : Nat) (x : BitVec 32) : State :=
  if j = 0 ∧ s.cfg.power then State.wake { s with pmr := x &&& 0xFF#32 } else s

/-! ### Writing any register -/

/-- `spr_write(addr, v)` (44 R516). A write to an unimplemented or read-only register has no effect (10_state R43). -/
def sprWrite (s : State) (addr : Nat) (v : Word) : Except Refusal State :=
  let j := addr % 2048
  let x := Word.lo32 v
  match addr / 2048 with
  | 0 => writeGroup0 s j v
  | 1 => .ok (s.writeMmu .load j v)
  | 2 => .ok (s.writeMmu .fetch j v)
  | 3 => .ok (s.writeDataCache j v)
  | 4 => .ok (s.writeInsnCache j v)
  | 5 =>
    .ok (if !s.cfg.mac then s else if j = 1 then { s with maclo := x } else if j = 2 then { s with machi := x } else s)
  | 6 => .ok (s.writeDebug j x)
  | 7 => .ok (s.writeCounters j x)
  | 8 => .ok (s.writePower j x)
  | 9 => .ok (s.writePic j x)
  | 10 => .ok (s.writeTimer j x)
  | _ => .ok s

/-! ### Privilege -/

/-- `spr_addr(a, K)` (44 R513). -/
def sprAddr (a : Word) (k : Imm16) : Nat := ((a ||| zextImm k).extractLsb' 0 16).toNat

/-- The registers user mode may read (44 R515, 10_state R102). -/
def userReads (s : State) (addr : Nat) : Bool :=
  addr == 0x2801 || addr == 0x2802 ||
    (srBit s srSUMRA && (addr == 0x0014 || decide (0x3800 ≤ addr ∧ addr ≤ 0x3807) || addr == 0x5001 ||
      decide (0x0020 ≤ addr ∧ addr ≤ 0x003F)))

/-- The registers user mode may write (44 R515, 10_state R102). -/
def userWrites (addr : Nat) : Bool :=
  addr == 0x2801 || addr == 0x2802 || addr == 0x1801 || addr == 0x1802 || addr == 0x1804 || addr == 0x1805 ||
    addr == 0x2001 || addr == 0x2002 || addr == 0x2003

end Sys2Proof.Machine
end

