-- ==== Sys2Proof/Machine/System.lean ====
section
/-!
DEFINITION. Machine/System.lean: moves to and from special-purpose registers, system call, trap, no-operation,
synchronisation and custom placeholders (44_orbis_mac_system).
-/

namespace Sys2Proof.Machine

/-- A write to a special-purpose register completes: pc moves on from where the instruction stood. -/
def moveOn (s t : State) : State := { t with pc := seqPc s, ppc := s.pc, ds := none }

/-- `l.mfspr` (44 R510): rD <- the special-purpose register rA OR K. -/
def execLMfspr (d a : Reg) (k : Imm16) (s : State) : Result :=
  checked s .base [d, a] <|
    let addr := sprAddr (gpr s a) k
    if srBit s srSM || userReads s addr then writeBack s d (sprRead s addr)
    else userViolation s (s.setGpr d 0#64).advance

/-- `l.mtspr` (44 R511): the special-purpose register rA OR K <- rB. -/
def execLMtspr (a b : Reg) (k : Imm16) (s : State) : Result :=
  checked s .base [a, b] <|
    let addr := sprAddr (gpr s a) k
    if srBit s srSM || userWrites addr then
      match sprWrite s addr (gpr s b) with
      | .ok t => .next (moveOn s t)
      | .error r => .refused r
    else userViolation s s.advance

/-- `l.sys` (44 R517): the system call exception; K takes no part. -/
def execLSys (_k : Imm16) (s : State) : Result :=
  checked s .base [] (enter .systemCall none s)

/-- `l.trap` (44 R518): the trap exception, always; K takes no part. -/
def execLTrap (_k : Imm16) (s : State) : Result :=
  checked s (.classII .trap) [] (enter .trap none s)

/-- `l.nop` (44 R519): nothing but the advance of pc, whatever K. -/
def execLNop (_k : Imm16) (s : State) : Result :=
  checked s .base [] (.next s.advance)

/-- `l.csync` (44 R521): all earlier effects are complete already. -/
def execLCsync (s : State) : Result :=
  checked s (.classII .csync) [] (.next s.advance)

/-- `l.msync` (44 R522): all earlier effects are complete already. -/
def execLMsync (s : State) : Result :=
  checked s (.classII .msync) [] (.next s.advance)

/-- `l.psync` (44 R523): all earlier effects are complete already. -/
def execLPsync (s : State) : Result :=
  checked s (.classII .psync) [] (.next s.advance)

/-- `l.cust1` (44 R525): no custom instruction is implemented (30 R330). -/
def execLCust1 (s : State) : Result :=
  checked s .nothing [] (illegal s)

/-- `l.cust2` (44 R525): no custom instruction is implemented (30 R330). -/
def execLCust2 (s : State) : Result :=
  checked s .nothing [] (illegal s)

/-- `l.cust3` (44 R525): no custom instruction is implemented (30 R330). -/
def execLCust3 (s : State) : Result :=
  checked s .nothing [] (illegal s)

/-- `l.cust4` (44 R525): no custom instruction is implemented (30 R330). -/
def execLCust4 (s : State) : Result :=
  checked s .nothing [] (illegal s)

/-- `l.cust5` (44 R525): no custom instruction is implemented (30 R330). -/
def execLCust5 (_d _a _b : Reg) (_l : Imm6) (_k : Imm5) (s : State) : Result :=
  checked s .nothing [] (illegal s)

/-- `l.cust6` (44 R525): no custom instruction is implemented (30 R330). -/
def execLCust6 (s : State) : Result :=
  checked s .nothing [] (illegal s)

/-- `l.cust7` (44 R525): no custom instruction is implemented (30 R330). -/
def execLCust7 (s : State) : Result :=
  checked s .nothing [] (illegal s)

/-- `l.cust8` (44 R525): no custom instruction is implemented (30 R330). -/
def execLCust8 (s : State) : Result :=
  checked s .nothing [] (illegal s)

end Sys2Proof.Machine
end

