-- ==== Sys2Proof/Machine/Events.lean ====
section
/-!
DEFINITION. Machine/Events.lean: what the environment does between two instructions (00 R18): interrupt inputs (60
R780), tick events (60 R792), reset (70 R820), writes of other masters (20 R187).
-/

namespace Sys2Proof.Machine

/-! ### Interrupt inputs -/

/-- The interrupt inputs change: a rising edge sets the latch of an edge-triggered input (60 R782). -/
def State.setIrq (s : State) (lines : BitVec 32) : State :=
  { s with pic := { s.pic with irq := lines, latch := s.pic.latch ||| (lines &&& ~~~s.pic.irq &&& s.cfg.picEdge) } }

/-! ### The tick timer -/

/-- The match of 60 R792. -/
def tickMatch (s : State) : Bool := s.ttcr.extractLsb' 0 28 == s.ttmr.extractLsb' 0 28

/-- TTCR after one tick event, by TTMR[M] (60 R792). -/
def ttcrAfterTick (s : State) : BitVec 32 :=
  match s.ttmr.getLsbD 31, s.ttmr.getLsbD 30 with
  | false, false => s.ttcr
  | false, true => if tickMatch s then 0#32 else s.ttcr + 1#32
  | true, false => if tickMatch s then s.ttcr else s.ttcr + 1#32
  | true, true => s.ttcr + 1#32

/-- One tick event (60 R792); none reaches the timer in sleep and suspend mode (60 R803). -/
def State.tick (s : State) : State :=
  if !s.cfg.tickTimer || suspended s || sleeping s then s
  else
    { s with
      ttmr := if tickMatch s && s.ttmr.getLsbD 29 then s.ttmr ||| 0x10000000#32 else s.ttmr
      ttcr := ttcrAfterTick s }

/-! ### Reset of a running machine (70 R820, R822; 10_state R141) -/

/-- A register file of `n` registers whose values are free but for the bits a mask clears. -/
def freeTable (draw file n : Nat) (mask : Word) : Table 64 :=
  Table.tabulate n fun k => Config.freeReset draw file k &&& mask

/-- An MMU after a warm reset: no entry is valid, the fields without a reset value are free (10_state R140). -/
def freeMmu (c : Config) (k : Access) (draw file : Nat) : Mmu :=
  match mmuConfig c k with
  | none => Mmu.reset
  | some _ =>
    { Mmu.reset with
      tlbMr := freeTable draw file 1024 (tlbMrMask c &&& ~~~3#64)
      tlbTr := freeTable draw (file + 1) 1024 (tlbTrMask c k)
      atbMr := freeTable draw (file + 2) 4 (atbMrMask c &&& ~~~0x3F#64)
      atbTr := freeTable draw (file + 3) 4 (atbTrMask c k) }

/-- The reset event: what has a reset value takes it, what has none is free, memory, the inputs' levels and what an
instruction cache may hold stay (70 R820, R822, log 16). -/
def State.warmReset (s : State) : State :=
  let c := s.cfg
  let all : Word := narrow c (BitVec.allOnes 64)
  { State.resetOf c with
    gprs := freeTable s.draws 0 (32 * c.nsets) all
    ppc := Config.freeReset s.draws 1 0 &&& all
    machi := Word.lo32 (Config.freeReset s.draws 1 1)
    maclo := Word.lo32 (Config.freeReset s.draws 1 2)
    ttmr := Word.lo32 (Config.freeReset s.draws 1 3) &&& 0x0FFFFFFF#32
    dmmu := freeMmu c .load s.draws 2
    immu := freeMmu c .fetch s.draws 6
    pic := { (State.resetOf c).pic with irq := s.pic.irq }
    debugUnit := { Debug.reset with extWatch := s.debugUnit.extWatch }
    mem := s.mem
    stale := s.stale
    unwritten := s.unwritten
    inputs := s.inputs
    draws := s.draws + 1 }

/-! ### Events -/

/-- What one event of the environment does (00 R18), but for ending a power mode. -/
def State.happen (s : State) (e : Input) : State :=
  match e with
  | .cpu => s
  | .irq lines => s.setIrq lines
  | .tick => s.tick
  | .reset => s.warmReset
  | .watch level => { s with debugUnit := { s.debugUnit with extWatch := level } }
  | .write pa v => if mapped s.cfg pa then s.writeByte pa v else s
  | .loseReservation => { s with resv := none }

/-- One event of the environment (00 R18); doze and sleep mode end at the instant it brings about what ends them (60
R803). -/
def State.event (s : State) (e : Input) : State := (s.happen e).wake

/-! ### Loading an instruction -/

/-- The physical address the next fetch reads. -/
def fetchAddress (s : State) : Nat :=
  match translate s .fetch s.pc with
  | .ok p _ => p.pa
  | _ => physical s.cfg s.pc

/-- A word placed in memory, most significant byte first, with no older copy of its bytes in a cache or behind one. -/
def State.placeWord (s : State) (pa : Nat) (w : BitVec 32) : State :=
  let put (m : List Host.Cell) (i : Nat) : List Host.Cell :=
    Table.write m (pa + i) (w.extractLsb' (24 - 8 * i) 8)
  { s with
    mem := put (put (put (put s.mem 0) 1) 2) 3
    stale := s.stale.filter fun c => decide (c.1 < pa ∨ pa + 4 ≤ c.1)
    unwritten := s.unwritten.filter fun c => decide (c.1 < pa ∨ pa + 4 ≤ c.1) }

end Sys2Proof.Machine
end

