-- ==== Sys2Proof/Machine/Observe.lean ====
section
/-!
DEFINITION. Machine/Observe.lean: what the debug unit (60 R805 to R812) and the performance counters (60 R800 to R802)
do after each instruction.
-/

namespace Sys2Proof.Machine

/-! ### The data access of an instruction -/

/-- The load or store an instruction makes: its effective address, its size, and the datum of a store. -/
structure DataAccess where
  store : Bool
  ea : Word
  size : Nat
  datum : Word
deriving DecidableEq, Repr

/-- A load, seen from the state before it. -/
def loadAccess (s : State) (a : Reg) (i : Imm16) (n : Nat) : Option DataAccess :=
  some { store := false, ea := effective s a i, size := n, datum := 0#64 }

/-- A store, seen from the state before it. -/
def storeAccess (s : State) (a b : Reg) (i : Imm16) (n : Nat) : Option DataAccess :=
  some { store := true, ea := effective s a i, size := n, datum := zeroFrom s.cfg (8 * n) (gpr s b) }

/-- The data access of an instruction executed in a state (42 R445); only the loads and stores of 42 make one. -/
def dataAccess (i : Instr) (s : State) : Option DataAccess :=
  match i with
  | .lLd _ a i => loadAccess s a i 8
  | .lLwz _ a i => loadAccess s a i 4
  | .lLws _ a i => loadAccess s a i 4
  | .lLbz _ a i => loadAccess s a i 1
  | .lLbs _ a i => loadAccess s a i 1
  | .lLhz _ a i => loadAccess s a i 2
  | .lLhs _ a i => loadAccess s a i 2
  | .lLwa _ a i => loadAccess s a i 4
  | .lSd a b i => storeAccess s a b i 8
  | .lSw a b i => storeAccess s a b i 4
  | .lSb a b i => storeAccess s a b i 1
  | .lSh a b i => storeAccess s a b i 2
  | .lSwa a b i => storeAccess s a b i 4
  | _ => none

/-- The instruction is `l.swa`. -/
def isConditionalStore : Instr → Bool
  | .lSwa _ _ _ => true
  | _ => false

/-- The instruction is one of the six jumps and branches (43 R480). -/
def isBranch : Instr → Bool
  | .lBf _ => true
  | .lBnf _ => true
  | .lJ _ => true
  | .lJal _ => true
  | .lJr _ => true
  | .lJalr _ => true
  | _ => false

/-- An exception of a data access (60 R760). -/
def Exc.ofData : Exc → Bool
  | .alignment => true
  | .dtlbMiss => true
  | .dataPageFault => true
  | .busError => true
  | _ => false

/-- The data access that took place, or was tried and raised, when an instruction led from `s` to `t`: none where the
instruction was turned away before it, nor for an `l.swa` that stores nothing (60 R743). -/
def accessMade (i : Instr) (s t : State) : Option DataAccess :=
  match t.raised with
  | some e => if e.ofData then dataAccess i s else none
  | none => if isConditionalStore i && !srBit t srF then none else dataAccess i s

/-! ### Matches and watchpoints -/

/-- The datum of an access: what is stored, or what memory held for a load. -/
def accessDatum (s : State) (x : DataAccess) : Word :=
  if x.store then x.datum
  else
    match memRead s x.ea x.size false with
    | .ok r _ => r.1
    | _ => 0#64

/-- The quantity DCR[CT] selects (60 R807): fetch address, address or datum of the access. -/
def compared (s : State) (x : Option DataAccess) (ct : Nat) : Option (BitVec 32) :=
  let pick (wanted : DataAccess → Bool) (f : DataAccess → Word) : Option (BitVec 32) :=
    (x.filter wanted).map fun y => Word.lo32 (f y)
  match ct with
  | 1 => some (Word.lo32 s.pc)
  | 2 => pick (fun y => !y.store) (·.ea)
  | 3 => pick (·.store) (·.ea)
  | 4 => pick (fun y => !y.store) (accessDatum s)
  | 5 => pick (·.store) (accessDatum s)
  | 6 => pick (fun _ => true) (·.ea)
  | 7 => pick (fun _ => true) (accessDatum s)
  | _ => none

/-- The condition DCR[CC] selects (60 R807), the quantity on the left. -/
def compareHolds (signed : Bool) (cc : Nat) (q v : BitVec 32) : Bool :=
  let lt := if signed then q.slt v else q.ult v
  match cc with
  | 1 => q == v
  | 2 => lt
  | 3 => lt || q == v
  | 4 => !(lt || q == v)
  | 5 => !lt
  | 6 => q != v
  | _ => false

/-- `Match n` (60 R807), with the debug registers of `d` and the instruction executed in `s`. -/
def matchHolds (d : Debug) (s : State) (x : Option DataAccess) (n : Nat) : Bool :=
  let c := Table.read d.dcr n
  match compared s x (c.extractLsb' 5 3).toNat with
  | some q => compareHolds (c.getLsbD 4) (c.extractLsb' 1 3).toNat q (Table.read d.dvr n)
  | none => false

/-- The match of a watchpoint counter (60 R810). -/
def counterMatch (v : BitVec 32) : Bool := v.extractLsb' 0 16 == v.extractLsb' 16 16

/-- How DMR1[CWn] combines a match with the watchpoint before it (60 R808). -/
def chain (c : Config) (d : Debug) (n : Nat) (own before : Bool) : Bool :=
  match (d.dmr1.extractLsb' (2 * n) 2).toNat with
  | 0 => own
  | 1 => own && before
  | 2 => if c.cw10Or then own || before else own && before
  | _ => false

/-- The first eight watchpoints in order, each chained to the one before; 0 and 4 to the external one (60 R808). -/
def watchpointsFrom (c : Config) (d : Debug) (own : Nat → Bool) : Nat → Nat → Bool → List Bool
  | 0, _, _ => []
  | k + 1, n, before =>
    let w := chain c d n (own n) (if n % 4 = 0 then d.extWatch else before)
    w :: watchpointsFrom c d own k (n + 1) w

/-- The ten watchpoints, number n in bit n (60 R808). -/
def watchpoints (c : Config) (g : DebugConfig) (d : Debug) (own : Nat → Bool) : BitVec 10 :=
  let w := watchpointsFrom c d (fun n => decide (n < g.pairs) && own n) 8 0 false
  let w8 := chain c d 8 (g.counters && counterMatch d.dwcr0) (w.getD 3 false)
  let w9 := chain c d 9 (g.counters && counterMatch d.dwcr1) (w.getD 7 false)
  (w ++ [w8, w9]).zipIdx.foldl (fun v x => if x.1 then v ||| (1#10 <<< x.2) else v) 0#10

/-- The watchpoints that fire for an instruction that led from `s` to `t` (60 R805). -/
def firedWatchpoints (i : Instr) (s t : State) : BitVec 10 :=
  match t.cfg.debugUnit with
  | none => 0#10
  | some g => watchpoints t.cfg g t.debugUnit (matchHolds t.debugUnit s (accessMade i s t))

/-! ### What watchpoints do -/

/-- How many bits are set. -/
def popCount (v : BitVec 10) : Nat := ((List.range 10).filter fun n => v.getLsbD n).length

/-- A watchpoint counter after `n` more watchpoints (60 R810): COUNT modulo 2^16. -/
def dwcrAfter (v : BitVec 32) (n : Nat) : BitVec 32 :=
  v.extractLsb' 16 16 ++ (v.extractLsb' 0 16 + BitVec.ofNat 16 n)

/-- DMR2[WGB]. -/
def breakpointMask (d : Debug) : BitVec 10 := d.dmr2.extractLsb' 12 10

/-- DMR2[AWTC]. -/
def assignMask (d : Debug) : BitVec 10 := d.dmr2.extractLsb' 2 10

/-- The watchpoint counters and DMR2[WBS] after the watchpoints `w` fired (60 R809, R810). -/
def Debug.after (d : Debug) (g : DebugConfig) (w : BitVec 10) : Debug :=
  { d with
    dmr2 := d.dmr2 ||| ((w &&& breakpointMask d) ++ 0#22)
    dwcr0 := if g.counters && d.dmr2.getLsbD 0 then dwcrAfter d.dwcr0 (popCount (w &&& ~~~assignMask d)) else d.dwcr0
    dwcr1 := if g.counters && d.dmr2.getLsbD 1 then dwcrAfter d.dwcr1 (popCount (w &&& assignMask d)) else d.dwcr1 }

/-- The state with the debug unit updated. -/
def State.watch (s : State) (w : BitVec 10) : State :=
  match s.cfg.debugUnit with
  | none => s
  | some g => { s with debugUnit := s.debugUnit.after g w }

/-- The debug unit raises the trap exception after an instruction (60 R808, R809): a breakpoint, single-step trace, or
branch trace. That branch trace also stops after a branch that is not taken is the model's choice: R808 says that it is
not stated (log 40). -/
def debugTraps (i : Instr) (s : State) (w : BitVec 10) : Bool :=
  s.cfg.debugUnit.isSome && (decide (w &&& breakpointMask s.debugUnit ≠ 0#10) || s.debugUnit.dmr1.getLsbD 22 ||
    (s.debugUnit.dmr1.getLsbD 23 && isBranch i))

/-! ### Performance counters -/

/-- The events of one step that PCMR can select and the spec defines (60 R802). -/
structure PerfEvents where
  dtlbMisses : Nat
  itlbMisses : Nat
  fetch : Bool
  store : Bool
  load : Bool
  watch : BitVec 10
deriving DecidableEq, Repr

/-- The events of a step that takes an interrupt: none. -/
def noEvents : PerfEvents :=
  { dtlbMisses := 0, itlbMisses := 0, fetch := false, store := false, load := false, watch := 0#10 }

/-- The events of a step whose fetch raised, or whose word was illegal. -/
def fetchEvents (t : State) : PerfEvents := { noEvents with itlbMisses := t.itlbMisses, fetch := true }

/-- The events of an instruction that led from `s` to `t`. -/
def instructionEvents (i : Instr) (s t : State) (w : BitVec 10) : PerfEvents :=
  { dtlbMisses := t.dtlbMisses
    itlbMisses := t.itlbMisses
    fetch := true
    store := (accessMade i s t).any (·.store)
    load := (accessMade i s t).any (fun x => !x.store)
    watch := w }

/-- How many of a step's events a PCMR selects (60 R801); a miss counts whether or not it raised (60 R802). -/
def selectedEvents (m : BitVec 32) (e : PerfEvents) : Nat :=
  (if m.getLsbD 13 then e.itlbMisses else 0) + (if m.getLsbD 12 then e.dtlbMisses else 0) +
    (m.getLsbD 6 && e.fetch).toNat + (m.getLsbD 5 && e.store).toNat + (m.getLsbD 4 && e.load).toNat +
    popCount (m.extractLsb' 15 10 &&& e.watch)

/-- A PCMR selects an event of the caches or the pipeline, whose number is free (60 R802). -/
def selectsPipeline (m : BitVec 32) : Bool := decide (m &&& 0x4F80#32 ≠ 0#32)

/-- PCCRk after a step; `user` is the mode the step ran in (60 R800 to R802). The state is the one the step leaves: that an
instruction which writes PCMRk is counted under the new value, and one which writes PCCRk is added to the value written,
is the model's choice, on which the spec is silent (log 41). -/
def pccrAfter (s : State) (user : Bool) (e : PerfEvents) (k : Nat) : BitVec 32 :=
  let m := Table.read s.pcmr k
  if m.getLsbD (if user then 3 else 2) then
    Table.read s.pccr k + BitVec.ofNat 32 (selectedEvents m e) +
      (if selectsPipeline m then Config.freeCount s.draws k else 0#32)
  else Table.read s.pccr k

/-- The counters after a step; nothing happens where no PCMR is programmed. -/
def State.count (s : State) (user : Bool) (e : PerfEvents) : State :=
  match s.cfg.counters with
  | none => s
  | some n =>
    if s.pcmr.isEmpty then s
    else
      { s with
        pccr := (List.range n).foldl (fun t k => Table.write t k (pccrAfter s user e k)) s.pccr
        draws := s.draws + 1 }

/-! ### After a step -/

/-- The counters count a step that takes an interrupt. -/
def observeEntry (s : State) (r : Result) : Result :=
  match r with
  | .next t => .next (t.count (!srBit s srSM) noEvents)
  | r => r

/-- The counters count a step whose fetch raised or whose word was illegal. -/
def observeFetch (s : State) (r : Result) : Result :=
  match r with
  | .next t => .next (t.count (!srBit s srSM) (fetchEvents t))
  | r => r

/-- The state in which a floating-point instruction that led from `s` to `t` has completed, the exception it raises not
yet taken: the result and FPCSR are written (45 R543 steps 2 and 3). -/
def floatCompleted (s t : State) : State := { s with gprs := t.gprs, fpcsr := t.fpcsr }.advance

/-- The debug unit and the counters see an instruction that completed and leaves the state `u`; where the debug unit
asks for no trap exception the step ends in `t` (60 R805). -/
def observeCompleted (i : Instr) (s u t : State) : Result :=
  let w := firedWatchpoints i s u
  let seen (v : State) : State := (v.watch w).count (!srBit s srSM) (instructionEvents i s t w)
  if debugTraps i u w then enter .trap none (seen u) else .next (seen t)

/-- The debug unit and the counters see the instruction `i` executed in `s`: the debug unit those that completed
(60 R805), the counters all (60 R802). A floating-point instruction that raises its exception has completed (45 R543, 60
R741); where the debug unit asks for the trap exception too, that one alone is raised, for its number is the smaller (60
R760, log 65). -/
def observe (i : Instr) (s : State) (r : Result) : Result :=
  match r with
  | .next t =>
    match t.raised with
    | none => observeCompleted i s t t
    | some .floatingPoint => observeCompleted i s (floatCompleted s t) t
    | some _ => .next (t.count (!srBit s srSM) (instructionEvents i s t 0#10))
  | r => r

end Sys2Proof.Machine
end

