-- ==== Sys2Proof/Machine/Cycle.lean ====
section
/-!
DEFINITION. Machine/Cycle.lean: one step of the machine (43 R480): an event of the environment, an exception recognised
between instructions, or one instruction.
-/

namespace Sys2Proof.Machine

/-- Fetch, decode and execute the instruction at pc (43 R480 steps 2 to 5). -/
def instructionStep (s : State) : Result :=
  match fetch s with
  | .refuse r => .refused r
  | .raise e t => observeFetch s (enter e (some s.pc) t)
  | .ok w t =>
    match decode w with
    | .error _ => observeFetch s (illegal t)
    | .ok i => observe i t (exec i t)

/-- The model's own record of a step, empty at its start (log 41). -/
def State.fresh (s : State) : State := { s with raised := none, dtlbMisses := 0, itlbMisses := 0 }

/-- The processor's turn: nothing in a power mode, else a pending and enabled tick or external interrupt, tick first
(60 R750, R751), else an instruction. -/
def processorStep (s : State) : Result :=
  if s.stopped then .fault .debugStopped
  else if waiting s then .next s.wake
  else
    let s := s.fresh
    if tickPending s && srBit s srTEE then observeEntry s (enter .tick none s)
    else if intRequest s && srBit s srIEE then observeEntry s (enter .external none s)
    else instructionStep s

/-- The next event of the environment, or the processor's turn where none comes first (log 15). -/
def cycle (s : State) : Result :=
  match s.inputs with
  | [] => processorStep s
  | .cpu :: rest => processorStep { s with inputs := rest }
  | e :: rest => .next (State.event { s with inputs := rest } e)

/-- The state whose next fetch reads the word `w`. -/
def State.placeNext (s : State) (w : BitVec 32) : State := s.placeWord (fetchAddress s) w

end Sys2Proof.Machine
end

