-- ==== Sys2Proof/Machine/Step.lean ====
section
/-!
DEFINITION. Machine/Step.lean: one step of the machine, and the placing of an instruction where it is fetched next.
-/

namespace Sys2Proof.Machine

/-- One step (43 R480): see `cycle`. -/
def step (s : State) : Host.Outcome State Fault Refusal := cycle s

/-- The instruction whose bits are `w` stored where the next step fetches (30 R300). -/
def State.withFetchWord (s : State) (_nbits w : Nat) : State := s.placeNext (BitVec.ofNat 32 w)

end Sys2Proof.Machine
end

