-- ==== Sys2Proof/Machine/Demands.lean ====
section
/-!
DEFINITION. Machine/Demands.lean: what each instruction demands before its own effect: what the implementation must have
for it to exist (30 R330, R331), and the general registers it names (10_state R48). The statements speak of it.
-/

namespace Sys2Proof.Machine

/-- What an instruction needs of the implementation, and the registers it names. -/
def demands (i : Instr) : Needs × List Reg :=
  match i with
  | .lAdd d a b => (.base, [d, a, b])
  | .lAddc d a b => (.base, [d, a, b])
  | .lAddi d a _ => (.base, [d, a])
  | .lAddic d a _ => (.base, [d, a])
  | .lSub d a b => (.base, [d, a, b])
  | .lAnd d a b => (.base, [d, a, b])
  | .lAndi d a _ => (.base, [d, a])
  | .lOr d a b => (.base, [d, a, b])
  | .lOri d a _ => (.base, [d, a])
  | .lXor d a b => (.base, [d, a, b])
  | .lXori d a _ => (.base, [d, a])
  | .lSll d a b => (.base, [d, a, b])
  | .lSlli d a _ => (.base, [d, a])
  | .lSrl d a b => (.base, [d, a, b])
  | .lSrli d a _ => (.base, [d, a])
  | .lSra d a b => (.base, [d, a, b])
  | .lSrai d a _ => (.base, [d, a])
  | .lRor d a b => (.classII .ror, [d, a, b])
  | .lRori d a _ => (.classII .rori, [d, a])
  | .lCmov d a b => (.classII .cmov, [d, a, b])
  | .lFf1 d a => (.classII .ff1, [d, a])
  | .lFl1 d a => (.classII .fl1, [d, a])
  | .lMovhi d _ => (.base, [d])
  | .lMul d a b => (.base, [d, a, b])
  | .lMulu d a b => (.base, [d, a, b])
  | .lMuli d a _ => (.classII .muli, [d, a])
  | .lDiv d a b => (.classII .div, [d, a, b])
  | .lDivu d a b => (.classII .divu, [d, a, b])
  | .lExths d a => (.classII .exths, [d, a])
  | .lExtbs d a => (.classII .extbs, [d, a])
  | .lExthz d a => (.classII .exthz, [d, a])
  | .lExtbz d a => (.classII .extbz, [d, a])
  | .lExtws d a => (.classII .extws, [d, a])
  | .lExtwz d a => (.classII .extwz, [d, a])
  | .lSfeq a b => (.base, [a, b])
  | .lSfne a b => (.base, [a, b])
  | .lSfgtu a b => (.base, [a, b])
  | .lSfgeu a b => (.base, [a, b])
  | .lSfltu a b => (.base, [a, b])
  | .lSfleu a b => (.base, [a, b])
  | .lSfgts a b => (.base, [a, b])
  | .lSfges a b => (.base, [a, b])
  | .lSflts a b => (.base, [a, b])
  | .lSfles a b => (.base, [a, b])
  | .lSfeqi a _ => (.base, [a])
  | .lSfnei a _ => (.base, [a])
  | .lSfgtui a _ => (.base, [a])
  | .lSfgeui a _ => (.base, [a])
  | .lSfltui a _ => (.base, [a])
  | .lSfleui a _ => (.base, [a])
  | .lSfgtsi a _ => (.base, [a])
  | .lSfgesi a _ => (.base, [a])
  | .lSfltsi a _ => (.base, [a])
  | .lSflesi a _ => (.base, [a])
  | .lLd d a _ => (.doubleWord, [d, a])
  | .lLwz d a _ => (.base, [d, a])
  | .lLws d a _ => (.base, [d, a])
  | .lLbz d a _ => (.base, [d, a])
  | .lLbs d a _ => (.base, [d, a])
  | .lLhz d a _ => (.base, [d, a])
  | .lLhs d a _ => (.base, [d, a])
  | .lLwa d a _ => (.classII .lwa, [d, a])
  | .lSd a b _ => (.doubleWord, [a, b])
  | .lSw a b _ => (.base, [a, b])
  | .lSb a b _ => (.base, [a, b])
  | .lSh a b _ => (.base, [a, b])
  | .lSwa a b _ => (.classII .swa, [a, b])
  | .lBf _ => (.base, [])
  | .lBnf _ => (.base, [])
  | .lJ _ => (.base, [])
  | .lJal _ => (.base, [])
  | .lJr b => (.base, [b])
  | .lJalr b => (.base, [b])
  | .lRfe => (.base, [])
  | .lMac a b => (.macUnit .mac, [a, b])
  | .lMaci a _ => (.macUnit .maci, [a])
  | .lMsb a b => (.macUnit .msb, [a, b])
  | .lMacu a b => (.macUnit .macu, [a, b])
  | .lMsbu a b => (.macUnit .msbu, [a, b])
  | .lMacrc d => (.macUnit .macrc, [d])
  | .lMuld a b => (.macUnit .muld, [a, b])
  | .lMuldu a b => (.macUnit .muldu, [a, b])
  | .lMfspr d a _ => (.base, [d, a])
  | .lMtspr a b _ => (.base, [a, b])
  | .lSys _ => (.base, [])
  | .lTrap _ => (.classII .trap, [])
  | .lNop _ => (.base, [])
  | .lCsync => (.classII .csync, [])
  | .lMsync => (.classII .msync, [])
  | .lPsync => (.classII .psync, [])
  | .lCust1 => (.nothing, [])
  | .lCust2 => (.nothing, [])
  | .lCust3 => (.nothing, [])
  | .lCust4 => (.nothing, [])
  | .lCust5 _ _ _ _ _ => (.nothing, [])
  | .lCust6 => (.nothing, [])
  | .lCust7 => (.nothing, [])
  | .lCust8 => (.nothing, [])
  | .lfAddS d a b => (.single, [d, a, b])
  | .lfAddD d a b => (.double, [d, a, b])
  | .lfSubS d a b => (.single, [d, a, b])
  | .lfSubD d a b => (.double, [d, a, b])
  | .lfMulS d a b => (.single, [d, a, b])
  | .lfMulD d a b => (.double, [d, a, b])
  | .lfDivS d a b => (.single, [d, a, b])
  | .lfDivD d a b => (.double, [d, a, b])
  | .lfRemS d a b => (.single, [d, a, b])
  | .lfRemD d a b => (.double, [d, a, b])
  | .lfMaddS _ _ _ => (.madd false, [])
  | .lfMaddD _ _ _ => (.madd true, [])
  | .lfItofS d a => (.single, [d, a])
  | .lfItofD d a => (.double, [d, a])
  | .lfFtoiS d a => (.single, [d, a])
  | .lfFtoiD d a => (.double, [d, a])
  | .lfSfeqS a b => (.single, [a, b])
  | .lfSfeqD a b => (.double, [a, b])
  | .lfSfneS a b => (.single, [a, b])
  | .lfSfneD a b => (.double, [a, b])
  | .lfSfgtS a b => (.single, [a, b])
  | .lfSfgtD a b => (.double, [a, b])
  | .lfSfgeS a b => (.single, [a, b])
  | .lfSfgeD a b => (.double, [a, b])
  | .lfSfltS a b => (.single, [a, b])
  | .lfSfltD a b => (.double, [a, b])
  | .lfSfleS a b => (.single, [a, b])
  | .lfSfleD a b => (.double, [a, b])
  | .lfCust1S _ _ => (.nothing, [])
  | .lfCust1D _ _ => (.nothing, [])
  | .lvAllEqB d a b => (.vector, [d, a, b])
  | .lvAllEqH d a b => (.vector, [d, a, b])
  | .lvAllGeB d a b => (.vector, [d, a, b])
  | .lvAllGeH d a b => (.vector, [d, a, b])
  | .lvAllGtB d a b => (.vector, [d, a, b])
  | .lvAllGtH d a b => (.vector, [d, a, b])
  | .lvAllLeB d a b => (.vector, [d, a, b])
  | .lvAllLeH d a b => (.vector, [d, a, b])
  | .lvAllLtB d a b => (.vector, [d, a, b])
  | .lvAllLtH d a b => (.vector, [d, a, b])
  | .lvAllNeB d a b => (.vector, [d, a, b])
  | .lvAllNeH d a b => (.vector, [d, a, b])
  | .lvAnyEqB d a b => (.vector, [d, a, b])
  | .lvAnyEqH d a b => (.vector, [d, a, b])
  | .lvAnyGeB d a b => (.vector, [d, a, b])
  | .lvAnyGeH d a b => (.vector, [d, a, b])
  | .lvAnyGtB d a b => (.vector, [d, a, b])
  | .lvAnyGtH d a b => (.vector, [d, a, b])
  | .lvAnyLeB d a b => (.vector, [d, a, b])
  | .lvAnyLeH d a b => (.vector, [d, a, b])
  | .lvAnyLtB d a b => (.vector, [d, a, b])
  | .lvAnyLtH d a b => (.vector, [d, a, b])
  | .lvAnyNeB d a b => (.vector, [d, a, b])
  | .lvAnyNeH d a b => (.vector, [d, a, b])
  | .lvAddB d a b => (.vector, [d, a, b])
  | .lvAddH d a b => (.vector, [d, a, b])
  | .lvAddsB d a b => (.vector, [d, a, b])
  | .lvAddsH d a b => (.vector, [d, a, b])
  | .lvAdduB d a b => (.vector, [d, a, b])
  | .lvAdduH d a b => (.vector, [d, a, b])
  | .lvAddusB d a b => (.vector, [d, a, b])
  | .lvAddusH d a b => (.vector, [d, a, b])
  | .lvAnd d a b => (.vector, [d, a, b])
  | .lvAvgB d a b => (.vector, [d, a, b])
  | .lvAvgH d a b => (.vector, [d, a, b])
  | .lvCmpEqB d a b => (.vector, [d, a, b])
  | .lvCmpEqH d a b => (.vector, [d, a, b])
  | .lvCmpGeB d a b => (.vector, [d, a, b])
  | .lvCmpGeH d a b => (.vector, [d, a, b])
  | .lvCmpGtB d a b => (.vector, [d, a, b])
  | .lvCmpGtH d a b => (.vector, [d, a, b])
  | .lvCmpLeB d a b => (.vector, [d, a, b])
  | .lvCmpLeH d a b => (.vector, [d, a, b])
  | .lvCmpLtB d a b => (.vector, [d, a, b])
  | .lvCmpLtH d a b => (.vector, [d, a, b])
  | .lvCmpNeB d a b => (.vector, [d, a, b])
  | .lvCmpNeH d a b => (.vector, [d, a, b])
  | .lvMaddsH d a b => (.vector, [d, a, b])
  | .lvMaxB d a b => (.vector, [d, a, b])
  | .lvMaxH d a b => (.vector, [d, a, b])
  | .lvMergeB d a b => (.vector, [d, a, b])
  | .lvMergeH d a b => (.vector, [d, a, b])
  | .lvMinB d a b => (.vector, [d, a, b])
  | .lvMinH d a b => (.vector, [d, a, b])
  | .lvMsubsH d a b => (.vector, [d, a, b])
  | .lvMulsH d a b => (.vectorII .lvMulsH, [d, a, b])
  | .lvNand d a b => (.vector, [d, a, b])
  | .lvNor d a b => (.vector, [d, a, b])
  | .lvOr d a b => (.vector, [d, a, b])
  | .lvPackB d a b => (.vector, [d, a, b])
  | .lvPackH d a b => (.vector, [d, a, b])
  | .lvPacksB d a b => (.vector, [d, a, b])
  | .lvPacksH d a b => (.vector, [d, a, b])
  | .lvPackusB d a b => (.vector, [d, a, b])
  | .lvPackusH d a b => (.vector, [d, a, b])
  | .lvPermN d a b => (.vector, [d, a, b])
  | .lvRlB d a b => (.vector, [d, a, b])
  | .lvRlH d a b => (.vector, [d, a, b])
  | .lvSllB d a b => (.vector, [d, a, b])
  | .lvSllH d a b => (.vector, [d, a, b])
  | .lvSll d a b => (.vector, [d, a, b])
  | .lvSrlB d a b => (.vector, [d, a, b])
  | .lvSrlH d a b => (.vector, [d, a, b])
  | .lvSraB d a b => (.vector, [d, a, b])
  | .lvSraH d a b => (.vector, [d, a, b])
  | .lvSrl d a b => (.vector, [d, a, b])
  | .lvSubB d a b => (.vector, [d, a, b])
  | .lvSubH d a b => (.vector, [d, a, b])
  | .lvSubsB d a b => (.vector, [d, a, b])
  | .lvSubsH d a b => (.vector, [d, a, b])
  | .lvSubuB d a b => (.vector, [d, a, b])
  | .lvSubuH d a b => (.vector, [d, a, b])
  | .lvSubusB d a b => (.vector, [d, a, b])
  | .lvSubusH d a b => (.vector, [d, a, b])
  | .lvUnpackB d a _ => (.vector, [d, a])
  | .lvUnpackH d a _ => (.vector, [d, a])
  | .lvXor d a b => (.vector, [d, a, b])
  | .lvCust1 => (.nothing, [])
  | .lvCust2 => (.nothing, [])
  | .lvCust3 => (.nothing, [])
  | .lvCust4 => (.nothing, [])

end Sys2Proof.Machine
end

