-- ==== Sys2Proof/Safety.lean ====
section
/-!
DEFINITION. Safety.lean: the invariant of the machine, and the words the statements are written in: what an instruction
writes, what it leaves unchanged, and how an exception is taken.
-/

namespace Sys2Proof.Machine

/-! ### The invariant -/

/-- An address of the register width (10_state R50). -/
def inWidth (c : Config) (x : Word) : Bool := decide (narrow c x = x)

/-- The invariant every step keeps. Memory and the register file are in their canonical form (20 R160); SR has FO set
and its reserved and hard-wired bits clear (10_state R79) and names a context that exists (10_state R62); pc and a
pending delay slot hold addresses of the register width (10_state R50, R54); the reserved bits of FPCSR, EVBAR, AECR and
AESR are clear (10_state R77). -/
def State.wf (s : State) : Bool :=
  s.cfg.wf && Memory.wf s.mem && Table.wf s.gprs && decide (srValue s.cfg s.sr = s.sr) &&
    decide (context s < s.cfg.nsets) && inWidth s.cfg s.pc &&
    (match s.ds with
     | none => true
     | some d => inWidth s.cfg d.jump && inWidth s.cfg d.next) &&
    decide (s.fpcsr &&& 0xFFFFF000#32 = 0#32) && decide (s.evbar &&& 0x1FFF#32 = 0#32) &&
    decide (s.aecr &&& 0xFFFFFF80#32 = 0#32) && decide (s.aesr &&& 0xFFFFFF80#32 = 0#32)

/-- A state some run from a start state reaches. -/
inductive Reachable (s : State) : State → Prop where
  | start : Reachable s s
  | step {t u : State} : Reachable s t → Machine.step t = .next u → Reachable s u

/-! ### What an instruction may change -/

/-- The instruction can be tried: the implementation has it and the registers it names (30 R331, 10_state R48). -/
def available (s : State) (needs : Needs) (regs : List Reg) : Prop :=
  implemented s.cfg needs = true ∧ regsExist s.cfg regs = true

/-- Every byte of memory reads as before. -/
def memoryKept (s t : State) : Prop := ∀ pa : Nat, readByte t pa = readByte s pa

/-- Register `d` of the current set holds `v`, but for a hard-wired r0, which keeps 0; every other register of every set
is unchanged (10_state R46, R49). -/
def registerIs (s t : State) (d : Reg) (v : Word) : Prop :=
  (∀ r : Reg, gpr t r = if r = d ∧ ¬(s.cfg.r0Hardwired = true ∧ r = 0#5) then narrow s.cfg v else gpr s r) ∧
    ∀ set r : Nat, r < 32 → set ≠ context s → gprOf t set r = gprOf s set r

/-- Every general register of every set is unchanged. -/
def registersKept (s t : State) : Prop := ∀ set r : Nat, gprOf t set r = gprOf s set r

/-- F, CY and OV hold the given values, or their old ones where none is given; every other bit of SR is unchanged. -/
def flagsAre (s t : State) (f cy ov : Option Bool) : Prop :=
  ∀ n : Nat, n < 32 → t.sr.getLsbD n =
    if n = 9 then f.getD (s.sr.getLsbD 9)
    else if n = 10 then cy.getD (s.sr.getLsbD 10)
    else if n = 11 then ov.getD (s.sr.getLsbD 11)
    else s.sr.getLsbD n

/-- `s` with its program counter moved on as by any instruction that is no jump (10_state R52, 43 R480). -/
def movedOn (s : State) : State := { s with pc := seqPc s, ppc := s.pc, ds := none }

/-- The instruction completes, writes `v` to rD and changes nothing else. -/
def writesRegister (i : Instr) (s : State) (d : Reg) (v : Word) : Prop :=
  ∃ t : State, exec i s = .next t ∧ registerIs s t d v ∧ memoryKept s t ∧
    t = { movedOn s with gprs := t.gprs }

/-- The instruction completes, writes `v` to rD and the given values to CY and OV, and changes nothing else. -/
def writesRegisterFlags (i : Instr) (s : State) (d : Reg) (v : Word) (cy ov : Option Bool) : Prop :=
  ∃ t : State, exec i s = .next t ∧ registerIs s t d v ∧ flagsAre s t none cy ov ∧ memoryKept s t ∧
    t = { movedOn s with gprs := t.gprs, sr := t.sr }

/-- The instruction completes, writes `v` to F and changes nothing else. -/
def writesFlag (i : Instr) (s : State) (v : Bool) : Prop :=
  ∃ t : State, exec i s = .next t ∧ flagsAre s t (some v) none none ∧ registersKept s t ∧ memoryKept s t ∧
    t = { movedOn s with sr := t.sr }

/-- The instruction completes, writes `v` to MACHI and MACLO and the given values to CY and OV, and changes nothing
else. -/
def writesMac (i : Instr) (s : State) (v : BitVec 64) (cy ov : Option Bool) : Prop :=
  ∃ t : State, exec i s = .next t ∧ t.machi ++ t.maclo = v ∧ flagsAre s t none cy ov ∧ registersKept s t ∧
    memoryKept s t ∧ t = { movedOn s with machi := t.machi, maclo := t.maclo, sr := t.sr }

/-- The instruction completes, writes to rD a value whose `n` elements of width `w` are given, and changes nothing
else (46 R591). -/
def writesElements (i : Instr) (s : State) (d : Reg) (w n : Nat) (f : Nat → BitVec w) : Prop :=
  ∃ v : Word, writesRegister i s d v ∧ ∀ k : Nat, k < n → elem w v k = f k

/-- The instruction completes, writes the result `v` to rD, ORs its flags into FPCSR (or puts them there, 45 R543), and
changes nothing else. -/
def writesFloat (i : Instr) (s : State) (d : Reg) (r : FloatResult) : Prop :=
  ∃ t : State, exec i s = .next t ∧ registerIs s t d r.value ∧ t.fpcsr = fpcsrAfter s r.flags ∧ memoryKept s t ∧
    t = { movedOn s with gprs := t.gprs, fpcsr := t.fpcsr }

/-- The instruction completes, writes `v` to F, sets FPCSR[IVF] (bit 9) where the comparison is invalid and such flags
are kept, and changes nothing else (45 R545). -/
def writesFloatFlag (i : Instr) (s : State) (v invalid : Bool) : Prop :=
  ∃ t : State, exec i s = .next t ∧ flagsAre s t (some v) none none ∧
    (∀ n : Nat, n < 32 → t.fpcsr.getLsbD n =
      (s.fpcsr.getLsbD n || (decide (n = 9) && s.cfg.fpCmpFlags && invalid))) ∧
    registersKept s t ∧ memoryKept s t ∧ t = { movedOn s with sr := t.sr, fpcsr := t.fpcsr }

/-- The instruction completes and changes nothing but the program counter. -/
def onlyMovesOn (i : Instr) (s : State) : Prop := exec i s = .next (movedOn s)

/-! ### Exceptions -/

/-- An exception can be taken: DSR does not stop the processor and the context it needs exists (60 R735, R811). -/
def canEnter (s : State) (e : Exc) : Prop := debugTakes s e = false ∧ entryContext s < s.cfg.nsets

/-- What 60 R730 says of an exception raised in state `s`: the saved pc, SR and address stand in the registers of the
context, SR, pc, the delay slot and the reservation are as the rule says, and nothing else changed. -/
def takesException (r : Result) (s : State) (e : Exc) (ea : Option Word) : Prop :=
  ∃ t : State, r = .next t ∧ Table.read t.epcr (entryContext s) = savedPc s e ∧
    Table.read t.esr (entryContext s) = s.sr ∧
    Table.read t.eear (entryContext s) = ea.getD (Table.read s.eear (entryContext s)) ∧
    (∀ k : Nat, k ≠ entryContext s → Table.read t.epcr k = Table.read s.epcr k ∧
      Table.read t.esr k = Table.read s.esr k ∧ Table.read t.eear k = Table.read s.eear k) ∧
    t.sr = entrySr s (entryContext s) ∧ t.pc = vectorOf s e ∧ t.ds = none ∧ t.resv = none ∧
    memoryKept s t ∧ t.gprs = s.gprs ∧
    t = { s with epcr := t.epcr, esr := t.esr, eear := t.eear, sr := t.sr, pc := t.pc, ds := none, resv := none,
                 raised := some e }

/-- An exception is taken at the end of a step, and the performance counters, where there are any, see the step. -/
def takesExceptionCounted (r : Result) (s : State) (e : Exc) (ea : Option Word) : Prop :=
  ∃ t u : State, takesException (.next t) s e ea ∧ r = .next u ∧ u = { t with pccr := u.pccr, draws := u.draws } ∧
    (s.cfg.counters = none → u = t)

/-- The processor's next step fetches an instruction: no event comes first, it is neither stopped nor in a power mode,
and takes no interrupt (43 R480 step 1). -/
def ready (s : State) : Prop :=
  s.inputs = [] ∧ s.stopped = false ∧ waiting s = false ∧ (tickPending s && srBit s srTEE) = false ∧
    (intRequest s && srBit s srIEE) = false

/-- The exact integer is no signed W-bit number: `ovf` of 40 R350. -/
def outOfRange (c : Config) (z : Int) : Bool :=
  decide (z < -(2 : Int) ^ (c.xlen.bits - 1) ∨ (2 : Int) ^ (c.xlen.bits - 1) - 1 < z)

/-- The instruction raises the range exception of 40 R352: the flags are written, then AESR, and the destination only
where the implementation writes it (RANGE_WRITEBACK), which `stored` then says; the exception is taken in that state. -/
def raisesRange (i : Instr) (s : State) (k : Causes) (cy ov : Option Bool) (stored : State → Prop) : Prop :=
  ∃ u : State, takesException (exec i s) u .range none ∧ flagsAre s u none cy ov ∧
    (∀ n : Nat, n < 32 → u.aesr.getLsbD n = (s.aesr.getLsbD n ||
      (s.cfg.aecsrPresent && ((decide (n = k.cyBit) && fired cy && s.aecr.getLsbD k.cyBit) ||
        (decide (n = k.ovBit) && fired ov && s.aecr.getLsbD k.ovBit))))) ∧
    (s.cfg.rangeWriteback = false → registersKept s u ∧ u.machi = s.machi ∧ u.maclo = s.maclo) ∧
    (s.cfg.rangeWriteback = true → stored u) ∧ memoryKept s u ∧
    u = { s with sr := u.sr, aesr := u.aesr, gprs := u.gprs, machi := u.machi, maclo := u.maclo }

/-- Of the destinations of an instruction, rD holds `v` and the accumulator is unchanged. -/
def registerStored (s : State) (d : Reg) (v : Word) (u : State) : Prop :=
  registerIs s u d v ∧ u.machi = s.machi ∧ u.maclo = s.maclo

/-- Of the destinations of an instruction, the accumulator holds `v` and the general registers are unchanged. -/
def macStored (s : State) (v : BitVec 64) (u : State) : Prop := u.machi ++ u.maclo = v ∧ registersKept s u

/-- A jump or branch: where `target` is given it is taken. The return address goes to r9 where `link` says so; control
passes to the target at once without a delay slot, else after the instruction that follows (43 R480, R484). -/
def branches (i : Instr) (s : State) (target : Option Word) (link : Bool) : Prop :=
  ∃ t : State, exec i s = .next t ∧
    (if link then registerIs s t 9#5 (s.pc + if s.cfg.nd then 4#64 else 8#64) else registersKept s t) ∧
    t.pc = (if s.cfg.nd then target.getD (narrow s.cfg (s.pc + 4#64)) else narrow s.cfg (s.pc + 4#64)) ∧
    t.ds = (if s.cfg.nd then none else some { jump := s.pc, next := target.getD (narrow s.cfg (s.pc + 8#64)) }) ∧
    t.ppc = s.pc ∧ memoryKept s t ∧ t = { s with gprs := t.gprs, pc := t.pc, ppc := t.ppc, ds := t.ds }

/-! ### Memory -/

/-- An MMU reloads its entries in hardware (20 R247). -/
def reloadsInHardware (c : Config) : Bool := c.dmmu.any (·.reload) || c.immu.any (·.reload)

/-- Nothing changed but what a translation changes: the MMUs' entries, the free values drawn and the misses counted;
and, only where an MMU reloads its entries in hardware, bytes of page tables, with what any write of memory changes (20
R248). -/
def mmuOnly (s t : State) : Prop :=
  ∃ l : List (Nat × Byte), (reloadsInHardware s.cfg = false → l = []) ∧
    t = { s.writeBytes l with
      dmmu := t.dmmu, immu := t.immu, draws := t.draws, dtlbMisses := t.dtlbMisses, itlbMisses := t.itlbMisses }

/-- What a byte reads after bytes are written in order. -/
def storedByte (l : List (Nat × Byte)) (old : Byte) (pa : Nat) : Byte :=
  l.foldl (fun v c => if c.1 = pa then c.2 else v) old

/-- The bytes of memory at the given physical addresses as one number, the first address most significant; the last one
where SR[LEE] is set (20 R170, R171). -/
def datumRead (s : State) (pas : List Nat) : Nat :=
  joinBytes (ordered s (readBytes s pas))

/-- The bytes a store of the `n` low bytes of `v` writes at the given physical addresses (20 R170, R171). -/
def bytesStored (s : State) (pas : List Nat) (n : Nat) (v : Word) : List (Nat × Byte) :=
  pas.zip (ordered s (splitBytes v.toNat n))

/-- The reservation after the bytes at the given physical addresses are written (20 R197). -/
def resvAfterStore (s : State) (pas : List Nat) : Option Nat :=
  if pas.any (fun pa => s.resv.any fun p => sameGranule s.cfg p pa) then none else s.resv

/-- A load of the `n` bytes at the effective address of the operands: where the translation gives the places `ps`, in
the state `u`, and memory answers at all of them, the instruction completes, writes `ext` of the datum to rD, and
changes nothing else but what the translation changed. -/
def loads (i : Instr) (s : State) (d a : Reg) (im : Imm16) (n : Nat) (ext : Nat → Word) : Prop :=
  ∀ (ps : List Place) (u : State), dataAddresses s .load (effective s a im) n false = .ok ps u →
    (addressesOf ps).all (mapped s.cfg) = true →
    ∃ t : State, exec i s = .next t ∧ mmuOnly s u ∧ registerIs s t d (ext (datumRead u (addressesOf ps))) ∧
      memoryKept u t ∧ (reloadsInHardware s.cfg = false → memoryKept s t) ∧ t = { movedOn u with gprs := t.gprs }

/-- A store of the `n` low bytes of rB at the effective address of the operands: where the translation gives the places
`ps`, in the state `u`, and memory answers at all of them, the instruction completes; the bytes at `ps` are written in
order, every other byte reads as before, the reservation is lost where a byte of its granule is written, and nothing
else changes but what the translation changed (and the older bytes that caches may hold or hide). -/
def stores (i : Instr) (s : State) (a b : Reg) (im : Imm16) (n : Nat) : Prop :=
  ∀ (ps : List Place) (u : State), dataAddresses s .store (effective s a im) n false = .ok ps u →
    let pas := addressesOf ps
    pas.all (mapped s.cfg) = true →
    ∃ t : State, exec i s = .next t ∧ mmuOnly s u ∧
      (∀ pa : Nat, readByte t pa = storedByte (bytesStored s pas n (gpr s b)) (readByte u pa) pa) ∧
      (∀ pa : Nat, pa ∉ pas → readByte t pa = readByte u pa) ∧
      (reloadsInHardware s.cfg = false → ∀ pa : Nat, pa ∉ pas → readByte t pa = readByte s pa) ∧
      t.resv = resvAfterStore u pas ∧ registersKept s t ∧
      t = { movedOn u with mem := t.mem, resv := t.resv, stale := t.stale, unwritten := t.unwritten }

/-- A load or store that cannot be made raises its exception, with the effective address in EEAR: what translation
raises, else the bus error where memory does not answer (20 R175). -/
def accessRaises (i : Instr) (s : State) (k : Access) (ea : Word) (n : Nat) (strict : Bool) : Prop :=
  (∀ (e : Exc) (u : State), dataAddresses s k ea n strict = .raise e u → canEnter u e →
    mmuOnly s u ∧ takesException (exec i s) u e (some ea)) ∧
  ∀ (ps : List Place) (u : State), dataAddresses s k ea n strict = .ok ps u →
    (addressesOf ps).all (mapped s.cfg) = false → canEnter s .busError →
    takesException (exec i s) (s.abandon u) .busError (some ea)

/-! ### Translation -/

/-- The bit of a translate register that permits an access: in the TLB, or else in the ATB (20 R212, R213, R222, R223,
R235). -/
def permission (tlb : Bool) (k : Access) (supervisor : Bool) : Nat :=
  match tlb, k, supervisor with
  | _, .fetch, true => 6
  | _, .fetch, false => 7
  | true, .load, true => 8
  | true, .load, false => 6
  | true, .store, true => 9
  | true, .store, false => 7
  | false, .load, true => 6
  | false, .load, false => 8
  | false, .store, true => 7
  | false, .store, false => 9

/-- Of the page tables, which the hardware searches for the address: the entry that the search finds has its A, and for
`mark` a store also its D, set where `marks` says so; every other byte of memory is as before. Beside the MMUs only the
reservation, where it lies in the granule of the entry written, and what caches may hold of it have changed (20 R248). -/
def tableMarked (s u : State) (k mark : Access) (ea : Word) (marks : Prop) : Prop :=
  u = { s with
    mem := u.mem, resv := u.resv, stale := u.stale, unwritten := u.unwritten, dmmu := u.dmmu, immu := u.immu,
    draws := u.draws } ∧
  (¬marks ∨ (∀ (p : BitVec 32) (pa size : Nat), walk s k ea ≠ .page p pa size) →
    memoryKept s u ∧ u = { s with dmmu := u.dmmu, immu := u.immu, draws := u.draws }) ∧
  (marks → ∀ (p : BitVec 32) (pa size : Nat), walk s k ea = .page p pa size →
    readEntry u pa = pteUsed s.cfg.pteLayout mark p ∧ (∀ q : Nat, q < pa ∨ pa + 4 ≤ q → readByte u q = readByte s q) ∧
    u.resv = resvAfterStore s [pa, pa + 1, pa + 2, pa + 3])

/-- Of the MMUs: the one of the access holds `r` in the translate register of the entry `e`; every other match,
translate, control and protection register of both is as before, and so are the LRU fields but those of the set of the
address, and these too where `touched` is false (20 R211). -/
def entryHolds (s u : State) (k : Access) (g : MmuConfig) (ea : Word) (e : Entry) (r : Word) (touched : Bool) : Prop :=
  let m := mmuOf s k
  let m' := mmuOf u k
  e.translate m' = r ∧ (∀ e' : Entry, e' ≠ e → e'.translate m' = e'.translate m) ∧
  (∀ j : Nat, touched = false ∨ (∀ y : Nat, y < g.ways → j ≠ 256 * y + tlbSet g ea) →
    Table.read m'.tlbLru j = Table.read m.tlbLru j) ∧
  m' = { m with tlbTr := m'.tlbTr, atbTr := m'.atbTr, tlbLru := m'.tlbLru } ∧
  (if k = .fetch then u.dmmu = s.dmmu else u.immu = s.immu)

/-- The access goes, with the outcome `x`, through the entry `e`, whose page has 2^log bytes (20 R207 steps 4 to 6,
R248): where the entry permits it, the place is the page number above the page offset, with the entry's attributes, and
A (for a store also D) is set, in the page table too where the hardware reloads; where it does not, the page fault, and A
is set, in either place, only with AD_ON_FAULT. Nothing else changes. -/
def goesThrough (x : Attempt Place) (s : State) (k : Access) (g : MmuConfig) (ea : Word) (e : Entry) (tlb : Bool)
    (log : Nat) : Prop :=
  let r := e.translate (mmuOf s k)
  let used := r ||| (if k = .store then 0x30#64 else 0x10#64)
  let found := r ||| 0x10#64
  (r.getLsbD (permission tlb k (srBit s srSM)) = true → ∃ u : State, x = .ok
      { pa := (r.toNat / 2 ^ (log + translateShift s.cfg) * 2 ^ log + ea.toNat % 2 ^ log) % 2 ^ s.cfg.paddrBits
        attributes := some
          { wbc := r.getLsbD 2, ci := r.getLsbD 1, wom := r.getLsbD 3, cc := r.getLsbD 0 } } u ∧
    entryHolds s u k g ea e used true ∧ tableMarked s u k k ea (g.reload = true ∧ used ≠ r)) ∧
  (r.getLsbD (permission tlb k (srBit s srSM)) = false → ∃ u : State,
    x = .raise (if k = .fetch then .insnPageFault else .dataPageFault) u ∧
    entryHolds s u k g ea e (if s.cfg.adOnFault then found else r) false ∧
    tableMarked s u k .load ea (s.cfg.adOnFault = true ∧ g.reload = true ∧ found ≠ r))

/-- The registers of the MMU of an access after the entry `e` was loaded, in the state `t`, with the page of 2^log bytes
that the page table entry `p` describes (20 R240 to R247): `e` matches the address, maps it into the frame, grants what
the protection group of `p` grants, and has the attributes of `p`; every other register is as before. -/
def entryLoaded (s t : State) (k : Access) (g : MmuConfig) (ea : Word) (p : BitVec 32) (log : Nat) (e : Entry)
    (tlb : Bool) : Prop :=
  let m := mmuOf s k
  let m' := mmuOf t k
  let l := s.cfg.pteLayout
  let r := e.translate m'
  let size := if tlb then 13 else log
  let frame := (p.extractLsb' l.ppn 22).toNat * 2 ^ 13 / 2 ^ log * 2 ^ log
  let group := (p.extractLsb' l.ppi 3).toNat - 1
  (if tlb then ∃ y : Nat, y < g.ways ∧ e = .tlb (256 * y + tlbSet g ea) ∧ tlbHit t m' ea (tlbSet g ea) y = true
    else ∃ j : Nat, j < g.atbs ∧ e = .atb j ∧ atbHit t m' ea j = true ∧
      (Table.read m'.atbMr j).getLsbD 5 = decide (log = 35)) ∧
  r.toNat / 2 ^ (size + translateShift s.cfg) * 2 ^ size + ea.toNat % 2 ^ size =
    frame % 2 ^ s.cfg.xlen.bits + ea.toNat % 2 ^ log ∧
  (if k = .fetch then
      r.getLsbD 6 = m.protect.getLsbD (2 * group) ∧ r.getLsbD 7 = m.protect.getLsbD (2 * group + 1)
    else
      r.getLsbD (permission tlb .load true) = m.protect.getLsbD (4 * group) ∧
      r.getLsbD (permission tlb .store true) = m.protect.getLsbD (4 * group + 1) ∧
      r.getLsbD (permission tlb .load false) = m.protect.getLsbD (4 * group + 2) ∧
      r.getLsbD (permission tlb .store false) = m.protect.getLsbD (4 * group + 3)) ∧
  r.getLsbD 5 = p.getLsbD l.dirty ∧ r.getLsbD 4 = p.getLsbD l.accessed ∧ r.getLsbD 3 = p.getLsbD l.wom ∧
  r.getLsbD 2 = p.getLsbD l.wbc ∧ r.getLsbD 1 = p.getLsbD l.ci ∧ r.getLsbD 0 = p.getLsbD l.cc ∧
  (∀ j : Nat, e ≠ .tlb j → Table.read m'.tlbMr j = Table.read m.tlbMr j ∧ Table.read m'.tlbTr j = Table.read m.tlbTr j) ∧
  (∀ j : Nat, e ≠ .atb j → Table.read m'.atbMr j = Table.read m.atbMr j ∧ Table.read m'.atbTr j = Table.read m.atbTr j) ∧
  m' = { m with tlbMr := m'.tlbMr, tlbTr := m'.tlbTr, atbMr := m'.atbMr, atbTr := m'.atbTr } ∧
  t = { s with dmmu := t.dmmu, immu := t.immu, draws := t.draws } ∧
  (if k = .fetch then t.dmmu = s.dmmu else t.immu = s.immu)

/-! ### Isolation -/

/-- What an instruction in user mode leaves of the privileged state (60 R770, R771): of SR only F, CY and OV change, of
the data MMU only the used marks of its translate registers and LRU, of FPCSR only the flags, of the general registers
only those of the current set, and nothing else but pc, the accumulator, memory and what caches may hold of it, the reservation, the free values drawn
and the misses counted; the AESR of an exception's cause is left to the caller of this predicate. -/
def privilegedKept (s t : State) : Prop :=
  (∀ n : Nat, n < 32 → n ≠ 9 → n ≠ 10 → n ≠ 11 → t.sr.getLsbD n = s.sr.getLsbD n) ∧
    (∀ n : Nat, n < 32 → n < 3 ∨ 12 ≤ n → t.fpcsr.getLsbD n = s.fpcsr.getLsbD n) ∧
    (∀ set r : Nat, r < 32 → set ≠ context s → gprOf t set r = gprOf s set r) ∧
    t.dmmu.control = s.dmmu.control ∧ t.dmmu.protect = s.dmmu.protect ∧ t.dmmu.tlbMr = s.dmmu.tlbMr ∧
    t.dmmu.atbMr = s.dmmu.atbMr ∧
    (∀ j n : Nat, n ≠ 4 → n ≠ 5 → (Table.read t.dmmu.tlbTr j).getLsbD n = (Table.read s.dmmu.tlbTr j).getLsbD n ∧
      (Table.read t.dmmu.atbTr j).getLsbD n = (Table.read s.dmmu.atbTr j).getLsbD n) ∧
    t = { s with
      gprs := t.gprs, pc := t.pc, ppc := t.ppc, ds := t.ds, sr := t.sr, fpcsr := t.fpcsr, machi := t.machi,
      maclo := t.maclo, aesr := t.aesr, dmmu := t.dmmu, stale := t.stale, unwritten := t.unwritten, mem := t.mem,
      resv := t.resv, draws := t.draws, dtlbMisses := t.dtlbMisses }

/-! ### Floating-point results -/

/-- The number a finite value stands for. -/
def FloatValue.number : FloatValue → ℚ
  | .finite neg m e => (if neg then -1 else 1) * m * (2 : ℚ) ^ e
  | _ => 0

/-- The natural number `n` is the magnitude `y` of a number of the given sign rounded to an integer (45 R542). -/
def roundsTo (r : Rounding) (neg : Bool) (y : ℚ) (n : Nat) : Prop :=
  match r, neg with
  | .nearest, _ => |y - n| ≤ 1 / 2 ∧ (|y - n| = 1 / 2 → n % 2 = 0)
  | .up, false => y ≤ n ∧ (n : ℚ) < y + 1
  | .down, true => y ≤ n ∧ (n : ℚ) < y + 1
  | _, _ => (n : ℚ) ≤ y ∧ y < n + 1

/-- A result and its flags are what IEEE 754 gives for the exact number `z` (45 R541, R542, R544): `z` rounded once, to
`y`, in units of the last place of its exponent, which is never below the smallest one; infinity or the largest number
where `y` lies beyond the format. `neg` is the sign of a zero where `z` is 0. Underflow may be detected before or after
rounding. -/
def delivers (c : Config) (f : FloatFormat) (r : Rounding) (neg : Bool) (z : ℚ) (x : FloatResult) : Prop :=
  let v := floatValue c f x.value
  let sign := decide (z < 0)
  (z = 0 → (∃ e : ℤ, v = .finite neg 0 e) ∧ x.flags = 0x010#9) ∧
  (z ≠ 0 → ∃ (top : ℤ) (n : ℕ), (2 : ℚ) ^ top ≤ |z| ∧ |z| < (2 : ℚ) ^ (top + 1) ∧
    let ulp := (2 : ℚ) ^ (max top f.emin - f.fracBits)
    let y := n * ulp
    roundsTo r sign (|z| / ulp) n ∧
    ((2 : ℚ) ^ (f.bias + 1) ≤ y →
      if r = .nearest ∨ (r = .up ∧ sign = false) ∨ (r = .down ∧ sign = true) then
        v = .infinity sign ∧ x.flags = 0x0A1#9
      else
        (∃ (m : ℕ) (e : ℤ), v = .finite sign m e ∧ m * (2 : ℚ) ^ e = (2 - (2 : ℚ) ^ (-(f.fracBits : ℤ))) * 2 ^ f.bias) ∧
          x.flags = 0x021#9) ∧
    (y < (2 : ℚ) ^ (f.bias + 1) →
      if c.denormals = .flush ∧ y < (2 : ℚ) ^ f.emin then
        (∃ e : ℤ, v = .finite sign 0 e) ∧ x.flags = 0x032#9
      else
        (∃ (m : ℕ) (e : ℤ), v = .finite sign m e ∧ m * (2 : ℚ) ^ e = y) ∧
          (x.flags.getLsbD 5 = true ↔ y ≠ |z|) ∧ (x.flags.getLsbD 4 = true ↔ n = 0) ∧
          (x.flags.getLsbD 1 = true → y ≠ |z| ∧ |z| < (2 : ℚ) ^ f.emin) ∧
          (y ≠ |z| → |z| ≤ (2 : ℚ) ^ f.emin - (2 : ℚ) ^ (f.emin - 1 - f.fracBits) → x.flags.getLsbD 1 = true) ∧
          x.flags &&& 0x1CD#9 = 0#9))

end Sys2Proof.Machine
end

