-- ==== Sys2Proof/WellFormed.lean ====
section
/-!
DEFINITION. WellFormed.lean: what the spec tells software never to write although it decodes, and whether an
instruction's register numbers exist in a configuration. The model decodes and executes an ill-formed instruction all the same, as
the rules say it does (43 R486, log 29).
-/

namespace Sys2Proof

/-- "It is not allowed to specify link register r9 as rB" of `l.jalr` (43 R486). Every other operand combination of
every instruction is allowed. -/
def Instr.linkAllowed : Instr → Bool
  | .lJalr b => b ≠ 9#5
  | _ => true

/-- The instruction breaks no rule the spec gives for writing it. -/
def Instr.wellFormed (i : Instr) : Bool := i.linkAllowed

end Sys2Proof
end

