-- ==== Sys2Proof/Certificates/Slice0/Obligations.lean ====
section
/-!
DEFINITION. Certificates/Slice0/Obligations.lean: the statements for the provers. Their vocabulary is Safety.lean's.
-/

open Sys2Proof Sys2Proof.Machine

/-! ### Encoding -/

/-- Decode and encode agree on every instruction, every operand at every value (30 R302 to R319). -/
def Obligations.DecodeOfEncode : Prop := ∀ i : Instr, decode (encode i) = .ok i

/-- No operand bit of a decoded instruction is invented: the canonical word of what was decoded has a 1 only where
the word has one (30 R320: reserved bits are ignored and written as 0). Rests on the choices of log 51. -/
def Obligations.EncodedBitsComeFromTheWord : Prop :=
  ∀ (w : BitVec 32) (i : Instr), decode w = .ok i → encode i &&& ~~~w = 0#32

/-- Words written out from the encodings of 30 R310 to R319, one or two of a family, decode to what they stand for. -/
def Obligations.WordsOfTheSpecDecode : Prop :=
  decode 0xE0221800#32 = .ok (.lAdd 1#5 2#5 3#5) ∧ decode 0xE0221B09#32 = .ok (.lDiv 1#5 2#5 3#5) ∧
  decode 0xB82200C8#32 = .ok (.lRori 1#5 2#5 8#6) ∧ decode 0x18201234#32 = .ok (.lMovhi 1#5 0x1234#16) ∧
  decode 0xE4032000#32 = .ok (.lSfeq 3#5 4#5) ∧ decode 0xBC03FFFF#32 = .ok (.lSfeqi 3#5 0xFFFF#16) ∧
  decode 0x94620002#32 = .ok (.lLhz 3#5 2#5 2#16) ∧ decode 0xDC021802#32 = .ok (.lSh 2#5 3#5 2#16) ∧
  decode 0x04000100#32 = .ok (.lJal 0x100#26) ∧ decode 0x24000000#32 = .ok .lRfe ∧
  decode 0x15000000#32 = .ok (.lNop 0#16) ∧ decode 0xC8611011#32 = .ok (.lfSubD 3#5 1#5 2#5) ∧
  decode 0x28611038#32 = .ok (.lvAnd 3#5 1#5 2#5)

/-! ### Reset, the invariant and the step -/

/-- What software may rely on right after power-on and after any later reset, which the reset event brings about (70
R827). Rests on the choices of logs 1 and 16. -/
def Obligations.ResetIsWhatSoftwareReliesOn : Prop :=
  (∀ (s : State) (rest : List Input), s.inputs = .reset :: rest →
    step s = .next ({ s with inputs := rest } : State).warmReset) ∧
  ∀ (s : State), ((∃ c : Config, s = State.resetOf c) ∨ ∃ t : State, s = t.warmReset) →
    srBit s srSM = true ∧
    (∀ (k : Access) (ea : Word), translate s k ea =
      .ok { pa := ea.toNat % 2 ^ s.cfg.paddrBits, attributes := none } s) ∧
    srBit s srICE = false ∧ srBit s srDCE = false ∧ srBit s srLEE = false ∧ srBit s srIEE = false ∧
    srBit s srTEE = false ∧ s.pic.mask = (if s.cfg.picFixedUnmasked then 3#32 else 0#32) ∧
    s.ttmr.extractLsb' 30 2 = 0#2 ∧ s.ttmr.getLsbD 28 = false ∧ s.fpcsr = 0#32 ∧
    (∀ j : Nat, (Table.read s.dmmu.tlbMr j).getLsbD 0 = false ∧ (Table.read s.immu.tlbMr j).getLsbD 0 = false ∧
      (Table.read s.dmmu.atbMr j).getLsbD 0 = false ∧ (Table.read s.immu.atbMr j).getLsbD 0 = false) ∧
    srBit s srOVE = false ∧ srBit s srF = false ∧ srBit s srCY = false ∧ srBit s srOV = false ∧
    s.debugUnit.dmr1 = 0#32 ∧ s.debugUnit.dmr2 = 0#32 ∧ s.debugUnit.dsr = 0#32 ∧ s.pmr = 0#32

/-- The invariant holds right after reset. Rests on the choices of log 7. -/
def Obligations.ResetHasTheInvariant : Prop := State.reset.wf = true

/-- The invariant holds after every step from every state in which it holds: memory and register file canonical, FO
set, reserved and hard-wired bits clear, an existing context, pc and delay slot of the register width. Rests on the
choices of log 7. -/
def Obligations.StepKeepsTheInvariant : Prop :=
  ∀ s t : State, s.wf = true → step s = .next t → t.wf = true

/-- With no event to come, no stop, no power mode and no interrupt to take, the step fetches; a word that decodes
runs by `exec`, and the debug unit and the counters then see it; a word that does not decode is the illegal
instruction exception; where neither unit is present the step IS `exec` of the instruction (43 R480, 60 R745). What
the step starts from is the state with the model's own record of a step emptied. Rests on the choices of logs 15, 36
and 41. -/
def Obligations.StepRunsTheDecodedInstruction : Prop :=
  ∀ (s t : State) (w : BitVec 32), ready s → fetch s.fresh = .ok w t →
    s.fresh = { s with raised := none, dtlbMisses := 0, itlbMisses := 0 } ∧ mmuOnly s.fresh t ∧
    (∀ i : Instr, decode w = .ok i → step s = observe i t (exec i t)) ∧
    (∀ e : DecodeError, decode w = .error e → canEnter t .illegal →
      takesExceptionCounted (step s) t .illegal (some s.pc)) ∧
    (s.cfg.debugUnit = none → s.cfg.counters = none → ∀ i : Instr, decode w = .ok i → step s = exec i t)

/-- A word placed where the next fetch reads is the word the next fetch gets, where no hardware reload reads the
tables it might be placed on. Rests on the choices of logs 9 and 22. -/
def Obligations.PlacedWordIsFetched : Prop :=
  ∀ (s u : State) (p : Place) (w : BitVec 32), (∀ g : MmuConfig, s.cfg.immu = some g → g.reload = false) →
    aligned s.pc 4 = true → translate s .fetch s.pc = .ok p u →
    [p.pa, p.pa + 1, p.pa + 2, p.pa + 3].all (mapped s.cfg) = true →
    ∃ t : State, fetch (s.placeNext w) = .ok w t ∧ mmuOnly (s.placeNext w) t

/-- Between two instructions a pending and enabled tick interrupt is taken, else a requested and enabled external
one; with a PIC the request is an unmasked input that PICSR shows, without one the single interrupt line (60 R750,
R751, R780 to R782). Taking the tick first is the model's choice where the manual gives no order (log 36). The events
that come from outside between two steps: the interrupt inputs change and a rising edge sets the latch of an
edge-triggered one (a rising one by the spec's decision D22), a byte of memory is written by another master, the
reservation is lost, the external watchpoint changes; nothing else changes but what ends a power mode. Rests on the
choices of logs 15 and 36. -/
def Obligations.InterruptsAreTakenBetweenInstructions : Prop :=
  (∀ s : State, s.inputs = [] → s.stopped = false → waiting s = false →
    (s.cfg.tickTimer = true → s.ttmr.getLsbD 28 = true → srBit s srTEE = true → canEnter s .tick →
      takesExceptionCounted (step s) s.fresh .tick none) ∧
    ((s.cfg.tickTimer = false ∨ s.ttmr.getLsbD 28 = false ∨ srBit s srTEE = false) → srBit s srIEE = true →
      canEnter s .external →
      (s.cfg.pic = true →
        (∃ n : Nat, n < 32 ∧ (s.pic.mask.getLsbD n = true ∨ (s.cfg.picFixedUnmasked = true ∧ n < 2)) ∧
          (if s.cfg.picEdge.getLsbD n then s.pic.latch.getLsbD n else s.pic.irq.getLsbD n) = true) →
        takesExceptionCounted (step s) s.fresh .external none) ∧
      (s.cfg.pic = false → s.pic.irq.getLsbD 0 = true → takesExceptionCounted (step s) s.fresh .external none))) ∧
  ∀ (s : State) (rest : List Input),
    (∀ lines : BitVec 32, s.inputs = .irq lines :: rest → ∃ t : State, step s = .next t ∧ t.pic.irq = lines ∧
      t.pic.mask = s.pic.mask ∧
      (∀ n : Nat, n < 32 → t.pic.latch.getLsbD n = (s.pic.latch.getLsbD n ||
        (s.cfg.picEdge.getLsbD n && lines.getLsbD n && !s.pic.irq.getLsbD n))) ∧
      t = { s with inputs := rest, pic := t.pic, pmr := t.pmr }) ∧
    (∀ (pa : Nat) (v : Byte), s.inputs = .write pa v :: rest → ∃ t : State, step s = .next t ∧
      (∀ q : Nat, readByte t q = if q = pa ∧ mapped s.cfg pa = true then v else readByte s q) ∧
      t.resv = (if mapped s.cfg pa = true ∧ (∃ p : Nat, s.resv = some p ∧ sameGranule s.cfg p pa = true) then none
        else s.resv) ∧
      t = { s with inputs := rest, mem := t.mem, resv := t.resv, stale := t.stale, unwritten := t.unwritten,
                   pmr := t.pmr }) ∧
    (s.inputs = .loseReservation :: rest →
      ∃ t : State, step s = .next t ∧ t = { s with inputs := rest, resv := none, pmr := t.pmr }) ∧
    (∀ level : Bool, s.inputs = .watch level :: rest → ∃ t : State, step s = .next t ∧
      t = { s with inputs := rest, debugUnit := { s.debugUnit with extWatch := level }, pmr := t.pmr })

/-! ### Exceptions -/

/-- Taking an exception saves pc, SR and address, sets SR and pc, drops the delay slot and the reservation, and
changes nothing else (60 R730). Rests on the choices of log 27. -/
def Obligations.ExceptionEntrySavesAndVectors : Prop :=
  ∀ (s : State) (e : Exc) (ea : Option Word), canEnter s e → takesException (enter e ea s) s e ea

/-- The new SR of exception entry, bit by bit (60 R732). -/
def Obligations.ExceptionEntrySetsSr : Prop :=
  ∀ (s t : State) (e : Exc) (ea : Option Word), s.wf = true → canEnter s e → enter e ea s = .next t →
    ∀ n : Nat, n < 32 → t.sr.getLsbD n =
      if n = 0 then true
      else if n = 1 ∨ n = 2 ∨ n = 5 ∨ n = 6 then false
      else if n = 13 then s.ds.isSome
      else if 28 ≤ n then (entryContext s).testBit (n - 28)
      else s.sr.getLsbD n

/-- The vector address of every exception (60 R733, offsets of R722); base and offset never overlap. Rests on the
choices of log 53. -/
def Obligations.ExceptionVectors : Prop :=
  ∀ (s t : State) (e : Exc) (ea : Option Word), canEnter s e → enter e ea s = .next t →
    t.pc.toNat =
      (((if s.cfg.evbarPresent then s.evbar &&& 0xFFFFE000#32 else 0#32) |||
        (if srBit s srEPH then 0xF0000000#32 else 0#32)).toNat +
      match e with
      | .busError => 0x200
      | .dataPageFault => 0x300
      | .insnPageFault => 0x400
      | .tick => 0x500
      | .alignment => 0x600
      | .illegal => 0x700
      | .external => 0x800
      | .dtlbMiss => 0x900
      | .itlbMiss => 0xA00
      | .range => 0xB00
      | .systemCall => 0xC00
      | .floatingPoint => 0xD00
      | .trap => 0xE00)

/-- The saved pc: the jump in a delay slot, else the next instruction for the system call and floating-point
exceptions and this one for all others (60 R731, R741). Rests on the choices of log 28. -/
def Obligations.ExceptionEntrySavesPc : Prop :=
  ∀ (s t : State) (e : Exc) (ea : Option Word), canEnter s e → enter e ea s = .next t →
    (∀ d : DelaySlot, s.ds = some d → Table.read t.epcr (entryContext s) = d.jump) ∧
    (s.ds = none → e = .systemCall ∨ e = .floatingPoint →
      (Table.read t.epcr (entryContext s)).toNat = (s.pc.toNat + 4) % 2 ^ s.cfg.xlen.bits) ∧
    (s.ds = none → e ≠ .systemCall → e ≠ .floatingPoint → Table.read t.epcr (entryContext s) = s.pc)

/-- Return undoes entry: an `l.rfe` right after an exception was taken restores SR and the register set, and goes to
the saved pc (60 R730, R736). Rests on the choices of log 34. -/
def Obligations.ReturnUndoesEntry : Prop :=
  ∀ (s t : State) (e : Exc) (ea : Option Word), s.wf = true → canEnter s e → enter e ea s = .next t →
    ∃ u : State, exec .lRfe t = .next u ∧ u.sr = s.sr ∧ u.pc = savedPc s e ∧ u.ds = none ∧ registersKept s u ∧
      (∀ r : Reg, gpr u r = gpr s r) ∧ memoryKept s u

/-- `l.rfe` in supervisor mode outside a delay slot: pc and SR come back from the current context, CID decremented
where CE is set; nothing else changes (43 R489, 60 R736). Rests on the choices of log 35. -/
def Obligations.ReturnFromExceptionCompletes : Prop :=
  ∀ s : State, srBit s srSM = true → s.ds = none →
    (srBit s srCE = true → s.cfg.nsets ≤ 1 ∨ 0 < context s) →
    (srBit s srCE = false → s.cfg.nsets ≤ 1 ∨ (Table.read s.esr (context s)).toNat / 2 ^ 28 < s.cfg.nsets) →
    ∃ t : State, exec .lRfe s = .next t ∧ t.pc = narrow s.cfg (Table.read s.epcr (context s)) ∧
      (∀ n : Nat, n < 28 → t.sr.getLsbD n =
        (srValue s.cfg (Table.read s.esr (context s))).getLsbD n) ∧
      (1 < s.cfg.nsets → context t =
        if srBit s srCE then context s - 1 else (Table.read s.esr (context s)).toNat / 2 ^ 28) ∧
      t.ds = none ∧ registersKept s t ∧ memoryKept s t ∧ t = { s with pc := t.pc, ppc := s.pc, sr := t.sr, ds := none }

/-- `l.sys` and `l.trap` take their exception, whatever their immediate and in either mode; `l.nop` and the three
synchronisation instructions only move on (44 R517 to R523). Rests on the choices of log 30. -/
def Obligations.SystemCallTrapNopAndSynchronisation : Prop :=
  ∀ (s : State) (k : Imm16),
    (available s .base [] → canEnter s .systemCall → takesException (exec (.lSys k) s) s .systemCall none) ∧
    (available s (.classII .trap) [] → canEnter s .trap → takesException (exec (.lTrap k) s) s .trap none) ∧
    (available s .base [] → onlyMovesOn (.lNop k) s) ∧
    (available s (.classII .msync) [] → onlyMovesOn .lMsync s) ∧
    (available s (.classII .psync) [] → onlyMovesOn .lPsync s) ∧
    (available s (.classII .csync) [] → onlyMovesOn .lCsync s)

/-- An instruction whose class, unit or subset the implementation lacks is an illegal instruction, every one of them
(30 R331); no implementation has the custom placeholders (30 R330), and one without multiply-and-add has neither
`lf.madd.s` nor `lf.madd.d`; one that has them is refused there, for their accumulator is defined nowhere (45 R556,
R557). Rests on the choices of logs 44 and 48. -/
def Obligations.AbsentInstructionsAreIllegal : Prop :=
  ∀ s : State,
    (∀ i : Instr, implemented s.cfg (demands i).1 = false → canEnter s .illegal →
      takesException (exec i s) s .illegal (some s.pc)) ∧
    ∀ (d a b : Reg) (l : Imm6) (k : Imm5),
      (canEnter s .illegal →
        ∀ i ∈ [Instr.lCust1, .lCust2, .lCust3, .lCust4, .lCust5 d a b l k, .lCust6, .lCust7, .lCust8, .lfCust1S a b,
            .lfCust1D a b, .lvCust1, .lvCust2, .lvCust3, .lvCust4],
          takesException (exec i s) s .illegal (some s.pc)) ∧
      (canEnter s .illegal → s.cfg.maddPresent = false → ∀ i ∈ [Instr.lfMaddS d a b, .lfMaddD d a b],
        takesException (exec i s) s .illegal (some s.pc)) ∧
      (available s (.madd false) [] → exec (.lfMaddS d a b) s = .refused .maddUndefined) ∧
      (available s (.madd true) [] → exec (.lfMaddD d a b) s = .refused .maddUndefined)

/-- `lv.madds.h` and `lv.msubs.h` stop: "VMAC is not defined" (47 R661, R668). Rests on the choices of log 47. -/
def Obligations.VectorAccumulateIsRefused : Prop :=
  ∀ (s : State) (d a b : Reg), available s .vector [d, a, b] →
    exec (.lvMaddsH d a b) s = .refused .vmacUndefined ∧ exec (.lvMsubsH d a b) s = .refused .vmacUndefined

/-! ### Arithmetic, logic, shifts -/

/-- Carry and overflow (40 R350): result, carry and overflow of addition, subtraction and multiplication are those of
the exact integer result, and equal the bit forms the rule gives. -/
def Obligations.CarryAndOverflowAreExact : Prop :=
  ∀ (c : Config) (x y : Word) (cin : Bool),
    (let r := addArith c x y cin
     let u := unsignedW c x + unsignedW c y + cin.toNat
     r.value.toNat = u % 2 ^ c.xlen.bits ∧ r.cy = some (decide (2 ^ c.xlen.bits ≤ u)) ∧
      r.ov = some (outOfRange c (signedW c x + signedW c y + cin.toNat)) ∧
      r.ov = some (x.getLsbD (c.xlen.bits - 1) == y.getLsbD (c.xlen.bits - 1) &&
        r.value.getLsbD (c.xlen.bits - 1) != x.getLsbD (c.xlen.bits - 1))) ∧
    (let r := subArith c x y
     (r.value.toNat : Int) = ((unsignedW c x : Int) - unsignedW c y) % 2 ^ c.xlen.bits ∧
      r.cy = some (decide (unsignedW c x < unsignedW c y)) ∧ r.ov = some (outOfRange c (signedW c x - signedW c y)) ∧
      r.ov = some (x.getLsbD (c.xlen.bits - 1) != y.getLsbD (c.xlen.bits - 1) &&
        r.value.getLsbD (c.xlen.bits - 1) != x.getLsbD (c.xlen.bits - 1))) ∧
    (let r := mulArith c x y
     (r.value.toNat : Int) = (signedW c x * signedW c y) % 2 ^ c.xlen.bits ∧ r.cy = none ∧
      r.ov = some (outOfRange c (signedW c x * signedW c y))) ∧
    (let r := muluArith c x y
     r.value.toNat = unsignedW c x * unsignedW c y % 2 ^ c.xlen.bits ∧
      r.cy = some (decide (2 ^ c.xlen.bits ≤ unsignedW c x * unsignedW c y)) ∧ r.ov = none)

/-- `l.add`, `l.addc`, `l.addi`, `l.addic`, `l.sub` where no range exception is raised: sum or difference modulo 2^W,
CY and OV, and nothing else (40 R354 to R358). -/
def Obligations.AddAndSubtract : Prop :=
  ∀ (s : State) (d a b : Reg) (i : Imm16),
    let c := s.cfg
    let u (r : Reg) : Nat := unsignedW c (gpr s r)
    let z (r : Reg) : Int := signedW c (gpr s r)
    let m := sextImm c i
    let cin := (srBit s srCY).toNat
    let cy (n : Nat) : Option Bool := some (decide (2 ^ c.xlen.bits ≤ n))
    let ov (n : Int) : Option Bool := some (outOfRange c n)
    let free (p q : Option Bool) : Prop := rangeTraps s addCauses p q = false
    (available s .base [d, a, b] →
      (free (cy (u a + u b)) (ov (z a + z b)) →
        writesRegisterFlags (.lAdd d a b) s d (BitVec.ofNat 64 (u a + u b)) (cy (u a + u b)) (ov (z a + z b))) ∧
      (free (cy (u a + u b + cin)) (ov (z a + z b + cin)) →
        writesRegisterFlags (.lAddc d a b) s d (BitVec.ofNat 64 (u a + u b + cin)) (cy (u a + u b + cin))
          (ov (z a + z b + cin))) ∧
      (free (some (decide (u a < u b))) (ov (z a - z b)) →
        writesRegisterFlags (.lSub d a b) s d (gpr s a - gpr s b) (some (decide (u a < u b))) (ov (z a - z b)))) ∧
    (available s .base [d, a] →
      (free (cy (u a + unsignedW c m)) (ov (z a + signedW c m)) →
        writesRegisterFlags (.lAddi d a i) s d (BitVec.ofNat 64 (u a + unsignedW c m)) (cy (u a + unsignedW c m))
          (ov (z a + signedW c m))) ∧
      (free (cy (u a + unsignedW c m + cin)) (ov (z a + signedW c m + cin)) →
        writesRegisterFlags (.lAddic d a i) s d (BitVec.ofNat 64 (u a + unsignedW c m + cin))
          (cy (u a + unsignedW c m + cin)) (ov (z a + signedW c m + cin))))

/-- The range exception from arithmetic (40 R352): when it is raised, and what it leaves, in rD or the accumulator
only with RANGE_WRITEBACK; and the range exception of every instruction that names a register at or above NGPR, which
does nothing else (10_state R48, 40 R353 (b)). Rests on the choices of log 55. -/
def Obligations.RangeExceptions : Prop :=
  (∀ (s : State) (k : Causes) (cy ov : Option Bool), rangeTraps s k cy ov = true ↔
    srBit s srOVE = true ∧
      if s.cfg.aecsrPresent then
        (ov = some true ∧ s.aecr.getLsbD k.ovBit = true) ∨ (cy = some true ∧ s.aecr.getLsbD k.cyBit = true)
      else ov = some true) ∧
  (∀ (s : State) (i : Instr), implemented s.cfg (demands i).1 = true →
    (∃ r ∈ (demands i).2, s.cfg.ngpr ≤ r.toNat) → canEnter s .range → takesException (exec i s) s .range none) ∧
  ∀ (s : State) (d a b : Reg) (i : Imm16), canEnter s .range →
    let c := s.cfg
    let raises (j : Instr) (needs : Needs) (regs : List Reg) (k : Causes) (r : Arith) : Prop :=
      available s needs regs → rangeTraps s k r.cy r.ov = true →
        raisesRange j s k r.cy r.ov (registerStored s d r.value)
    let raisesMac (j : Instr) (needs : Needs) (regs : List Reg) (k : Causes) (r : Arith) : Prop :=
      available s needs regs → rangeTraps s k r.cy r.ov = true → raisesRange j s k r.cy r.ov (macStored s r.value)
    let m := sextImm c i
    let p (x y : Word) : Int := signedW c x * signedW c y
    let q (x y : Word) : Int := (unsignedW c x : Int) * unsignedW c y
    raises (.lAdd d a b) .base [d, a, b] addCauses (addArith c (gpr s a) (gpr s b) false) ∧
    raises (.lAddc d a b) .base [d, a, b] addCauses (addArith c (gpr s a) (gpr s b) (srBit s srCY)) ∧
    raises (.lAddi d a i) .base [d, a] addCauses (addArith c (gpr s a) m false) ∧
    raises (.lAddic d a i) .base [d, a] addCauses (addArith c (gpr s a) m (srBit s srCY)) ∧
    raises (.lSub d a b) .base [d, a, b] addCauses (subArith c (gpr s a) (gpr s b)) ∧
    raises (.lMul d a b) .base [d, a, b] mulCauses (mulArith c (gpr s a) (gpr s b)) ∧
    raises (.lMulu d a b) .base [d, a, b] mulCauses (muluArith c (gpr s a) (gpr s b)) ∧
    raises (.lMuli d a i) (.classII .muli) [d, a] mulCauses (mulArith c (gpr s a) m) ∧
    raises (.lDiv d a b) (.classII .div) [d, a, b] divCauses (divArith c (gpr s a) (gpr s b)) ∧
    raises (.lDivu d a b) (.classII .divu) [d, a, b] divCauses (divuArith c (gpr s a) (gpr s b)) ∧
    raisesMac (.lMac a b) (.macUnit .mac) [a, b] macCauses (macSigned s (p (gpr s a) (gpr s b))) ∧
    raisesMac (.lMaci a i) (.macUnit .maci) [a] macCauses (macSigned s (p (gpr s a) m)) ∧
    raisesMac (.lMsb a b) (.macUnit .msb) [a, b] macCauses (macSigned s (-p (gpr s a) (gpr s b))) ∧
    raisesMac (.lMacu a b) (.macUnit .macu) [a, b] macCauses (macUnsigned s (q (gpr s a) (gpr s b))) ∧
    raisesMac (.lMsbu a b) (.macUnit .msbu) [a, b] macCauses (macUnsigned s (-q (gpr s a) (gpr s b))) ∧
    raisesMac (.lMuld a b) (.macUnit .muld) [a, b] mulCauses (muldSigned (p (gpr s a) (gpr s b))) ∧
    raisesMac (.lMuldu a b) (.macUnit .muldu) [a, b] mulCauses (muldUnsigned (q (gpr s a) (gpr s b)))

/-- `l.and`, `l.andi`, `l.or`, `l.xor`: encoding and operation; no flag, no exception (40 R360, R361, R362, R364). -/
def Obligations.BitwiseLogic : Prop :=
  ∀ (s : State) (d a b : Reg) (k : Imm16),
    let abc (base : BitVec 32) : BitVec 32 :=
      base ||| d.setWidth 32 <<< 21 ||| a.setWidth 32 <<< 16 ||| b.setWidth 32 <<< 11
    decode (abc 0xE0000003#32) = .ok (.lAnd d a b) ∧ decode (abc 0xE0000004#32) = .ok (.lOr d a b) ∧
    decode (abc 0xE0000005#32) = .ok (.lXor d a b) ∧
    decode (0xA4000000#32 ||| d.setWidth 32 <<< 21 ||| a.setWidth 32 <<< 16 ||| k.setWidth 32) =
      .ok (.lAndi d a k) ∧
    (available s .base [d, a, b] →
      writesRegister (.lAnd d a b) s d (gpr s a &&& gpr s b) ∧ writesRegister (.lOr d a b) s d (gpr s a ||| gpr s b) ∧
      writesRegister (.lXor d a b) s d (gpr s a ^^^ gpr s b)) ∧
    (available s .base [d, a] → writesRegister (.lAndi d a k) s d (gpr s a &&& BitVec.ofNat 64 k.toNat))

/-- `l.ori` with a zero-extended and `l.xori` with a sign-extended immediate, `l.movhi`, `l.cmov`, the two bit
searches, and the six extensions (40 R363, R365, R380 to R383, R394 to R400). -/
def Obligations.ImmediatesMovesSearchesAndExtensions : Prop :=
  ∀ (s : State) (d a b : Reg) (k : Imm16),
    let x := gpr s a
    (available s .base [d, a] →
      writesRegister (.lOri d a k) s d (x ||| BitVec.ofNat 64 k.toNat) ∧
      writesRegister (.lXori d a k) s d (x ^^^ BitVec.ofInt 64 k.toInt)) ∧
    (available s .base [d] → writesRegister (.lMovhi d k) s d (BitVec.ofNat 64 (k.toNat * 2 ^ 16))) ∧
    (available s (.classII .cmov) [d, a, b] → writesRegister (.lCmov d a b) s d (if srBit s srF then x else gpr s b)) ∧
    (available s (.classII .ff1) [d, a] →
      (x = 0#64 → writesRegister (.lFf1 d a) s d 0#64) ∧
      ∀ n : Nat, x.getLsbD n = true → (∀ j : Nat, j < n → x.getLsbD j = false) →
        writesRegister (.lFf1 d a) s d (BitVec.ofNat 64 (n + 1))) ∧
    (available s (.classII .fl1) [d, a] →
      (x = 0#64 → writesRegister (.lFl1 d a) s d 0#64) ∧
      ∀ n : Nat, x.getLsbD n = true → (∀ j : Nat, n < j → x.getLsbD j = false) →
        writesRegister (.lFl1 d a) s d (BitVec.ofNat 64 (n + 1))) ∧
    (available s (.classII .extbs) [d, a] → writesRegister (.lExtbs d a) s d (BitVec.ofInt 64 (x.setWidth 8).toInt)) ∧
    (available s (.classII .exths) [d, a] → writesRegister (.lExths d a) s d (BitVec.ofInt 64 (x.setWidth 16).toInt)) ∧
    (available s (.classII .extws) [d, a] → writesRegister (.lExtws d a) s d (BitVec.ofInt 64 (x.setWidth 32).toInt)) ∧
    (available s (.classII .extbz) [d, a] → writesRegister (.lExtbz d a) s d (BitVec.ofNat 64 (x.toNat % 2 ^ 8))) ∧
    (available s (.classII .exthz) [d, a] → writesRegister (.lExthz d a) s d (BitVec.ofNat 64 (x.toNat % 2 ^ 16))) ∧
    (available s (.classII .extwz) [d, a] → writesRegister (.lExtwz d a) s d (BitVec.ofNat 64 (x.toNat % 2 ^ 32)))

/-- The eight shifts and rotates as arithmetic on the operand's number: the amount is that of rB or L modulo W (40
R369 to R377). -/
def Obligations.ShiftsAndRotates : Prop :=
  ∀ (s : State) (d a b : Reg) (l : Imm6),
    let w := s.cfg.xlen.bits
    let u := unsignedW s.cfg (gpr s a)
    let left (n : Nat) : Word := BitVec.ofNat 64 (u * 2 ^ n)
    let right (n : Nat) : Word := BitVec.ofNat 64 (u / 2 ^ n)
    let arith (n : Nat) : Word := BitVec.ofInt 64 (signedW s.cfg (gpr s a) / 2 ^ n)
    let rotate (n : Nat) : Word := BitVec.ofNat 64 (u / 2 ^ n + u % 2 ^ n * 2 ^ (w - n))
    (available s .base [d, a, b] →
      writesRegister (.lSll d a b) s d (left ((gpr s b).toNat % w)) ∧
      writesRegister (.lSrl d a b) s d (right ((gpr s b).toNat % w)) ∧
      writesRegister (.lSra d a b) s d (arith ((gpr s b).toNat % w))) ∧
    (available s .base [d, a] →
      writesRegister (.lSlli d a l) s d (left (l.toNat % w)) ∧
      writesRegister (.lSrli d a l) s d (right (l.toNat % w)) ∧
      writesRegister (.lSrai d a l) s d (arith (l.toNat % w))) ∧
    (available s (.classII .ror) [d, a, b] → writesRegister (.lRor d a b) s d (rotate ((gpr s b).toNat % w))) ∧
    (available s (.classII .rori) [d, a] → writesRegister (.lRori d a l) s d (rotate (l.toNat % w)))

/-- `l.mul`, `l.muli` (OV) and `l.mulu` (CY) where no range exception is raised: the product modulo 2^W (40 R385 to
R387). -/
def Obligations.Multiplication : Prop :=
  ∀ (s : State) (d a b : Reg) (i : Imm16),
    let c := s.cfg
    let p := signedW c (gpr s a) * signedW c (gpr s b)
    let pi := signedW c (gpr s a) * i.toInt
    let q := unsignedW c (gpr s a) * unsignedW c (gpr s b)
    let free (cy ov : Option Bool) : Prop := rangeTraps s mulCauses cy ov = false
    (available s .base [d, a, b] → free none (some (outOfRange c p)) →
      writesRegisterFlags (.lMul d a b) s d (BitVec.ofInt 64 p) none (some (outOfRange c p))) ∧
    (available s (.classII .muli) [d, a] → free none (some (outOfRange c pi)) →
      writesRegisterFlags (.lMuli d a i) s d (BitVec.ofInt 64 pi) none (some (outOfRange c pi))) ∧
    (available s .base [d, a, b] → free (some (decide (2 ^ c.xlen.bits ≤ q))) none →
      writesRegisterFlags (.lMulu d a b) s d (BitVec.ofNat 64 q) (some (decide (2 ^ c.xlen.bits ≤ q))) none)

/-- `l.div` (OV) and `l.divu` (CY) where no range exception is raised: the quotient, rounded toward zero; a zero
divisor sets the flag and gives some value, of which nothing is said (40 R389 to R391; rounding toward zero is the
spec's own choice, R389 (a)). Rests on the choices of logs 10 and 54. -/
def Obligations.Division : Prop :=
  ∀ (s : State) (d a b : Reg),
    let c := s.cfg
    (available s (.classII .div) [d, a, b] →
      (gpr s b ≠ 0#64 →
        writesRegisterFlags (.lDiv d a b) s d (BitVec.ofInt 64 (Int.tdiv (signedW c (gpr s a)) (signedW c (gpr s b))))
          none (some false)) ∧
      (gpr s b = 0#64 → rangeTraps s divCauses none (some true) = false →
        ∃ v : Word, writesRegisterFlags (.lDiv d a b) s d v none (some true))) ∧
    (available s (.classII .divu) [d, a, b] →
      (gpr s b ≠ 0#64 →
        writesRegisterFlags (.lDivu d a b) s d (BitVec.ofNat 64 (unsignedW c (gpr s a) / unsignedW c (gpr s b)))
          (some false) none) ∧
      (gpr s b = 0#64 → rangeTraps s divCauses (some true) none = false →
        ∃ v : Word, writesRegisterFlags (.lDivu d a b) s d v (some true) none))

/-! ### Compare -/

/-- The ten register compares: encoding and condition; only F changes, and nothing is raised (41 R421 to R430). -/
def Obligations.SetFlagOnRegisters : Prop :=
  ∀ (s : State) (a b : Reg),
    let word (base : BitVec 32) : BitVec 32 := base ||| a.setWidth 32 <<< 16 ||| b.setWidth 32 <<< 11
    let x := unsignedW s.cfg (gpr s a)
    let y := unsignedW s.cfg (gpr s b)
    let xs := signedW s.cfg (gpr s a)
    let ys := signedW s.cfg (gpr s b)
    let sets (base : BitVec 32) (i : Instr) (v : Bool) : Prop :=
      decode (word base) = .ok i ∧ (available s .base [a, b] → writesFlag i s v)
    sets 0xE4000000#32 (.lSfeq a b) (decide (gpr s a = gpr s b)) ∧
    sets 0xE4200000#32 (.lSfne a b) (decide (gpr s a ≠ gpr s b)) ∧
    sets 0xE4400000#32 (.lSfgtu a b) (decide (x > y)) ∧ sets 0xE4600000#32 (.lSfgeu a b) (decide (x ≥ y)) ∧
    sets 0xE4800000#32 (.lSfltu a b) (decide (x < y)) ∧ sets 0xE4A00000#32 (.lSfleu a b) (decide (x ≤ y)) ∧
    sets 0xE5400000#32 (.lSfgts a b) (decide (xs > ys)) ∧ sets 0xE5600000#32 (.lSfges a b) (decide (xs ≥ ys)) ∧
    sets 0xE5800000#32 (.lSflts a b) (decide (xs < ys)) ∧ sets 0xE5A00000#32 (.lSfles a b) (decide (xs ≤ ys))

/-- The ten immediate compares: encoding and condition, the immediate sign-extended to W bits in all ten; only F
changes (41 R431 to R440). -/
def Obligations.SetFlagOnImmediate : Prop :=
  ∀ (s : State) (a : Reg) (i : Imm16),
    let word (base : BitVec 32) : BitVec 32 := base ||| a.setWidth 32 <<< 16 ||| i.setWidth 32
    let m := sextImm s.cfg i
    let x := unsignedW s.cfg (gpr s a)
    let y := (i.toInt % 2 ^ s.cfg.xlen.bits).toNat
    let xs := signedW s.cfg (gpr s a)
    let sets (base : BitVec 32) (j : Instr) (v : Bool) : Prop :=
      decode (word base) = .ok j ∧ (available s .base [a] → writesFlag j s v)
    sets 0xBC000000#32 (.lSfeqi a i) (decide (gpr s a = m)) ∧
    sets 0xBC200000#32 (.lSfnei a i) (decide (gpr s a ≠ m)) ∧
    sets 0xBC400000#32 (.lSfgtui a i) (decide (x > y)) ∧ sets 0xBC600000#32 (.lSfgeui a i) (decide (x ≥ y)) ∧
    sets 0xBC800000#32 (.lSfltui a i) (decide (x < y)) ∧ sets 0xBCA00000#32 (.lSfleui a i) (decide (x ≤ y)) ∧
    sets 0xBD400000#32 (.lSfgtsi a i) (decide (xs > i.toInt)) ∧
    sets 0xBD600000#32 (.lSfgesi a i) (decide (xs ≥ i.toInt)) ∧
    sets 0xBD800000#32 (.lSfltsi a i) (decide (xs < i.toInt)) ∧
    sets 0xBDA00000#32 (.lSflesi a i) (decide (xs ≤ i.toInt))

/-! ### Memory -/

/-- The seven loads: the datum, zero- or sign-extended, and nothing else (42 R446, R450 to R456). The datum is the
sum of its bytes with the lowest address most significant, the highest where SR[LEE] is set (20 R170, R171). Rests on
the choices of logs 20, 23 and 61. -/
def Obligations.Loads : Prop :=
  (∀ (s : State) (p q r t : Nat),
    let byte (x : Nat) : Nat := (readByte s x).toNat
    (srBit s srLEE = false → datumRead s [p] = byte p ∧ datumRead s [p, q] = byte p * 2 ^ 8 + byte q ∧
      datumRead s [p, q, r, t] = byte p * 2 ^ 24 + byte q * 2 ^ 16 + byte r * 2 ^ 8 + byte t ∧
      ∀ p' q' r' t' : Nat, datumRead s [p, q, r, t, p', q', r', t'] =
        datumRead s [p, q, r, t] * 2 ^ 32 + datumRead s [p', q', r', t']) ∧
    (srBit s srLEE = true → datumRead s [p] = byte p ∧ datumRead s [p, q] = byte q * 2 ^ 8 + byte p ∧
      datumRead s [p, q, r, t] = byte t * 2 ^ 24 + byte r * 2 ^ 16 + byte q * 2 ^ 8 + byte p ∧
      ∀ p' q' r' t' : Nat, datumRead s [p, q, r, t, p', q', r', t'] =
        datumRead s [p', q', r', t'] * 2 ^ 32 + datumRead s [p, q, r, t])) ∧
  ∀ (s : State) (d a : Reg) (i : Imm16),
    let zero (n : Nat) : Word := BitVec.ofNat 64 n
    let sign (bits n : Nat) : Word := BitVec.ofInt 64 (BitVec.ofNat bits n).toInt
    (available s .doubleWord [d, a] → loads (.lLd d a i) s d a i 8 zero) ∧
    (available s .base [d, a] →
      loads (.lLwz d a i) s d a i 4 zero ∧ loads (.lLws d a i) s d a i 4 (sign 32) ∧
      loads (.lLbz d a i) s d a i 1 zero ∧ loads (.lLbs d a i) s d a i 1 (sign 8) ∧
      loads (.lLhz d a i) s d a i 2 zero ∧ loads (.lLhs d a i) s d a i 2 (sign 16))

/-- The four stores: the bytes stored, and nothing else (42 R447, R460 to R463; 20 R170, R197): at the place `k`
bytes on lie the bits of rB that many bytes below its top, or above its bottom where SR[LEE] is set (20 R170, R171).
Rests on the choices of logs 20, 22, 23, 27, 61 and 63. -/
def Obligations.Stores : Prop :=
  (∀ (s : State) (pas : List Nat) (v : Word) (k : Nat) (pa : Nat), pas[k]? = some pa →
    (bytesStored s pas pas.length v)[k]? = some (pa,
      v.extractLsb' (if srBit s srLEE then 8 * k else 8 * (pas.length - 1 - k)) 8)) ∧
  ∀ (s : State) (a b : Reg) (i : Imm16),
    (available s .doubleWord [a, b] → stores (.lSd a b i) s a b i 8) ∧
    (available s .base [a, b] →
      stores (.lSw a b i) s a b i 4 ∧ stores (.lSb a b i) s a b i 1 ∧ stores (.lSh a b i) s a b i 2)

/-- `l.lwa`: the word, zero-extended, and a reservation on its physical address, which replaces any other (42 R458,
20 R196). Rests on the choices of logs 27 and 61. -/
def Obligations.LoadReserve : Prop :=
  ∀ (s u : State) (d a : Reg) (i : Imm16) (ps : List Place), available s (.classII .lwa) [d, a] →
    let pas := addressesOf ps
    dataAddresses s .load (effective s a i) 4 true = .ok ps u → pas.all (mapped s.cfg) = true →
    ∃ t : State, exec (.lLwa d a i) s = .next t ∧ mmuOnly s u ∧ registerIs s t d (BitVec.ofNat 64 (datumRead u pas)) ∧
      t.resv = pas.head? ∧ t.resv ≠ none ∧ memoryKept u t ∧ (reloadsInHardware s.cfg = false → memoryKept s t) ∧
      t = { movedOn u with gprs := t.gprs, resv := t.resv }

/-- `l.swa`, its address once translated, in the state `u`: where the reservation is for this word the store is made
and F set, or the bus error raised where memory does not answer; else nothing is stored and F cleared; the
reservation is gone after either (42 R468, 20 R198, 60 R743). Rests on the choices of logs 27, 61 and 63. -/
def Obligations.StoreConditional : Prop :=
  ∀ (s u : State) (a b : Reg) (i : Imm16) (ps : List Place), available s (.classII .swa) [a, b] →
    dataAddresses s .store (effective s a i) 4 true = .ok ps u →
    let pas := addressesOf ps
    (u.resv = pas.head? → pas.all (mapped s.cfg) = true →
      ∃ t : State, exec (.lSwa a b i) s = .next t ∧ mmuOnly s u ∧
        (∀ pa : Nat, readByte t pa = storedByte (bytesStored s pas 4 (gpr s b)) (readByte u pa) pa) ∧
        (∀ pa : Nat, pa ∉ pas → readByte t pa = readByte u pa) ∧
        (reloadsInHardware s.cfg = false → ∀ pa : Nat, pa ∉ pas → readByte t pa = readByte s pa) ∧
        flagsAre s t (some true) none none ∧ t.resv = none ∧ registersKept s t ∧
        t = { movedOn u with mem := t.mem, stale := t.stale, unwritten := t.unwritten, sr := t.sr, resv := none }) ∧
    (u.resv = pas.head? → pas.all (mapped s.cfg) = false → canEnter s .busError →
      takesException (exec (.lSwa a b i) s) (s.abandon u) .busError (some (effective s a i))) ∧
    (u.resv ≠ pas.head? →
      ∃ t : State, exec (.lSwa a b i) s = .next t ∧ memoryKept s t ∧ flagsAre s t (some false) none none ∧
        t.resv = none ∧ registersKept s t ∧
        t = { movedOn s with sr := t.sr, resv := none, draws := t.draws, dtlbMisses := t.dtlbMisses,
                             itlbMisses := t.itlbMisses })

/-- Accesses that cannot be made: alignment, translation, bus error (20 R175, 60 R742). A load or store raises its
exception with the effective address in EEAR, and nothing is loaded or stored; `l.swa` whatever its reservation where
translation raises. A fetch raises its exception with pc in EEAR: a pc that is not a multiple of 4, what translation
raises, memory that does not answer (20 R177, R178, 60 R744). Rests on the choices of logs 24 and 26. -/
def Obligations.AccessExceptions : Prop :=
  (∀ (s : State) (d a b : Reg) (i : Imm16),
    let ea := effective s a i
    (available s .doubleWord [d, a] → accessRaises (.lLd d a i) s .load ea 8 false) ∧
    (available s .base [d, a] →
      accessRaises (.lLwz d a i) s .load ea 4 false ∧ accessRaises (.lLws d a i) s .load ea 4 false ∧
      accessRaises (.lLbz d a i) s .load ea 1 false ∧ accessRaises (.lLbs d a i) s .load ea 1 false ∧
      accessRaises (.lLhz d a i) s .load ea 2 false ∧ accessRaises (.lLhs d a i) s .load ea 2 false) ∧
    (available s (.classII .lwa) [d, a] → accessRaises (.lLwa d a i) s .load ea 4 true) ∧
    (available s .doubleWord [a, b] → accessRaises (.lSd a b i) s .store ea 8 false) ∧
    (available s .base [a, b] →
      accessRaises (.lSw a b i) s .store ea 4 false ∧ accessRaises (.lSb a b i) s .store ea 1 false ∧
      accessRaises (.lSh a b i) s .store ea 2 false) ∧
    (available s (.classII .swa) [a, b] →
      ∀ (e : Exc) (u : State), dataAddresses s .store ea 4 true = .raise e u → canEnter u e →
        mmuOnly s u ∧ takesException (exec (.lSwa a b i) s) u e (some ea))) ∧
  ∀ s : State, ready s →
    (s.pc.toNat % 4 ≠ 0 → canEnter s .alignment →
      takesExceptionCounted (step s) s.fresh .alignment (some s.pc)) ∧
    (s.pc.toNat % 4 = 0 →
      (∀ (e : Exc) (u : State), translate s.fresh .fetch s.pc = .raise e u → canEnter u e →
        mmuOnly s.fresh u ∧ takesExceptionCounted (step s) u e (some s.pc)) ∧
      ∀ (p : Place) (u : State), translate s.fresh .fetch s.pc = .ok p u →
        (∃ j : Nat, j < 4 ∧ mapped s.cfg (p.pa + j) = false) → canEnter s .busError →
        takesExceptionCounted (step s) (s.fresh.abandon u) .busError (some s.pc))

/-- Where an operand lies: the effective address is rA plus the sign-extended immediate modulo 2^W; with translation
off an aligned operand's bytes lie at the address's low PADDR_BITS bits and the places after it; an operand that is
not aligned raises the alignment exception unless the implementation accesses it byte by byte (20 R164 to R166,
R200). Rests on the choices of logs 24 and 26. -/
def Obligations.OperandAddresses : Prop :=
  ∀ (s : State) (k : Access) (a : Reg) (i : Imm16) (n : Nat) (strict : Bool), translates s k = false →
    let ea := effective s a i
    (ea.toNat : Int) = ((gpr s a).toNat + i.toInt) % 2 ^ s.cfg.xlen.bits ∧
    (ea.toNat % n = 0 → dataAddresses s k ea n strict =
      .ok ((List.range n).map fun j => { pa := ea.toNat % 2 ^ s.cfg.paddrBits + j, attributes := none }) s) ∧
    (ea.toNat % n ≠ 0 → s.cfg.unalignedSupported = false ∨ strict = true →
      dataAddresses s k ea n strict = .raise .alignment s) ∧
    (ea.toNat % n ≠ 0 → s.cfg.unalignedSupported = true → strict = false → dataAddresses s k ea n strict =
      .ok ((List.range n).map fun j =>
        { pa := (ea.toNat + j) % 2 ^ s.cfg.xlen.bits % 2 ^ s.cfg.paddrBits, attributes := none }) s)

/-- Translation (20 R207, R208, R220 to R224, R235, R248, R250): a way of the TLB that matches serves, any one of
several; else an entry of the ATB that matches, any one of several; else the miss, counted, or with hardware reload
no miss ever: the page that the search finds is loaded into an entry and the access goes through that, or what is
raised is the page fault or the bus error of the search (R247). The entry gives the place and its attributes, or the
page fault where its permission bit is clear; A, and for a store D, is set, in the page table too where the hardware
reloads; no other register of an MMU but LRU fields, and no other byte of memory, changes. An entry of the TLB with
PL1 = 1 that would match stops the translation, or (TLB_PL1_POLICY) serves as one of a 16-Mbyte page, like any other
way that matches. When such an entry would match, and the set a page lies in, are the spec's choices and the model's
(logs 18 and 19). Rests on the choices of logs 14, 17, 18, 19, 20 and 61. -/
def Obligations.TlbTranslation : Prop :=
  ∀ (s : State) (k : Access) (g : MmuConfig) (ea : Word), mmuConfig s.cfg k = some g → translates s k = true →
    let m := mmuOf s k
    let n := tlbSet g ea
    let level1 : Prop := ∃ y : Nat, y < g.ways ∧ tlbHitLevel1 s m ea n y = true
    let tlb : Prop := ∃ y : Nat, y < g.ways ∧ tlbHit s m ea n y = true
    let atb : Prop := ∃ j : Nat, j < g.atbs ∧ atbHit s m ea j = true
    n = ea.toNat / 2 ^ 13 % 2 ^ g.setsLog ∧
    (s.cfg.xlen = .x32 → ∀ j : Nat,
      (tlbHit s m ea n j = true ↔
        let r := Table.read m.tlbMr (256 * j + n)
        r.getLsbD 0 = true ∧ r.getLsbD 1 = false ∧ (1 < s.cfg.nsets → r.toNat / 2 ^ 2 % 2 ^ 4 = context s) ∧
          r.toNat / 2 ^ 13 % 2 ^ 19 = ea.toNat / 2 ^ 13 % 2 ^ 19) ∧
      (atbHit s m ea j = true ↔
        let r := Table.read m.atbMr j
        r.getLsbD 0 = true ∧ r.getLsbD 5 = false ∧ (1 < s.cfg.nsets → r.toNat / 2 % 2 ^ 4 = context s) ∧
          r.toNat / 2 ^ 24 % 2 ^ 8 = ea.toNat / 2 ^ 24 % 2 ^ 8)) ∧
    (level1 → s.cfg.tlbPl1 = .refuse → translate s k ea = .refuse .tlbLevel1Match) ∧
    (level1 → ¬tlb → s.cfg.tlbPl1 = .largePage → ∃ y : Nat, y < g.ways ∧ tlbHitLevel1 s m ea n y = true ∧
      goesThrough (translate s k ea) s k g ea (.tlb (256 * y + n)) true 24) ∧
    (level1 → tlb → s.cfg.tlbPl1 = .largePage → ∃ y : Nat, y < g.ways ∧
      ((tlbHitLevel1 s m ea n y = true ∧ goesThrough (translate s k ea) s k g ea (.tlb (256 * y + n)) true 24) ∨
        (tlbHit s m ea n y = true ∧ goesThrough (translate s k ea) s k g ea (.tlb (256 * y + n)) true 13))) ∧
    (¬level1 → tlb → ∃ y : Nat, y < g.ways ∧ tlbHit s m ea n y = true ∧
      goesThrough (translate s k ea) s k g ea (.tlb (256 * y + n)) true 13) ∧
    (¬level1 → ¬tlb → atb → ∃ j : Nat, j < g.atbs ∧ atbHit s m ea j = true ∧
      goesThrough (translate s k ea) s k g ea (.atb j) false (if (Table.read m.atbMr j).getLsbD 5 then 35 else 24)) ∧
    (¬level1 → ¬tlb → ¬atb →
      let fault := if k = .fetch then Exc.insnPageFault else Exc.dataPageFault
      let counted : State := { s with
        dtlbMisses := s.dtlbMisses + if k = .fetch then 0 else 1
        itlbMisses := s.itlbMisses + if k = .fetch then 1 else 0 }
      (g.reload = false → translate s k ea = .raise (if k = .fetch then .itlbMiss else .dtlbMiss) counted) ∧
      (g.reload = true →
        (walk s k ea = .invalid → translate s k ea = .raise fault counted) ∧
        (walk s k ea = .unanswered → translate s k ea = .raise .busError counted) ∧
        (s.cfg.wf = true → ∀ (p : BitVec 32) (pa log : Nat), walk s k ea = .page p pa log →
          ∃ (e : Entry) (way : Bool) (t : State), (way = false → log ≠ 13) ∧
            entryLoaded counted t k g ea p log e way ∧ walk t k ea = .page p pa log ∧
            goesThrough (translate s k ea) t k g ea e way (if way then 13 else log)) ∧
        ∀ (e : Exc) (u : State), translate s k ea = .raise e u → e = fault ∨ e = .busError))

/-- What is stored is what is loaded: with translation off, a naturally aligned store followed by a load of the same
size from the same address gives the stored bytes back, for bytes, half-words, words and double words, in either byte
order where the implementation has both (20 R170, R171; that LEE turns data accesses around and not fetches is log
23). Rests on the choices of logs 23 and 63. -/
def Obligations.LoadReturnsWhatWasStored : Prop :=
  ∀ (s : State) (a b d : Reg) (i : Imm16), translates s .store = false →
    let ea := effective s a i
    let back (store load : Instr) (n : Nat) : Prop :=
      ea.toNat % n = 0 → (∀ j : Nat, j < n → mapped s.cfg (physical s.cfg ea + j) = true) →
        ∃ t u : State, exec store s = .next t ∧ exec load t = .next u ∧
          registerIs t u d (BitVec.ofNat 64 ((gpr s b).toNat % 2 ^ (8 * n)))
    (available s .base [a, b] → available s .base [d, a] →
      back (.lSw a b i) (.lLwz d a i) 4 ∧ back (.lSh a b i) (.lLhz d a i) 2 ∧ back (.lSb a b i) (.lLbz d a i) 1) ∧
    (available s .doubleWord [a, b] → available s .doubleWord [d, a] → back (.lSd a b i) (.lLd d a i) 8)

/-! ### Control transfer -/

/-- The six jumps and branches outside a delay slot (43 R480 to R486): target, link, delay slot. Rests on the choices
of logs 28 and 29. -/
def Obligations.JumpsAndBranches : Prop :=
  ∀ (s : State) (b : Reg) (n : Imm26), s.ds = none →
    let target : Word := BitVec.ofNat 64 ((s.pc.toNat + 4 * n.toInt) % 2 ^ s.cfg.xlen.bits).toNat
    (available s .base [] →
      branches (.lJ n) s (some target) false ∧ branches (.lJal n) s (some target) true ∧
      branches (.lBf n) s (if srBit s srF then some target else none) false ∧
      branches (.lBnf n) s (if srBit s srF then none else some target) false) ∧
    (available s .base [b] →
      branches (.lJr b) s (some (gpr s b)) false ∧ branches (.lJalr b) s (some (gpr s b)) true)

/-- With a delay slot the instruction after a jump runs next and the target after it; a jump, a branch or an `l.rfe`
in a delay slot is refused, whatever its target, for no rule gives it a meaning (43 R479 (a) and (e), R480; refusing
is the spec's decision D28). Rests on the choices of log 28. -/
def Obligations.DelaySlotThenTarget : Prop :=
  (∀ (s t : State) (n : Imm26) (k : Imm16), s.ds = none → s.cfg.nd = false → exec (.lJ n) s = .next t →
    t.pc = narrow s.cfg (s.pc + 4#64) ∧
    (∃ u : State, exec (.lNop k) t = .next u ∧ u.pc = jumpTarget s n ∧ u.ds = none) ∧
    (canEnter t .systemCall → ∃ u : State, exec (.lSys k) t = .next u ∧
      Table.read u.epcr (entryContext t) = s.pc ∧ srBit u srDSX = true)) ∧
  ∀ (s : State) (n : Imm26) (b : Reg), s.ds ≠ none →
    (∀ j ∈ [Instr.lJ n, .lJal n, .lBf n, .lBnf n], exec j s = .refused .jumpInDelaySlot) ∧
    (available s .base [b] → ∀ j ∈ [Instr.lJr b, .lJalr b], exec j s = .refused .jumpInDelaySlot) ∧
    (srBit s srSM = true → exec .lRfe s = .refused .jumpInDelaySlot)

/-! ### The multiply-accumulate unit -/

/-- The eight instructions of the MAC unit where no range exception is raised (44 R500 to R508). Rests on the choices
of log 56. -/
def Obligations.MultiplyAccumulate : Prop :=
  ∀ (s : State) (d a b : Reg) (i : Imm16),
    let c := s.cfg
    let p := signedW c (gpr s a) * signedW c (gpr s b)
    let pi := signedW c (gpr s a) * i.toInt
    let q := unsignedW c (gpr s a) * unsignedW c (gpr s b)
    let mac := (s.machi ++ s.maclo).toInt
    let macu := (s.machi ++ s.maclo).toNat
    let past (z : Int) : Option Bool := some (decide (z < -2 ^ 63 ∨ 2 ^ 63 ≤ z))
    let fits (k : Causes) (cy ov : Option Bool) : Prop := rangeTraps s k cy ov = false
    (available s (.macUnit .mac) [a, b] → fits macCauses none (past (mac + p)) →
      writesMac (.lMac a b) s (BitVec.ofInt 64 (mac + p)) none (past (mac + p))) ∧
    (available s (.macUnit .maci) [a] → fits macCauses none (past (mac + pi)) →
      writesMac (.lMaci a i) s (BitVec.ofInt 64 (mac + pi)) none (past (mac + pi))) ∧
    (available s (.macUnit .msb) [a, b] → fits macCauses none (past (mac - p)) →
      writesMac (.lMsb a b) s (BitVec.ofInt 64 (mac - p)) none (past (mac - p))) ∧
    (available s (.macUnit .macu) [a, b] → fits macCauses (some (decide (2 ^ 64 ≤ macu + q))) none →
      writesMac (.lMacu a b) s (BitVec.ofNat 64 (macu + q)) (some (decide (2 ^ 64 ≤ macu + q))) none) ∧
    (available s (.macUnit .msbu) [a, b] → fits macCauses (some (decide (macu < q))) none →
      writesMac (.lMsbu a b) s (BitVec.ofInt 64 ((macu : Int) - q)) (some (decide (macu < q))) none) ∧
    (available s (.macUnit .muld) [a, b] → fits mulCauses none (past p) →
      writesMac (.lMuld a b) s (BitVec.ofInt 64 p) none (past p)) ∧
    (available s (.macUnit .muldu) [a, b] → fits mulCauses (some (decide (2 ^ 64 ≤ q))) none →
      writesMac (.lMuldu a b) s (BitVec.ofNat 64 q) (some (decide (2 ^ 64 ≤ q))) none) ∧
    (available s (.macUnit .macrc) [d] → ∃ t : State, exec (.lMacrc d) s = .next t ∧
      registerIs s t d (BitVec.ofNat 64 macu) ∧ t.machi = 0#32 ∧ t.maclo = 0#32 ∧ memoryKept s t ∧
      t = { movedOn s with gprs := t.gprs, machi := 0#32, maclo := 0#32 })

/-! ### Special-purpose registers and synchronisation -/

/-- `l.mfspr` where the mode may read: rD receives the register at address rA OR K (44 R510, R513, R515). -/
def Obligations.MoveFromSpr : Prop :=
  ∀ (s : State) (d a : Reg) (k : Imm16), available s .base [d, a] →
    let addr := ((gpr s a).toNat ||| k.toNat) % 2 ^ 16
    (srBit s srSM = true ∨ addr = 0x2801 ∨ addr = 0x2802 ∨ (srBit s srSUMRA = true ∧
      (addr = 0x0014 ∨ (0x3800 ≤ addr ∧ addr ≤ 0x3807) ∨ addr = 0x5001 ∨ (0x0020 ≤ addr ∧ addr ≤ 0x003F)))) →
    writesRegister (.lMfspr d a k) s d (sprRead s addr)

/-- What the addresses of 10_state R100 name: what each register reads as, where it exists; the configuration
registers bit by bit or field by field (10_state R110 to R118). Rests on the choices of logs 7, 32, 33 and 34. -/
def Obligations.SprAddresses : Prop :=
  ∀ s : State,
    let at32 (addr : Nat) (v : BitVec 32) : Prop := sprRead s addr = BitVec.ofNat 64 v.toNat
    let num (addr n : Nat) : Prop := sprRead s addr = BitVec.ofNat 64 n
    let bits (addr : Nat) (f : Nat → Bool) : Prop :=
      ∀ n : Nat, (sprRead s addr).getLsbD n = (decide (n < 32) && f n)
    let mmucfg (m : MmuConfig) : Nat :=
      2048 * m.reload.toNat + 1024 * m.invalidate.toNat + 512 * m.protect.toNat + 256 * m.control.toNat +
        32 * (m.atbs % 8) + 4 * (m.setsLog % 8) + (m.ways - 1) % 4
    let cachecfg (d : CacheConfig) : Nat :=
      4096 * d.lock.toNat + 2048 * d.prefetch.toNat + 1024 * d.invalidate.toNat + 512 * d.control.toNat +
        128 * d.block32.toNat + 8 * (d.setsLog % 16) + d.waysLog % 8
    bits 0x0001 (fun n => match n with
      | 0 => true
      | 1 => s.cfg.dcache.isSome
      | 2 => s.cfg.icache.isSome
      | 3 => s.cfg.dmmu.isSome
      | 4 => s.cfg.immu.isSome
      | 5 => s.cfg.mac
      | 6 => s.cfg.debugUnit.isSome
      | 7 => s.cfg.counters.isSome
      | 8 => s.cfg.pic
      | 9 => s.cfg.power
      | 10 => s.cfg.tickTimer
      | n => decide (24 ≤ n) && s.cfg.customUnits.getLsbD (n - 24)) ∧
    bits 0x0002 (fun n => match n with
      | 0 | 1 | 2 | 3 => (s.cfg.nsets - 1).testBit n
      | 4 => decide (s.cfg.ngpr < 32)
      | 5 => true
      | 6 => s.cfg.orbis64
      | 7 => s.cfg.orfpx32
      | 8 => s.cfg.orfpx64
      | 9 => s.cfg.orvdx64
      | 10 => s.cfg.nd
      | 11 => s.cfg.avrPresent
      | 12 => s.cfg.evbarPresent
      | 13 => s.cfg.isrPresent
      | 14 => s.cfg.aecsrPresent
      | _ => false) ∧
    num 0x0003 (match s.cfg.dmmu with
      | none => 0
      | some m => mmucfg m) ∧
    num 0x0004 (match s.cfg.immu with
      | none => 0
      | some m => mmucfg m) ∧
    num 0x0005 (match s.cfg.dcache with
      | none => 0
      | some d => 16384 * d.writeBack.toNat + 8192 * d.flush.toNat + 256 * d.copyBack.toNat + cachecfg d) ∧
    num 0x0006 (match s.cfg.icache with
      | none => 0
      | some d => cachecfg d) ∧
    num 0x0007 (match s.cfg.debugUnit with
      | none => 0
      | some d => 8 * d.counters.toNat + (d.pairs - 1) % 8) ∧
    num 0x0008 (match s.cfg.counters with
      | none => 0
      | some n => (n - 1) % 8) ∧
    at32 0x0009 (if s.cfg.vr.getLsbD 6 then s.cfg.vr2 else 0#32) ∧
    bits 0x000A (fun n => s.cfg.avrPresent && decide (8 ≤ n) && s.cfg.avr.getLsbD n) ∧
    (∀ j : Nat, j < 8 → at32 (0x0015 + j) (if s.cfg.isrPresent then s.cfg.isr.getD j 0#32 else 0#32)) ∧
    bits 0x0000 (fun n => (decide (n < 7) || decide (16 ≤ n)) && s.cfg.vr.getLsbD n) ∧
    at32 0x0011 s.sr ∧ sprRead s 0x0010 = seqPc s ∧ sprRead s 0x0012 = narrow s.cfg s.ppc ∧
    (s.cfg.evbarPresent = true → at32 0x000B s.evbar) ∧
    (s.cfg.aecsrPresent = true → at32 0x000C s.aecr ∧ at32 0x000D s.aesr) ∧
    (s.cfg.orfpx32 = true ∨ (s.cfg.orfpx64 = true ∧ s.cfg.xlen = .x64) → at32 0x0014 s.fpcsr) ∧
    (∀ j : Nat, j < 16 → j < s.cfg.nsets → sprRead s (0x0020 + j) = narrow s.cfg (Table.read s.epcr j) ∧
      sprRead s (0x0030 + j) = narrow s.cfg (Table.read s.eear j) ∧ at32 (0x0040 + j) (Table.read s.esr j)) ∧
    (∀ set r : Nat, set < 16 → set < s.cfg.nsets → r < s.cfg.ngpr → r < 32 →
      sprRead s (0x0400 + 32 * set + r) = gprOf s set r) ∧
    (∀ (k : Access) (g : MmuConfig), mmuConfig s.cfg k = some g →
      let m := mmuOf s k
      let base := if k = .fetch then 0x1000 else 0x0800
      (g.control = true → at32 base m.control) ∧ (g.protect = true → at32 (base + 1) m.protect) ∧ num (base + 2) 0 ∧
      (∀ j : Nat, j < 4 → j < g.atbs → sprRead s (base + 4 + j) = narrow s.cfg (Table.read m.atbMr j) ∧
        sprRead s (base + 8 + j) = narrow s.cfg (Table.read m.atbTr j)) ∧
      (∀ y n : Nat, y < 4 → y < g.ways → n < 128 → n < 2 ^ g.setsLog →
        sprRead s (base + 512 + 256 * y + n) = narrow s.cfg (Table.read m.tlbMr (256 * y + n) |||
          BitVec.ofNat 64 (64 * (Table.read m.tlbLru (256 * y + n)).toNat)) ∧
        sprRead s (base + 640 + 256 * y + n) = narrow s.cfg (Table.read m.tlbTr (256 * y + n)))) ∧
    (∀ d : CacheConfig, s.cfg.dcache = some d → d.control = true → at32 0x1800 s.dccr) ∧
    (∀ d : CacheConfig, s.cfg.icache = some d → d.control = true → at32 0x2000 s.iccr) ∧
    (∀ j : Nat, 0 < j → j < 0x800 → num (0x1800 + j) 0 ∧ num (0x2000 + j) 0) ∧
    (s.cfg.mac = true → at32 0x2801 s.maclo ∧ at32 0x2802 s.machi) ∧
    (∀ g : DebugConfig, s.cfg.debugUnit = some g → ∀ j : Nat, j < 8 → j < g.pairs →
      at32 (0x3000 + j) (Table.read s.debugUnit.dvr j) ∧ at32 (0x3008 + j) (Table.read s.debugUnit.dcr j ||| 1#32)) ∧
    (∀ g : DebugConfig, s.cfg.debugUnit = some g → g.counters = true →
      at32 0x3012 s.debugUnit.dwcr0 ∧ at32 0x3013 s.debugUnit.dwcr1) ∧
    (∀ n : Nat, s.cfg.counters = some n → ∀ j : Nat, j < 8 → j < n →
      at32 (0x3800 + j) (Table.read s.pccr j) ∧ at32 (0x3808 + j) (Table.read s.pcmr j ||| 1#32)) ∧
    (s.cfg.pic = true → at32 0x4800 (picmr s) ∧ at32 0x4802 (picsr s)) ∧
    (s.cfg.debugUnit.isSome = true → at32 0x3010 s.debugUnit.dmr1 ∧ at32 0x3011 s.debugUnit.dmr2 ∧
      at32 0x3014 s.debugUnit.dsr ∧ at32 0x3015 s.debugUnit.drr) ∧
    (s.cfg.power = true → at32 0x4000 s.pmr) ∧
    (s.cfg.tickTimer = true → at32 0x5000 s.ttmr ∧ at32 0x5001 s.ttcr) ∧
    (∀ addr : Nat, 0x5800 ≤ addr → addr < 2 ^ 16 → sprRead s addr = 0#64)

/-- `l.mtspr` where the mode may write completes, moves on, and changes only registers of the unit its address names;
a write to SR sets FO, keeps reserved and hard-wired bits 0, and takes the other bits from rB (44 R511, R513, R516,
10_state R79). Memory is unchanged, but that a write to DCBIR (0x1803) may bring back, in the block of the address
written and nowhere else, an older byte that main memory holds behind a write-back cache (20 R279). NPC and PPC, and
a context that does not exist, are refused (10_state R53, R62). Rests on the choices of logs 7, 32 and 63. -/
def Obligations.MoveToSpr : Prop :=
  ∀ (s : State) (a b : Reg) (k : Imm16), available s .base [a, b] →
    let addr := ((gpr s a).toNat ||| k.toNat) % 2 ^ 16
    let v := (gpr s b).setWidth 32
    (srBit s srSM = true ∨ addr ∈ [0x2801, 0x2802, 0x1801, 0x1802, 0x1804, 0x1805, 0x2001, 0x2002, 0x2003]) →
    (addr = 0x0010 ∨ addr = 0x0012 → exec (.lMtspr a b k) s = .refused .writeOfNpcOrPpc) ∧
    (addr = 0x0011 → 1 < s.cfg.nsets → s.cfg.nsets ≤ v.toNat / 2 ^ 28 →
      exec (.lMtspr a b k) s = .refused .cidOutOfRange) ∧
    (addr ≠ 0x0010 → addr ≠ 0x0012 → (addr = 0x0011 → s.cfg.nsets ≤ 1 ∨ v.toNat / 2 ^ 28 < s.cfg.nsets) →
      ∃ t : State, exec (.lMtspr a b k) s = .next t ∧ t.pc = seqPc s ∧ t.ppc = s.pc ∧ t.ds = none ∧
        (addr ≠ 0x1803 → memoryKept s t) ∧
        (∀ pa : Nat, readByte t pa = readByte s pa ∨ ((pa, readByte t pa) ∈ s.unwritten ∧
          ∃ (g : CacheConfig) (q : Nat), s.cfg.dcache = some g ∧ cacheAddress s .load (gpr s b) = some q ∧
            pa / (if g.block32 then 32 else 16) = q / (if g.block32 then 32 else 16))) ∧ t.resv = s.resv ∧
        (addr = 0x0011 → t = { movedOn s with sr := t.sr } ∧ ∀ n : Nat, n < 32 → t.sr.getLsbD n =
          (decide (n = 15) || (v.getLsbD n && (n ∈ [0, 1, 2, 9, 10, 11, 12, 13, 14, 16] ||
            (n == 3 && s.cfg.dcache.isSome) || (n == 4 && s.cfg.icache.isSome) || (n == 5 && s.cfg.dmmu.isSome) ||
            (n == 6 && s.cfg.immu.isSome) || (n == 7 && s.cfg.leeSupported) ||
            ((n == 8 || decide (28 ≤ n)) && decide (1 < s.cfg.nsets)))))) ∧
        (addr ≠ 0x0011 → addr < 0x0400 → t = { movedOn s with
          evbar := t.evbar, aecr := t.aecr, aesr := t.aesr, fpcsr := t.fpcsr, epcr := t.epcr, eear := t.eear,
          esr := t.esr }) ∧
        (0x0400 ≤ addr → addr < 0x0600 → t = { movedOn s with gprs := t.gprs }) ∧
        (0x0600 ≤ addr → addr < 0x0800 → t = movedOn s) ∧
        (addr / 0x800 = 1 → t = { movedOn s with dmmu := t.dmmu }) ∧
        (addr / 0x800 = 2 → t = { movedOn s with immu := t.immu }) ∧
        (addr = 0x1800 → t = { movedOn s with dccr := t.dccr }) ∧
        (addr / 0x800 = 3 → addr ≠ 0x1800 → t = { movedOn s with
          mem := t.mem, stale := t.stale, unwritten := t.unwritten, draws := t.draws }) ∧
        (addr / 0x800 = 4 → t = { movedOn s with iccr := t.iccr, stale := t.stale, draws := t.draws }) ∧
        (addr / 0x800 = 5 → t = { movedOn s with maclo := t.maclo, machi := t.machi }) ∧
        (addr / 0x800 = 6 → t = { movedOn s with debugUnit := t.debugUnit }) ∧
        (addr / 0x800 = 7 → t = { movedOn s with pccr := t.pccr, pcmr := t.pcmr }) ∧
        (addr / 0x800 = 8 → t = { movedOn s with pmr := t.pmr }) ∧
        (addr / 0x800 = 9 → t = { movedOn s with pic := t.pic }) ∧
        (addr / 0x800 = 10 → t = { movedOn s with ttmr := t.ttmr, ttcr := t.ttcr }) ∧
        (11 ≤ addr / 0x800 → t = movedOn s))

/-- Each of the registers listed reads back what was written to it, reserved bits 0 (44 R514, R516); that ESR keeps
all 32 bits is the model's reading (10_state R82, log 34). Also the registers a write acts on instead: PICSR and
TTMR[IP] are cleared bit by bit, DMR2[WBS] is cleared by zeros, xTLBEIR clears V of the entries that match,
xMMUCR[DTF] of all, and a write of PMR may be followed at once by the end of doze or sleep mode. Rests on the choices
of logs 7, 17, 19, 33, 34 and 39. -/
def Obligations.SprReadsBackWhatWasWritten : Prop :=
  ∀ (s t : State) (addr : Nat) (v : Word), sprWrite s addr v = .ok t →
    let x := v.setWidth 32
    let holds (w : BitVec 32) : Prop := sprRead t addr = BitVec.ofNat 64 w.toNat
    let back (mask : BitVec 32) : Prop := holds (x &&& mask)
    let page (low page32 page64 : Word) (shift : Nat) : Prop :=
      sprRead t addr = v &&& (match s.cfg.xlen with
        | .x32 => low ||| page32
        | .x64 => low ||| page64 <<< shift)
    (addr = 0x000B → s.cfg.evbarPresent = true → back 0xFFFFE000#32) ∧
    (addr = 0x000C ∨ addr = 0x000D → s.cfg.aecsrPresent = true → back 0x7F#32) ∧
    (addr = 0x0014 → s.cfg.orfpx32 = true ∨ (s.cfg.orfpx64 = true ∧ s.cfg.xlen = .x64) → back 0xFFF#32) ∧
    (0x0020 ≤ addr → addr < 0x0040 → addr % 16 < s.cfg.nsets → sprRead t addr = narrow s.cfg v) ∧
    (0x0040 ≤ addr → addr < 0x0050 → addr % 16 < s.cfg.nsets → back 0xFFFFFFFF#32) ∧
    (0x0400 ≤ addr → addr < 0x0600 → (addr - 0x0400) / 32 < s.cfg.nsets → addr % 32 < s.cfg.ngpr →
      s.cfg.r0Hardwired = false ∨ addr % 32 ≠ 0 → sprRead t addr = narrow s.cfg v) ∧
    (∀ (k : Access) (g : MmuConfig), mmuConfig s.cfg k = some g →
      let base := if k = .fetch then 0x1000 else 0x0800
      let low : Word := if k = .fetch then 0xFF#64 else 0x3FF#64
      (addr = base → g.control = true → back 0xFFFFFC00#32 ∧ ∀ j : Nat, (Table.read (mmuOf t k).tlbMr j).getLsbD 0 =
        ((Table.read (mmuOf s k).tlbMr j).getLsbD 0 && !v.getLsbD 0)) ∧
      (addr = base + 1 → g.protect = true → back (if k = .fetch then 0x00003FFF#32 else 0x0FFFFFFF#32)) ∧
      (addr = base + 2 → g.invalidate = true → ∀ y : Nat, y < g.ways →
        let ea := narrow s.cfg v
        let e := 256 * y + tlbSet g ea
        (Table.read (mmuOf t k).tlbMr e).getLsbD 0 = ((Table.read (mmuOf s k).tlbMr e).getLsbD 0 &&
          !(tlbHit s (mmuOf s k) ea (tlbSet g ea) y || tlbHitLevel1 s (mmuOf s k) ea (tlbSet g ea) y))) ∧
      (base + 4 ≤ addr → addr < base + 8 → addr < base + 4 + g.atbs →
        page 0x3F#64 0xFFFFFC00#64 0x00003FFFFFFFFC00#64 s.cfg.mmu64.matchShift) ∧
      (base + 8 ≤ addr → addr < base + 12 → addr < base + 8 + g.atbs →
        page low 0xFFFFFC00#64 0xFFFFFFFFFFFFFC00#64 s.cfg.mmu64.translateShift) ∧
      (∀ y n : Nat, y < 4 → y < g.ways → n < 128 → n < 2 ^ g.setsLog →
        (addr = base + 512 + 256 * y + n →
          page 0xFF#64 0xFFFFE000#64 0x00003FFFFFFFE000#64 s.cfg.mmu64.matchShift) ∧
        (addr = base + 640 + 256 * y + n →
          page low 0xFFFFE000#64 0xFFFFFFFFFFFFE000#64 s.cfg.mmu64.translateShift))) ∧
    (∀ d : CacheConfig, addr = 0x1800 → s.cfg.dcache = some d → d.control = true → back 0xFF#32) ∧
    (∀ d : CacheConfig, addr = 0x2000 → s.cfg.icache = some d → d.control = true → back 0xFF#32) ∧
    (addr = 0x2801 ∨ addr = 0x2802 → s.cfg.mac = true → back 0xFFFFFFFF#32) ∧
    (∀ g : DebugConfig, s.cfg.debugUnit = some g →
      (0x3000 ≤ addr → addr < 0x3008 → addr < 0x3000 + g.pairs → back 0xFFFFFFFF#32) ∧
      (0x3008 ≤ addr → addr < 0x3010 → addr < 0x3008 + g.pairs → holds (x &&& 0xFE#32 ||| 1#32)) ∧
      (addr = 0x3010 → back 0x00CFFFFF#32) ∧
      (addr = 0x3011 → holds (x &&& 0x003FFFFF#32 ||| x &&& s.debugUnit.dmr2 &&& 0xFFC00000#32)) ∧
      (addr = 0x3012 ∨ addr = 0x3013 → g.counters = true → back 0xFFFFFFFF#32) ∧
      (addr = 0x3014 ∨ addr = 0x3015 → back 0x3FFF#32)) ∧
    (∀ n : Nat, s.cfg.counters = some n →
      (0x3800 ≤ addr → addr < 0x3808 → addr < 0x3800 + n → back 0xFFFFFFFF#32) ∧
      (0x3808 ≤ addr → addr < 0x3810 → addr < 0x3808 + n → holds (x &&& 0x03FFFFFC#32 ||| 1#32))) ∧
    (addr = 0x4000 → s.cfg.power = true →
      let ends := v.getLsbD 7 = false ∧ (v.getLsbD 5 = true ∨ v.getLsbD 4 = true) ∧
        (intRequest s = true ∨ (v.getLsbD 5 = false ∧ tickPending s = true))
      (ends → back 0xCF#32) ∧ (¬ends → back 0xFF#32)) ∧
    (addr = 0x4800 → s.cfg.pic = true →
      holds (if s.cfg.picFixedUnmasked then x ||| 3#32 else x)) ∧
    (addr = 0x5001 → s.cfg.tickTimer = true → back 0xFFFFFFFF#32) ∧
    (addr = 0x4802 → s.cfg.pic = true → ∀ n : Nat, n < 32 → (picsr t).getLsbD n =
      ((picsr s).getLsbD n && !(s.cfg.picEdge.getLsbD n && v.getLsbD n))) ∧
    (addr = 0x5000 → s.cfg.tickTimer = true → ∀ n : Nat, n < 32 → t.ttmr.getLsbD n =
      (v.getLsbD n && (decide (n ≠ 28) || s.ttmr.getLsbD 28)))

/-- User mode is turned away from the supervisor's registers and from `l.rfe` (44 R515): the program is refused (the
spec's default), or the illegal instruction exception taken, or a zero read and nothing else done, as USER_SPR_POLICY
says (log 31). Rests on the choices of log 31. -/
def Obligations.UserModeIsTurnedAway : Prop :=
  ∀ (s : State) (d a b : Reg) (k : Imm16), srBit s srSM = false → available s .base [d, a, b] →
    let addr := ((gpr s a).toNat ||| k.toNat) % 2 ^ 16
    (userReads s addr = false →
      (s.cfg.userSpr = .refuse → exec (.lMfspr d a k) s = .refused .userViolation) ∧
      (s.cfg.userSpr = .illegal → canEnter s .illegal →
        takesException (exec (.lMfspr d a k) s) s .illegal (some s.pc)) ∧
      (s.cfg.userSpr = .ignore → writesRegister (.lMfspr d a k) s d 0#64)) ∧
    (userWrites addr = false →
      (s.cfg.userSpr = .refuse → exec (.lMtspr a b k) s = .refused .userViolation) ∧
      (s.cfg.userSpr = .illegal → canEnter s .illegal →
        takesException (exec (.lMtspr a b k) s) s .illegal (some s.pc)) ∧
      (s.cfg.userSpr = .ignore → onlyMovesOn (.lMtspr a b k) s)) ∧
    (s.cfg.userSpr = .refuse → exec .lRfe s = .refused .userViolation) ∧
    (s.cfg.userSpr = .illegal → canEnter s .illegal → takesException (exec .lRfe s) s .illegal (some s.pc)) ∧
    (s.cfg.userSpr = .ignore → onlyMovesOn .lRfe s)

/-- Isolation: an instruction executed in user mode, the data MMU being reloaded by software, either leaves every
privileged register unchanged: of SR it changes the three flags, of the data MMU no more than the used marks of its
translate registers and LRU, of FPCSR the flags, neither rounding mode nor FPEE, of the general registers those of
the current set, and beside these only pc, the accumulator, memory with what caches may hold of it, and the
reservation; or it takes an exception, or DSR stops the processor at one, in a state that differs from the one before
in no more than that and, where the exception is the range exception, AESR (60 R770, R771). Rests on the choices of
logs 20, 21, 31 and 63. -/
def Obligations.UserModeKeepsPrivilegedState : Prop :=
  ∀ (s t : State) (i : Instr), (∀ g : MmuConfig, s.cfg.dmmu = some g → g.reload = false) → srBit s srSM = false →
    exec i s = .next t →
    (privilegedKept s t ∧ t.aesr = s.aesr) ∨
    ∃ (u : State) (e : Exc) (ea : Option Word), privilegedKept s u ∧ (e ≠ .range → u.aesr = s.aesr) ∧
      (takesException (.next t) u e ea ∨
        (debugTakes u e = true ∧
          t = { u with debugUnit := { u.debugUnit with drr := t.debugUnit.drr }, stopped := true, raised := some e }))

/-! ### Floating point -/

/-- The fourteen arithmetic and conversion instructions: result to rD, flags to FPCSR; where FPCSR[FPEE] is set and a
flag of the trap mask is raised, the exception is taken after both are written, as by an instruction that has
completed: PPC names it (45 R543, R546 to R561, 10_state R53). What the results are, the statements on exact values
and on special operands say. Rests on the choices of logs 42 and 43. -/
def Obligations.FloatingPointArithmetic : Prop :=
  ∀ (s : State) (d a b : Reg),
    let c := s.cfg
    let rm := roundingOf s.fpcsr
    let does (i : Instr) (r : FloatResult) : Prop :=
      (s.fpcsr.getLsbD 0 = false ∨ r.flags &&& c.trapMask = 0#9 → writesFloat i s d r) ∧
      (s.fpcsr.getLsbD 0 = true → r.flags &&& c.trapMask ≠ 0#9 → canEnter s .floatingPoint →
        ∃ u : State, takesException (exec i s) u .floatingPoint none ∧ registerIs s u d r.value ∧
          u.fpcsr = fpcsrAfter s r.flags ∧ u = { s with gprs := u.gprs, fpcsr := u.fpcsr, ppc := s.pc })
    (available s .single [d, a, b] →
      does (.lfAddS d a b) (floatAdd c singleFormat rm (gpr s a) (gpr s b)) ∧
      does (.lfSubS d a b) (floatSub c singleFormat rm (gpr s a) (gpr s b)) ∧
      does (.lfMulS d a b) (floatMul c singleFormat rm (gpr s a) (gpr s b)) ∧
      does (.lfDivS d a b) (floatDiv c singleFormat rm (gpr s a) (gpr s b)) ∧
      does (.lfRemS d a b) (floatRem c singleFormat (gpr s a) (gpr s b))) ∧
    (available s .double [d, a, b] →
      does (.lfAddD d a b) (floatAdd c doubleFormat rm (gpr s a) (gpr s b)) ∧
      does (.lfSubD d a b) (floatSub c doubleFormat rm (gpr s a) (gpr s b)) ∧
      does (.lfMulD d a b) (floatMul c doubleFormat rm (gpr s a) (gpr s b)) ∧
      does (.lfDivD d a b) (floatDiv c doubleFormat rm (gpr s a) (gpr s b)) ∧
      does (.lfRemD d a b) (floatRem c doubleFormat (gpr s a) (gpr s b))) ∧
    (available s .single [d, a] →
      does (.lfItofS d a) (floatOfInt c singleFormat rm ((gpr s a).setWidth 32).toInt) ∧
      does (.lfFtoiS d a) (floatToInt c singleFormat rm (gpr s a))) ∧
    (available s .double [d, a] →
      does (.lfItofD d a) (floatOfInt c doubleFormat rm (gpr s a).toInt) ∧
      does (.lfFtoiD d a) (floatToInt c doubleFormat rm (gpr s a)))

/-- The twelve comparisons: F by the relation of the two values, of which unordered satisfies "not equal" alone; the
ordering comparisons are invalid on any NaN, the others on a signalling one (45 R545 (d), R562 to R573). Of two
finite values the relation is that of the numbers they stand for; the infinities stand above and below every other
value and equal themselves. Rests on the choices of log 43. -/
def Obligations.FloatingPointComparison : Prop :=
  (∀ (n n' : Bool) (m m' : Nat) (e e' : Int),
    let x := FloatValue.finite n m e
    let y := FloatValue.finite n' m' e'
    (relOfValues x y = .less ↔ x.number < y.number) ∧ (relOfValues x y = .equal ↔ x.number = y.number) ∧
      (relOfValues x y = .greater ↔ y.number < x.number) ∧
      (∀ z ∈ [x, .infinity true], relOfValues z (.infinity false) = .less ∧ relOfValues (.infinity false) z = .greater) ∧
      (∀ z ∈ [x, .infinity false], relOfValues z (.infinity true) = .greater ∧
        relOfValues (.infinity true) z = .less) ∧
      (∀ b : Bool, relOfValues (.infinity b) (.infinity b) = .equal) ∧
      ∀ (b : Bool) (z : FloatValue), relOfValues (.nan b) z = .unordered ∧ relOfValues z (.nan b) = .unordered) ∧
  ∀ (s : State) (a b : Reg),
    let cmp (f : FloatFormat) (i : Instr) (ordering : Bool) (holds : FloatRel → Prop) : Prop :=
      let x := floatValue s.cfg f (gpr s a)
      let y := floatValue s.cfg f (gpr s b)
      ∃ v : Bool, (v = true ↔ holds (relOfValues x y)) ∧
        writesFloatFlag i s v (decide (x = .nan true ∨ y = .nan true ∨
          (ordering = true ∧ (x = .nan false ∨ y = .nan false))))
    (available s .single [a, b] →
      cmp singleFormat (.lfSfeqS a b) false (fun r => r = .equal) ∧
      cmp singleFormat (.lfSfneS a b) false (fun r => r ≠ .equal) ∧
      cmp singleFormat (.lfSfgtS a b) true (fun r => r = .greater) ∧
      cmp singleFormat (.lfSfgeS a b) true (fun r => r = .greater ∨ r = .equal) ∧
      cmp singleFormat (.lfSfltS a b) true (fun r => r = .less) ∧
      cmp singleFormat (.lfSfleS a b) true (fun r => r = .less ∨ r = .equal)) ∧
    (available s .double [a, b] →
      cmp doubleFormat (.lfSfeqD a b) false (fun r => r = .equal) ∧
      cmp doubleFormat (.lfSfneD a b) false (fun r => r ≠ .equal) ∧
      cmp doubleFormat (.lfSfgtD a b) true (fun r => r = .greater) ∧
      cmp doubleFormat (.lfSfgeD a b) true (fun r => r = .greater ∨ r = .equal) ∧
      cmp doubleFormat (.lfSfltD a b) true (fun r => r = .less) ∧
      cmp doubleFormat (.lfSfleD a b) true (fun r => r = .less ∨ r = .equal))

/-- Rounding to a multiple of a unit is what 45 R542 says of each mode: the nearest multiple, an even one on a tie;
or the next toward zero, up or down. That ties go to the even multiple the manual does not say: it is the spec's
decision D17 and a choice of the model (log 42). Rests on the choices of log 42. -/
def Obligations.RoundingIsCorrect : Prop :=
  ∀ (r : Rounding) (neg : Bool) (m : Nat) (e q : Int),
    (q ≤ e → roundTo r neg m e q = { sig := m * 2 ^ (e - q).toNat, inexact := false }) ∧
    (e < q →
      let unit := 2 ^ (q - e).toNat
      let x := roundTo r neg m e q
      (x.inexact = false ↔ x.sig * unit = m) ∧
      (r = .nearest → 2 * m ≤ 2 * (x.sig * unit) + unit ∧ 2 * (x.sig * unit) ≤ 2 * m + unit ∧
        (2 * m = 2 * (x.sig * unit) + unit ∨ 2 * (x.sig * unit) = 2 * m + unit → x.sig % 2 = 0)) ∧
      (r = .zero ∨ (r = .up ∧ neg = true) ∨ (r = .down ∧ neg = false) →
        x.sig * unit ≤ m ∧ m < x.sig * unit + unit) ∧
      ((r = .up ∧ neg = false) ∨ (r = .down ∧ neg = true) →
        m ≤ x.sig * unit ∧ x.sig * unit < m + unit))

/-- A number that the format holds is delivered exactly, in every rounding mode and with no flag; and the sum,
difference, product, quotient and remainder of finite operands, and an integer converted, is the exact value rounded
once, with the overflow, underflow, inexact, infinite and zero flags of that rounding and no other; a finite value
converted to an integer is rounded once, or invalid where the integer does not fit (45 R542, R544, R546 to R561; that
the operations are those of IEEE 754 is the spec's decision D17). Rests on the choices of logs 13 and 42. -/
def Obligations.ExactResultsAreRoundedOnce : Prop :=
  ∀ (c : Config) (f : FloatFormat) (r : Rounding), f = singleFormat ∨ f = doubleFormat →
    (∀ (neg : Bool) (m : Nat) (e : Int), c.denormals = .ieee → m ≠ 0 → m < 2 ^ (f.fracBits + 1) →
      f.emin - f.fracBits ≤ e → e + Nat.log2 m ≤ f.bias →
      (roundResult c f r neg m e).flags = 0#9 ∧
      ∃ (m' : Nat) (e' : Int), floatValue c f (roundResult c f r neg m e).value = .finite neg m' e' ∧
        m' * 2 ^ (e' - min e e').toNat = m * 2 ^ (e - min e e').toNat) ∧
    (∀ (a b : Word) (n n' : Bool) (m m' : Nat) (e e' : Int), floatValue c f a = .finite n m e →
      floatValue c f b = .finite n' m' e' →
      let x := (floatValue c f a).number
      let y := (floatValue c f b).number
      let zeroSign (p q : Bool) : Bool := if p = q then p else decide (r = .down)
      delivers c f r (zeroSign n n') (x + y) (floatAdd c f r a b) ∧
      delivers c f r (zeroSign n !n') (x - y) (floatSub c f r a b) ∧
      delivers c f r (n != n') (x * y) (floatMul c f r a b) ∧
      (m' ≠ 0 → delivers c f r (n != n') (x / y) (floatDiv c f r a b) ∧
        ∃ k : Nat, roundsTo (match c.remKind with
            | .ieeeRemainder => .nearest
            | .fmod => .zero) false (|x| / |y|) k ∧
          delivers c f .nearest n ((if n then -1 else 1) * (|x| - |y| * k)) (floatRem c f a b))) ∧
    (∀ i : Int, delivers c f r false i (floatOfInt c f r i)) ∧
    (∀ (a : Word) (n : Bool) (m : Nat) (e : Int), floatValue c f a = .finite n m e →
      let x := |(floatValue c f a).number|
      let w := 1 + f.expBits + f.fracBits
      let res := floatToInt c f r a
      ∃ k : Nat, roundsTo (match c.ftoiRound with
          | .rm => r
          | .towardZero => .zero) n x k ∧
        let z : Int := if n then -k else k
        if -2 ^ (w - 1) ≤ z ∧ z < 2 ^ (w - 1) then
          res.value.toNat = (z % 2 ^ w).toNat ∧ (res.flags.getLsbD 5 = true ↔ (k : ℚ) ≠ x) ∧
            (res.flags.getLsbD 4 = true ↔ k = 0) ∧ res.flags &&& 0x1CF#9 = 0#9
        else res.flags = 0x040#9)

/-- Operands that are no ordinary numbers (45 R541, R544, R546 to R561): a NaN operand of any of the five operations
gives a quiet NaN, whatever value the free pattern takes, with QNF and, of a signalling operand, IVF; infinities and
a zero divisor give infinity (INF, and DZF where a finite number other than zero is divided by zero), zero, or an
invalid operation: a quiet NaN with IVF and QNF. A NaN or an infinity converted to an integer is invalid. Rests on
the choices of logs 11 and 12. -/
def Obligations.SpecialOperands : Prop :=
  ∀ (c : Config) (f : FloatFormat) (r : Rounding) (a b : Word), f = singleFormat ∨ f = doubleFormat →
    let x := floatValue c f a
    let y := floatValue c f b
    let add := floatAdd c f r a b
    let sub := floatSub c f r a b
    let mul := floatMul c f r a b
    let div := floatDiv c f r a b
    let rem := floatRem c f a b
    let gives (z : FloatResult) (v : FloatValue) (flags : BitVec 9) : Prop :=
      floatValue c f z.value = v ∧ z.flags = flags
    let invalid (z : FloatResult) : Prop := gives z (.nan false) 0x048#9
    let inf (z : FloatResult) (n : Bool) : Prop := gives z (.infinity n) 0x080#9
    (x.isNan = true ∨ y.isNan = true → ∀ z ∈ [add, sub, mul, div, rem], gives z (.nan false) (0x008#9 |||
      (if x.isSignaling = true ∨ y.isSignaling = true then 0x040#9 else 0#9))) ∧
    (∀ n n' : Bool, x = .infinity n → y = .infinity n' →
      (if n = n' then inf add n ∧ invalid sub else invalid add ∧ inf sub n) ∧ inf mul (n != n') ∧ invalid div ∧
        invalid rem) ∧
    (∀ (n n' : Bool) (m : Nat) (e : Int), x = .infinity n → y = .finite n' m e →
      inf add n ∧ inf sub n ∧ (if m = 0 then invalid mul else inf mul (n != n')) ∧ inf div (n != n') ∧ invalid rem) ∧
    (∀ (n n' : Bool) (m : Nat) (e : Int), x = .finite n m e → y = .infinity n' →
      inf add n' ∧ inf sub (!n') ∧ (if m = 0 then invalid mul else inf mul (n != n')) ∧
        (∃ e' : Int, gives div (.finite (n != n') 0 e') 0x010#9) ∧ delivers c f .nearest n x.number rem) ∧
    (∀ (n n' : Bool) (m : Nat) (e e' : Int), x = .finite n m e → y = .finite n' 0 e' →
      (if m = 0 then invalid div else gives div (.infinity (n != n')) 0x180#9) ∧ invalid rem) ∧
    (x.isNan = true ∨ (∃ n : Bool, x = .infinity n) → (floatToInt c f r a).flags = 0x040#9)

/-! ### Vectors -/

/-- Sums, differences and products of elements, modulo or saturated (46 R594 to R601, 47 R669, R700 to R707). Rests
on the choices of log 45. -/
def Obligations.VectorSums : Prop :=
  ∀ (s : State) (d a b : Reg),
    let x := gpr s a
    let y := gpr s b
    let signed (w : Nat) (z : Int) : Int := max (-(2 ^ (w - 1))) (min (2 ^ (w - 1) - 1) z)
    let unsigned (w : Nat) (z : Int) : Int := max 0 (min (2 ^ w - 1) z)
    let saturates (i : Instr) (w n : Nat) (g : Nat → Int) : Prop :=
      ∃ v : Word, writesRegister i s d v ∧ ∀ k : Nat, k < n → (elem w v k).toInt = g k
    let saturatesU (i : Instr) (w n : Nat) (g : Nat → Int) : Prop :=
      ∃ v : Word, writesRegister i s d v ∧ ∀ k : Nat, k < n → ((elem w v k).toNat : Int) = g k
    let zs (w k : Nat) (op : Int → Int → Int) : Int := signed w (op (elem w x k).toInt (elem w y k).toInt)
    let zu (w k : Nat) (op : Int → Int → Int) : Int := unsigned w (op (elem w x k).toNat (elem w y k).toNat)
    (available s .vector [d, a, b] →
      writesElements (.lvAddB d a b) s d 8 8 (fun k => elem 8 x k + elem 8 y k) ∧
      writesElements (.lvAddH d a b) s d 16 4 (fun k => elem 16 x k + elem 16 y k) ∧
      writesElements (.lvAdduB d a b) s d 8 8 (fun k => elem 8 x k + elem 8 y k) ∧
      writesElements (.lvAdduH d a b) s d 16 4 (fun k => elem 16 x k + elem 16 y k) ∧
      writesElements (.lvSubB d a b) s d 8 8 (fun k => elem 8 x k - elem 8 y k) ∧
      writesElements (.lvSubH d a b) s d 16 4 (fun k => elem 16 x k - elem 16 y k) ∧
      writesElements (.lvSubuB d a b) s d 8 8 (fun k => elem 8 x k - elem 8 y k) ∧
      writesElements (.lvSubuH d a b) s d 16 4 (fun k => elem 16 x k - elem 16 y k) ∧
      saturates (.lvAddsB d a b) 8 8 (fun k => zs 8 k (· + ·)) ∧
      saturates (.lvAddsH d a b) 16 4 (fun k => zs 16 k (· + ·)) ∧
      saturates (.lvSubsB d a b) 8 8 (fun k => zs 8 k (· - ·)) ∧
      saturates (.lvSubsH d a b) 16 4 (fun k => zs 16 k (· - ·)) ∧
      saturatesU (.lvAddusB d a b) 8 8 (fun k => zu 8 k (· + ·)) ∧
      saturatesU (.lvAddusH d a b) 16 4 (fun k => zu 16 k (· + ·)) ∧
      saturatesU (.lvSubusB d a b) 8 8 (fun k => zu 8 k (· - ·)) ∧
      saturatesU (.lvSubusH d a b) 16 4 (fun k => zu 16 k (· - ·))) ∧
    (available s (.vectorII .lvMulsH) [d, a, b] → saturates (.lvMulsH d a b) 16 4 (fun k => zs 16 k (· * ·)))

/-- Average, maximum and minimum of elements, as signed numbers or (LV_CMP_SIGNED = false) unsigned ones, and the
five whole-register operations (46 R627 to R629, 47 R662, R663, R666, R667, R670 to R672, R710). Rests on the choices
of log 45. -/
def Obligations.VectorSelectionsAndLogic : Prop :=
  ∀ (s : State) (d a b : Reg), available s .vector [d, a, b] →
    let x := gpr s a
    let y := gpr s b
    let num (w k : Nat) (v : Word) : Int :=
      if s.cfg.lvCmpSigned then (elem w v k).toInt else ((elem w v k).toNat : Int)
    let yields (i : Instr) (w n : Nat) (g : Nat → Int) : Prop :=
      ∃ v : Word, writesRegister i s d v ∧ ∀ k : Nat, k < n → num w k v = g k
    yields (.lvAvgB d a b) 8 8 (fun k => (num 8 k x + num 8 k y) / 2) ∧
    yields (.lvAvgH d a b) 16 4 (fun k => (num 16 k x + num 16 k y) / 2) ∧
    yields (.lvMaxB d a b) 8 8 (fun k => max (num 8 k x) (num 8 k y)) ∧
    yields (.lvMaxH d a b) 16 4 (fun k => max (num 16 k x) (num 16 k y)) ∧
    yields (.lvMinB d a b) 8 8 (fun k => min (num 8 k x) (num 8 k y)) ∧
    yields (.lvMinH d a b) 16 4 (fun k => min (num 16 k x) (num 16 k y)) ∧
    writesRegister (.lvAnd d a b) s d (x &&& y) ∧ writesRegister (.lvOr d a b) s d (x ||| y) ∧
    writesRegister (.lvXor d a b) s d (x ^^^ y) ∧ writesRegister (.lvNand d a b) s d (~~~(x &&& y)) ∧
    writesRegister (.lvNor d a b) s d (~~~(x ||| y))

/-- The twelve comparisons of elements: a mask of all ones where the relation holds, else zero (46 R630 to R641).
Rests on the choices of log 45. -/
def Obligations.VectorCompareMasks : Prop :=
  ∀ (s : State) (d a b : Reg), available s .vector [d, a, b] →
    let num (w k : Nat) (v : Word) : Int :=
      if s.cfg.lvCmpSigned then (elem w v k).toInt else ((elem w v k).toNat : Int)
    let x (w k : Nat) : Int := num w k (gpr s a)
    let y (w k : Nat) : Int := num w k (gpr s b)
    let masks (i : Instr) (w n : Nat) (rel : Int → Int → Bool) : Prop :=
      writesElements i s d w n (fun k => if rel (x w k) (y w k) then BitVec.allOnes w else 0#w)
    masks (.lvCmpEqB d a b) 8 8 (fun p q => decide (p = q)) ∧ masks (.lvCmpEqH d a b) 16 4 (fun p q => decide (p = q)) ∧
    masks (.lvCmpNeB d a b) 8 8 (fun p q => decide (p ≠ q)) ∧ masks (.lvCmpNeH d a b) 16 4 (fun p q => decide (p ≠ q)) ∧
    masks (.lvCmpGeB d a b) 8 8 (fun p q => decide (p ≥ q)) ∧ masks (.lvCmpGeH d a b) 16 4 (fun p q => decide (p ≥ q)) ∧
    masks (.lvCmpGtB d a b) 8 8 (fun p q => decide (p > q)) ∧ masks (.lvCmpGtH d a b) 16 4 (fun p q => decide (p > q)) ∧
    masks (.lvCmpLeB d a b) 8 8 (fun p q => decide (p ≤ q)) ∧ masks (.lvCmpLeH d a b) 16 4 (fun p q => decide (p ≤ q)) ∧
    masks (.lvCmpLtB d a b) 8 8 (fun p q => decide (p < q)) ∧ masks (.lvCmpLtH d a b) 16 4 (fun p q => decide (p < q))

/-- The twenty-four reductions: all ones where every (some) pair of elements satisfies the relation, else zero; F
follows where the implementation writes it (46 R592 (b), R603 to R626). Rests on the choices of log 45. -/
def Obligations.VectorAllAndAny : Prop :=
  ∀ (s : State) (d a b : Reg), available s .vector [d, a, b] →
    let num (w k : Nat) (v : Word) : Int :=
      if s.cfg.lvCmpSigned then (elem w v k).toInt else ((elem w v k).toNat : Int)
    let x (w k : Nat) : Int := num w k (gpr s a)
    let y (w k : Nat) : Int := num w k (gpr s b)
    let reduces (i : Instr) (holds : Prop) : Prop :=
      ∃ (t : State) (v : Bool), (v = true ↔ holds) ∧ exec i s = .next t ∧
        registerIs s t d (if v then BitVec.allOnes 64 else 0#64) ∧
        flagsAre s t (if s.cfg.lvWritesF then some v else none) none none ∧ memoryKept s t ∧
        t = { movedOn s with gprs := t.gprs, sr := t.sr }
    let all (i : Instr) (w n : Nat) (rel : Int → Int → Prop) : Prop :=
      reduces i (∀ k : Nat, k < n → rel (x w k) (y w k))
    let any (i : Instr) (w n : Nat) (rel : Int → Int → Prop) : Prop :=
      reduces i (∃ k : Nat, k < n ∧ rel (x w k) (y w k))
    all (.lvAllEqB d a b) 8 8 (· = ·) ∧ all (.lvAllEqH d a b) 16 4 (· = ·) ∧
    all (.lvAllNeB d a b) 8 8 (· ≠ ·) ∧ all (.lvAllNeH d a b) 16 4 (· ≠ ·) ∧
    all (.lvAllGeB d a b) 8 8 (· ≥ ·) ∧ all (.lvAllGeH d a b) 16 4 (· ≥ ·) ∧
    all (.lvAllGtB d a b) 8 8 (· > ·) ∧ all (.lvAllGtH d a b) 16 4 (· > ·) ∧
    all (.lvAllLeB d a b) 8 8 (· ≤ ·) ∧ all (.lvAllLeH d a b) 16 4 (· ≤ ·) ∧
    all (.lvAllLtB d a b) 8 8 (· < ·) ∧ all (.lvAllLtH d a b) 16 4 (· < ·) ∧
    any (.lvAnyEqB d a b) 8 8 (· = ·) ∧ any (.lvAnyEqH d a b) 16 4 (· = ·) ∧
    any (.lvAnyNeB d a b) 8 8 (· ≠ ·) ∧ any (.lvAnyNeH d a b) 16 4 (· ≠ ·) ∧
    any (.lvAnyGeB d a b) 8 8 (· ≥ ·) ∧ any (.lvAnyGeH d a b) 16 4 (· ≥ ·) ∧
    any (.lvAnyGtB d a b) 8 8 (· > ·) ∧ any (.lvAnyGtH d a b) 16 4 (· > ·) ∧
    any (.lvAnyLeB d a b) 8 8 (· ≤ ·) ∧ any (.lvAnyLeH d a b) 16 4 (· ≤ ·) ∧
    any (.lvAnyLtB d a b) 8 8 (· < ·) ∧ any (.lvAnyLtH d a b) 16 4 (· < ·)

/-- Shifts and rotates of elements by the low bits of the other element; the two whole-register shifts by rB[2:0] as
the spec prints them where LV_FLAGGED has it so, else refused (47 R680, R681, R690 to R694, R697 to R699; log 46).
Rests on the choices of logs 45 and 46. -/
def Obligations.VectorShifts : Prop :=
  ∀ (s : State) (d a b : Reg), available s .vector [d, a, b] →
    let u (w k : Nat) : Nat := (elem w (gpr s a) k).toNat
    let z (w k : Nat) : Int := (elem w (gpr s a) k).toInt
    let n (w k : Nat) : Nat := (elem w (gpr s b) k).toNat % w
    let left (w k : Nat) : BitVec w := BitVec.ofNat w (u w k * 2 ^ n w k)
    let right (w k : Nat) : BitVec w := BitVec.ofNat w (u w k / 2 ^ n w k)
    let arith (w k : Nat) : BitVec w := BitVec.ofInt w (z w k / 2 ^ n w k)
    let rotate (w k : Nat) : BitVec w := BitVec.ofNat w (u w k * 2 ^ n w k + u w k / 2 ^ (w - n w k))
    writesElements (.lvSllB d a b) s d 8 8 (left 8) ∧ writesElements (.lvSllH d a b) s d 16 4 (left 16) ∧
    writesElements (.lvSrlB d a b) s d 8 8 (right 8) ∧ writesElements (.lvSrlH d a b) s d 16 4 (right 16) ∧
    writesElements (.lvSraB d a b) s d 8 8 (arith 8) ∧ writesElements (.lvSraH d a b) s d 16 4 (arith 16) ∧
    writesElements (.lvRlB d a b) s d 8 8 (rotate 8) ∧ writesElements (.lvRlH d a b) s d 16 4 (rotate 16) ∧
    (s.cfg.lvFlagged = .asWritten →
      writesRegister (.lvSll d a b) s d (BitVec.ofNat 64 ((gpr s a).toNat * 2 ^ ((gpr s b).toNat % 8))) ∧
      writesRegister (.lvSrl d a b) s d (BitVec.ofNat 64 ((gpr s a).toNat / 2 ^ ((gpr s b).toNat % 8)))) ∧
    (s.cfg.lvFlagged = .refuse →
      exec (.lvSll d a b) s = .refused .vectorFlagged ∧ exec (.lvSrl d a b) s = .refused .vectorFlagged)

/-- Merging, packing, unpacking and permuting elements (47 R664, R665, R673 to R679, R708, R709). Rests on the
choices of log 45. -/
def Obligations.VectorRearrangements : Prop :=
  ∀ (s : State) (d a b : Reg),
    let x := gpr s a
    let y := gpr s b
    let place (k : Nat) : Nat := if s.cfg.lvMergeInterleave then k / 2 else k
    let packs (i : Instr) (w h n : Nat) (g : BitVec w → Int) : Prop :=
      ∃ v : Word, writesRegister i s d v ∧ ∀ k : Nat, k < n →
        elem h v k = BitVec.ofInt h (g (elem w y k)) ∧ elem h v (n + k) = BitVec.ofInt h (g (elem w x k))
    (available s .vector [d, a, b] →
      writesElements (.lvMergeB d a b) s d 8 8 (fun k => elem 8 (if k % 2 = 0 then y else x) (place k)) ∧
      writesElements (.lvMergeH d a b) s d 16 4 (fun k => elem 16 (if k % 2 = 0 then y else x) (place k)) ∧
      packs (.lvPackB d a b) 8 4 8 (fun e => e.toNat) ∧ packs (.lvPackH d a b) 16 8 4 (fun e => e.toNat) ∧
      packs (.lvPacksB d a b) 8 4 8 (fun e => max (-8) (min 7 e.toInt)) ∧
      packs (.lvPacksH d a b) 16 8 4 (fun e => max (-128) (min 127 e.toInt)) ∧
      packs (.lvPackusB d a b) 8 4 8 (fun e => min 15 e.toNat) ∧
      packs (.lvPackusH d a b) 16 8 4 (fun e => min 255 e.toNat) ∧
      writesElements (.lvPermN d a b) s d 4 16 (fun k => elem 4 x (elem 4 y k).toNat)) ∧
    (available s .vector [d, a] →
      writesElements (.lvUnpackB d a b) s d 8 8 (fun k => BitVec.ofInt 8 (elem 4 x k).toInt) ∧
      writesElements (.lvUnpackH d a b) s d 16 4 (fun k => BitVec.ofInt 16 (elem 8 x k).toInt))

/-! ### Units that act between instructions -/

/-- One edge of the tick timer's clock (60 R792): the match, the pending bit, and the counter in each of the four
modes; neither changes in sleep and suspend mode, and nothing else but what ends a power mode does (60 R803). Rests
on the choices of log 37. -/
def Obligations.TickTimer : Prop :=
  ∀ (s : State) (rest : List Input), s.inputs = .tick :: rest → s.cfg.tickTimer = true →
    let hit := decide (s.ttcr.toNat % 2 ^ 28 = s.ttmr.toNat % 2 ^ 28)
    ∃ t : State, step s = .next t ∧ t = { s with inputs := rest, ttmr := t.ttmr, ttcr := t.ttcr, pmr := t.pmr } ∧
      (s.cfg.power = true ∧ (s.pmr.getLsbD 7 = true ∨ s.pmr.getLsbD 5 = true) → t.ttmr = s.ttmr ∧ t.ttcr = s.ttcr) ∧
      (s.cfg.power = false ∨ (s.pmr.getLsbD 7 = false ∧ s.pmr.getLsbD 5 = false) →
        (∀ n : Nat, n < 32 → t.ttmr.getLsbD n =
          (s.ttmr.getLsbD n || (decide (n = 28) && hit && s.ttmr.getLsbD 29))) ∧
        t.ttcr.toNat = match s.ttmr.toNat / 2 ^ 30 with
          | 0 => s.ttcr.toNat
          | 1 => if hit then 0 else (s.ttcr.toNat + 1) % 2 ^ 32
          | 2 => if hit then s.ttcr.toNat else (s.ttcr.toNat + 1) % 2 ^ 32
          | _ => (s.ttcr.toNat + 1) % 2 ^ 32)

/-- The power modes (60 R803): no instruction executes; suspend lasts; sleep ends on an interrupt request, doze also
on a pending tick interrupt, at the first instant at which that holds, be it brought about by an event of the
environment; DME and SME are then cleared. Rests on the choices of log 39. -/
def Obligations.PowerModes : Prop :=
  (∀ s : State, s.inputs = [] → s.stopped = false → s.cfg.power = true →
    (s.pmr.getLsbD 7 = true → step s = .next s) ∧
    (s.pmr.getLsbD 7 = false → (s.pmr.getLsbD 5 = true ∨ s.pmr.getLsbD 4 = true) →
      (intRequest s = false → (s.pmr.getLsbD 5 = true ∨ tickPending s = false) → step s = .next s) ∧
      (intRequest s = true ∨ (s.pmr.getLsbD 5 = false ∧ tickPending s = true) →
        ∃ t : State, step s = .next t ∧ t = { s with pmr := t.pmr } ∧
          ∀ n : Nat, n < 32 → t.pmr.getLsbD n = (s.pmr.getLsbD n && decide (n ≠ 4) && decide (n ≠ 5))))) ∧
  ∀ (s : State) (e : Input) (rest : List Input), s.inputs = e :: rest → e ≠ .cpu → e ≠ .reset →
    ∃ t : State, step s = .next t ∧
      let ends := s.cfg.power = true ∧ s.pmr.getLsbD 7 = false ∧ (s.pmr.getLsbD 5 = true ∨ s.pmr.getLsbD 4 = true) ∧
        (intRequest t = true ∨ (s.pmr.getLsbD 5 = false ∧ tickPending t = true))
      (ends → ∀ n : Nat, n < 32 → t.pmr.getLsbD n = (s.pmr.getLsbD n && decide (n ≠ 4) && decide (n ≠ 5))) ∧
      (¬ends → t.pmr = s.pmr)

/-- The debug unit (60 R805 to R811). A match compares the quantity DCR selects of an instruction that completed. The
watchpoints chain the matches, and 8 and 9 the matches of the watchpoint counters. After the instruction the counters
count the watchpoints that fired and WBS notes those that cause a breakpoint; a breakpoint, single-step trace, and
branch trace after a jump or branch raise the trap exception, which saves pc as any exception does: the address of
the next instruction, or the jump's where the next one is a delay slot (R731). That branch trace also traps after an
untaken branch is the model's choice, R808 leaves it open (log 40). A floating-point instruction that raises its
exception has completed, and where the debug unit traps too, the trap alone is taken (log 65). An exception that DSR
selects is not taken: DRR notes it and the processor stops. Rests on the choices of logs 40 and 65. -/
def Obligations.DebugUnit : Prop :=
  (∀ (s t : State) (i : Instr) (g : DebugConfig), t.cfg.debugUnit = some g → t.raised = none →
    let d := t.debugUnit
    let x := accessMade i s t
    let w := firedWatchpoints i s t
    let loaded (f : DataAccess → Word) : Option (BitVec 32) :=
      (x.filter fun y => !y.store).map fun y => (f y).setWidth 32
    let stored (f : DataAccess → Word) : Option (BitVec 32) := (x.filter (·.store)).map fun y => (f y).setWidth 32
    let quantity (ct : Nat) : Option (BitVec 32) := match ct with
      | 1 => some (s.pc.setWidth 32)
      | 2 => loaded (·.ea)
      | 3 => stored (·.ea)
      | 4 => loaded (accessDatum s)
      | 5 => stored (·.datum)
      | 6 => x.map fun y => y.ea.setWidth 32
      | 7 => x.map fun y => (if y.store then y.datum else accessDatum s y).setWidth 32
      | _ => none
    let relation (cc : Nat) (p q : Int) : Prop := match cc with
      | 1 => p = q
      | 2 => p < q
      | 3 => p ≤ q
      | 4 => q < p
      | 5 => q ≤ p
      | 6 => p ≠ q
      | _ => False
    let chained (n : Nat) (own before : Bool) : Bool := match d.dmr1.toNat / 4 ^ n % 4 with
      | 0 => own
      | 1 => own && before
      | 2 => if s.cfg.cw10Or then own || before else own && before
      | _ => false
    let traps : Prop := (∃ n : Nat, n < 10 ∧ w.getLsbD n = true ∧ d.dmr2.getLsbD (12 + n) = true) ∨
      d.dmr1.getLsbD 22 = true ∨ (d.dmr1.getLsbD 23 = true ∧
        ∃ (n : Imm26) (b : Reg), i ∈ [Instr.lJ n, .lJal n, .lBf n, .lBnf n, .lJr b, .lJalr b])
    let counted (c : BitVec 32) (k : Nat) : Nat := c.toNat / 2 ^ 16 * 2 ^ 16 + (c.toNat % 2 ^ 16 +
      if g.counters = true ∧ d.dmr2.getLsbD k = true then
        ((List.range 10).filter fun n => w.getLsbD n && (d.dmr2.getLsbD (2 + n) == decide (k = 1))).length
      else 0) % 2 ^ 16
    let after (u : State) : Prop :=
      (∀ n : Nat, n < 32 → u.debugUnit.dmr2.getLsbD n =
        (d.dmr2.getLsbD n || (decide (22 ≤ n) && w.getLsbD (n - 22) && d.dmr2.getLsbD (n - 10)))) ∧
      u.debugUnit.dwcr0.toNat = counted d.dwcr0 0 ∧ u.debugUnit.dwcr1.toNat = counted d.dwcr1 1 ∧
      u.debugUnit = { d with dmr2 := u.debugUnit.dmr2, dwcr0 := u.debugUnit.dwcr0, dwcr1 := u.debugUnit.dwcr1 } ∧
      u = { t with debugUnit := u.debugUnit, pccr := u.pccr, draws := u.draws }
    s.cfg = t.cfg →
    (∀ n : Nat, matchHolds d s x n = true ↔
      let c := Table.read d.dcr n
      let num (v : BitVec 32) : Int := if c.getLsbD 4 then v.toInt else v.toNat
      ∃ q : BitVec 32, quantity (c.toNat / 32 % 8) = some q ∧
        relation (c.toNat / 2 % 8) (num q) (num (Table.read d.dvr n))) ∧
    (∀ n : Nat, n < 8 → w.getLsbD n = chained n (decide (n < g.pairs) && matchHolds d s x n)
      (if n % 4 = 0 then d.extWatch else w.getLsbD (n - 1))) ∧
    w.getLsbD 8 = chained 8 (g.counters && decide (d.dwcr0.toNat % 2 ^ 16 = d.dwcr0.toNat / 2 ^ 16)) (w.getLsbD 3) ∧
    w.getLsbD 9 = chained 9 (g.counters && decide (d.dwcr1.toNat % 2 ^ 16 = d.dwcr1.toNat / 2 ^ 16)) (w.getLsbD 7) ∧
    (traps → canEnter t .trap → ∃ u : State, takesException (observe i s (.next t)) u .trap none ∧ after u) ∧
    (¬traps → ∃ u : State, observe i s (.next t) = .next u ∧ after u)) ∧
  (∀ (s t : State) (i : Instr), t.raised = some .floatingPoint → s.cfg.debugUnit.isSome = true →
    s.debugUnit.dmr1.getLsbD 22 = true → canEnter s .trap →
    ∃ u : State, takesException (observe i s (.next t)) u .trap none ∧ u.pc = seqPc s ∧ u.ppc = s.pc ∧ u.ds = none ∧
      u.gprs = t.gprs ∧ u.fpcsr = t.fpcsr ∧ u.sr = s.sr ∧ memoryKept s u) ∧
  (∀ (s : State) (e : Exc) (ea : Option Word), s.cfg.debugUnit.isSome = true →
    let n : Nat := match e with
      | .busError => 1
      | .dataPageFault => 2
      | .insnPageFault => 3
      | .tick => 4
      | .alignment => 5
      | .illegal => 6
      | .external => 7
      | .dtlbMiss => 8
      | .itlbMiss => 9
      | .range => 10
      | .systemCall => 11
      | .floatingPoint => 12
      | .trap => 13
    s.debugUnit.dsr.getLsbD n = true →
    ∃ t : State, enter e ea s = .next t ∧ (∀ k : Nat, k < 32 → t.debugUnit.drr.getLsbD k =
        (s.debugUnit.drr.getLsbD k || decide (k = n))) ∧
      t = { s with debugUnit := { s.debugUnit with drr := t.debugUnit.drr }, stopped := true, raised := some e }) ∧
  ∀ s : State, s.inputs = [] → s.stopped = true → step s = .fault .debugStopped

/-- The performance counters (60 R800 to R802), with no debug unit: after an instruction, counter k counts in the
mode its PCMR enables the fetch, the load or store made and the TLB misses its PCMR selects, each miss once whether
or not it raised; a fetch that raises counts itself and its misses, and a step that takes an interrupt nothing; of a
PCMR that selects an event of the caches or the pipeline nothing is said. Nothing else changes. Rests on the choices
of log 41. -/
def Obligations.PerformanceCounters : Prop :=
  ∀ (s t : State) (i : Instr) (n : Nat), t.cfg.debugUnit = none → t.cfg.counters = some n → s.cfg = t.cfg →
    let adds (r : Result) (sum : BitVec 32 → Nat) : Prop :=
      ∃ u : State, r = .next u ∧ u = { t with pccr := u.pccr, draws := u.draws } ∧
        ∀ k : Nat, k < n → Table.read t.pcmr k &&& 0x4F80#32 = 0#32 → Table.read u.pccr k = Table.read t.pccr k +
          BitVec.ofNat 32
            (if (Table.read t.pcmr k).getLsbD (if srBit s srSM then 2 else 3) then sum (Table.read t.pcmr k) else 0)
    let one (m : BitVec 32) (bit : Nat) (happened : Bool) : Nat := (m.getLsbD bit && happened).toNat
    let misses (m : BitVec 32) (bit count : Nat) : Nat := if m.getLsbD bit then count else 0
    adds (observe i s (.next t)) (fun m => one m 6 true + one m 4 ((accessMade i s t).any fun x => !x.store) +
      one m 5 ((accessMade i s t).any (·.store)) + misses m 12 t.dtlbMisses + misses m 13 t.itlbMisses) ∧
    adds (observeFetch s (.next t)) (fun m => one m 6 true + misses m 13 t.itlbMisses) ∧
    adds (observeEntry s (.next t)) (fun _ => 0)
end

