-- ==== Sys2Proof/Laws/State.lean ====
section
/-!
SUPPORT. Laws/State.lean: for each update of State that the meanings share, one lemma per field it leaves alone, so that
no later proof unfolds a record update.
-/

namespace Sys2Proof.Machine

/-! ### A bit of SR -/

@[simp] theorem State.setSrBit_cfg (s : State) (i : Nat) (b : Bool) : (s.setSrBit i b).cfg = s.cfg := rfl
@[simp] theorem State.setSrBit_gprs (s : State) (i : Nat) (b : Bool) : (s.setSrBit i b).gprs = s.gprs := rfl
@[simp] theorem State.setSrBit_pc (s : State) (i : Nat) (b : Bool) : (s.setSrBit i b).pc = s.pc := rfl
@[simp] theorem State.setSrBit_ppc (s : State) (i : Nat) (b : Bool) : (s.setSrBit i b).ppc = s.ppc := rfl
@[simp] theorem State.setSrBit_ds (s : State) (i : Nat) (b : Bool) : (s.setSrBit i b).ds = s.ds := rfl
@[simp] theorem State.setSrBit_epcr (s : State) (i : Nat) (b : Bool) : (s.setSrBit i b).epcr = s.epcr := rfl
@[simp] theorem State.setSrBit_eear (s : State) (i : Nat) (b : Bool) : (s.setSrBit i b).eear = s.eear := rfl
@[simp] theorem State.setSrBit_esr (s : State) (i : Nat) (b : Bool) : (s.setSrBit i b).esr = s.esr := rfl
@[simp] theorem State.setSrBit_fpcsr (s : State) (i : Nat) (b : Bool) : (s.setSrBit i b).fpcsr = s.fpcsr := rfl
@[simp] theorem State.setSrBit_machi (s : State) (i : Nat) (b : Bool) : (s.setSrBit i b).machi = s.machi := rfl
@[simp] theorem State.setSrBit_maclo (s : State) (i : Nat) (b : Bool) : (s.setSrBit i b).maclo = s.maclo := rfl
@[simp] theorem State.setSrBit_evbar (s : State) (i : Nat) (b : Bool) : (s.setSrBit i b).evbar = s.evbar := rfl
@[simp] theorem State.setSrBit_aecr (s : State) (i : Nat) (b : Bool) : (s.setSrBit i b).aecr = s.aecr := rfl
@[simp] theorem State.setSrBit_aesr (s : State) (i : Nat) (b : Bool) : (s.setSrBit i b).aesr = s.aesr := rfl
@[simp] theorem State.setSrBit_dmmu (s : State) (i : Nat) (b : Bool) : (s.setSrBit i b).dmmu = s.dmmu := rfl
@[simp] theorem State.setSrBit_immu (s : State) (i : Nat) (b : Bool) : (s.setSrBit i b).immu = s.immu := rfl
@[simp] theorem State.setSrBit_dccr (s : State) (i : Nat) (b : Bool) : (s.setSrBit i b).dccr = s.dccr := rfl
@[simp] theorem State.setSrBit_iccr (s : State) (i : Nat) (b : Bool) : (s.setSrBit i b).iccr = s.iccr := rfl
@[simp] theorem State.setSrBit_stale (s : State) (i : Nat) (b : Bool) : (s.setSrBit i b).stale = s.stale := rfl
@[simp] theorem State.setSrBit_debugUnit (s : State) (i : Nat) (b : Bool) : (s.setSrBit i b).debugUnit = s.debugUnit := rfl
@[simp] theorem State.setSrBit_stopped (s : State) (i : Nat) (b : Bool) : (s.setSrBit i b).stopped = s.stopped := rfl
@[simp] theorem State.setSrBit_pccr (s : State) (i : Nat) (b : Bool) : (s.setSrBit i b).pccr = s.pccr := rfl
@[simp] theorem State.setSrBit_pcmr (s : State) (i : Nat) (b : Bool) : (s.setSrBit i b).pcmr = s.pcmr := rfl
@[simp] theorem State.setSrBit_pmr (s : State) (i : Nat) (b : Bool) : (s.setSrBit i b).pmr = s.pmr := rfl
@[simp] theorem State.setSrBit_pic (s : State) (i : Nat) (b : Bool) : (s.setSrBit i b).pic = s.pic := rfl
@[simp] theorem State.setSrBit_ttmr (s : State) (i : Nat) (b : Bool) : (s.setSrBit i b).ttmr = s.ttmr := rfl
@[simp] theorem State.setSrBit_ttcr (s : State) (i : Nat) (b : Bool) : (s.setSrBit i b).ttcr = s.ttcr := rfl
@[simp] theorem State.setSrBit_resv (s : State) (i : Nat) (b : Bool) : (s.setSrBit i b).resv = s.resv := rfl
@[simp] theorem State.setSrBit_mem (s : State) (i : Nat) (b : Bool) : (s.setSrBit i b).mem = s.mem := rfl
@[simp] theorem State.setSrBit_inputs (s : State) (i : Nat) (b : Bool) : (s.setSrBit i b).inputs = s.inputs := rfl
@[simp] theorem State.setSrBit_draws (s : State) (i : Nat) (b : Bool) : (s.setSrBit i b).draws = s.draws := rfl
@[simp] theorem State.setSrBit_raised (s : State) (i : Nat) (b : Bool) : (s.setSrBit i b).raised = s.raised := rfl
@[simp] theorem State.setSrBit_dtlbMisses (s : State) (i : Nat) (b : Bool) : (s.setSrBit i b).dtlbMisses = s.dtlbMisses := rfl
@[simp] theorem State.setSrBit_itlbMisses (s : State) (i : Nat) (b : Bool) : (s.setSrBit i b).itlbMisses = s.itlbMisses := rfl
@[simp] theorem State.setSrBit_unwritten (s : State) (i : Nat) (b : Bool) : (s.setSrBit i b).unwritten = s.unwritten := rfl

/-! ### CY and OV -/

@[simp] theorem State.setFlags_cfg (s : State) (cy ov : Option Bool) : (s.setFlags cy ov).cfg = s.cfg := by cases cy <;> cases ov <;> rfl
@[simp] theorem State.setFlags_gprs (s : State) (cy ov : Option Bool) : (s.setFlags cy ov).gprs = s.gprs := by cases cy <;> cases ov <;> rfl
@[simp] theorem State.setFlags_pc (s : State) (cy ov : Option Bool) : (s.setFlags cy ov).pc = s.pc := by cases cy <;> cases ov <;> rfl
@[simp] theorem State.setFlags_ppc (s : State) (cy ov : Option Bool) : (s.setFlags cy ov).ppc = s.ppc := by cases cy <;> cases ov <;> rfl
@[simp] theorem State.setFlags_ds (s : State) (cy ov : Option Bool) : (s.setFlags cy ov).ds = s.ds := by cases cy <;> cases ov <;> rfl
@[simp] theorem State.setFlags_epcr (s : State) (cy ov : Option Bool) : (s.setFlags cy ov).epcr = s.epcr := by cases cy <;> cases ov <;> rfl
@[simp] theorem State.setFlags_eear (s : State) (cy ov : Option Bool) : (s.setFlags cy ov).eear = s.eear := by cases cy <;> cases ov <;> rfl
@[simp] theorem State.setFlags_esr (s : State) (cy ov : Option Bool) : (s.setFlags cy ov).esr = s.esr := by cases cy <;> cases ov <;> rfl
@[simp] theorem State.setFlags_fpcsr (s : State) (cy ov : Option Bool) : (s.setFlags cy ov).fpcsr = s.fpcsr := by cases cy <;> cases ov <;> rfl
@[simp] theorem State.setFlags_machi (s : State) (cy ov : Option Bool) : (s.setFlags cy ov).machi = s.machi := by cases cy <;> cases ov <;> rfl
@[simp] theorem State.setFlags_maclo (s : State) (cy ov : Option Bool) : (s.setFlags cy ov).maclo = s.maclo := by cases cy <;> cases ov <;> rfl
@[simp] theorem State.setFlags_evbar (s : State) (cy ov : Option Bool) : (s.setFlags cy ov).evbar = s.evbar := by cases cy <;> cases ov <;> rfl
@[simp] theorem State.setFlags_aecr (s : State) (cy ov : Option Bool) : (s.setFlags cy ov).aecr = s.aecr := by cases cy <;> cases ov <;> rfl
@[simp] theorem State.setFlags_aesr (s : State) (cy ov : Option Bool) : (s.setFlags cy ov).aesr = s.aesr := by cases cy <;> cases ov <;> rfl
@[simp] theorem State.setFlags_dmmu (s : State) (cy ov : Option Bool) : (s.setFlags cy ov).dmmu = s.dmmu := by cases cy <;> cases ov <;> rfl
@[simp] theorem State.setFlags_immu (s : State) (cy ov : Option Bool) : (s.setFlags cy ov).immu = s.immu := by cases cy <;> cases ov <;> rfl
@[simp] theorem State.setFlags_dccr (s : State) (cy ov : Option Bool) : (s.setFlags cy ov).dccr = s.dccr := by cases cy <;> cases ov <;> rfl
@[simp] theorem State.setFlags_iccr (s : State) (cy ov : Option Bool) : (s.setFlags cy ov).iccr = s.iccr := by cases cy <;> cases ov <;> rfl
@[simp] theorem State.setFlags_stale (s : State) (cy ov : Option Bool) : (s.setFlags cy ov).stale = s.stale := by cases cy <;> cases ov <;> rfl
@[simp] theorem State.setFlags_debugUnit (s : State) (cy ov : Option Bool) : (s.setFlags cy ov).debugUnit = s.debugUnit := by cases cy <;> cases ov <;> rfl
@[simp] theorem State.setFlags_stopped (s : State) (cy ov : Option Bool) : (s.setFlags cy ov).stopped = s.stopped := by cases cy <;> cases ov <;> rfl
@[simp] theorem State.setFlags_pccr (s : State) (cy ov : Option Bool) : (s.setFlags cy ov).pccr = s.pccr := by cases cy <;> cases ov <;> rfl
@[simp] theorem State.setFlags_pcmr (s : State) (cy ov : Option Bool) : (s.setFlags cy ov).pcmr = s.pcmr := by cases cy <;> cases ov <;> rfl
@[simp] theorem State.setFlags_pmr (s : State) (cy ov : Option Bool) : (s.setFlags cy ov).pmr = s.pmr := by cases cy <;> cases ov <;> rfl
@[simp] theorem State.setFlags_pic (s : State) (cy ov : Option Bool) : (s.setFlags cy ov).pic = s.pic := by cases cy <;> cases ov <;> rfl
@[simp] theorem State.setFlags_ttmr (s : State) (cy ov : Option Bool) : (s.setFlags cy ov).ttmr = s.ttmr := by cases cy <;> cases ov <;> rfl
@[simp] theorem State.setFlags_ttcr (s : State) (cy ov : Option Bool) : (s.setFlags cy ov).ttcr = s.ttcr := by cases cy <;> cases ov <;> rfl
@[simp] theorem State.setFlags_resv (s : State) (cy ov : Option Bool) : (s.setFlags cy ov).resv = s.resv := by cases cy <;> cases ov <;> rfl
@[simp] theorem State.setFlags_mem (s : State) (cy ov : Option Bool) : (s.setFlags cy ov).mem = s.mem := by cases cy <;> cases ov <;> rfl
@[simp] theorem State.setFlags_inputs (s : State) (cy ov : Option Bool) : (s.setFlags cy ov).inputs = s.inputs := by cases cy <;> cases ov <;> rfl
@[simp] theorem State.setFlags_draws (s : State) (cy ov : Option Bool) : (s.setFlags cy ov).draws = s.draws := by cases cy <;> cases ov <;> rfl
@[simp] theorem State.setFlags_raised (s : State) (cy ov : Option Bool) : (s.setFlags cy ov).raised = s.raised := by cases cy <;> cases ov <;> rfl
@[simp] theorem State.setFlags_dtlbMisses (s : State) (cy ov : Option Bool) : (s.setFlags cy ov).dtlbMisses = s.dtlbMisses := by cases cy <;> cases ov <;> rfl
@[simp] theorem State.setFlags_itlbMisses (s : State) (cy ov : Option Bool) : (s.setFlags cy ov).itlbMisses = s.itlbMisses := by cases cy <;> cases ov <;> rfl
@[simp] theorem State.setFlags_unwritten (s : State) (cy ov : Option Bool) : (s.setFlags cy ov).unwritten = s.unwritten := by cases cy <;> cases ov <;> rfl

/-! ### A general register of a set -/

@[simp] theorem State.setGprOf_cfg (s : State) (set r : Nat) (v : Word) : (s.setGprOf set r v).cfg = s.cfg := by unfold State.setGprOf; split <;> rfl
@[simp] theorem State.setGprOf_pc (s : State) (set r : Nat) (v : Word) : (s.setGprOf set r v).pc = s.pc := by unfold State.setGprOf; split <;> rfl
@[simp] theorem State.setGprOf_ppc (s : State) (set r : Nat) (v : Word) : (s.setGprOf set r v).ppc = s.ppc := by unfold State.setGprOf; split <;> rfl
@[simp] theorem State.setGprOf_ds (s : State) (set r : Nat) (v : Word) : (s.setGprOf set r v).ds = s.ds := by unfold State.setGprOf; split <;> rfl
@[simp] theorem State.setGprOf_sr (s : State) (set r : Nat) (v : Word) : (s.setGprOf set r v).sr = s.sr := by unfold State.setGprOf; split <;> rfl
@[simp] theorem State.setGprOf_epcr (s : State) (set r : Nat) (v : Word) : (s.setGprOf set r v).epcr = s.epcr := by unfold State.setGprOf; split <;> rfl
@[simp] theorem State.setGprOf_eear (s : State) (set r : Nat) (v : Word) : (s.setGprOf set r v).eear = s.eear := by unfold State.setGprOf; split <;> rfl
@[simp] theorem State.setGprOf_esr (s : State) (set r : Nat) (v : Word) : (s.setGprOf set r v).esr = s.esr := by unfold State.setGprOf; split <;> rfl
@[simp] theorem State.setGprOf_fpcsr (s : State) (set r : Nat) (v : Word) : (s.setGprOf set r v).fpcsr = s.fpcsr := by unfold State.setGprOf; split <;> rfl
@[simp] theorem State.setGprOf_machi (s : State) (set r : Nat) (v : Word) : (s.setGprOf set r v).machi = s.machi := by unfold State.setGprOf; split <;> rfl
@[simp] theorem State.setGprOf_maclo (s : State) (set r : Nat) (v : Word) : (s.setGprOf set r v).maclo = s.maclo := by unfold State.setGprOf; split <;> rfl
@[simp] theorem State.setGprOf_evbar (s : State) (set r : Nat) (v : Word) : (s.setGprOf set r v).evbar = s.evbar := by unfold State.setGprOf; split <;> rfl
@[simp] theorem State.setGprOf_aecr (s : State) (set r : Nat) (v : Word) : (s.setGprOf set r v).aecr = s.aecr := by unfold State.setGprOf; split <;> rfl
@[simp] theorem State.setGprOf_aesr (s : State) (set r : Nat) (v : Word) : (s.setGprOf set r v).aesr = s.aesr := by unfold State.setGprOf; split <;> rfl
@[simp] theorem State.setGprOf_dmmu (s : State) (set r : Nat) (v : Word) : (s.setGprOf set r v).dmmu = s.dmmu := by unfold State.setGprOf; split <;> rfl
@[simp] theorem State.setGprOf_immu (s : State) (set r : Nat) (v : Word) : (s.setGprOf set r v).immu = s.immu := by unfold State.setGprOf; split <;> rfl
@[simp] theorem State.setGprOf_dccr (s : State) (set r : Nat) (v : Word) : (s.setGprOf set r v).dccr = s.dccr := by unfold State.setGprOf; split <;> rfl
@[simp] theorem State.setGprOf_iccr (s : State) (set r : Nat) (v : Word) : (s.setGprOf set r v).iccr = s.iccr := by unfold State.setGprOf; split <;> rfl
@[simp] theorem State.setGprOf_stale (s : State) (set r : Nat) (v : Word) : (s.setGprOf set r v).stale = s.stale := by unfold State.setGprOf; split <;> rfl
@[simp] theorem State.setGprOf_debugUnit (s : State) (set r : Nat) (v : Word) : (s.setGprOf set r v).debugUnit = s.debugUnit := by unfold State.setGprOf; split <;> rfl
@[simp] theorem State.setGprOf_stopped (s : State) (set r : Nat) (v : Word) : (s.setGprOf set r v).stopped = s.stopped := by unfold State.setGprOf; split <;> rfl
@[simp] theorem State.setGprOf_pccr (s : State) (set r : Nat) (v : Word) : (s.setGprOf set r v).pccr = s.pccr := by unfold State.setGprOf; split <;> rfl
@[simp] theorem State.setGprOf_pcmr (s : State) (set r : Nat) (v : Word) : (s.setGprOf set r v).pcmr = s.pcmr := by unfold State.setGprOf; split <;> rfl
@[simp] theorem State.setGprOf_pmr (s : State) (set r : Nat) (v : Word) : (s.setGprOf set r v).pmr = s.pmr := by unfold State.setGprOf; split <;> rfl
@[simp] theorem State.setGprOf_pic (s : State) (set r : Nat) (v : Word) : (s.setGprOf set r v).pic = s.pic := by unfold State.setGprOf; split <;> rfl
@[simp] theorem State.setGprOf_ttmr (s : State) (set r : Nat) (v : Word) : (s.setGprOf set r v).ttmr = s.ttmr := by unfold State.setGprOf; split <;> rfl
@[simp] theorem State.setGprOf_ttcr (s : State) (set r : Nat) (v : Word) : (s.setGprOf set r v).ttcr = s.ttcr := by unfold State.setGprOf; split <;> rfl
@[simp] theorem State.setGprOf_resv (s : State) (set r : Nat) (v : Word) : (s.setGprOf set r v).resv = s.resv := by unfold State.setGprOf; split <;> rfl
@[simp] theorem State.setGprOf_mem (s : State) (set r : Nat) (v : Word) : (s.setGprOf set r v).mem = s.mem := by unfold State.setGprOf; split <;> rfl
@[simp] theorem State.setGprOf_inputs (s : State) (set r : Nat) (v : Word) : (s.setGprOf set r v).inputs = s.inputs := by unfold State.setGprOf; split <;> rfl
@[simp] theorem State.setGprOf_draws (s : State) (set r : Nat) (v : Word) : (s.setGprOf set r v).draws = s.draws := by unfold State.setGprOf; split <;> rfl
@[simp] theorem State.setGprOf_raised (s : State) (set r : Nat) (v : Word) : (s.setGprOf set r v).raised = s.raised := by unfold State.setGprOf; split <;> rfl
@[simp] theorem State.setGprOf_dtlbMisses (s : State) (set r : Nat) (v : Word) : (s.setGprOf set r v).dtlbMisses = s.dtlbMisses := by unfold State.setGprOf; split <;> rfl
@[simp] theorem State.setGprOf_itlbMisses (s : State) (set r : Nat) (v : Word) : (s.setGprOf set r v).itlbMisses = s.itlbMisses := by unfold State.setGprOf; split <;> rfl
@[simp] theorem State.setGprOf_unwritten (s : State) (set r : Nat) (v : Word) : (s.setGprOf set r v).unwritten = s.unwritten := by unfold State.setGprOf; split <;> rfl

/-! ### A general register -/

@[simp] theorem State.setGpr_cfg (s : State) (r : Reg) (v : Word) : (s.setGpr r v).cfg = s.cfg := by simp [State.setGpr]
@[simp] theorem State.setGpr_pc (s : State) (r : Reg) (v : Word) : (s.setGpr r v).pc = s.pc := by simp [State.setGpr]
@[simp] theorem State.setGpr_ppc (s : State) (r : Reg) (v : Word) : (s.setGpr r v).ppc = s.ppc := by simp [State.setGpr]
@[simp] theorem State.setGpr_ds (s : State) (r : Reg) (v : Word) : (s.setGpr r v).ds = s.ds := by simp [State.setGpr]
@[simp] theorem State.setGpr_sr (s : State) (r : Reg) (v : Word) : (s.setGpr r v).sr = s.sr := by simp [State.setGpr]
@[simp] theorem State.setGpr_epcr (s : State) (r : Reg) (v : Word) : (s.setGpr r v).epcr = s.epcr := by simp [State.setGpr]
@[simp] theorem State.setGpr_eear (s : State) (r : Reg) (v : Word) : (s.setGpr r v).eear = s.eear := by simp [State.setGpr]
@[simp] theorem State.setGpr_esr (s : State) (r : Reg) (v : Word) : (s.setGpr r v).esr = s.esr := by simp [State.setGpr]
@[simp] theorem State.setGpr_fpcsr (s : State) (r : Reg) (v : Word) : (s.setGpr r v).fpcsr = s.fpcsr := by simp [State.setGpr]
@[simp] theorem State.setGpr_machi (s : State) (r : Reg) (v : Word) : (s.setGpr r v).machi = s.machi := by simp [State.setGpr]
@[simp] theorem State.setGpr_maclo (s : State) (r : Reg) (v : Word) : (s.setGpr r v).maclo = s.maclo := by simp [State.setGpr]
@[simp] theorem State.setGpr_evbar (s : State) (r : Reg) (v : Word) : (s.setGpr r v).evbar = s.evbar := by simp [State.setGpr]
@[simp] theorem State.setGpr_aecr (s : State) (r : Reg) (v : Word) : (s.setGpr r v).aecr = s.aecr := by simp [State.setGpr]
@[simp] theorem State.setGpr_aesr (s : State) (r : Reg) (v : Word) : (s.setGpr r v).aesr = s.aesr := by simp [State.setGpr]
@[simp] theorem State.setGpr_dmmu (s : State) (r : Reg) (v : Word) : (s.setGpr r v).dmmu = s.dmmu := by simp [State.setGpr]
@[simp] theorem State.setGpr_immu (s : State) (r : Reg) (v : Word) : (s.setGpr r v).immu = s.immu := by simp [State.setGpr]
@[simp] theorem State.setGpr_dccr (s : State) (r : Reg) (v : Word) : (s.setGpr r v).dccr = s.dccr := by simp [State.setGpr]
@[simp] theorem State.setGpr_iccr (s : State) (r : Reg) (v : Word) : (s.setGpr r v).iccr = s.iccr := by simp [State.setGpr]
@[simp] theorem State.setGpr_stale (s : State) (r : Reg) (v : Word) : (s.setGpr r v).stale = s.stale := by simp [State.setGpr]
@[simp] theorem State.setGpr_debugUnit (s : State) (r : Reg) (v : Word) : (s.setGpr r v).debugUnit = s.debugUnit := by simp [State.setGpr]
@[simp] theorem State.setGpr_stopped (s : State) (r : Reg) (v : Word) : (s.setGpr r v).stopped = s.stopped := by simp [State.setGpr]
@[simp] theorem State.setGpr_pccr (s : State) (r : Reg) (v : Word) : (s.setGpr r v).pccr = s.pccr := by simp [State.setGpr]
@[simp] theorem State.setGpr_pcmr (s : State) (r : Reg) (v : Word) : (s.setGpr r v).pcmr = s.pcmr := by simp [State.setGpr]
@[simp] theorem State.setGpr_pmr (s : State) (r : Reg) (v : Word) : (s.setGpr r v).pmr = s.pmr := by simp [State.setGpr]
@[simp] theorem State.setGpr_pic (s : State) (r : Reg) (v : Word) : (s.setGpr r v).pic = s.pic := by simp [State.setGpr]
@[simp] theorem State.setGpr_ttmr (s : State) (r : Reg) (v : Word) : (s.setGpr r v).ttmr = s.ttmr := by simp [State.setGpr]
@[simp] theorem State.setGpr_ttcr (s : State) (r : Reg) (v : Word) : (s.setGpr r v).ttcr = s.ttcr := by simp [State.setGpr]
@[simp] theorem State.setGpr_resv (s : State) (r : Reg) (v : Word) : (s.setGpr r v).resv = s.resv := by simp [State.setGpr]
@[simp] theorem State.setGpr_mem (s : State) (r : Reg) (v : Word) : (s.setGpr r v).mem = s.mem := by simp [State.setGpr]
@[simp] theorem State.setGpr_inputs (s : State) (r : Reg) (v : Word) : (s.setGpr r v).inputs = s.inputs := by simp [State.setGpr]
@[simp] theorem State.setGpr_draws (s : State) (r : Reg) (v : Word) : (s.setGpr r v).draws = s.draws := by simp [State.setGpr]
@[simp] theorem State.setGpr_raised (s : State) (r : Reg) (v : Word) : (s.setGpr r v).raised = s.raised := by simp [State.setGpr]
@[simp] theorem State.setGpr_dtlbMisses (s : State) (r : Reg) (v : Word) : (s.setGpr r v).dtlbMisses = s.dtlbMisses := by simp [State.setGpr]
@[simp] theorem State.setGpr_itlbMisses (s : State) (r : Reg) (v : Word) : (s.setGpr r v).itlbMisses = s.itlbMisses := by simp [State.setGpr]
@[simp] theorem State.setGpr_unwritten (s : State) (r : Reg) (v : Word) : (s.setGpr r v).unwritten = s.unwritten := by simp [State.setGpr]

/-! ### The program counter moves on -/

@[simp] theorem State.advance_cfg (s : State)  : (s.advance).cfg = s.cfg := rfl
@[simp] theorem State.advance_gprs (s : State)  : (s.advance).gprs = s.gprs := rfl
@[simp] theorem State.advance_sr (s : State)  : (s.advance).sr = s.sr := rfl
@[simp] theorem State.advance_epcr (s : State)  : (s.advance).epcr = s.epcr := rfl
@[simp] theorem State.advance_eear (s : State)  : (s.advance).eear = s.eear := rfl
@[simp] theorem State.advance_esr (s : State)  : (s.advance).esr = s.esr := rfl
@[simp] theorem State.advance_fpcsr (s : State)  : (s.advance).fpcsr = s.fpcsr := rfl
@[simp] theorem State.advance_machi (s : State)  : (s.advance).machi = s.machi := rfl
@[simp] theorem State.advance_maclo (s : State)  : (s.advance).maclo = s.maclo := rfl
@[simp] theorem State.advance_evbar (s : State)  : (s.advance).evbar = s.evbar := rfl
@[simp] theorem State.advance_aecr (s : State)  : (s.advance).aecr = s.aecr := rfl
@[simp] theorem State.advance_aesr (s : State)  : (s.advance).aesr = s.aesr := rfl
@[simp] theorem State.advance_dmmu (s : State)  : (s.advance).dmmu = s.dmmu := rfl
@[simp] theorem State.advance_immu (s : State)  : (s.advance).immu = s.immu := rfl
@[simp] theorem State.advance_dccr (s : State)  : (s.advance).dccr = s.dccr := rfl
@[simp] theorem State.advance_iccr (s : State)  : (s.advance).iccr = s.iccr := rfl
@[simp] theorem State.advance_stale (s : State)  : (s.advance).stale = s.stale := rfl
@[simp] theorem State.advance_debugUnit (s : State)  : (s.advance).debugUnit = s.debugUnit := rfl
@[simp] theorem State.advance_stopped (s : State)  : (s.advance).stopped = s.stopped := rfl
@[simp] theorem State.advance_pccr (s : State)  : (s.advance).pccr = s.pccr := rfl
@[simp] theorem State.advance_pcmr (s : State)  : (s.advance).pcmr = s.pcmr := rfl
@[simp] theorem State.advance_pmr (s : State)  : (s.advance).pmr = s.pmr := rfl
@[simp] theorem State.advance_pic (s : State)  : (s.advance).pic = s.pic := rfl
@[simp] theorem State.advance_ttmr (s : State)  : (s.advance).ttmr = s.ttmr := rfl
@[simp] theorem State.advance_ttcr (s : State)  : (s.advance).ttcr = s.ttcr := rfl
@[simp] theorem State.advance_resv (s : State)  : (s.advance).resv = s.resv := rfl
@[simp] theorem State.advance_mem (s : State)  : (s.advance).mem = s.mem := rfl
@[simp] theorem State.advance_inputs (s : State)  : (s.advance).inputs = s.inputs := rfl
@[simp] theorem State.advance_draws (s : State)  : (s.advance).draws = s.draws := rfl
@[simp] theorem State.advance_raised (s : State)  : (s.advance).raised = s.raised := rfl
@[simp] theorem State.advance_dtlbMisses (s : State)  : (s.advance).dtlbMisses = s.dtlbMisses := rfl
@[simp] theorem State.advance_itlbMisses (s : State)  : (s.advance).itlbMisses = s.itlbMisses := rfl
@[simp] theorem State.advance_unwritten (s : State)  : (s.advance).unwritten = s.unwritten := rfl

/-! ### A branch taken -/

@[simp] theorem State.branchTo_cfg (s : State) (t : Word) : (s.branchTo t).cfg = s.cfg := by unfold State.branchTo; split <;> rfl
@[simp] theorem State.branchTo_gprs (s : State) (t : Word) : (s.branchTo t).gprs = s.gprs := by unfold State.branchTo; split <;> rfl
@[simp] theorem State.branchTo_sr (s : State) (t : Word) : (s.branchTo t).sr = s.sr := by unfold State.branchTo; split <;> rfl
@[simp] theorem State.branchTo_epcr (s : State) (t : Word) : (s.branchTo t).epcr = s.epcr := by unfold State.branchTo; split <;> rfl
@[simp] theorem State.branchTo_eear (s : State) (t : Word) : (s.branchTo t).eear = s.eear := by unfold State.branchTo; split <;> rfl
@[simp] theorem State.branchTo_esr (s : State) (t : Word) : (s.branchTo t).esr = s.esr := by unfold State.branchTo; split <;> rfl
@[simp] theorem State.branchTo_fpcsr (s : State) (t : Word) : (s.branchTo t).fpcsr = s.fpcsr := by unfold State.branchTo; split <;> rfl
@[simp] theorem State.branchTo_machi (s : State) (t : Word) : (s.branchTo t).machi = s.machi := by unfold State.branchTo; split <;> rfl
@[simp] theorem State.branchTo_maclo (s : State) (t : Word) : (s.branchTo t).maclo = s.maclo := by unfold State.branchTo; split <;> rfl
@[simp] theorem State.branchTo_evbar (s : State) (t : Word) : (s.branchTo t).evbar = s.evbar := by unfold State.branchTo; split <;> rfl
@[simp] theorem State.branchTo_aecr (s : State) (t : Word) : (s.branchTo t).aecr = s.aecr := by unfold State.branchTo; split <;> rfl
@[simp] theorem State.branchTo_aesr (s : State) (t : Word) : (s.branchTo t).aesr = s.aesr := by unfold State.branchTo; split <;> rfl
@[simp] theorem State.branchTo_dmmu (s : State) (t : Word) : (s.branchTo t).dmmu = s.dmmu := by unfold State.branchTo; split <;> rfl
@[simp] theorem State.branchTo_immu (s : State) (t : Word) : (s.branchTo t).immu = s.immu := by unfold State.branchTo; split <;> rfl
@[simp] theorem State.branchTo_dccr (s : State) (t : Word) : (s.branchTo t).dccr = s.dccr := by unfold State.branchTo; split <;> rfl
@[simp] theorem State.branchTo_iccr (s : State) (t : Word) : (s.branchTo t).iccr = s.iccr := by unfold State.branchTo; split <;> rfl
@[simp] theorem State.branchTo_stale (s : State) (t : Word) : (s.branchTo t).stale = s.stale := by unfold State.branchTo; split <;> rfl
@[simp] theorem State.branchTo_debugUnit (s : State) (t : Word) : (s.branchTo t).debugUnit = s.debugUnit := by unfold State.branchTo; split <;> rfl
@[simp] theorem State.branchTo_stopped (s : State) (t : Word) : (s.branchTo t).stopped = s.stopped := by unfold State.branchTo; split <;> rfl
@[simp] theorem State.branchTo_pccr (s : State) (t : Word) : (s.branchTo t).pccr = s.pccr := by unfold State.branchTo; split <;> rfl
@[simp] theorem State.branchTo_pcmr (s : State) (t : Word) : (s.branchTo t).pcmr = s.pcmr := by unfold State.branchTo; split <;> rfl
@[simp] theorem State.branchTo_pmr (s : State) (t : Word) : (s.branchTo t).pmr = s.pmr := by unfold State.branchTo; split <;> rfl
@[simp] theorem State.branchTo_pic (s : State) (t : Word) : (s.branchTo t).pic = s.pic := by unfold State.branchTo; split <;> rfl
@[simp] theorem State.branchTo_ttmr (s : State) (t : Word) : (s.branchTo t).ttmr = s.ttmr := by unfold State.branchTo; split <;> rfl
@[simp] theorem State.branchTo_ttcr (s : State) (t : Word) : (s.branchTo t).ttcr = s.ttcr := by unfold State.branchTo; split <;> rfl
@[simp] theorem State.branchTo_resv (s : State) (t : Word) : (s.branchTo t).resv = s.resv := by unfold State.branchTo; split <;> rfl
@[simp] theorem State.branchTo_mem (s : State) (t : Word) : (s.branchTo t).mem = s.mem := by unfold State.branchTo; split <;> rfl
@[simp] theorem State.branchTo_inputs (s : State) (t : Word) : (s.branchTo t).inputs = s.inputs := by unfold State.branchTo; split <;> rfl
@[simp] theorem State.branchTo_draws (s : State) (t : Word) : (s.branchTo t).draws = s.draws := by unfold State.branchTo; split <;> rfl
@[simp] theorem State.branchTo_raised (s : State) (t : Word) : (s.branchTo t).raised = s.raised := by unfold State.branchTo; split <;> rfl
@[simp] theorem State.branchTo_dtlbMisses (s : State) (t : Word) : (s.branchTo t).dtlbMisses = s.dtlbMisses := by unfold State.branchTo; split <;> rfl
@[simp] theorem State.branchTo_itlbMisses (s : State) (t : Word) : (s.branchTo t).itlbMisses = s.itlbMisses := by unfold State.branchTo; split <;> rfl
@[simp] theorem State.branchTo_unwritten (s : State) (t : Word) : (s.branchTo t).unwritten = s.unwritten := by unfold State.branchTo; split <;> rfl

/-! ### A branch not taken -/

@[simp] theorem State.fallThrough_cfg (s : State)  : (s.fallThrough).cfg = s.cfg := by unfold State.fallThrough; split <;> rfl
@[simp] theorem State.fallThrough_gprs (s : State)  : (s.fallThrough).gprs = s.gprs := by unfold State.fallThrough; split <;> rfl
@[simp] theorem State.fallThrough_sr (s : State)  : (s.fallThrough).sr = s.sr := by unfold State.fallThrough; split <;> rfl
@[simp] theorem State.fallThrough_epcr (s : State)  : (s.fallThrough).epcr = s.epcr := by unfold State.fallThrough; split <;> rfl
@[simp] theorem State.fallThrough_eear (s : State)  : (s.fallThrough).eear = s.eear := by unfold State.fallThrough; split <;> rfl
@[simp] theorem State.fallThrough_esr (s : State)  : (s.fallThrough).esr = s.esr := by unfold State.fallThrough; split <;> rfl
@[simp] theorem State.fallThrough_fpcsr (s : State)  : (s.fallThrough).fpcsr = s.fpcsr := by unfold State.fallThrough; split <;> rfl
@[simp] theorem State.fallThrough_machi (s : State)  : (s.fallThrough).machi = s.machi := by unfold State.fallThrough; split <;> rfl
@[simp] theorem State.fallThrough_maclo (s : State)  : (s.fallThrough).maclo = s.maclo := by unfold State.fallThrough; split <;> rfl
@[simp] theorem State.fallThrough_evbar (s : State)  : (s.fallThrough).evbar = s.evbar := by unfold State.fallThrough; split <;> rfl
@[simp] theorem State.fallThrough_aecr (s : State)  : (s.fallThrough).aecr = s.aecr := by unfold State.fallThrough; split <;> rfl
@[simp] theorem State.fallThrough_aesr (s : State)  : (s.fallThrough).aesr = s.aesr := by unfold State.fallThrough; split <;> rfl
@[simp] theorem State.fallThrough_dmmu (s : State)  : (s.fallThrough).dmmu = s.dmmu := by unfold State.fallThrough; split <;> rfl
@[simp] theorem State.fallThrough_immu (s : State)  : (s.fallThrough).immu = s.immu := by unfold State.fallThrough; split <;> rfl
@[simp] theorem State.fallThrough_dccr (s : State)  : (s.fallThrough).dccr = s.dccr := by unfold State.fallThrough; split <;> rfl
@[simp] theorem State.fallThrough_iccr (s : State)  : (s.fallThrough).iccr = s.iccr := by unfold State.fallThrough; split <;> rfl
@[simp] theorem State.fallThrough_stale (s : State)  : (s.fallThrough).stale = s.stale := by unfold State.fallThrough; split <;> rfl
@[simp] theorem State.fallThrough_debugUnit (s : State)  : (s.fallThrough).debugUnit = s.debugUnit := by unfold State.fallThrough; split <;> rfl
@[simp] theorem State.fallThrough_stopped (s : State)  : (s.fallThrough).stopped = s.stopped := by unfold State.fallThrough; split <;> rfl
@[simp] theorem State.fallThrough_pccr (s : State)  : (s.fallThrough).pccr = s.pccr := by unfold State.fallThrough; split <;> rfl
@[simp] theorem State.fallThrough_pcmr (s : State)  : (s.fallThrough).pcmr = s.pcmr := by unfold State.fallThrough; split <;> rfl
@[simp] theorem State.fallThrough_pmr (s : State)  : (s.fallThrough).pmr = s.pmr := by unfold State.fallThrough; split <;> rfl
@[simp] theorem State.fallThrough_pic (s : State)  : (s.fallThrough).pic = s.pic := by unfold State.fallThrough; split <;> rfl
@[simp] theorem State.fallThrough_ttmr (s : State)  : (s.fallThrough).ttmr = s.ttmr := by unfold State.fallThrough; split <;> rfl
@[simp] theorem State.fallThrough_ttcr (s : State)  : (s.fallThrough).ttcr = s.ttcr := by unfold State.fallThrough; split <;> rfl
@[simp] theorem State.fallThrough_resv (s : State)  : (s.fallThrough).resv = s.resv := by unfold State.fallThrough; split <;> rfl
@[simp] theorem State.fallThrough_mem (s : State)  : (s.fallThrough).mem = s.mem := by unfold State.fallThrough; split <;> rfl
@[simp] theorem State.fallThrough_inputs (s : State)  : (s.fallThrough).inputs = s.inputs := by unfold State.fallThrough; split <;> rfl
@[simp] theorem State.fallThrough_draws (s : State)  : (s.fallThrough).draws = s.draws := by unfold State.fallThrough; split <;> rfl
@[simp] theorem State.fallThrough_raised (s : State)  : (s.fallThrough).raised = s.raised := by unfold State.fallThrough; split <;> rfl
@[simp] theorem State.fallThrough_dtlbMisses (s : State)  : (s.fallThrough).dtlbMisses = s.dtlbMisses := by unfold State.fallThrough; split <;> rfl
@[simp] theorem State.fallThrough_itlbMisses (s : State)  : (s.fallThrough).itlbMisses = s.itlbMisses := by unfold State.fallThrough; split <;> rfl
@[simp] theorem State.fallThrough_unwritten (s : State)  : (s.fallThrough).unwritten = s.unwritten := by unfold State.fallThrough; split <;> rfl

/-! ### MACHI and MACLO -/

@[simp] theorem State.setMac_cfg (s : State) (v : BitVec 64) : (s.setMac v).cfg = s.cfg := rfl
@[simp] theorem State.setMac_gprs (s : State) (v : BitVec 64) : (s.setMac v).gprs = s.gprs := rfl
@[simp] theorem State.setMac_pc (s : State) (v : BitVec 64) : (s.setMac v).pc = s.pc := rfl
@[simp] theorem State.setMac_ppc (s : State) (v : BitVec 64) : (s.setMac v).ppc = s.ppc := rfl
@[simp] theorem State.setMac_ds (s : State) (v : BitVec 64) : (s.setMac v).ds = s.ds := rfl
@[simp] theorem State.setMac_sr (s : State) (v : BitVec 64) : (s.setMac v).sr = s.sr := rfl
@[simp] theorem State.setMac_epcr (s : State) (v : BitVec 64) : (s.setMac v).epcr = s.epcr := rfl
@[simp] theorem State.setMac_eear (s : State) (v : BitVec 64) : (s.setMac v).eear = s.eear := rfl
@[simp] theorem State.setMac_esr (s : State) (v : BitVec 64) : (s.setMac v).esr = s.esr := rfl
@[simp] theorem State.setMac_fpcsr (s : State) (v : BitVec 64) : (s.setMac v).fpcsr = s.fpcsr := rfl
@[simp] theorem State.setMac_evbar (s : State) (v : BitVec 64) : (s.setMac v).evbar = s.evbar := rfl
@[simp] theorem State.setMac_aecr (s : State) (v : BitVec 64) : (s.setMac v).aecr = s.aecr := rfl
@[simp] theorem State.setMac_aesr (s : State) (v : BitVec 64) : (s.setMac v).aesr = s.aesr := rfl
@[simp] theorem State.setMac_dmmu (s : State) (v : BitVec 64) : (s.setMac v).dmmu = s.dmmu := rfl
@[simp] theorem State.setMac_immu (s : State) (v : BitVec 64) : (s.setMac v).immu = s.immu := rfl
@[simp] theorem State.setMac_dccr (s : State) (v : BitVec 64) : (s.setMac v).dccr = s.dccr := rfl
@[simp] theorem State.setMac_iccr (s : State) (v : BitVec 64) : (s.setMac v).iccr = s.iccr := rfl
@[simp] theorem State.setMac_stale (s : State) (v : BitVec 64) : (s.setMac v).stale = s.stale := rfl
@[simp] theorem State.setMac_debugUnit (s : State) (v : BitVec 64) : (s.setMac v).debugUnit = s.debugUnit := rfl
@[simp] theorem State.setMac_stopped (s : State) (v : BitVec 64) : (s.setMac v).stopped = s.stopped := rfl
@[simp] theorem State.setMac_pccr (s : State) (v : BitVec 64) : (s.setMac v).pccr = s.pccr := rfl
@[simp] theorem State.setMac_pcmr (s : State) (v : BitVec 64) : (s.setMac v).pcmr = s.pcmr := rfl
@[simp] theorem State.setMac_pmr (s : State) (v : BitVec 64) : (s.setMac v).pmr = s.pmr := rfl
@[simp] theorem State.setMac_pic (s : State) (v : BitVec 64) : (s.setMac v).pic = s.pic := rfl
@[simp] theorem State.setMac_ttmr (s : State) (v : BitVec 64) : (s.setMac v).ttmr = s.ttmr := rfl
@[simp] theorem State.setMac_ttcr (s : State) (v : BitVec 64) : (s.setMac v).ttcr = s.ttcr := rfl
@[simp] theorem State.setMac_resv (s : State) (v : BitVec 64) : (s.setMac v).resv = s.resv := rfl
@[simp] theorem State.setMac_mem (s : State) (v : BitVec 64) : (s.setMac v).mem = s.mem := rfl
@[simp] theorem State.setMac_inputs (s : State) (v : BitVec 64) : (s.setMac v).inputs = s.inputs := rfl
@[simp] theorem State.setMac_draws (s : State) (v : BitVec 64) : (s.setMac v).draws = s.draws := rfl
@[simp] theorem State.setMac_raised (s : State) (v : BitVec 64) : (s.setMac v).raised = s.raised := rfl
@[simp] theorem State.setMac_dtlbMisses (s : State) (v : BitVec 64) : (s.setMac v).dtlbMisses = s.dtlbMisses := rfl
@[simp] theorem State.setMac_itlbMisses (s : State) (v : BitVec 64) : (s.setMac v).itlbMisses = s.itlbMisses := rfl
@[simp] theorem State.setMac_unwritten (s : State) (v : BitVec 64) : (s.setMac v).unwritten = s.unwritten := rfl

/-! ### The MMU of an access -/

@[simp] theorem State.setMmu_cfg (s : State) (k : Access) (m : Mmu) : (s.setMmu k m).cfg = s.cfg := by cases k <;> rfl
@[simp] theorem State.setMmu_gprs (s : State) (k : Access) (m : Mmu) : (s.setMmu k m).gprs = s.gprs := by cases k <;> rfl
@[simp] theorem State.setMmu_pc (s : State) (k : Access) (m : Mmu) : (s.setMmu k m).pc = s.pc := by cases k <;> rfl
@[simp] theorem State.setMmu_ppc (s : State) (k : Access) (m : Mmu) : (s.setMmu k m).ppc = s.ppc := by cases k <;> rfl
@[simp] theorem State.setMmu_ds (s : State) (k : Access) (m : Mmu) : (s.setMmu k m).ds = s.ds := by cases k <;> rfl
@[simp] theorem State.setMmu_sr (s : State) (k : Access) (m : Mmu) : (s.setMmu k m).sr = s.sr := by cases k <;> rfl
@[simp] theorem State.setMmu_epcr (s : State) (k : Access) (m : Mmu) : (s.setMmu k m).epcr = s.epcr := by cases k <;> rfl
@[simp] theorem State.setMmu_eear (s : State) (k : Access) (m : Mmu) : (s.setMmu k m).eear = s.eear := by cases k <;> rfl
@[simp] theorem State.setMmu_esr (s : State) (k : Access) (m : Mmu) : (s.setMmu k m).esr = s.esr := by cases k <;> rfl
@[simp] theorem State.setMmu_fpcsr (s : State) (k : Access) (m : Mmu) : (s.setMmu k m).fpcsr = s.fpcsr := by cases k <;> rfl
@[simp] theorem State.setMmu_machi (s : State) (k : Access) (m : Mmu) : (s.setMmu k m).machi = s.machi := by cases k <;> rfl
@[simp] theorem State.setMmu_maclo (s : State) (k : Access) (m : Mmu) : (s.setMmu k m).maclo = s.maclo := by cases k <;> rfl
@[simp] theorem State.setMmu_evbar (s : State) (k : Access) (m : Mmu) : (s.setMmu k m).evbar = s.evbar := by cases k <;> rfl
@[simp] theorem State.setMmu_aecr (s : State) (k : Access) (m : Mmu) : (s.setMmu k m).aecr = s.aecr := by cases k <;> rfl
@[simp] theorem State.setMmu_aesr (s : State) (k : Access) (m : Mmu) : (s.setMmu k m).aesr = s.aesr := by cases k <;> rfl
@[simp] theorem State.setMmu_dccr (s : State) (k : Access) (m : Mmu) : (s.setMmu k m).dccr = s.dccr := by cases k <;> rfl
@[simp] theorem State.setMmu_iccr (s : State) (k : Access) (m : Mmu) : (s.setMmu k m).iccr = s.iccr := by cases k <;> rfl
@[simp] theorem State.setMmu_stale (s : State) (k : Access) (m : Mmu) : (s.setMmu k m).stale = s.stale := by cases k <;> rfl
@[simp] theorem State.setMmu_debugUnit (s : State) (k : Access) (m : Mmu) : (s.setMmu k m).debugUnit = s.debugUnit := by cases k <;> rfl
@[simp] theorem State.setMmu_stopped (s : State) (k : Access) (m : Mmu) : (s.setMmu k m).stopped = s.stopped := by cases k <;> rfl
@[simp] theorem State.setMmu_pccr (s : State) (k : Access) (m : Mmu) : (s.setMmu k m).pccr = s.pccr := by cases k <;> rfl
@[simp] theorem State.setMmu_pcmr (s : State) (k : Access) (m : Mmu) : (s.setMmu k m).pcmr = s.pcmr := by cases k <;> rfl
@[simp] theorem State.setMmu_pmr (s : State) (k : Access) (m : Mmu) : (s.setMmu k m).pmr = s.pmr := by cases k <;> rfl
@[simp] theorem State.setMmu_pic (s : State) (k : Access) (m : Mmu) : (s.setMmu k m).pic = s.pic := by cases k <;> rfl
@[simp] theorem State.setMmu_ttmr (s : State) (k : Access) (m : Mmu) : (s.setMmu k m).ttmr = s.ttmr := by cases k <;> rfl
@[simp] theorem State.setMmu_ttcr (s : State) (k : Access) (m : Mmu) : (s.setMmu k m).ttcr = s.ttcr := by cases k <;> rfl
@[simp] theorem State.setMmu_resv (s : State) (k : Access) (m : Mmu) : (s.setMmu k m).resv = s.resv := by cases k <;> rfl
@[simp] theorem State.setMmu_mem (s : State) (k : Access) (m : Mmu) : (s.setMmu k m).mem = s.mem := by cases k <;> rfl
@[simp] theorem State.setMmu_inputs (s : State) (k : Access) (m : Mmu) : (s.setMmu k m).inputs = s.inputs := by cases k <;> rfl
@[simp] theorem State.setMmu_draws (s : State) (k : Access) (m : Mmu) : (s.setMmu k m).draws = s.draws := by cases k <;> rfl
@[simp] theorem State.setMmu_raised (s : State) (k : Access) (m : Mmu) : (s.setMmu k m).raised = s.raised := by cases k <;> rfl
@[simp] theorem State.setMmu_dtlbMisses (s : State) (k : Access) (m : Mmu) : (s.setMmu k m).dtlbMisses = s.dtlbMisses := by cases k <;> rfl
@[simp] theorem State.setMmu_itlbMisses (s : State) (k : Access) (m : Mmu) : (s.setMmu k m).itlbMisses = s.itlbMisses := by cases k <;> rfl
@[simp] theorem State.setMmu_unwritten (s : State) (k : Access) (m : Mmu) : (s.setMmu k m).unwritten = s.unwritten := by cases k <;> rfl

/-! ### Main memory brought up to date -/

@[simp] theorem State.updateMemory_mem (s : State) (p : Nat → Bool) : (s.updateMemory p).mem = s.mem := rfl
@[simp] theorem State.updateMemory_resv (s : State) (p : Nat → Bool) : (s.updateMemory p).resv = s.resv := rfl
@[simp] theorem State.updateMemory_cfg (s : State) (p : Nat → Bool) : (s.updateMemory p).cfg = s.cfg := rfl
@[simp] theorem State.updateMemory_gprs (s : State) (p : Nat → Bool) : (s.updateMemory p).gprs = s.gprs := rfl
@[simp] theorem State.updateMemory_pc (s : State) (p : Nat → Bool) : (s.updateMemory p).pc = s.pc := rfl
@[simp] theorem State.updateMemory_ppc (s : State) (p : Nat → Bool) : (s.updateMemory p).ppc = s.ppc := rfl
@[simp] theorem State.updateMemory_ds (s : State) (p : Nat → Bool) : (s.updateMemory p).ds = s.ds := rfl
@[simp] theorem State.updateMemory_sr (s : State) (p : Nat → Bool) : (s.updateMemory p).sr = s.sr := rfl
@[simp] theorem State.updateMemory_epcr (s : State) (p : Nat → Bool) : (s.updateMemory p).epcr = s.epcr := rfl
@[simp] theorem State.updateMemory_eear (s : State) (p : Nat → Bool) : (s.updateMemory p).eear = s.eear := rfl
@[simp] theorem State.updateMemory_esr (s : State) (p : Nat → Bool) : (s.updateMemory p).esr = s.esr := rfl
@[simp] theorem State.updateMemory_fpcsr (s : State) (p : Nat → Bool) : (s.updateMemory p).fpcsr = s.fpcsr := rfl
@[simp] theorem State.updateMemory_machi (s : State) (p : Nat → Bool) : (s.updateMemory p).machi = s.machi := rfl
@[simp] theorem State.updateMemory_maclo (s : State) (p : Nat → Bool) : (s.updateMemory p).maclo = s.maclo := rfl
@[simp] theorem State.updateMemory_evbar (s : State) (p : Nat → Bool) : (s.updateMemory p).evbar = s.evbar := rfl
@[simp] theorem State.updateMemory_aecr (s : State) (p : Nat → Bool) : (s.updateMemory p).aecr = s.aecr := rfl
@[simp] theorem State.updateMemory_aesr (s : State) (p : Nat → Bool) : (s.updateMemory p).aesr = s.aesr := rfl
@[simp] theorem State.updateMemory_dmmu (s : State) (p : Nat → Bool) : (s.updateMemory p).dmmu = s.dmmu := rfl
@[simp] theorem State.updateMemory_immu (s : State) (p : Nat → Bool) : (s.updateMemory p).immu = s.immu := rfl
@[simp] theorem State.updateMemory_dccr (s : State) (p : Nat → Bool) : (s.updateMemory p).dccr = s.dccr := rfl
@[simp] theorem State.updateMemory_iccr (s : State) (p : Nat → Bool) : (s.updateMemory p).iccr = s.iccr := rfl
@[simp] theorem State.updateMemory_debugUnit (s : State) (p : Nat → Bool) :
    (s.updateMemory p).debugUnit = s.debugUnit := rfl
@[simp] theorem State.updateMemory_stopped (s : State) (p : Nat → Bool) : (s.updateMemory p).stopped = s.stopped := rfl
@[simp] theorem State.updateMemory_pccr (s : State) (p : Nat → Bool) : (s.updateMemory p).pccr = s.pccr := rfl
@[simp] theorem State.updateMemory_pcmr (s : State) (p : Nat → Bool) : (s.updateMemory p).pcmr = s.pcmr := rfl
@[simp] theorem State.updateMemory_pmr (s : State) (p : Nat → Bool) : (s.updateMemory p).pmr = s.pmr := rfl
@[simp] theorem State.updateMemory_pic (s : State) (p : Nat → Bool) : (s.updateMemory p).pic = s.pic := rfl
@[simp] theorem State.updateMemory_ttmr (s : State) (p : Nat → Bool) : (s.updateMemory p).ttmr = s.ttmr := rfl
@[simp] theorem State.updateMemory_ttcr (s : State) (p : Nat → Bool) : (s.updateMemory p).ttcr = s.ttcr := rfl
@[simp] theorem State.updateMemory_inputs (s : State) (p : Nat → Bool) : (s.updateMemory p).inputs = s.inputs := rfl
@[simp] theorem State.updateMemory_draws (s : State) (p : Nat → Bool) : (s.updateMemory p).draws = s.draws := rfl
@[simp] theorem State.updateMemory_raised (s : State) (p : Nat → Bool) : (s.updateMemory p).raised = s.raised := rfl
@[simp] theorem State.updateMemory_dtlbMisses (s : State) (p : Nat → Bool) :
    (s.updateMemory p).dtlbMisses = s.dtlbMisses := rfl
@[simp] theorem State.updateMemory_itlbMisses (s : State) (p : Nat → Bool) :
    (s.updateMemory p).itlbMisses = s.itlbMisses := rfl

/-- The older bytes of an address outside `p` stay where they were, and none is left behind of one in it. -/
theorem State.mem_updateMemory_unwritten (s : State) (p : Nat → Bool) (c : Host.Cell) :
    c ∈ (s.updateMemory p).unwritten ↔ c ∈ s.unwritten ∧ p c.1 = false := by
  simp [State.updateMemory]

/-- With an instruction cache it may hold just the older bytes it might hold before, and those main memory gave up. -/
theorem State.mem_updateMemory_stale {s : State} (h : s.cfg.icache.isSome = true) (p : Nat → Bool) (c : Host.Cell) :
    c ∈ (s.updateMemory p).stale ↔ c ∈ s.stale ∨ (c ∈ s.unwritten ∧ p c.1 = true) := by
  simp only [State.updateMemory, staleAfterUpdate, h, if_true, List.mem_append, List.mem_filter, Bool.and_eq_true,
    Bool.not_eq_true', List.contains_eq_mem, decide_eq_false_iff_not]
  tauto

/-! ### A byte of memory -/

@[simp] theorem State.writeByte_cfg (s : State) (pa : Nat) (v : Byte) : (s.writeByte pa v).cfg = s.cfg := rfl
@[simp] theorem State.writeByte_gprs (s : State) (pa : Nat) (v : Byte) : (s.writeByte pa v).gprs = s.gprs := rfl
@[simp] theorem State.writeByte_pc (s : State) (pa : Nat) (v : Byte) : (s.writeByte pa v).pc = s.pc := rfl
@[simp] theorem State.writeByte_ppc (s : State) (pa : Nat) (v : Byte) : (s.writeByte pa v).ppc = s.ppc := rfl
@[simp] theorem State.writeByte_ds (s : State) (pa : Nat) (v : Byte) : (s.writeByte pa v).ds = s.ds := rfl
@[simp] theorem State.writeByte_sr (s : State) (pa : Nat) (v : Byte) : (s.writeByte pa v).sr = s.sr := rfl
@[simp] theorem State.writeByte_epcr (s : State) (pa : Nat) (v : Byte) : (s.writeByte pa v).epcr = s.epcr := rfl
@[simp] theorem State.writeByte_eear (s : State) (pa : Nat) (v : Byte) : (s.writeByte pa v).eear = s.eear := rfl
@[simp] theorem State.writeByte_esr (s : State) (pa : Nat) (v : Byte) : (s.writeByte pa v).esr = s.esr := rfl
@[simp] theorem State.writeByte_fpcsr (s : State) (pa : Nat) (v : Byte) : (s.writeByte pa v).fpcsr = s.fpcsr := rfl
@[simp] theorem State.writeByte_machi (s : State) (pa : Nat) (v : Byte) : (s.writeByte pa v).machi = s.machi := rfl
@[simp] theorem State.writeByte_maclo (s : State) (pa : Nat) (v : Byte) : (s.writeByte pa v).maclo = s.maclo := rfl
@[simp] theorem State.writeByte_evbar (s : State) (pa : Nat) (v : Byte) : (s.writeByte pa v).evbar = s.evbar := rfl
@[simp] theorem State.writeByte_aecr (s : State) (pa : Nat) (v : Byte) : (s.writeByte pa v).aecr = s.aecr := rfl
@[simp] theorem State.writeByte_aesr (s : State) (pa : Nat) (v : Byte) : (s.writeByte pa v).aesr = s.aesr := rfl
@[simp] theorem State.writeByte_dmmu (s : State) (pa : Nat) (v : Byte) : (s.writeByte pa v).dmmu = s.dmmu := rfl
@[simp] theorem State.writeByte_immu (s : State) (pa : Nat) (v : Byte) : (s.writeByte pa v).immu = s.immu := rfl
@[simp] theorem State.writeByte_dccr (s : State) (pa : Nat) (v : Byte) : (s.writeByte pa v).dccr = s.dccr := rfl
@[simp] theorem State.writeByte_iccr (s : State) (pa : Nat) (v : Byte) : (s.writeByte pa v).iccr = s.iccr := rfl
@[simp] theorem State.writeByte_debugUnit (s : State) (pa : Nat) (v : Byte) : (s.writeByte pa v).debugUnit = s.debugUnit := rfl
@[simp] theorem State.writeByte_stopped (s : State) (pa : Nat) (v : Byte) : (s.writeByte pa v).stopped = s.stopped := rfl
@[simp] theorem State.writeByte_pccr (s : State) (pa : Nat) (v : Byte) : (s.writeByte pa v).pccr = s.pccr := rfl
@[simp] theorem State.writeByte_pcmr (s : State) (pa : Nat) (v : Byte) : (s.writeByte pa v).pcmr = s.pcmr := rfl
@[simp] theorem State.writeByte_pmr (s : State) (pa : Nat) (v : Byte) : (s.writeByte pa v).pmr = s.pmr := rfl
@[simp] theorem State.writeByte_pic (s : State) (pa : Nat) (v : Byte) : (s.writeByte pa v).pic = s.pic := rfl
@[simp] theorem State.writeByte_ttmr (s : State) (pa : Nat) (v : Byte) : (s.writeByte pa v).ttmr = s.ttmr := rfl
@[simp] theorem State.writeByte_ttcr (s : State) (pa : Nat) (v : Byte) : (s.writeByte pa v).ttcr = s.ttcr := rfl
@[simp] theorem State.writeByte_inputs (s : State) (pa : Nat) (v : Byte) : (s.writeByte pa v).inputs = s.inputs := rfl
@[simp] theorem State.writeByte_draws (s : State) (pa : Nat) (v : Byte) : (s.writeByte pa v).draws = s.draws := rfl
@[simp] theorem State.writeByte_raised (s : State) (pa : Nat) (v : Byte) : (s.writeByte pa v).raised = s.raised := rfl
@[simp] theorem State.writeByte_dtlbMisses (s : State) (pa : Nat) (v : Byte) : (s.writeByte pa v).dtlbMisses = s.dtlbMisses := rfl
@[simp] theorem State.writeByte_itlbMisses (s : State) (pa : Nat) (v : Byte) : (s.writeByte pa v).itlbMisses = s.itlbMisses := rfl

/-! ### Bytes of memory -/

/-- What writing bytes changes, as a record update. -/
theorem State.writeBytes_eq (s : State) (l : List (Nat × Byte)) :
    s.writeBytes l = { s with
      mem := (s.writeBytes l).mem, resv := (s.writeBytes l).resv, stale := (s.writeBytes l).stale,
      unwritten := (s.writeBytes l).unwritten } := by
  induction l generalizing s with
  | nil => rfl
  | cons c rest ih =>
    obtain ⟨pa, v⟩ := c
    rw [State.writeBytes, ih]
    rfl

@[simp] theorem State.writeBytes_cfg (s : State) (l : List (Nat × Byte)) : (s.writeBytes l).cfg = s.cfg := by rw [State.writeBytes_eq]
@[simp] theorem State.writeBytes_gprs (s : State) (l : List (Nat × Byte)) : (s.writeBytes l).gprs = s.gprs := by rw [State.writeBytes_eq]
@[simp] theorem State.writeBytes_pc (s : State) (l : List (Nat × Byte)) : (s.writeBytes l).pc = s.pc := by rw [State.writeBytes_eq]
@[simp] theorem State.writeBytes_ppc (s : State) (l : List (Nat × Byte)) : (s.writeBytes l).ppc = s.ppc := by rw [State.writeBytes_eq]
@[simp] theorem State.writeBytes_ds (s : State) (l : List (Nat × Byte)) : (s.writeBytes l).ds = s.ds := by rw [State.writeBytes_eq]
@[simp] theorem State.writeBytes_sr (s : State) (l : List (Nat × Byte)) : (s.writeBytes l).sr = s.sr := by rw [State.writeBytes_eq]
@[simp] theorem State.writeBytes_epcr (s : State) (l : List (Nat × Byte)) : (s.writeBytes l).epcr = s.epcr := by rw [State.writeBytes_eq]
@[simp] theorem State.writeBytes_eear (s : State) (l : List (Nat × Byte)) : (s.writeBytes l).eear = s.eear := by rw [State.writeBytes_eq]
@[simp] theorem State.writeBytes_esr (s : State) (l : List (Nat × Byte)) : (s.writeBytes l).esr = s.esr := by rw [State.writeBytes_eq]
@[simp] theorem State.writeBytes_fpcsr (s : State) (l : List (Nat × Byte)) : (s.writeBytes l).fpcsr = s.fpcsr := by rw [State.writeBytes_eq]
@[simp] theorem State.writeBytes_machi (s : State) (l : List (Nat × Byte)) : (s.writeBytes l).machi = s.machi := by rw [State.writeBytes_eq]
@[simp] theorem State.writeBytes_maclo (s : State) (l : List (Nat × Byte)) : (s.writeBytes l).maclo = s.maclo := by rw [State.writeBytes_eq]
@[simp] theorem State.writeBytes_evbar (s : State) (l : List (Nat × Byte)) : (s.writeBytes l).evbar = s.evbar := by rw [State.writeBytes_eq]
@[simp] theorem State.writeBytes_aecr (s : State) (l : List (Nat × Byte)) : (s.writeBytes l).aecr = s.aecr := by rw [State.writeBytes_eq]
@[simp] theorem State.writeBytes_aesr (s : State) (l : List (Nat × Byte)) : (s.writeBytes l).aesr = s.aesr := by rw [State.writeBytes_eq]
@[simp] theorem State.writeBytes_dmmu (s : State) (l : List (Nat × Byte)) : (s.writeBytes l).dmmu = s.dmmu := by rw [State.writeBytes_eq]
@[simp] theorem State.writeBytes_immu (s : State) (l : List (Nat × Byte)) : (s.writeBytes l).immu = s.immu := by rw [State.writeBytes_eq]
@[simp] theorem State.writeBytes_dccr (s : State) (l : List (Nat × Byte)) : (s.writeBytes l).dccr = s.dccr := by rw [State.writeBytes_eq]
@[simp] theorem State.writeBytes_iccr (s : State) (l : List (Nat × Byte)) : (s.writeBytes l).iccr = s.iccr := by rw [State.writeBytes_eq]
@[simp] theorem State.writeBytes_debugUnit (s : State) (l : List (Nat × Byte)) : (s.writeBytes l).debugUnit = s.debugUnit := by rw [State.writeBytes_eq]
@[simp] theorem State.writeBytes_stopped (s : State) (l : List (Nat × Byte)) : (s.writeBytes l).stopped = s.stopped := by rw [State.writeBytes_eq]
@[simp] theorem State.writeBytes_pccr (s : State) (l : List (Nat × Byte)) : (s.writeBytes l).pccr = s.pccr := by rw [State.writeBytes_eq]
@[simp] theorem State.writeBytes_pcmr (s : State) (l : List (Nat × Byte)) : (s.writeBytes l).pcmr = s.pcmr := by rw [State.writeBytes_eq]
@[simp] theorem State.writeBytes_pmr (s : State) (l : List (Nat × Byte)) : (s.writeBytes l).pmr = s.pmr := by rw [State.writeBytes_eq]
@[simp] theorem State.writeBytes_pic (s : State) (l : List (Nat × Byte)) : (s.writeBytes l).pic = s.pic := by rw [State.writeBytes_eq]
@[simp] theorem State.writeBytes_ttmr (s : State) (l : List (Nat × Byte)) : (s.writeBytes l).ttmr = s.ttmr := by rw [State.writeBytes_eq]
@[simp] theorem State.writeBytes_ttcr (s : State) (l : List (Nat × Byte)) : (s.writeBytes l).ttcr = s.ttcr := by rw [State.writeBytes_eq]
@[simp] theorem State.writeBytes_inputs (s : State) (l : List (Nat × Byte)) : (s.writeBytes l).inputs = s.inputs := by rw [State.writeBytes_eq]
@[simp] theorem State.writeBytes_draws (s : State) (l : List (Nat × Byte)) : (s.writeBytes l).draws = s.draws := by rw [State.writeBytes_eq]
@[simp] theorem State.writeBytes_raised (s : State) (l : List (Nat × Byte)) : (s.writeBytes l).raised = s.raised := by rw [State.writeBytes_eq]
@[simp] theorem State.writeBytes_dtlbMisses (s : State) (l : List (Nat × Byte)) : (s.writeBytes l).dtlbMisses = s.dtlbMisses := by rw [State.writeBytes_eq]
@[simp] theorem State.writeBytes_itlbMisses (s : State) (l : List (Nat × Byte)) : (s.writeBytes l).itlbMisses = s.itlbMisses := by rw [State.writeBytes_eq]

/-! ### A byte stored -/

/-- What storing a byte changes, as a record update: what writing it changes. -/
theorem State.storeByte_eq (s : State) (p : Place) (v : Byte) :
    s.storeByte p v = { s.writeByte p.pa v with unwritten := (s.storeByte p v).unwritten } := by
  unfold State.storeByte
  split <;> rfl

@[simp] theorem State.storeByte_cfg (s : State) (p : Place) (v : Byte) : (s.storeByte p v).cfg = s.cfg := by rw [State.storeByte_eq]; rfl
@[simp] theorem State.storeByte_gprs (s : State) (p : Place) (v : Byte) : (s.storeByte p v).gprs = s.gprs := by rw [State.storeByte_eq]; rfl
@[simp] theorem State.storeByte_pc (s : State) (p : Place) (v : Byte) : (s.storeByte p v).pc = s.pc := by rw [State.storeByte_eq]; rfl
@[simp] theorem State.storeByte_ppc (s : State) (p : Place) (v : Byte) : (s.storeByte p v).ppc = s.ppc := by rw [State.storeByte_eq]; rfl
@[simp] theorem State.storeByte_ds (s : State) (p : Place) (v : Byte) : (s.storeByte p v).ds = s.ds := by rw [State.storeByte_eq]; rfl
@[simp] theorem State.storeByte_sr (s : State) (p : Place) (v : Byte) : (s.storeByte p v).sr = s.sr := by rw [State.storeByte_eq]; rfl
@[simp] theorem State.storeByte_epcr (s : State) (p : Place) (v : Byte) : (s.storeByte p v).epcr = s.epcr := by rw [State.storeByte_eq]; rfl
@[simp] theorem State.storeByte_eear (s : State) (p : Place) (v : Byte) : (s.storeByte p v).eear = s.eear := by rw [State.storeByte_eq]; rfl
@[simp] theorem State.storeByte_esr (s : State) (p : Place) (v : Byte) : (s.storeByte p v).esr = s.esr := by rw [State.storeByte_eq]; rfl
@[simp] theorem State.storeByte_fpcsr (s : State) (p : Place) (v : Byte) : (s.storeByte p v).fpcsr = s.fpcsr := by rw [State.storeByte_eq]; rfl
@[simp] theorem State.storeByte_machi (s : State) (p : Place) (v : Byte) : (s.storeByte p v).machi = s.machi := by rw [State.storeByte_eq]; rfl
@[simp] theorem State.storeByte_maclo (s : State) (p : Place) (v : Byte) : (s.storeByte p v).maclo = s.maclo := by rw [State.storeByte_eq]; rfl
@[simp] theorem State.storeByte_evbar (s : State) (p : Place) (v : Byte) : (s.storeByte p v).evbar = s.evbar := by rw [State.storeByte_eq]; rfl
@[simp] theorem State.storeByte_aecr (s : State) (p : Place) (v : Byte) : (s.storeByte p v).aecr = s.aecr := by rw [State.storeByte_eq]; rfl
@[simp] theorem State.storeByte_aesr (s : State) (p : Place) (v : Byte) : (s.storeByte p v).aesr = s.aesr := by rw [State.storeByte_eq]; rfl
@[simp] theorem State.storeByte_dmmu (s : State) (p : Place) (v : Byte) : (s.storeByte p v).dmmu = s.dmmu := by rw [State.storeByte_eq]; rfl
@[simp] theorem State.storeByte_immu (s : State) (p : Place) (v : Byte) : (s.storeByte p v).immu = s.immu := by rw [State.storeByte_eq]; rfl
@[simp] theorem State.storeByte_dccr (s : State) (p : Place) (v : Byte) : (s.storeByte p v).dccr = s.dccr := by rw [State.storeByte_eq]; rfl
@[simp] theorem State.storeByte_iccr (s : State) (p : Place) (v : Byte) : (s.storeByte p v).iccr = s.iccr := by rw [State.storeByte_eq]; rfl
@[simp] theorem State.storeByte_debugUnit (s : State) (p : Place) (v : Byte) : (s.storeByte p v).debugUnit = s.debugUnit := by rw [State.storeByte_eq]; rfl
@[simp] theorem State.storeByte_stopped (s : State) (p : Place) (v : Byte) : (s.storeByte p v).stopped = s.stopped := by rw [State.storeByte_eq]; rfl
@[simp] theorem State.storeByte_pccr (s : State) (p : Place) (v : Byte) : (s.storeByte p v).pccr = s.pccr := by rw [State.storeByte_eq]; rfl
@[simp] theorem State.storeByte_pcmr (s : State) (p : Place) (v : Byte) : (s.storeByte p v).pcmr = s.pcmr := by rw [State.storeByte_eq]; rfl
@[simp] theorem State.storeByte_pmr (s : State) (p : Place) (v : Byte) : (s.storeByte p v).pmr = s.pmr := by rw [State.storeByte_eq]; rfl
@[simp] theorem State.storeByte_pic (s : State) (p : Place) (v : Byte) : (s.storeByte p v).pic = s.pic := by rw [State.storeByte_eq]; rfl
@[simp] theorem State.storeByte_ttmr (s : State) (p : Place) (v : Byte) : (s.storeByte p v).ttmr = s.ttmr := by rw [State.storeByte_eq]; rfl
@[simp] theorem State.storeByte_ttcr (s : State) (p : Place) (v : Byte) : (s.storeByte p v).ttcr = s.ttcr := by rw [State.storeByte_eq]; rfl
@[simp] theorem State.storeByte_inputs (s : State) (p : Place) (v : Byte) : (s.storeByte p v).inputs = s.inputs := by rw [State.storeByte_eq]; rfl
@[simp] theorem State.storeByte_draws (s : State) (p : Place) (v : Byte) : (s.storeByte p v).draws = s.draws := by rw [State.storeByte_eq]; rfl
@[simp] theorem State.storeByte_raised (s : State) (p : Place) (v : Byte) : (s.storeByte p v).raised = s.raised := by rw [State.storeByte_eq]; rfl
@[simp] theorem State.storeByte_dtlbMisses (s : State) (p : Place) (v : Byte) : (s.storeByte p v).dtlbMisses = s.dtlbMisses := by rw [State.storeByte_eq]; rfl
@[simp] theorem State.storeByte_itlbMisses (s : State) (p : Place) (v : Byte) : (s.storeByte p v).itlbMisses = s.itlbMisses := by rw [State.storeByte_eq]; rfl

/-! ### Bytes stored -/

/-- Storing bytes is writing them, but for what stays in the data cache and what the instruction cache may hold of it. -/
theorem State.storeBytes_eq (s : State) (l : List (Place × Byte)) :
    s.storeBytes l =
      { s.writeBytes (l.map fun c => (c.1.pa, c.2)) with
        stale := (s.storeBytes l).stale, unwritten := (s.storeBytes l).unwritten } := by
  induction l generalizing s with
  | nil => rfl
  | cons c rest ih =>
    obtain ⟨p, v⟩ := c
    have hw : ∀ (r : List (Nat × Byte)) (t : State) (x u : List Host.Cell),
        ({ t with stale := x, unwritten := u } : State).writeBytes r =
          { t.writeBytes r with
            stale := (({ t with stale := x, unwritten := u } : State).writeBytes r).stale
            unwritten := (({ t with stale := x, unwritten := u } : State).writeBytes r).unwritten } := by
      intro r
      induction r with
      | nil => intro t x u; rfl
      | cons d r ihr =>
        intro t x u
        obtain ⟨pa, w⟩ := d
        exact ihr (t.writeByte pa w) _ _
    rw [State.storeBytes, ih, State.storeByte_eq, List.map_cons, State.writeBytes, hw]

@[simp] theorem State.storeBytes_cfg (s : State) (l : List (Place × Byte)) : (s.storeBytes l).cfg = s.cfg := by rw [State.storeBytes_eq]; simp
@[simp] theorem State.storeBytes_gprs (s : State) (l : List (Place × Byte)) : (s.storeBytes l).gprs = s.gprs := by rw [State.storeBytes_eq]; simp
@[simp] theorem State.storeBytes_pc (s : State) (l : List (Place × Byte)) : (s.storeBytes l).pc = s.pc := by rw [State.storeBytes_eq]; simp
@[simp] theorem State.storeBytes_ppc (s : State) (l : List (Place × Byte)) : (s.storeBytes l).ppc = s.ppc := by rw [State.storeBytes_eq]; simp
@[simp] theorem State.storeBytes_ds (s : State) (l : List (Place × Byte)) : (s.storeBytes l).ds = s.ds := by rw [State.storeBytes_eq]; simp
@[simp] theorem State.storeBytes_sr (s : State) (l : List (Place × Byte)) : (s.storeBytes l).sr = s.sr := by rw [State.storeBytes_eq]; simp
@[simp] theorem State.storeBytes_epcr (s : State) (l : List (Place × Byte)) : (s.storeBytes l).epcr = s.epcr := by rw [State.storeBytes_eq]; simp
@[simp] theorem State.storeBytes_eear (s : State) (l : List (Place × Byte)) : (s.storeBytes l).eear = s.eear := by rw [State.storeBytes_eq]; simp
@[simp] theorem State.storeBytes_esr (s : State) (l : List (Place × Byte)) : (s.storeBytes l).esr = s.esr := by rw [State.storeBytes_eq]; simp
@[simp] theorem State.storeBytes_fpcsr (s : State) (l : List (Place × Byte)) : (s.storeBytes l).fpcsr = s.fpcsr := by rw [State.storeBytes_eq]; simp
@[simp] theorem State.storeBytes_machi (s : State) (l : List (Place × Byte)) : (s.storeBytes l).machi = s.machi := by rw [State.storeBytes_eq]; simp
@[simp] theorem State.storeBytes_maclo (s : State) (l : List (Place × Byte)) : (s.storeBytes l).maclo = s.maclo := by rw [State.storeBytes_eq]; simp
@[simp] theorem State.storeBytes_evbar (s : State) (l : List (Place × Byte)) : (s.storeBytes l).evbar = s.evbar := by rw [State.storeBytes_eq]; simp
@[simp] theorem State.storeBytes_aecr (s : State) (l : List (Place × Byte)) : (s.storeBytes l).aecr = s.aecr := by rw [State.storeBytes_eq]; simp
@[simp] theorem State.storeBytes_aesr (s : State) (l : List (Place × Byte)) : (s.storeBytes l).aesr = s.aesr := by rw [State.storeBytes_eq]; simp
@[simp] theorem State.storeBytes_dmmu (s : State) (l : List (Place × Byte)) : (s.storeBytes l).dmmu = s.dmmu := by rw [State.storeBytes_eq]; simp
@[simp] theorem State.storeBytes_immu (s : State) (l : List (Place × Byte)) : (s.storeBytes l).immu = s.immu := by rw [State.storeBytes_eq]; simp
@[simp] theorem State.storeBytes_dccr (s : State) (l : List (Place × Byte)) : (s.storeBytes l).dccr = s.dccr := by rw [State.storeBytes_eq]; simp
@[simp] theorem State.storeBytes_iccr (s : State) (l : List (Place × Byte)) : (s.storeBytes l).iccr = s.iccr := by rw [State.storeBytes_eq]; simp
@[simp] theorem State.storeBytes_debugUnit (s : State) (l : List (Place × Byte)) : (s.storeBytes l).debugUnit = s.debugUnit := by rw [State.storeBytes_eq]; simp
@[simp] theorem State.storeBytes_stopped (s : State) (l : List (Place × Byte)) : (s.storeBytes l).stopped = s.stopped := by rw [State.storeBytes_eq]; simp
@[simp] theorem State.storeBytes_pccr (s : State) (l : List (Place × Byte)) : (s.storeBytes l).pccr = s.pccr := by rw [State.storeBytes_eq]; simp
@[simp] theorem State.storeBytes_pcmr (s : State) (l : List (Place × Byte)) : (s.storeBytes l).pcmr = s.pcmr := by rw [State.storeBytes_eq]; simp
@[simp] theorem State.storeBytes_pmr (s : State) (l : List (Place × Byte)) : (s.storeBytes l).pmr = s.pmr := by rw [State.storeBytes_eq]; simp
@[simp] theorem State.storeBytes_pic (s : State) (l : List (Place × Byte)) : (s.storeBytes l).pic = s.pic := by rw [State.storeBytes_eq]; simp
@[simp] theorem State.storeBytes_ttmr (s : State) (l : List (Place × Byte)) : (s.storeBytes l).ttmr = s.ttmr := by rw [State.storeBytes_eq]; simp
@[simp] theorem State.storeBytes_ttcr (s : State) (l : List (Place × Byte)) : (s.storeBytes l).ttcr = s.ttcr := by rw [State.storeBytes_eq]; simp
@[simp] theorem State.storeBytes_inputs (s : State) (l : List (Place × Byte)) : (s.storeBytes l).inputs = s.inputs := by rw [State.storeBytes_eq]; simp
@[simp] theorem State.storeBytes_draws (s : State) (l : List (Place × Byte)) : (s.storeBytes l).draws = s.draws := by rw [State.storeBytes_eq]; simp
@[simp] theorem State.storeBytes_raised (s : State) (l : List (Place × Byte)) : (s.storeBytes l).raised = s.raised := by rw [State.storeBytes_eq]; simp
@[simp] theorem State.storeBytes_dtlbMisses (s : State) (l : List (Place × Byte)) : (s.storeBytes l).dtlbMisses = s.dtlbMisses := by rw [State.storeBytes_eq]; simp
@[simp] theorem State.storeBytes_itlbMisses (s : State) (l : List (Place × Byte)) : (s.storeBytes l).itlbMisses = s.itlbMisses := by rw [State.storeBytes_eq]; simp

/-! ### A datum stored -/

@[simp] theorem State.storeAt_cfg (s : State) (ps : List Place) (n : Nat) (v : Word) : (s.storeAt ps n v).cfg = s.cfg := by simp [State.storeAt]
@[simp] theorem State.storeAt_gprs (s : State) (ps : List Place) (n : Nat) (v : Word) : (s.storeAt ps n v).gprs = s.gprs := by simp [State.storeAt]
@[simp] theorem State.storeAt_pc (s : State) (ps : List Place) (n : Nat) (v : Word) : (s.storeAt ps n v).pc = s.pc := by simp [State.storeAt]
@[simp] theorem State.storeAt_ppc (s : State) (ps : List Place) (n : Nat) (v : Word) : (s.storeAt ps n v).ppc = s.ppc := by simp [State.storeAt]
@[simp] theorem State.storeAt_ds (s : State) (ps : List Place) (n : Nat) (v : Word) : (s.storeAt ps n v).ds = s.ds := by simp [State.storeAt]
@[simp] theorem State.storeAt_sr (s : State) (ps : List Place) (n : Nat) (v : Word) : (s.storeAt ps n v).sr = s.sr := by simp [State.storeAt]
@[simp] theorem State.storeAt_epcr (s : State) (ps : List Place) (n : Nat) (v : Word) : (s.storeAt ps n v).epcr = s.epcr := by simp [State.storeAt]
@[simp] theorem State.storeAt_eear (s : State) (ps : List Place) (n : Nat) (v : Word) : (s.storeAt ps n v).eear = s.eear := by simp [State.storeAt]
@[simp] theorem State.storeAt_esr (s : State) (ps : List Place) (n : Nat) (v : Word) : (s.storeAt ps n v).esr = s.esr := by simp [State.storeAt]
@[simp] theorem State.storeAt_fpcsr (s : State) (ps : List Place) (n : Nat) (v : Word) : (s.storeAt ps n v).fpcsr = s.fpcsr := by simp [State.storeAt]
@[simp] theorem State.storeAt_machi (s : State) (ps : List Place) (n : Nat) (v : Word) : (s.storeAt ps n v).machi = s.machi := by simp [State.storeAt]
@[simp] theorem State.storeAt_maclo (s : State) (ps : List Place) (n : Nat) (v : Word) : (s.storeAt ps n v).maclo = s.maclo := by simp [State.storeAt]
@[simp] theorem State.storeAt_evbar (s : State) (ps : List Place) (n : Nat) (v : Word) : (s.storeAt ps n v).evbar = s.evbar := by simp [State.storeAt]
@[simp] theorem State.storeAt_aecr (s : State) (ps : List Place) (n : Nat) (v : Word) : (s.storeAt ps n v).aecr = s.aecr := by simp [State.storeAt]
@[simp] theorem State.storeAt_aesr (s : State) (ps : List Place) (n : Nat) (v : Word) : (s.storeAt ps n v).aesr = s.aesr := by simp [State.storeAt]
@[simp] theorem State.storeAt_dmmu (s : State) (ps : List Place) (n : Nat) (v : Word) : (s.storeAt ps n v).dmmu = s.dmmu := by simp [State.storeAt]
@[simp] theorem State.storeAt_immu (s : State) (ps : List Place) (n : Nat) (v : Word) : (s.storeAt ps n v).immu = s.immu := by simp [State.storeAt]
@[simp] theorem State.storeAt_dccr (s : State) (ps : List Place) (n : Nat) (v : Word) : (s.storeAt ps n v).dccr = s.dccr := by simp [State.storeAt]
@[simp] theorem State.storeAt_iccr (s : State) (ps : List Place) (n : Nat) (v : Word) : (s.storeAt ps n v).iccr = s.iccr := by simp [State.storeAt]
@[simp] theorem State.storeAt_debugUnit (s : State) (ps : List Place) (n : Nat) (v : Word) : (s.storeAt ps n v).debugUnit = s.debugUnit := by simp [State.storeAt]
@[simp] theorem State.storeAt_stopped (s : State) (ps : List Place) (n : Nat) (v : Word) : (s.storeAt ps n v).stopped = s.stopped := by simp [State.storeAt]
@[simp] theorem State.storeAt_pccr (s : State) (ps : List Place) (n : Nat) (v : Word) : (s.storeAt ps n v).pccr = s.pccr := by simp [State.storeAt]
@[simp] theorem State.storeAt_pcmr (s : State) (ps : List Place) (n : Nat) (v : Word) : (s.storeAt ps n v).pcmr = s.pcmr := by simp [State.storeAt]
@[simp] theorem State.storeAt_pmr (s : State) (ps : List Place) (n : Nat) (v : Word) : (s.storeAt ps n v).pmr = s.pmr := by simp [State.storeAt]
@[simp] theorem State.storeAt_pic (s : State) (ps : List Place) (n : Nat) (v : Word) : (s.storeAt ps n v).pic = s.pic := by simp [State.storeAt]
@[simp] theorem State.storeAt_ttmr (s : State) (ps : List Place) (n : Nat) (v : Word) : (s.storeAt ps n v).ttmr = s.ttmr := by simp [State.storeAt]
@[simp] theorem State.storeAt_ttcr (s : State) (ps : List Place) (n : Nat) (v : Word) : (s.storeAt ps n v).ttcr = s.ttcr := by simp [State.storeAt]
@[simp] theorem State.storeAt_inputs (s : State) (ps : List Place) (n : Nat) (v : Word) : (s.storeAt ps n v).inputs = s.inputs := by simp [State.storeAt]
@[simp] theorem State.storeAt_draws (s : State) (ps : List Place) (n : Nat) (v : Word) : (s.storeAt ps n v).draws = s.draws := by simp [State.storeAt]
@[simp] theorem State.storeAt_raised (s : State) (ps : List Place) (n : Nat) (v : Word) : (s.storeAt ps n v).raised = s.raised := by simp [State.storeAt]
@[simp] theorem State.storeAt_dtlbMisses (s : State) (ps : List Place) (n : Nat) (v : Word) : (s.storeAt ps n v).dtlbMisses = s.dtlbMisses := by simp [State.storeAt]
@[simp] theorem State.storeAt_itlbMisses (s : State) (ps : List Place) (n : Nat) (v : Word) : (s.storeAt ps n v).itlbMisses = s.itlbMisses := by simp [State.storeAt]

/-! ### A translation counted, abandoned -/

@[simp] theorem State.countMiss_cfg (s : State) (k : Access) : (s.countMiss k).cfg = s.cfg := by cases k <;> rfl
@[simp] theorem State.countMiss_gprs (s : State) (k : Access) : (s.countMiss k).gprs = s.gprs := by cases k <;> rfl
@[simp] theorem State.countMiss_pc (s : State) (k : Access) : (s.countMiss k).pc = s.pc := by cases k <;> rfl
@[simp] theorem State.countMiss_ppc (s : State) (k : Access) : (s.countMiss k).ppc = s.ppc := by cases k <;> rfl
@[simp] theorem State.countMiss_ds (s : State) (k : Access) : (s.countMiss k).ds = s.ds := by cases k <;> rfl
@[simp] theorem State.countMiss_sr (s : State) (k : Access) : (s.countMiss k).sr = s.sr := by cases k <;> rfl
@[simp] theorem State.countMiss_epcr (s : State) (k : Access) : (s.countMiss k).epcr = s.epcr := by cases k <;> rfl
@[simp] theorem State.countMiss_eear (s : State) (k : Access) : (s.countMiss k).eear = s.eear := by cases k <;> rfl
@[simp] theorem State.countMiss_esr (s : State) (k : Access) : (s.countMiss k).esr = s.esr := by cases k <;> rfl
@[simp] theorem State.countMiss_fpcsr (s : State) (k : Access) : (s.countMiss k).fpcsr = s.fpcsr := by cases k <;> rfl
@[simp] theorem State.countMiss_machi (s : State) (k : Access) : (s.countMiss k).machi = s.machi := by cases k <;> rfl
@[simp] theorem State.countMiss_maclo (s : State) (k : Access) : (s.countMiss k).maclo = s.maclo := by cases k <;> rfl
@[simp] theorem State.countMiss_evbar (s : State) (k : Access) : (s.countMiss k).evbar = s.evbar := by cases k <;> rfl
@[simp] theorem State.countMiss_aecr (s : State) (k : Access) : (s.countMiss k).aecr = s.aecr := by cases k <;> rfl
@[simp] theorem State.countMiss_aesr (s : State) (k : Access) : (s.countMiss k).aesr = s.aesr := by cases k <;> rfl
@[simp] theorem State.countMiss_dmmu (s : State) (k : Access) : (s.countMiss k).dmmu = s.dmmu := by cases k <;> rfl
@[simp] theorem State.countMiss_immu (s : State) (k : Access) : (s.countMiss k).immu = s.immu := by cases k <;> rfl
@[simp] theorem State.countMiss_dccr (s : State) (k : Access) : (s.countMiss k).dccr = s.dccr := by cases k <;> rfl
@[simp] theorem State.countMiss_iccr (s : State) (k : Access) : (s.countMiss k).iccr = s.iccr := by cases k <;> rfl
@[simp] theorem State.countMiss_stale (s : State) (k : Access) : (s.countMiss k).stale = s.stale := by cases k <;> rfl
@[simp] theorem State.countMiss_unwritten (s : State) (k : Access) : (s.countMiss k).unwritten = s.unwritten := by cases k <;> rfl
@[simp] theorem State.countMiss_debugUnit (s : State) (k : Access) : (s.countMiss k).debugUnit = s.debugUnit := by cases k <;> rfl
@[simp] theorem State.countMiss_stopped (s : State) (k : Access) : (s.countMiss k).stopped = s.stopped := by cases k <;> rfl
@[simp] theorem State.countMiss_pccr (s : State) (k : Access) : (s.countMiss k).pccr = s.pccr := by cases k <;> rfl
@[simp] theorem State.countMiss_pcmr (s : State) (k : Access) : (s.countMiss k).pcmr = s.pcmr := by cases k <;> rfl
@[simp] theorem State.countMiss_pmr (s : State) (k : Access) : (s.countMiss k).pmr = s.pmr := by cases k <;> rfl
@[simp] theorem State.countMiss_pic (s : State) (k : Access) : (s.countMiss k).pic = s.pic := by cases k <;> rfl
@[simp] theorem State.countMiss_ttmr (s : State) (k : Access) : (s.countMiss k).ttmr = s.ttmr := by cases k <;> rfl
@[simp] theorem State.countMiss_ttcr (s : State) (k : Access) : (s.countMiss k).ttcr = s.ttcr := by cases k <;> rfl
@[simp] theorem State.countMiss_resv (s : State) (k : Access) : (s.countMiss k).resv = s.resv := by cases k <;> rfl
@[simp] theorem State.countMiss_mem (s : State) (k : Access) : (s.countMiss k).mem = s.mem := by cases k <;> rfl
@[simp] theorem State.countMiss_inputs (s : State) (k : Access) : (s.countMiss k).inputs = s.inputs := by cases k <;> rfl
@[simp] theorem State.countMiss_draws (s : State) (k : Access) : (s.countMiss k).draws = s.draws := by cases k <;> rfl
@[simp] theorem State.countMiss_raised (s : State) (k : Access) : (s.countMiss k).raised = s.raised := by cases k <;> rfl

@[simp] theorem State.abandon_cfg (s : State) (t : State) : (s.abandon t).cfg = s.cfg := rfl
@[simp] theorem State.abandon_gprs (s : State) (t : State) : (s.abandon t).gprs = s.gprs := rfl
@[simp] theorem State.abandon_pc (s : State) (t : State) : (s.abandon t).pc = s.pc := rfl
@[simp] theorem State.abandon_ppc (s : State) (t : State) : (s.abandon t).ppc = s.ppc := rfl
@[simp] theorem State.abandon_ds (s : State) (t : State) : (s.abandon t).ds = s.ds := rfl
@[simp] theorem State.abandon_sr (s : State) (t : State) : (s.abandon t).sr = s.sr := rfl
@[simp] theorem State.abandon_epcr (s : State) (t : State) : (s.abandon t).epcr = s.epcr := rfl
@[simp] theorem State.abandon_eear (s : State) (t : State) : (s.abandon t).eear = s.eear := rfl
@[simp] theorem State.abandon_esr (s : State) (t : State) : (s.abandon t).esr = s.esr := rfl
@[simp] theorem State.abandon_fpcsr (s : State) (t : State) : (s.abandon t).fpcsr = s.fpcsr := rfl
@[simp] theorem State.abandon_machi (s : State) (t : State) : (s.abandon t).machi = s.machi := rfl
@[simp] theorem State.abandon_maclo (s : State) (t : State) : (s.abandon t).maclo = s.maclo := rfl
@[simp] theorem State.abandon_evbar (s : State) (t : State) : (s.abandon t).evbar = s.evbar := rfl
@[simp] theorem State.abandon_aecr (s : State) (t : State) : (s.abandon t).aecr = s.aecr := rfl
@[simp] theorem State.abandon_aesr (s : State) (t : State) : (s.abandon t).aesr = s.aesr := rfl
@[simp] theorem State.abandon_dmmu (s : State) (t : State) : (s.abandon t).dmmu = s.dmmu := rfl
@[simp] theorem State.abandon_immu (s : State) (t : State) : (s.abandon t).immu = s.immu := rfl
@[simp] theorem State.abandon_dccr (s : State) (t : State) : (s.abandon t).dccr = s.dccr := rfl
@[simp] theorem State.abandon_iccr (s : State) (t : State) : (s.abandon t).iccr = s.iccr := rfl
@[simp] theorem State.abandon_stale (s : State) (t : State) : (s.abandon t).stale = s.stale := rfl
@[simp] theorem State.abandon_unwritten (s : State) (t : State) : (s.abandon t).unwritten = s.unwritten := rfl
@[simp] theorem State.abandon_debugUnit (s : State) (t : State) : (s.abandon t).debugUnit = s.debugUnit := rfl
@[simp] theorem State.abandon_stopped (s : State) (t : State) : (s.abandon t).stopped = s.stopped := rfl
@[simp] theorem State.abandon_pccr (s : State) (t : State) : (s.abandon t).pccr = s.pccr := rfl
@[simp] theorem State.abandon_pcmr (s : State) (t : State) : (s.abandon t).pcmr = s.pcmr := rfl
@[simp] theorem State.abandon_pmr (s : State) (t : State) : (s.abandon t).pmr = s.pmr := rfl
@[simp] theorem State.abandon_pic (s : State) (t : State) : (s.abandon t).pic = s.pic := rfl
@[simp] theorem State.abandon_ttmr (s : State) (t : State) : (s.abandon t).ttmr = s.ttmr := rfl
@[simp] theorem State.abandon_ttcr (s : State) (t : State) : (s.abandon t).ttcr = s.ttcr := rfl
@[simp] theorem State.abandon_resv (s : State) (t : State) : (s.abandon t).resv = s.resv := rfl
@[simp] theorem State.abandon_mem (s : State) (t : State) : (s.abandon t).mem = s.mem := rfl
@[simp] theorem State.abandon_inputs (s : State) (t : State) : (s.abandon t).inputs = s.inputs := rfl
@[simp] theorem State.abandon_raised (s : State) (t : State) : (s.abandon t).raised = s.raised := rfl

@[simp] theorem State.wake_cfg (s : State) : s.wake.cfg = s.cfg := by unfold State.wake; split <;> rfl
@[simp] theorem State.wake_gprs (s : State) : s.wake.gprs = s.gprs := by unfold State.wake; split <;> rfl
@[simp] theorem State.wake_pc (s : State) : s.wake.pc = s.pc := by unfold State.wake; split <;> rfl
@[simp] theorem State.wake_ppc (s : State) : s.wake.ppc = s.ppc := by unfold State.wake; split <;> rfl
@[simp] theorem State.wake_ds (s : State) : s.wake.ds = s.ds := by unfold State.wake; split <;> rfl
@[simp] theorem State.wake_sr (s : State) : s.wake.sr = s.sr := by unfold State.wake; split <;> rfl
@[simp] theorem State.wake_epcr (s : State) : s.wake.epcr = s.epcr := by unfold State.wake; split <;> rfl
@[simp] theorem State.wake_eear (s : State) : s.wake.eear = s.eear := by unfold State.wake; split <;> rfl
@[simp] theorem State.wake_esr (s : State) : s.wake.esr = s.esr := by unfold State.wake; split <;> rfl
@[simp] theorem State.wake_fpcsr (s : State) : s.wake.fpcsr = s.fpcsr := by unfold State.wake; split <;> rfl
@[simp] theorem State.wake_machi (s : State) : s.wake.machi = s.machi := by unfold State.wake; split <;> rfl
@[simp] theorem State.wake_maclo (s : State) : s.wake.maclo = s.maclo := by unfold State.wake; split <;> rfl
@[simp] theorem State.wake_evbar (s : State) : s.wake.evbar = s.evbar := by unfold State.wake; split <;> rfl
@[simp] theorem State.wake_aecr (s : State) : s.wake.aecr = s.aecr := by unfold State.wake; split <;> rfl
@[simp] theorem State.wake_aesr (s : State) : s.wake.aesr = s.aesr := by unfold State.wake; split <;> rfl
@[simp] theorem State.wake_dmmu (s : State) : s.wake.dmmu = s.dmmu := by unfold State.wake; split <;> rfl
@[simp] theorem State.wake_immu (s : State) : s.wake.immu = s.immu := by unfold State.wake; split <;> rfl
@[simp] theorem State.wake_dccr (s : State) : s.wake.dccr = s.dccr := by unfold State.wake; split <;> rfl
@[simp] theorem State.wake_iccr (s : State) : s.wake.iccr = s.iccr := by unfold State.wake; split <;> rfl
@[simp] theorem State.wake_stale (s : State) : s.wake.stale = s.stale := by unfold State.wake; split <;> rfl
@[simp] theorem State.wake_unwritten (s : State) : s.wake.unwritten = s.unwritten := by unfold State.wake; split <;> rfl
@[simp] theorem State.wake_debugUnit (s : State) : s.wake.debugUnit = s.debugUnit := by unfold State.wake; split <;> rfl
@[simp] theorem State.wake_stopped (s : State) : s.wake.stopped = s.stopped := by unfold State.wake; split <;> rfl
@[simp] theorem State.wake_pccr (s : State) : s.wake.pccr = s.pccr := by unfold State.wake; split <;> rfl
@[simp] theorem State.wake_pcmr (s : State) : s.wake.pcmr = s.pcmr := by unfold State.wake; split <;> rfl
@[simp] theorem State.wake_pic (s : State) : s.wake.pic = s.pic := by unfold State.wake; split <;> rfl
@[simp] theorem State.wake_ttmr (s : State) : s.wake.ttmr = s.ttmr := by unfold State.wake; split <;> rfl
@[simp] theorem State.wake_ttcr (s : State) : s.wake.ttcr = s.ttcr := by unfold State.wake; split <;> rfl
@[simp] theorem State.wake_resv (s : State) : s.wake.resv = s.resv := by unfold State.wake; split <;> rfl
@[simp] theorem State.wake_mem (s : State) : s.wake.mem = s.mem := by unfold State.wake; split <;> rfl
@[simp] theorem State.wake_inputs (s : State) : s.wake.inputs = s.inputs := by unfold State.wake; split <;> rfl
@[simp] theorem State.wake_draws (s : State) : s.wake.draws = s.draws := by unfold State.wake; split <;> rfl
@[simp] theorem State.wake_raised (s : State) : s.wake.raised = s.raised := by unfold State.wake; split <;> rfl
@[simp] theorem State.wake_dtlbMisses (s : State) : s.wake.dtlbMisses = s.dtlbMisses := by unfold State.wake; split <;> rfl
@[simp] theorem State.wake_itlbMisses (s : State) : s.wake.itlbMisses = s.itlbMisses := by unfold State.wake; split <;> rfl

/-! ### What the updates set -/

@[simp] theorem State.setSrBit_sr (s : State) (i : Nat) (b : Bool) : (s.setSrBit i b).sr = putBit s.sr i b := rfl
@[simp] theorem State.advance_pc (s : State) : s.advance.pc = seqPc s := rfl
@[simp] theorem State.advance_ppc (s : State) : s.advance.ppc = s.pc := rfl
@[simp] theorem State.advance_ds (s : State) : s.advance.ds = none := rfl
@[simp] theorem State.setMac_machi (s : State) (v : BitVec 64) : (s.setMac v).machi = v.extractLsb' 32 32 := rfl
@[simp] theorem State.setMac_maclo (s : State) (v : BitVec 64) : (s.setMac v).maclo = v.extractLsb' 0 32 := rfl
@[simp] theorem State.writeByte_mem (s : State) (pa : Nat) (v : Byte) :
    (s.writeByte pa v).mem = Table.write s.mem pa v := rfl
@[simp] theorem State.writeByte_resv (s : State) (pa : Nat) (v : Byte) :
    (s.writeByte pa v).resv = resvAfterWrite s pa := rfl
@[simp] theorem State.storeByte_mem (s : State) (p : Place) (v : Byte) :
    (s.storeByte p v).mem = Table.write s.mem p.pa v := by rw [State.storeByte_eq]; rfl
@[simp] theorem State.storeByte_resv (s : State) (p : Place) (v : Byte) :
    (s.storeByte p v).resv = resvAfterWrite s p.pa := by rw [State.storeByte_eq]; rfl
@[simp] theorem State.abandon_draws (s t : State) : (s.abandon t).draws = t.draws := rfl
@[simp] theorem State.abandon_dtlbMisses (s t : State) : (s.abandon t).dtlbMisses = t.dtlbMisses := rfl
@[simp] theorem State.abandon_itlbMisses (s t : State) : (s.abandon t).itlbMisses = t.itlbMisses := rfl
@[simp] theorem State.storeBytes_mem (s : State) (l : List (Place × Byte)) :
    (s.storeBytes l).mem = (s.writeBytes (l.map fun c => (c.1.pa, c.2))).mem := by rw [State.storeBytes_eq]
@[simp] theorem State.storeBytes_resv (s : State) (l : List (Place × Byte)) :
    (s.storeBytes l).resv = (s.writeBytes (l.map fun c => (c.1.pa, c.2))).resv := by rw [State.storeBytes_eq]

/-- What a register write changes, as a record update. -/
theorem State.setGpr_eq (s : State) (r : Reg) (v : Word) : s.setGpr r v = { s with gprs := (s.setGpr r v).gprs } := by
  unfold State.setGpr State.setGprOf
  split <;> rfl

/-- What a write of flags changes, as a record update. -/
theorem State.setFlags_eq (s : State) (cy ov : Option Bool) :
    s.setFlags cy ov = { s with sr := (s.setFlags cy ov).sr } := by
  cases cy <;> cases ov <;> rfl

end Sys2Proof.Machine
end

