-- ==== Sys2Proof/Laws/Table.lean ====
section
/-!
SUPPORT. Laws/Table.lean: what reading and writing sparse tables do, and that writing keeps their canonical form.
-/

namespace Sys2Proof

variable {w : Nat}

@[simp] theorem Table.read_nil (k : Nat) : Table.read ([] : Table w) k = 0#w := rfl

@[simp] theorem Table.wf_nil : Table.wf ([] : Table w) = true := rfl

/-- A canonical table holds nothing below its first number. -/
theorem Table.read_below {t : Table w} {lo k : Nat} (h : Table.wfFrom lo t = true) (hk : k < lo) :
    Table.read t k = 0#w := by
  cases t with
  | nil => rfl
  | cons c rest =>
    obtain ⟨j, v⟩ := c
    simp only [Table.wfFrom, Bool.and_eq_true, decide_eq_true_eq] at h
    simp [Table.read, show k < j by omega]

/-- The canonical form above a bound is one above any smaller bound. -/
theorem Table.wfFrom_mono {t : Table w} {lo lo' : Nat} (h : Table.wfFrom lo t = true) (hl : lo' ≤ lo) :
    Table.wfFrom lo' t = true := by
  cases t with
  | nil => rfl
  | cons c rest =>
    obtain ⟨j, v⟩ := c
    simp only [Table.wfFrom, Bool.and_eq_true, decide_eq_true_eq] at h ⊢
    exact ⟨⟨by omega, h.1.2⟩, h.2⟩

/-- Removing the entries up to a number changes no canonical table that lies above it. -/
theorem Table.dropWhile_of_wfFrom {t : Table w} {k : Nat} (h : Table.wfFrom (k + 1) t = true) :
    t.dropWhile (fun c => decide (c.1 ≤ k)) = t := by
  cases t with
  | nil => rfl
  | cons c rest =>
    obtain ⟨j, v⟩ := c
    simp only [Table.wfFrom, Bool.and_eq_true, decide_eq_true_eq] at h
    simp [show ¬ j ≤ k by omega]

/-- Writing keeps the canonical form. -/
theorem Table.wfFrom_write {t : Table w} {lo k : Nat} (v : BitVec w) (h : Table.wfFrom lo t = true) (hk : lo ≤ k) :
    Table.wfFrom lo (Table.write t k v) = true := by
  induction t generalizing lo with
  | nil =>
    by_cases hv : v = 0#w
    · simp [Table.write, hv, Table.wfFrom]
    · simp [Table.write, hv, Table.wfFrom, hk]
  | cons c rest ih =>
    obtain ⟨j, u⟩ := c
    simp only [Table.wfFrom, Bool.and_eq_true, decide_eq_true_eq] at h
    obtain ⟨⟨hj, hu⟩, hr⟩ := h
    unfold Table.write
    split_ifs with h1 h2 h3 h4
    · simp [Table.wfFrom, hj, hu, hr]
    · simp only [Table.wfFrom, Bool.and_eq_true, decide_eq_true_eq]
      exact ⟨⟨hk, h2⟩, ⟨by omega, hu⟩, hr⟩
    · subst h3
      rw [Table.dropWhile_of_wfFrom hr]
      exact Table.wfFrom_mono hr (by omega)
    · subst h3
      simp only [Table.wfFrom, Bool.and_eq_true, decide_eq_true_eq]
      exact ⟨⟨hk, h4⟩, hr⟩
    · simp only [Table.wfFrom, Bool.and_eq_true, decide_eq_true_eq]
      exact ⟨⟨hj, hu⟩, ih hr (by omega)⟩

/-- Writing keeps the canonical form. -/
theorem Table.wf_write {t : Table w} (k : Nat) (v : BitVec w) (h : Table.wf t = true) :
    Table.wf (Table.write t k v) = true := Table.wfFrom_write v h (Nat.zero_le k)

/-- What was dropped up to a number is not read above it. -/
theorem Table.read_dropWhile (t : Table w) (k i : Nat) (h : k < i) (hu : ∀ c ∈ t, True) :
    Table.read (t.dropWhile (fun c => decide (c.1 ≤ k))) i = Table.read t i := by
  induction t with
  | nil => rfl
  | cons c rest ih =>
    obtain ⟨j, v⟩ := c
    by_cases hj : j ≤ k
    · simp only [List.dropWhile, hj, decide_true]
      rw [ih (by simp)]
      simp [Table.read, show ¬ i < j by omega, show i ≠ j by omega]
    · simp [List.dropWhile, hj]

/-- Below the first entry a table whose entries lie above a number reads zero. -/
theorem Table.read_dropWhile_below (t : Table w) (k i : Nat) (h : i ≤ k) :
    Table.read (t.dropWhile (fun c => decide (c.1 ≤ k))) i = 0#w := by
  induction t with
  | nil => rfl
  | cons c rest ih =>
    obtain ⟨j, v⟩ := c
    by_cases hj : j ≤ k
    · simp only [List.dropWhile, hj, decide_true]
      exact ih
    · simp [List.dropWhile, hj, Table.read, show i < j by omega]

/-- Reading after writing, at any number of any table. -/
theorem Table.read_write (t : Table w) (k i : Nat) (v : BitVec w) :
    Table.read (Table.write t k v) i = if i = k then v else Table.read t i := by
  induction t with
  | nil =>
    by_cases hv : v = 0#w
    · simp [Table.write, hv]
    · simp only [Table.write, hv, if_false, Table.read]
      split_ifs <;> first | rfl | omega
  | cons c rest ih =>
    obtain ⟨j, u⟩ := c
    unfold Table.write
    split_ifs with h1 h2 h3 h4 h5 h6 h7 h8 h9
    · subst h2 h3; simp [Table.read, h1]
    · rfl
    · subst h4; simp [Table.read]
    · simp only [Table.read]
      split_ifs <;> first | rfl | omega
    · subst h5 h6 h7
      exact Table.read_dropWhile_below rest _ _ le_rfl
    · subst h5
      by_cases hlt : i < k
      · rw [Table.read_dropWhile_below rest _ _ (by omega)]
        simp [Table.read, hlt]
      · rw [Table.read_dropWhile rest _ _ (by omega) (by simp)]
        simp [Table.read, hlt, h7]
    · subst h5 h8; simp [Table.read]
    · subst h5
      simp [Table.read, h8]
    · subst h9
      simp only [Table.read, h1, if_false, h5]
      rw [ih]; simp
    · simp only [Table.read]
      rw [ih]; simp [h9]

@[simp] theorem Table.read_write_same (t : Table w) (k : Nat) (v : BitVec w) : Table.read (Table.write t k v) k = v := by
  rw [Table.read_write]; simp

theorem Table.read_write_other (t : Table w) {k i : Nat} (v : BitVec w) (h : i ≠ k) :
    Table.read (Table.write t k v) i = Table.read t i := by
  rw [Table.read_write]; simp [h]

/-- Canonical tables that read alike are equal. -/
theorem Table.ext_of_wfFrom {t u : Table w} {lo : Nat} (ht : Table.wfFrom lo t = true) (hu : Table.wfFrom lo u = true)
    (h : ∀ k, Table.read t k = Table.read u k) : t = u := by
  induction t generalizing u lo with
  | nil =>
    cases u with
    | nil => rfl
    | cons c rest =>
      obtain ⟨j, v⟩ := c
      simp only [Table.wfFrom, Bool.and_eq_true, decide_eq_true_eq] at hu
      have := h j
      simp only [Table.read, lt_irrefl, if_false, if_true] at this
      exact absurd this.symm hu.1.2
  | cons c rest ih =>
    obtain ⟨j, v⟩ := c
    simp only [Table.wfFrom, Bool.and_eq_true, decide_eq_true_eq] at ht
    cases u with
    | nil =>
      have := h j
      simp only [Table.read, lt_irrefl, if_false, if_true] at this
      exact absurd this ht.1.2
    | cons d rest' =>
      obtain ⟨j', v'⟩ := d
      simp only [Table.wfFrom, Bool.and_eq_true, decide_eq_true_eq] at hu
      have hj : j = j' := by
        rcases lt_trichotomy j j' with hlt | heq | hgt
        · have := h j
          simp only [Table.read, lt_irrefl, if_false, if_true, hlt] at this
          exact absurd this ht.1.2
        · exact heq
        · have := h j'
          simp only [Table.read, lt_irrefl, if_false, if_true, hgt] at this
          exact absurd this.symm hu.1.2
      subst hj
      have hv : v = v' := by simpa [Table.read] using h j
      subst hv
      have : rest = rest' := by
        apply ih ht.2 hu.2
        intro k
        have hk := h k
        simp only [Table.read] at hk
        split_ifs at hk with h1 h2
        · rw [Table.read_below ht.2 (by omega), Table.read_below hu.2 (by omega)]
        · rw [Table.read_below ht.2 (by omega), Table.read_below hu.2 (by omega)]
        · exact hk
      rw [this]

/-- Canonical tables that read alike are equal. -/
theorem Table.ext_of_wf {t u : Table w} (ht : Table.wf t = true) (hu : Table.wf u = true)
    (h : ∀ k, Table.read t k = Table.read u k) : t = u := Table.ext_of_wfFrom ht hu h

/-- A table built by writing is canonical. -/
theorem Table.wf_foldl_write (l : List Nat) (f : Nat → BitVec w) (t : Table w) (h : Table.wf t = true) :
    Table.wf (l.foldl (fun t k => Table.write t k (f k)) t) = true := by
  induction l generalizing t with
  | nil => exact h
  | cons k rest ih => exact ih _ (Table.wf_write _ _ h)

theorem Table.wf_tabulate (n : Nat) (f : Nat → BitVec w) : Table.wf (Table.tabulate n f) = true :=
  Table.wf_foldl_write _ f [] rfl

/-- Changing every datum keeps the canonical form. -/
theorem Table.wfFrom_mapData (f : BitVec w → BitVec w) {t : Table w} {lo : Nat} (h : Table.wfFrom lo t = true) :
    Table.wfFrom lo (Table.mapData f t) = true := by
  induction t generalizing lo with
  | nil => rfl
  | cons c rest ih =>
    obtain ⟨j, v⟩ := c
    simp only [Table.wfFrom, Bool.and_eq_true, decide_eq_true_eq] at h
    unfold Table.mapData
    split_ifs with hz
    · exact Table.wfFrom_mono (ih h.2) (by omega)
    · simp only [Table.wfFrom, Bool.and_eq_true, decide_eq_true_eq]
      exact ⟨⟨h.1.1, hz⟩, ih h.2⟩

end Sys2Proof
end

