-- ==== Sys2Proof/Laws/Registers.lean ====
section
/-!
SUPPORT. Laws/Registers.lean: the register width, reading a general register after writing one, and the bits of SR after
an update.
-/

namespace Sys2Proof.Machine

/-! ### The register width -/

/-- `trunc_W` is the value modulo 2^W. -/
theorem narrow_toNat (c : Config) (x : Word) : (narrow c x).toNat = x.toNat % 2 ^ c.xlen.bits := by
  unfold narrow
  cases h : c.xlen
  · simp only [Word.ofLo32, Word.lo32, Xlen.bits, BitVec.toNat_setWidth]; omega
  · simp only [Xlen.bits]; omega

@[simp] theorem narrow_narrow (c : Config) (x : Word) : narrow c (narrow c x) = narrow c x := by
  apply BitVec.eq_of_toNat_eq
  simp [narrow_toNat]

@[simp] theorem narrow_zero (c : Config) : narrow c 0#64 = 0#64 := by
  unfold narrow
  cases c.xlen <;> rfl

/-- On a 64-bit implementation nothing is cut. -/
theorem narrow_x64 {c : Config} (h : c.xlen = .x64) (x : Word) : narrow c x = x := by
  unfold narrow; rw [h]

/-- A 32-bit value fits every register. -/
@[simp] theorem narrow_ofLo32 (c : Config) (x : BitVec 32) : narrow c (Word.ofLo32 x) = Word.ofLo32 x := by
  apply BitVec.eq_of_toNat_eq
  rw [narrow_toNat]
  apply Nat.mod_eq_of_lt
  have h : (Word.ofLo32 x).toNat = x.toNat := by simp only [Word.ofLo32, BitVec.toNat_setWidth]; omega
  rw [h]
  cases c.xlen <;> simp only [Xlen.bits] <;> omega

theorem unsignedW_lt (c : Config) (x : Word) : unsignedW c x < 2 ^ c.xlen.bits := by
  unfold unsignedW
  rw [narrow_toNat]
  exact Nat.mod_lt _ (by positivity)

@[simp] theorem inWidth_narrow (c : Config) (x : Word) : inWidth c (narrow c x) = true := by simp [inWidth]

@[simp] theorem inWidth_ofLo32 (c : Config) (x : BitVec 32) : inWidth c (Word.ofLo32 x) = true := by simp [inWidth]

@[simp] theorem inWidth_zero (c : Config) : inWidth c 0#64 = true := by simp [inWidth]

/-! ### General registers -/

/-- A register holds a value of the register width. -/
@[simp] theorem narrow_gprOf (s : State) (set r : Nat) : narrow s.cfg (gprOf s set r) = gprOf s set r := by
  unfold gprOf
  split <;> simp

@[simp] theorem narrow_gpr (s : State) (r : Reg) : narrow s.cfg (gpr s r) = gpr s r := by simp [gpr]

/-- Reading a register after writing one, of any set. -/
theorem gprOf_setGprOf (s : State) (set r set' r' : Nat) (v : Word) (hr : r < 32) (hr' : r' < 32) :
    gprOf (s.setGprOf set r v) set' r' =
      if set' = set ∧ r' = r ∧ ¬(s.cfg.r0Hardwired = true ∧ r = 0) then narrow s.cfg v else gprOf s set' r' := by
  unfold State.setGprOf
  by_cases hz : (s.cfg.r0Hardwired && r == 0) = true
  · rw [if_pos hz]
    simp only [Bool.and_eq_true, beq_iff_eq] at hz
    simp [hz]
  · rw [if_neg hz]
    simp only [Bool.and_eq_true, beq_iff_eq, not_and] at hz
    unfold gprOf
    simp only [Table.read_write]
    by_cases he : set' = set ∧ r' = r
    · obtain ⟨rfl, rfl⟩ := he
      by_cases hw : s.cfg.r0Hardwired = true
      · simp [hw, hz hw]
      · simp [hw]
    · have hne : ¬ 32 * set' + r' = 32 * set + r := by omega
      rw [if_neg hne]
      split_ifs <;> first | rfl | (exfalso; tauto)

/-- Registers read the same in states with the same configuration and register file. -/
theorem gprOf_congr {s t : State} (hc : t.cfg = s.cfg) (hg : t.gprs = s.gprs) (set r : Nat) :
    gprOf t set r = gprOf s set r := by
  unfold gprOf; rw [hc, hg]

/-- A register write in the current set does what `registerIs` says, whatever else changes. -/
theorem registerIs_of_setGpr {s t : State} {d : Reg} {v : Word} (hc : t.cfg = s.cfg) (hx : context t = context s)
    (hg : t.gprs = (s.setGpr d v).gprs) : registerIs s t d v := by
  have read (set r : Nat) : gprOf t set r = gprOf (s.setGpr d v) set r :=
    gprOf_congr (by rw [hc, State.setGpr_cfg]) hg set r
  refine ⟨fun r => ?_, fun set r hr hset => ?_⟩
  · show gprOf t (context t) r.toNat = _
    rw [hx, read, State.setGpr, gprOf_setGprOf _ _ _ _ _ _ d.isLt r.isLt]
    have hd : r.toNat = d.toNat ↔ r = d := BitVec.toNat_inj
    have h0 : d.toNat = 0 ↔ d = 0#5 := by
      rw [← BitVec.toNat_inj]; simp
    by_cases hrd : r = d
    · subst hrd
      simp [h0, gpr]
    · have : ¬ r.toNat = d.toNat := fun h => hrd (hd.1 h)
      simp [this, hrd, gpr]
  · rw [read, State.setGpr, gprOf_setGprOf _ _ _ _ _ _ d.isLt hr]
    simp [hset]

/-- Equal register files read alike. -/
theorem registersKept_of_gprs {s t : State} (hc : t.cfg = s.cfg) (hg : t.gprs = s.gprs) : registersKept s t :=
  gprOf_congr hc hg

/-- Equal memories read alike. -/
theorem memoryKept_of_mem {s t : State} (h : t.mem = s.mem) : memoryKept s t := by
  intro pa; unfold readByte; rw [h]

/-! ### SR -/

theorem getLsbD_putBit (v : BitVec 32) (i : Nat) (b : Bool) (n : Nat) (hi : i < 32) :
    (putBit v i b).getLsbD n = if n = i then b else v.getLsbD n := by
  unfold putBit
  by_cases hn : n = i
  · subst hn
    cases b <;> simp [hi]
  · have hsh : (1#32 <<< i).getLsbD n = false := by
      simp only [BitVec.getLsbD_shiftLeft, BitVec.getLsbD_one]
      by_cases hlt : n < i
      · simp [hlt]
      · have : ¬ n - i = 0 := by omega
        simp [this]
    by_cases h32 : n < 32
    · cases b <;> simp only [if_false, if_true, Bool.false_eq_true, BitVec.getLsbD_and, BitVec.getLsbD_or,
        BitVec.getLsbD_not, hsh, hn, h32] <;> simp
    · have : v.getLsbD n = false := BitVec.getLsbD_of_ge _ _ (by omega)
      cases b <;> simp [hn, hsh, this]

@[simp] theorem srBit_advance (s : State) (n : Nat) : srBit s.advance n = srBit s n := rfl

theorem srBit_setSrBit (s : State) (i : Nat) (b : Bool) (n : Nat) (hi : i < 32) :
    srBit (s.setSrBit i b) n = if n = i then b else srBit s n := getLsbD_putBit _ _ _ _ hi

/-- Bit by bit, SR after an instruction wrote its flags. -/
theorem srBit_setFlags (s : State) (cy ov : Option Bool) (n : Nat) :
    srBit (s.setFlags cy ov) n =
      if n = 10 then cy.getD (srBit s 10) else if n = 11 then ov.getD (srBit s 11) else srBit s n := by
  have h10 : srCY = 10 := rfl
  have h11 : srOV = 11 := rfl
  cases cy <;> cases ov <;> simp only [State.setFlags, Option.getD]
  · split_ifs <;> subst_vars <;> rfl
  · rw [srBit_setSrBit _ _ _ _ (by decide), h11]
    split_ifs <;> subst_vars <;> first | rfl | omega
  · rw [srBit_setSrBit _ _ _ _ (by decide), h10]
    split_ifs <;> subst_vars <;> rfl
  · rw [srBit_setSrBit _ _ _ _ (by decide), srBit_setSrBit _ _ _ _ (by decide), h10, h11]
    split_ifs <;> subst_vars <;> first | rfl | omega

/-- Bits of SR above the flags decide the context. -/
theorem context_congr {s t : State} (hc : t.cfg = s.cfg) (h : ∀ n, 28 ≤ n → srBit t n = srBit s n) :
    context t = context s := by
  unfold context
  rw [hc]
  have : t.sr.extractLsb' 28 4 = s.sr.extractLsb' 28 4 := by
    apply BitVec.eq_of_getLsbD_eq
    intro i hi
    simp only [BitVec.getLsbD_extractLsb', hi, decide_true, Bool.true_and]
    exact h (28 + i) (by omega)
  rw [this]

@[simp] theorem context_setFlags (s : State) (cy ov : Option Bool) : context (s.setFlags cy ov) = context s :=
  context_congr (by simp) fun n hn => by
    rw [srBit_setFlags, if_neg (by omega), if_neg (by omega)]

@[simp] theorem context_setSrBit_srF (s : State) (b : Bool) : context (s.setSrBit srF b) = context s :=
  context_congr (by simp) fun n hn => by
    rw [srBit_setSrBit _ _ _ _ (by decide), if_neg (by simp only [srF]; omega)]

@[simp] theorem context_setGpr (s : State) (r : Reg) (v : Word) : context (s.setGpr r v) = context s := by
  unfold context; simp

@[simp] theorem context_advance (s : State) : context s.advance = context s := rfl

/-- The flags an instruction writes, as `flagsAre` says them. -/
theorem flagsAre_setFlags {s t : State} {cy ov : Option Bool} (h : t.sr = (s.setFlags cy ov).sr) :
    flagsAre s t none cy ov := by
  intro n _
  have hb := srBit_setFlags s cy ov n
  unfold srBit at hb
  rw [h, hb]
  by_cases h9 : n = 9
  · subst h9; simp
  · simp [h9]

/-- F as `flagsAre` says it. -/
theorem flagsAre_setF {s t : State} {v : Bool} (h : t.sr = (s.setSrBit srF v).sr) :
    flagsAre s t (some v) none none := by
  intro n _
  have hb := srBit_setSrBit s srF v n (by decide)
  unfold srBit at hb
  rw [h, hb]
  by_cases h9 : n = 9
  · subst h9; simp
  · have h9' : ¬ n = srF := h9
    rw [if_neg h9', if_neg h9]
    split_ifs <;> subst_vars <;> rfl

end Sys2Proof.Machine
end

