-- ==== Sys2Proof/Laws/Access.lean ====
section
/-!
SUPPORT. Laws/Access.lean: what translating an address, reading memory, storing and fetching can do.
-/

namespace Sys2Proof.Machine

/-! ### Attempts -/

theorem andThen_ok {α β : Type} {x : Attempt α} {f : α → State → Attempt β} {v : β} {t : State} :
    x.andThen f = .ok v t ↔ ∃ u w, x = .ok u w ∧ f u w = .ok v t := by
  cases x <;> simp [Attempt.andThen]

theorem andThen_raise {α β : Type} {x : Attempt α} {f : α → State → Attempt β} {e : Exc} {t : State} :
    x.andThen f = .raise e t ↔ x = .raise e t ∨ ∃ u w, x = .ok u w ∧ f u w = .raise e t := by
  cases x <;> simp [Attempt.andThen]

/-! ### Translation -/

/-- Writing bytes leaves the fields a translation changes as they are. -/
theorem writeBytes_with (s : State) (l : List (Nat × Byte)) (d i : Mmu) (n x y : Nat) :
    ({ s with dmmu := d, immu := i, draws := n, dtlbMisses := x, itlbMisses := y } : State).writeBytes l =
      { s.writeBytes l with dmmu := d, immu := i, draws := n, dtlbMisses := x, itlbMisses := y } := by
  induction l generalizing s with
  | nil => rfl
  | cons c rest ih =>
    obtain ⟨pa, v⟩ := c
    exact ih (s.writeByte pa v)

/-- Writing bytes in two lots. -/
theorem writeBytes_append (s : State) (l l' : List (Nat × Byte)) :
    s.writeBytes (l ++ l') = (s.writeBytes l).writeBytes l' := by
  induction l generalizing s with
  | nil => rfl
  | cons c rest ih =>
    obtain ⟨pa, v⟩ := c
    exact ih (s.writeByte pa v)

theorem mmuOnly_refl (s : State) : mmuOnly s s := ⟨[], fun _ => rfl, rfl⟩

theorem mmuOnly_trans {s t u : State} (h : mmuOnly s t) (h' : mmuOnly t u) : mmuOnly s u := by
  obtain ⟨l, hl, h⟩ := h
  obtain ⟨l', hl', h'⟩ := h'
  have hc : t.cfg = s.cfg := by rw [h]; exact State.writeBytes_cfg s l
  refine ⟨l ++ l', fun hr => ?_, ?_⟩
  · rw [hl hr, hl' (by rw [hc]; exact hr)]; rfl
  · rw [h'] ; rw [h, writeBytes_with, writeBytes_append]

/-- The fields a translation changes at will. -/
theorem mmuOnly_fields (s : State) (d i : Mmu) (n x y : Nat) :
    mmuOnly s { s with dmmu := d, immu := i, draws := n, dtlbMisses := x, itlbMisses := y } :=
  ⟨[], fun _ => rfl, rfl⟩

theorem mmuOnly_setMmu (s : State) (k : Access) (m : Mmu) (n : Nat) :
    mmuOnly s { s.setMmu k m with draws := n } := by
  cases k <;> exact mmuOnly_fields s _ _ _ _ _

theorem mmuOnly_draws (s : State) (n : Nat) : mmuOnly s { s with draws := n } := mmuOnly_fields s _ _ _ _ _

theorem mmuOnly_abandon (s t : State) : mmuOnly s (s.abandon t) := mmuOnly_fields s _ _ _ _ _

theorem mmuOnly_countMiss (s : State) (k : Access) : mmuOnly s (s.countMiss k) := by
  cases k <;> exact mmuOnly_fields s _ _ _ _ _

/-- A translation keeps the configuration. -/
theorem mmuOnly_cfg {s t : State} (h : mmuOnly s t) : t.cfg = s.cfg := by
  obtain ⟨l, -, h⟩ := h
  rw [h]; exact State.writeBytes_cfg s l

/-- Without hardware reload a translation leaves memory, and what is known of it, as they are. -/
theorem mmuOnly_noReload {s t : State} (h : mmuOnly s t) (hr : reloadsInHardware s.cfg = false) :
    t = { s with dmmu := t.dmmu, immu := t.immu, draws := t.draws, dtlbMisses := t.dtlbMisses,
                 itlbMisses := t.itlbMisses } := by
  obtain ⟨l, hl, h⟩ := h
  rw [hl hr] at h
  exact h

/-- The MMU of an access reloads in hardware. -/
theorem reloadsInHardware_of {c : Config} {k : Access} {g : MmuConfig} (h : mmuConfig c k = some g)
    (hr : g.reload = true) : reloadsInHardware c = true := by
  unfold reloadsInHardware
  cases k <;> simp only [mmuConfig] at h <;> simp [h, hr]

/-- Writing bytes is within what hardware reload may do. -/
theorem mmuOnly_writeBytes {s : State} (h : reloadsInHardware s.cfg = true) (l : List (Nat × Byte)) :
    mmuOnly s (s.writeBytes l) := by
  refine ⟨l, fun hn => ?_, rfl⟩
  rw [h] at hn; cases hn

/-- Marking the page table changes memory alone, and that only with hardware reload. -/
theorem mmuOnly_useTable {s : State} {k : Access} {g : MmuConfig} (h : mmuConfig s.cfg k = some g) (k' mark : Access)
    (ea r : Word) : mmuOnly s (s.useTable k' mark g ea r) := by
  unfold State.useTable
  split
  · next hr =>
    simp only [Bool.and_eq_true] at hr
    split
    · exact mmuOnly_writeBytes (reloadsInHardware_of h hr.1) _
    · exact mmuOnly_refl s
  · exact mmuOnly_refl s

/-- An access through an entry changes no more than a translation may, whether it succeeds or raises. -/
theorem translateHit_frame {s t : State} {k : Access} {g : MmuConfig} {ea : Word} {e : Entry}
    (hg : mmuConfig s.cfg k = some g) :
    (∀ p, translateHit s k g ea e = .ok p t → mmuOnly s t) ∧
      (∀ x, translateHit s k g ea e = .raise x t → mmuOnly s t) := by
  unfold translateHit
  constructor
  · intro p h
    simp only at h
    split_ifs at h
    cases h
    exact mmuOnly_trans (mmuOnly_useTable hg _ _ _ _) (mmuOnly_setMmu _ k _ _)
  · intro x h
    simp only at h
    split_ifs at h
    · cases h; exact mmuOnly_trans (mmuOnly_useTable hg _ _ _ _) (mmuOnly_setMmu _ k _ _)
    · cases h; exact mmuOnly_draws s _

/-- Hardware reload changes no more than a translation may, whether it succeeds or raises. -/
theorem reload_frame {s t : State} {k : Access} {g : MmuConfig} {ea : Word} (hg : mmuConfig s.cfg k = some g) :
    (∀ p, reload s k g ea = .ok p t → mmuOnly s t) ∧ (∀ x, reload s k g ea = .raise x t → mmuOnly s t) := by
  have hk (m : Mmu) (n : Nat) : mmuConfig ({ s.setMmu k m with draws := n } : State).cfg k = some g := by
    rw [mmuOnly_cfg (mmuOnly_setMmu s k m n)]; exact hg
  unfold reload
  constructor
  · intro p h
    split at h
    · exact mmuOnly_trans (mmuOnly_setMmu s k _ _) ((translateHit_frame (hk _ _)).1 _ h)
    · cases h
    · cases h
  · intro x h
    split at h
    · exact mmuOnly_trans (mmuOnly_setMmu s k _ _) ((translateHit_frame (hk _ _)).2 _ h)
    · cases h; exact mmuOnly_refl s
    · cases h; exact mmuOnly_refl s

/-- A translation changes no more than it may, whether it succeeds or raises. -/
theorem translate_frame {s t : State} {k : Access} {ea : Word} :
    (∀ p, translate s k ea = .ok p t → mmuOnly s t) ∧ (∀ e, translate s k ea = .raise e t → mmuOnly s t) := by
  have hc (g : MmuConfig) (h : mmuConfig s.cfg k = some g) : mmuConfig (s.countMiss k).cfg k = some g := by
    rw [mmuOnly_cfg (mmuOnly_countMiss s k)]; exact h
  unfold translate
  constructor
  · intro p h
    split at h
    · next g _ hg =>
      split at h
      · cases h
      · split_ifs at h
        exact mmuOnly_trans (mmuOnly_countMiss s k) ((reload_frame (hc g hg)).1 _ h)
      · exact (translateHit_frame hg).1 _ h
    · cases h; exact mmuOnly_refl s
  · intro e h
    split at h
    · next g _ hg =>
      split at h
      · cases h
      · split_ifs at h
        · exact mmuOnly_trans (mmuOnly_countMiss s k) ((reload_frame (hc g hg)).2 _ h)
        · cases h; exact mmuOnly_countMiss s k
      · exact (translateHit_frame hg).2 _ h
    · cases h

/-- Translating several addresses changes no more than a translation may. -/
theorem translateAll_frame {s t : State} {k : Access} {eas : List Word} :
    (∀ ps, translateAll s k eas = .ok ps t → mmuOnly s t) ∧
      (∀ e, translateAll s k eas = .raise e t → mmuOnly s t) := by
  induction eas generalizing s with
  | nil =>
    constructor
    · intro ps h; simp only [translateAll] at h; cases h; exact mmuOnly_refl _
    · intro e h; simp only [translateAll] at h; cases h
  | cons ea rest ih =>
    constructor
    · intro ps h
      simp only [translateAll] at h
      obtain ⟨p, u, hu, h⟩ := andThen_ok.1 h
      obtain ⟨ps', w, hw, h⟩ := andThen_ok.1 h
      cases h
      exact mmuOnly_trans (translate_frame.1 _ hu) (ih.1 _ hw)
    · intro e h
      simp only [translateAll] at h
      rcases andThen_raise.1 h with h | ⟨p, u, hu, h⟩
      · exact translate_frame.2 _ h
      · rcases andThen_raise.1 h with h | ⟨ps', w, hw, h⟩
        · exact mmuOnly_trans (translate_frame.1 _ hu) (ih.2 _ h)
        · cases h

/-- Finding the places of an operand changes no more than a translation may. -/
theorem dataAddresses_frame {s t : State} {k : Access} {ea : Word} {n : Nat} {strict : Bool} :
    (∀ ps, dataAddresses s k ea n strict = .ok ps t → mmuOnly s t) ∧
      (∀ e, dataAddresses s k ea n strict = .raise e t → mmuOnly s t) := by
  unfold dataAddresses
  split_ifs with h1 h2
  · constructor
    · intro ps h
      obtain ⟨p, u, hu, h⟩ := andThen_ok.1 h
      cases h
      exact translate_frame.1 _ hu
    · intro e h
      rcases andThen_raise.1 h with h | ⟨p, u, hu, h⟩
      · exact translate_frame.2 _ h
      · cases h
  · constructor
    · intro ps h
      split at h
      · cases h
      · exact translateAll_frame.1 _ h
    · intro e h
      split at h
      · cases h; exact mmuOnly_abandon s _
      · next x hx => exact absurd h (hx _ _)
  · constructor
    · intro ps h; cases h
    · intro e h; cases h; exact mmuOnly_refl s

/-- With translation off an address is its own physical address, without attributes, and nothing changes. -/
theorem translate_off {s : State} {k : Access} (h : translates s k = false) (ea : Word) :
    translate s k ea = .ok { pa := physical s.cfg ea, attributes := none } s := by
  unfold translate
  rw [h]

/-- An aligned operand with translation off lies at consecutive physical addresses. -/
theorem dataAddresses_off {s : State} {k : Access} {ea : Word} {n : Nat} (h : translates s k = false)
    (ha : aligned ea n = true) (strict : Bool) :
    dataAddresses s k ea n strict =
      .ok ((List.range n).map fun j => { pa := physical s.cfg ea + j, attributes := none }) s := by
  unfold dataAddresses
  rw [if_pos ha, translate_off h]
  rfl

/-- A misaligned operand, where misaligned access is not performed, raises the alignment exception. -/
theorem dataAddresses_misaligned {s : State} {k : Access} {ea : Word} {n : Nat} {strict : Bool}
    (ha : aligned ea n = false) (h : s.cfg.unalignedSupported = false ∨ strict = true) :
    dataAddresses s k ea n strict = .raise .alignment s := by
  unfold dataAddresses
  rcases h with h | h <;> simp [ha, h]

/-! ### Reading -/

/-- A read of memory that every byte answers. -/
theorem memRead_eq {s u : State} {ea : Word} {n : Nat} {strict : Bool} {ps : List Place}
    (h : dataAddresses s .load ea n strict = .ok ps u) (hm : (addressesOf ps).all (mapped s.cfg) = true) :
    memRead s ea n strict = .ok (datumAt u (addressesOf ps), addressesOf ps) u := by
  unfold memRead
  rw [h]
  simp only [Attempt.andThen, hm, if_true]

/-- A read of memory to which the bus does not answer. -/
theorem memRead_busError {s u : State} {ea : Word} {n : Nat} {strict : Bool} {ps : List Place}
    (h : dataAddresses s .load ea n strict = .ok ps u) (hm : (addressesOf ps).all (mapped s.cfg) = false) :
    memRead s ea n strict = .raise .busError (s.abandon u) := by
  unfold memRead
  rw [h]
  simp only [Attempt.andThen, hm]
  rfl

/-! ### Writing -/

/-- A byte of memory after bytes are written in order. -/
theorem readByte_writeBytes (s : State) (l : List (Nat × Byte)) (pa : Nat) :
    readByte (s.writeBytes l) pa = storedByte l (readByte s pa) pa := by
  induction l generalizing s with
  | nil => rfl
  | cons c rest ih =>
    obtain ⟨p, v⟩ := c
    rw [State.writeBytes, ih]
    unfold storedByte
    rw [List.foldl_cons]
    congr 1
    simp only [readByte, State.writeByte_mem, Table.read_write]
    by_cases h : pa = p
    · simp [h]
    · simp [h, Ne.symm h]

/-- A byte that is not written keeps its value. -/
theorem storedByte_of_notMem {l : List (Nat × Byte)} {pa : Nat} (h : pa ∉ l.map (·.1)) (old : Byte) :
    storedByte l old pa = old := by
  induction l generalizing old with
  | nil => rfl
  | cons c rest ih =>
    simp only [List.map_cons, List.mem_cons, not_or] at h
    unfold storedByte at *
    rw [List.foldl_cons, if_neg (Ne.symm h.1)]
    exact ih h.2 old

/-- The reservation after one byte is written. -/
theorem resvAfterWrite_eq (s : State) (pa : Nat) :
    resvAfterWrite s pa = if (s.resv.any fun p => sameGranule s.cfg p pa) = true then none else s.resv := by
  unfold resvAfterWrite
  split <;> simp_all

/-- The reservation after bytes are written in order. -/
theorem resv_writeBytes (s : State) (l : List (Nat × Byte)) :
    (s.writeBytes l).resv = resvAfterStore s (l.map (·.1)) := by
  induction l generalizing s with
  | nil => simp [State.writeBytes, resvAfterStore]
  | cons c rest ih =>
    obtain ⟨p, v⟩ := c
    rw [State.writeBytes, ih]
    unfold resvAfterStore
    rw [State.writeByte_resv, resvAfterWrite_eq]
    rw [State.writeByte_cfg, List.map_cons, List.any_cons]
    by_cases h : (s.resv.any fun q => sameGranule s.cfg q p) = true
    · rw [if_pos h, h]
      simp
    · rw [if_neg h, Bool.eq_false_iff.2 h, Bool.false_or]

/-- Every write of memory keeps its canonical form. -/
theorem wf_writeBytes {s : State} (l : List (Nat × Byte)) (h : Memory.wf s.mem = true) :
    Memory.wf (s.writeBytes l).mem = true := by
  induction l generalizing s with
  | nil => exact h
  | cons c rest ih =>
    obtain ⟨p, v⟩ := c
    exact ih (s := s.writeByte p v) (Table.wf_write p v h)

/-- Storing bytes writes them to memory. -/
theorem readByte_storeBytes (s : State) (l : List (Place × Byte)) (pa : Nat) :
    readByte (s.storeBytes l) pa = storedByte (l.map fun c => (c.1.pa, c.2)) (readByte s pa) pa := by
  rw [← readByte_writeBytes]
  unfold readByte
  rw [State.storeBytes_mem]

/-- The bytes a store writes, by their physical addresses. -/
theorem zip_addresses (ps : List Place) (l : List Byte) :
    (ps.zip l).map (fun c => (c.1.pa, c.2)) = (addressesOf ps).zip l := by
  unfold addressesOf
  rw [List.zip_map_left]
  rfl

/-- A byte of memory after a store. -/
theorem readByte_storeAt (s : State) (ps : List Place) (n : Nat) (v : Word) (pa : Nat) :
    readByte (s.storeAt ps n v) pa = storedByte (bytesStored s (addressesOf ps) n v) (readByte s pa) pa := by
  unfold State.storeAt bytesStored
  rw [readByte_storeBytes, zip_addresses]

/-- Every store keeps the canonical form of memory. -/
theorem wf_storeAt {s : State} (ps : List Place) (n : Nat) (v : Word) (h : Memory.wf s.mem = true) :
    Memory.wf (s.storeAt ps n v).mem = true := by
  unfold State.storeAt
  rw [State.storeBytes_mem]
  exact wf_writeBytes _ h

/-- Placing a word keeps the canonical form of memory. -/
theorem wf_placeWord {s : State} (pa : Nat) (w : BitVec 32) (h : Memory.wf s.mem = true) :
    Memory.wf (s.placeWord pa w).mem = true :=
  Table.wf_write _ _ (Table.wf_write _ _ (Table.wf_write _ _ (Table.wf_write _ _ h)))

/-- Memory after reset has the canonical form. -/
theorem wf_reset_mem (c : Config) : Memory.wf (State.resetOf c).mem = true := rfl

/-! ### Byte order -/

theorem splitBytes_length (v n : Nat) : (splitBytes v n).length = n := by
  induction n with
  | zero => rfl
  | succ n ih => simp [splitBytes, ih]

/-- Joining the bytes a number was split into gives its low bytes back. -/
theorem joinBytes_splitBytes (v n : Nat) : joinBytes (splitBytes v n) = v % 256 ^ n := by
  induction n with
  | zero => simp [splitBytes, joinBytes, Nat.mod_one]
  | succ n ih =>
    simp only [splitBytes, joinBytes, splitBytes_length, ih, BitVec.toNat_ofNat]
    rw [pow_succ 256 n, Nat.mod_mul, show (2 : Nat) ^ 8 = 256 from rfl]
    ring

/-! ### Fetching -/

/-- A fetch changes no more than a translation may. -/
theorem fetch_frame {s t : State} :
    (∀ w, fetch s = .ok w t → mmuOnly s t) ∧ (∀ e, fetch s = .raise e t → mmuOnly s t) := by
  unfold fetch
  split_ifs with h1
  · constructor
    · intro w h; cases h
    · intro e h; cases h; exact mmuOnly_refl s
  · constructor
    · intro w h
      obtain ⟨p, u, hu, h⟩ := andThen_ok.1 h
      split at h
      · cases h
        exact mmuOnly_trans (translate_frame.1 _ hu) (mmuOnly_draws _ _)
      · cases h
    · intro e h
      rcases andThen_raise.1 h with h | ⟨p, u, hu, h⟩
      · exact translate_frame.2 _ h
      · split at h
        · cases h
        · cases h
          exact mmuOnly_abandon _ _

end Sys2Proof.Machine
end

