-- ==== Sys2Proof/Laws/Completion.lean ====
section
/-!
SUPPORT. Laws/Completion.lean: what each shared way to end an instruction does: the guard, writing a register, a flag or
the accumulator, moving on, and taking an exception.
-/

namespace Sys2Proof.Machine

/-! ### The guard -/

/-- An instruction that is available does what its body says. -/
theorem checked_eq {s : State} {needs : Needs} {regs : List Reg} (h : available s needs regs) (body : Result) :
    checked s needs regs body = body := by
  obtain ⟨h1, h2⟩ := h
  simp [checked, h1, h2]

/-- What a guarded instruction can give: the illegal instruction exception, the range exception, or its body's. -/
theorem checked_cases (s : State) (needs : Needs) (regs : List Reg) (body : Result) :
    checked s needs regs body = illegal s ∨ checked s needs regs body = enter .range none s ∨
      (available s needs regs ∧ checked s needs regs body = body) := by
  unfold checked
  split_ifs with h1 h2
  · exact .inl rfl
  · exact .inr (.inl rfl)
  · refine .inr (.inr ⟨⟨?_, ?_⟩, rfl⟩)
    · simpa using h1
    · simpa using h2

/-- An instruction the implementation does not have is illegal. -/
theorem checked_unimplemented {s : State} {needs : Needs} (h : implemented s.cfg needs = false) (regs : List Reg)
    (body : Result) : checked s needs regs body = illegal s := by
  simp [checked, h]

/-- An instruction that names a register that does not exist raises the range exception. -/
theorem checked_noRegister {s : State} {needs : Needs} {regs : List Reg} (h : implemented s.cfg needs = true)
    (hr : regsExist s.cfg regs = false) (body : Result) : checked s needs regs body = enter .range none s := by
  simp [checked, h, hr]

/-! ### Completing -/

/-- Writing one register and moving on. -/
theorem writeBack_spec (s : State) (d : Reg) (v : Word) :
    ∃ t, writeBack s d v = .next t ∧ registerIs s t d v ∧ memoryKept s t ∧
      t = { movedOn s with gprs := t.gprs } := by
  refine ⟨_, rfl, registerIs_of_setGpr (by simp) (by simp) (by simp), memoryKept_of_mem (by simp), ?_⟩
  rw [State.setGpr_eq]; rfl

/-- An instruction that is available and ends in `writeBack` writes its register. -/
theorem writesRegister_of_writeBack {i : Instr} {s : State} {needs : Needs} {regs : List Reg} {d : Reg} {v : Word}
    (h : available s needs regs) (he : exec i s = checked s needs regs (writeBack s d v)) :
    writesRegister i s d v := by
  rw [checked_eq h] at he
  obtain ⟨t, ht, h1, h2, h3⟩ := writeBack_spec s d v
  exact ⟨t, he.trans ht, h1, h2, h3⟩

/-- Writing F and moving on. -/
theorem writeFlag_spec (s : State) (v : Bool) :
    ∃ t, writeFlag s v = .next t ∧ flagsAre s t (some v) none none ∧ registersKept s t ∧ memoryKept s t ∧
      t = { movedOn s with sr := t.sr } :=
  ⟨_, rfl, flagsAre_setF (by simp), registersKept_of_gprs (by simp) (by simp), memoryKept_of_mem (by simp), rfl⟩

/-- An instruction that is available and ends in `writeFlag` writes F. -/
theorem writesFlag_of_writeFlag {i : Instr} {s : State} {needs : Needs} {regs : List Reg} {v : Bool}
    (h : available s needs regs) (he : exec i s = checked s needs regs (writeFlag s v)) : writesFlag i s v := by
  rw [checked_eq h] at he
  obtain ⟨t, ht, h1, h2, h3, h4⟩ := writeFlag_spec s v
  exact ⟨t, he.trans ht, h1, h2, h3, h4⟩

/-- Writing a register with its flags, where no range exception is raised. -/
theorem arith_spec {s : State} {k : Causes} {d : Reg} {r : Arith} (h : rangeTraps s k r.cy r.ov = false) :
    ∃ t, arith s k d r = .next t ∧ registerIs s t d r.value ∧ flagsAre s t none r.cy r.ov ∧ memoryKept s t ∧
      t = { movedOn s with gprs := t.gprs, sr := t.sr } := by
  have hg : ((s.setFlags r.cy r.ov).setGpr d r.value).gprs = (s.setGpr d r.value).gprs := by
    unfold State.setGpr State.setGprOf
    rw [context_setFlags]
    simp only [State.setFlags_cfg]
    split
    · simp
    · simp
  refine ⟨((s.setFlags r.cy r.ov).setGpr d r.value).advance, by simp [arith, arithWith, h], ?_, ?_, ?_, ?_⟩
  · exact registerIs_of_setGpr (by simp) (by simp) (by simp [hg])
  · exact flagsAre_setFlags (by simp)
  · exact memoryKept_of_mem (by simp)
  · rw [State.setGpr_eq, State.setFlags_eq]; rfl

/-- An instruction that is available and ends in `arith` writes its register and flags. -/
theorem writesRegisterFlags_of_arith {i : Instr} {s : State} {needs : Needs} {regs : List Reg} {k : Causes} {d : Reg}
    {r : Arith} (h : available s needs regs) (he : exec i s = checked s needs regs (arith s k d r))
    (hr : rangeTraps s k r.cy r.ov = false) : writesRegisterFlags i s d r.value r.cy r.ov := by
  rw [checked_eq h] at he
  obtain ⟨t, ht, h1, h2, h3, h4⟩ := arith_spec (d := d) hr
  exact ⟨t, he.trans ht, h1, h2, h3, h4⟩

/-- MACHI above MACLO after a write of both. -/
theorem setMac_value (s : State) (v : BitVec 64) : (s.setMac v).machi ++ (s.setMac v).maclo = v := by
  show v.extractLsb' 32 32 ++ v.extractLsb' 0 32 = v
  apply BitVec.eq_of_getLsbD_eq
  intro n hn
  simp only [BitVec.getLsbD_append, BitVec.getLsbD_extractLsb']
  by_cases h : n < 32
  · simp [h]
  · simp [h, show n - 32 < 32 by omega, show 32 + (n - 32) = n by omega]

/-- Writing the accumulator with its flags, where no range exception is raised. -/
theorem arithWith_setMac_spec {s : State} {k : Causes} {r : Arith} (h : rangeTraps s k r.cy r.ov = false) :
    ∃ t, arithWith s k r.cy r.ov (fun t => t.setMac r.value) = .next t ∧ t.machi ++ t.maclo = r.value ∧
      flagsAre s t none r.cy r.ov ∧ registersKept s t ∧ memoryKept s t ∧
      t = { movedOn s with machi := t.machi, maclo := t.maclo, sr := t.sr } := by
  refine ⟨((s.setFlags r.cy r.ov).setMac r.value).advance, by simp [arithWith, h], ?_, ?_, ?_, ?_, ?_⟩
  · exact setMac_value (s.setFlags r.cy r.ov) r.value
  · exact flagsAre_setFlags (by simp)
  · exact registersKept_of_gprs (by simp) (by simp)
  · exact memoryKept_of_mem (by simp)
  · rw [State.setFlags_eq]; rfl

/-- An available instruction whose range exception is raised takes it in the state with its flags and AESR written. -/
theorem arithWith_traps {s : State} {k : Causes} {cy ov : Option Bool} {store : State → State}
    (h : rangeTraps s k cy ov = true) :
    arithWith s k cy ov store =
      enter .range none
        (if s.cfg.rangeWriteback then store { s.setFlags cy ov with aesr := aesrAfter s k cy ov }
          else { s.setFlags cy ov with aesr := aesrAfter s k cy ov }) := by
  simp [arithWith, h]

/-! ### Taking an exception -/

/-- Taking an exception does all that 60 R730 says. -/
theorem enter_spec {s : State} {e : Exc} (ea : Option Word) (h : canEnter s e) :
    takesException (enter e ea s) s e ea := by
  obtain ⟨h1, h2⟩ := h
  refine ⟨enterAt e ea (entryContext s) s, ?_, ?_, ?_, ?_, ?_, rfl, rfl, rfl, rfl, ?_, rfl, rfl⟩
  · simp [enter, h1, Nat.not_le.2 h2]
  · simp [enterAt]
  · simp [enterAt]
  · cases ea <;> simp [enterAt]
  · intro k hk
    cases ea <;> simp [enterAt, Table.read_write, hk]
  · exact memoryKept_of_mem rfl

/-- What taking an exception can give: the stop that DSR asks for, a refusal, or the entry. -/
theorem enter_cases (e : Exc) (ea : Option Word) (s : State) :
    (debugTakes s e = true ∧ enter e ea s = .next { s with
      debugUnit := { s.debugUnit with drr := putBit s.debugUnit.drr (e.number - 1) true }
      stopped := true
      raised := some e }) ∨
    (s.cfg.nsets ≤ entryContext s ∧ enter e ea s = .refused .cidOverflow) ∨
    (canEnter s e ∧ enter e ea s = .next (enterAt e ea (entryContext s) s)) := by
  unfold enter
  split_ifs with h1 h2
  · exact .inl ⟨h1, rfl⟩
  · exact .inr (.inl ⟨h2, rfl⟩)
  · exact .inr (.inr ⟨⟨by simpa using h1, by omega⟩, rfl⟩)

/-- A transfer of control outside a delay slot. -/
theorem transfer_eq {s : State} (h : s.ds = none) (t : State) : transfer s t = .next t := by simp [transfer, h]

/-- A transfer of control in a delay slot. -/
theorem transfer_refused {s : State} (h : s.ds ≠ none) (t : State) : transfer s t = .refused .jumpInDelaySlot := by
  cases hd : s.ds with
  | none => exact absurd hd h
  | some d => simp [transfer, hd]

end Sys2Proof.Machine
end

