-- ==== Sys2Proof/Laws/Decode.lean ====
section
/-!
SUPPORT. Laws/Decode.lean: a word and its pieces determine each other, and the immediates come back from the pieces they
were split into.
-/

namespace Sys2Proof

/-- The pieces of a word made of pieces. -/
@[simp] theorem Fields.ofWord_toWord (f : Fields) : Fields.ofWord f.toWord = f := by
  obtain ⟨op, d, a, b, lo⟩ := f
  unfold Fields.ofWord Fields.toWord
  congr 1 <;>
  · apply BitVec.eq_of_getLsbD_eq
    intro n hn
    simp only [BitVec.getLsbD_append, BitVec.getLsbD_extractLsb']
    split_ifs <;> first | omega | (simp only [hn, decide_true, Bool.true_and]; congr 1; omega)

/-- The word made of the pieces of a word. -/
@[simp] theorem Fields.toWord_ofWord (w : BitVec 32) : (Fields.ofWord w).toWord = w := by
  unfold Fields.ofWord Fields.toWord
  apply BitVec.eq_of_getLsbD_eq
  intro n hn
  simp only [BitVec.getLsbD_append, BitVec.getLsbD_extractLsb']
  split_ifs with h1 h2 h3 h4
  · simp [h1]
  · rw [decide_eq_true (by omega), Bool.true_and]; congr 1; omega
  · rw [decide_eq_true (by omega), Bool.true_and]; congr 1; omega
  · rw [decide_eq_true (by omega), Bool.true_and]; congr 1; omega
  · rw [decide_eq_true (by omega), Bool.true_and]; congr 1; omega

@[simp] theorem Fields.imm_ofImm (op : BitVec 6) (d a : BitVec 5) (i : Imm16) : (Fields.ofImm op d a i).imm = i := by
  apply BitVec.eq_of_getLsbD_eq
  intro n hn
  simp only [Fields.ofImm, Fields.imm, BitVec.getLsbD_append, BitVec.getLsbD_extractLsb']
  split_ifs with h
  · simp [h]
  · rw [decide_eq_true (by omega), Bool.true_and]; congr 1; omega

@[simp] theorem Fields.simm_ofSplit (op : BitVec 6) (a b : BitVec 5) (i : Imm16) :
    (Fields.ofSplit op a b i).simm = i := by
  apply BitVec.eq_of_getLsbD_eq
  intro n hn
  simp only [Fields.ofSplit, Fields.simm, BitVec.getLsbD_append, BitVec.getLsbD_extractLsb']
  split_ifs with h
  · simp [h]
  · rw [decide_eq_true (by omega), Bool.true_and]; congr 1; omega

@[simp] theorem Fields.off_ofOff (op : BitVec 6) (n : Imm26) : (Fields.ofOff op n).off = n := by
  apply BitVec.eq_of_getLsbD_eq
  intro k hk
  simp only [Fields.ofOff, Fields.off, BitVec.getLsbD_append, BitVec.getLsbD_extractLsb']
  split_ifs with h1 h2 h3
  · simp [h1]
  · rw [decide_eq_true (by omega), Bool.true_and]; congr 1; omega
  · rw [decide_eq_true (by omega), Bool.true_and]; congr 1; omega
  · rw [decide_eq_true (by omega), Bool.true_and]; congr 1; omega

@[simp] theorem Fields.shamt_ofShamt (d a : BitVec 5) (op2 : BitVec 2) (l : Imm6) :
    (Fields.ofShamt d a op2 l).shamt = l := by
  apply BitVec.eq_of_getLsbD_eq
  intro k hk
  simp only [Fields.ofShamt, Fields.shamt, BitVec.getLsbD_append, BitVec.getLsbD_extractLsb']
  simp [hk]

@[simp] theorem Fields.op76_ofShamt (d a : BitVec 5) (op2 : BitVec 2) (l : Imm6) :
    (Fields.ofShamt d a op2 l).op76 = op2.toNat := by
  have hl := l.isLt
  have h2 := op2.isLt
  simp only [Fields.ofShamt, Fields.op76, BitVec.toNat_append, BitVec.toNat_ofNat]
  rw [← Nat.shiftLeft_add_eq_or_of_lt (by omega), Nat.shiftLeft_eq]
  rw [← Nat.shiftLeft_add_eq_or_of_lt (by omega), Nat.shiftLeft_eq]
  omega

@[simp] theorem Fields.custL_append (op : BitVec 6) (d a b : BitVec 5) (l : Imm6) (k : Imm5) :
    Fields.custL ⟨op, d, a, b, l ++ k⟩ = l := by
  apply BitVec.eq_of_getLsbD_eq
  intro n hn
  simp only [Fields.custL, BitVec.getLsbD_append, BitVec.getLsbD_extractLsb']
  simp [hn]

@[simp] theorem Fields.custK_append (op : BitVec 6) (d a b : BitVec 5) (l : Imm6) (k : Imm5) :
    Fields.custK ⟨op, d, a, b, l ++ k⟩ = k := by
  apply BitVec.eq_of_getLsbD_eq
  intro n hn
  simp only [Fields.custK, BitVec.getLsbD_append, BitVec.getLsbD_extractLsb']
  simp [hn]

end Sys2Proof
end

