-- ==== Sys2Proof/Laws/Invariant.lean ====
section
/-!
SUPPORT. Laws/Invariant.lean: the shared operations keep the invariant `State.wf`.
-/

namespace Sys2Proof.Machine

/-! ### The invariant by parts -/

/-- What the invariant says of SR. -/
def srOk (s : State) : Prop := srValue s.cfg s.sr = s.sr ∧ context s < s.cfg.nsets

/-- What the invariant says of pc and the delay slot. -/
def pcOk (s : State) : Prop :=
  inWidth s.cfg s.pc = true ∧ ∀ d, s.ds = some d → inWidth s.cfg d.jump = true ∧ inWidth s.cfg d.next = true

/-- What the invariant says of the registers with reserved bits. -/
def reservedOk (s : State) : Prop :=
  s.fpcsr &&& 0xFFFFF000#32 = 0#32 ∧ s.evbar &&& 0x1FFF#32 = 0#32 ∧ s.aecr &&& 0xFFFFFF80#32 = 0#32 ∧
    s.aesr &&& 0xFFFFFF80#32 = 0#32

theorem wf_iff (s : State) : s.wf = true ↔ s.cfg.wf = true ∧ Memory.wf s.mem = true ∧ Table.wf s.gprs = true ∧
    srOk s ∧ pcOk s ∧ reservedOk s := by
  unfold State.wf srOk pcOk reservedOk
  cases h : s.ds <;> simp only [Bool.and_eq_true, decide_eq_true_eq] <;> simp
  · tauto
  · tauto

/-- The invariant depends on these fields alone. -/
theorem wf_congr {s t : State} (h : s.wf = true) (hc : t.cfg = s.cfg) (hm : t.mem = s.mem) (hg : t.gprs = s.gprs)
    (hs : t.sr = s.sr) (hp : t.pc = s.pc) (hd : t.ds = s.ds) (hf : t.fpcsr = s.fpcsr) (he : t.evbar = s.evbar)
    (ha : t.aecr = s.aecr) (hb : t.aesr = s.aesr) : t.wf = true := by
  rw [wf_iff] at *
  unfold srOk pcOk reservedOk context at *
  rw [hc, hm, hg, hs, hp, hd, hf, he, ha, hb]
  exact h

/-! ### Single updates -/

/-- Writing bytes of memory keeps the invariant. -/
theorem wf_writeBytes' {s : State} (h : s.wf = true) (l : List (Nat × Byte)) : (s.writeBytes l).wf = true := by
  have hm := wf_writeBytes l ((wf_iff s).1 h).2.1
  rw [wf_iff] at *
  unfold srOk pcOk reservedOk context at *
  simp only [State.writeBytes_cfg, State.writeBytes_gprs, State.writeBytes_sr, State.writeBytes_pc, State.writeBytes_ds,
    State.writeBytes_fpcsr, State.writeBytes_evbar, State.writeBytes_aecr, State.writeBytes_aesr]
  exact ⟨h.1, hm, h.2.2⟩

theorem wf_mmuOnly {s t : State} (h : s.wf = true) (ht : mmuOnly s t) : t.wf = true := by
  obtain ⟨l, -, ht⟩ := ht
  rw [ht]; exact wf_congr (wf_writeBytes' h l) rfl rfl rfl rfl rfl rfl rfl rfl rfl rfl

theorem wf_gprs {s t : State} (h : s.wf = true) (ht : t = { s with gprs := t.gprs }) (hg : Table.wf t.gprs = true) :
    t.wf = true := by
  rw [wf_iff] at *
  rw [ht]
  exact ⟨h.1, h.2.1, hg, h.2.2.2⟩

theorem wf_setGprOf {s : State} (h : s.wf = true) (set r : Nat) (v : Word) : (s.setGprOf set r v).wf = true := by
  unfold State.setGprOf
  split
  · exact h
  · refine wf_gprs h rfl (Table.wf_write _ _ ?_)
    exact ((wf_iff s).1 h).2.2.1

theorem wf_setGpr {s : State} (h : s.wf = true) (r : Reg) (v : Word) : (s.setGpr r v).wf = true := wf_setGprOf h _ _ _

/-- A value that SR can hold: FO set, and no bit set that a write does not change. -/
theorem srValue_eq_iff (c : Config) (v : BitVec 32) :
    srValue c v = v ↔ v.getLsbD 15 = true ∧
      ∀ n, n < 32 → n ≠ 15 → v.getLsbD n = true → (srWritable c).getLsbD n = true := by
  have hbit (n : Nat) (hn : n < 32) : (0x8000#32).getLsbD n = decide (n = 15) := by
    interval_cases n <;> rfl
  constructor
  · intro h
    constructor
    · rw [← h]; simp [srValue]
    · intro n hn h15 hv
      rw [← h] at hv
      simp only [srValue, BitVec.getLsbD_or, BitVec.getLsbD_and, hbit n hn, h15, decide_false, Bool.or_false,
        Bool.and_eq_true] at hv
      exact hv.2
  · rintro ⟨h15, h⟩
    apply BitVec.eq_of_getLsbD_eq
    intro n hn
    simp only [srValue, BitVec.getLsbD_or, BitVec.getLsbD_and, hbit n hn]
    by_cases hk : n = 15
    · subst hk; simp [h15]
    · cases hv : v.getLsbD n
      · simp [hk]
      · simp [hk, h n hn hk hv]

/-- The bits that every implementation lets a write change. -/
theorem srWritable_base (c : Config) {n : Nat} (h : (0x00017E07#32).getLsbD n = true) :
    (srWritable c).getLsbD n = true := by
  unfold srWritable
  simp only [BitVec.getLsbD_or, h, Bool.true_or]

/-- With more than one register set CE and CID can be written. -/
theorem srWritable_cid {c : Config} (hc : 1 < c.nsets) {n : Nat} (h : (0xF0000100#32).getLsbD n = true) :
    (srWritable c).getLsbD n = true := by
  unfold srWritable
  simp only [BitVec.getLsbD_or, if_neg (Nat.not_le.2 hc), h, Bool.or_true, Bool.true_or]

/-- Clearing bits of SR but FO, and changing bits that every implementation can write, keeps it a value SR can hold. -/
theorem srValue_of_bits {c : Config} {v w : BitVec 32} (h : srValue c v = v)
    (hb : ∀ n, n < 32 → w.getLsbD n = v.getLsbD n ∨ (0x00017E07#32).getLsbD n = true ∨
      (w.getLsbD n = false ∧ n ≠ 15)) : srValue c w = w := by
  rw [srValue_eq_iff] at *
  obtain ⟨h1, h2⟩ := h
  constructor
  · rcases hb 15 (by omega) with hk | hk | hk
    · rw [hk, h1]
    · exact absurd hk (by decide)
    · exact absurd rfl hk.2
  · intro n hn h15 hw
    rcases hb n hn with hk | hk | hk
    · exact h2 n hn h15 (hk ▸ hw)
    · exact srWritable_base c hk
    · rw [hk.1] at hw; cases hw

/-- Changing only bits of SR that every implementation can write, none of CID, keeps what the invariant says. -/
theorem srOk_of_bits {s t : State} (h : srOk s) (hc : t.cfg = s.cfg)
    (hb : ∀ n, n < 32 → t.sr.getLsbD n = s.sr.getLsbD n ∨ (0x00017E07#32).getLsbD n = true) : srOk t := by
  obtain ⟨h1, h2⟩ := h
  constructor
  · rw [hc]
    exact srValue_of_bits h1 fun n hn => (hb n hn).imp id Or.inl
  · have : context t = context s := context_congr hc fun n hn => by
      by_cases h32 : n < 32
      · rcases hb n h32 with hk | hk
        · exact hk
        · interval_cases n <;> simp_all
      · unfold srBit
        rw [BitVec.getLsbD_of_ge _ _ (by omega), BitVec.getLsbD_of_ge _ _ (by omega)]
    rw [this, hc]; exact h2

theorem wf_sr {s t : State} (h : s.wf = true) (ht : t = { s with sr := t.sr }) (hs : srOk t) : t.wf = true := by
  rw [wf_iff] at *
  obtain ⟨h1, h2, h3, h4, h5, h6⟩ := h
  rw [ht] at hs ⊢
  exact ⟨h1, h2, h3, hs, h5, h6⟩

theorem wf_setFlags {s : State} (h : s.wf = true) (cy ov : Option Bool) : (s.setFlags cy ov).wf = true := by
  refine wf_sr h (State.setFlags_eq s cy ov) (srOk_of_bits ((wf_iff s).1 h).2.2.2.1 (by simp) fun n _ => ?_)
  have hb := srBit_setFlags s cy ov n
  unfold srBit at hb
  rw [hb]
  split_ifs with h1 h2
  · subst h1; right; decide
  · subst h2; right; decide
  · left; rfl

theorem wf_setF {s : State} (h : s.wf = true) (v : Bool) : (s.setSrBit srF v).wf = true := by
  refine wf_sr h rfl (srOk_of_bits ((wf_iff s).1 h).2.2.2.1 (by simp) fun n _ => ?_)
  have hb := srBit_setSrBit s srF v n (by decide)
  unfold srBit at hb
  rw [hb]
  split_ifs with h1
  · subst h1; right; decide
  · left; rfl

/-- The next program counter has the register width. -/
theorem inWidth_seqPc {s : State} (h : pcOk s) : inWidth s.cfg (seqPc s) = true := by
  unfold seqPc
  split
  · next d hd => exact (h.2 d hd).2
  · simp

/-- A new pc, a new previous pc and a new delay slot. -/
theorem wf_pc {s t : State} (h : s.wf = true) (ht : t = { s with pc := t.pc, ppc := t.ppc, ds := t.ds })
    (hp : pcOk t) : t.wf = true := by
  rw [wf_iff] at *
  obtain ⟨h1, h2, h3, h4, h5, h6⟩ := h
  rw [ht] at hp ⊢
  exact ⟨h1, h2, h3, h4, hp, h6⟩

theorem wf_advance {s : State} (h : s.wf = true) : s.advance.wf = true :=
  wf_pc h rfl ⟨inWidth_seqPc ((wf_iff s).1 h).2.2.2.2.1, by intro d hd; cases hd⟩

theorem wf_branchTo {s : State} (h : s.wf = true) {t : Word} (ht : inWidth s.cfg t = true) :
    (s.branchTo t).wf = true := by
  have hp := ((wf_iff s).1 h).2.2.2.2.1
  unfold State.branchTo
  split
  · exact wf_pc h rfl ⟨ht, by intro d hd; cases hd⟩
  · refine wf_pc h rfl ⟨inWidth_seqPc hp, ?_⟩
    intro d hd; cases hd; exact ⟨hp.1, ht⟩

theorem wf_fallThrough {s : State} (h : s.wf = true) : s.fallThrough.wf = true := by
  have hp := ((wf_iff s).1 h).2.2.2.2.1
  unfold State.fallThrough
  split
  · exact wf_advance h
  · refine wf_pc h rfl ⟨inWidth_seqPc hp, ?_⟩
    intro d hd; cases hd; exact ⟨hp.1, by simp⟩

theorem wf_setMac {s : State} (h : s.wf = true) (v : BitVec 64) : (s.setMac v).wf = true :=
  wf_congr h rfl rfl rfl rfl rfl rfl rfl rfl rfl rfl

theorem wf_mem {s t : State} (h : s.wf = true)
    (ht : t = { s with mem := t.mem, resv := t.resv, stale := t.stale, unwritten := t.unwritten })
    (hm : Memory.wf t.mem = true) : t.wf = true := by
  rw [wf_iff] at *
  rw [ht]
  exact ⟨h.1, hm, h.2.2⟩

theorem wf_storeAt' {s : State} (h : s.wf = true) (ps : List Place) (n : Nat) (v : Word) :
    (s.storeAt ps n v).wf = true := by
  unfold State.storeAt
  rw [State.storeBytes_eq]
  exact wf_congr (wf_writeBytes' h _) rfl rfl rfl rfl rfl rfl rfl rfl rfl rfl

/-! ### Results -/

/-- Where the result is a next state, the invariant holds in it. -/
def resultWf (r : Result) : Prop := ∀ t, r = .next t → t.wf = true

theorem resultWf_next {t : State} (h : t.wf = true) : resultWf (.next t) := by
  intro u hu; cases hu; exact h

theorem resultWf_refused (r : Refusal) : resultWf (.refused r) := by intro t h; cases h

theorem resultWf_fault (r : Fault) : resultWf (.fault r) := by intro t h; cases h

/-! ### CID -/

theorem cidField_putCid (v : BitVec 32) {n : Nat} (h : n < 16) : cidField (putCid v n) = n := by
  have : (putCid v n).extractLsb' 28 4 = BitVec.ofNat 4 n := by
    apply BitVec.eq_of_getLsbD_eq
    intro i hi
    simp only [putCid, BitVec.getLsbD_extractLsb', BitVec.getLsbD_or, BitVec.getLsbD_and, BitVec.getLsbD_append]
    have hz : (0x0FFFFFFF#32).getLsbD (28 + i) = false := by interval_cases i <;> rfl
    simp [hi, hz]
  unfold cidField
  rw [this, BitVec.toNat_ofNat]
  exact Nat.mod_eq_of_lt h

theorem getLsbD_putCid_low (v : BitVec 32) (n i : Nat) (h : i < 28) : (putCid v n).getLsbD i = v.getLsbD i := by
  simp only [putCid, BitVec.getLsbD_or, BitVec.getLsbD_and, BitVec.getLsbD_append, h, if_true]
  have ho : (0x0FFFFFFF#32).getLsbD i = true := by interval_cases i <;> rfl
  simp [ho]

/-- Replacing CID keeps SR a value it can hold, where there is more than one register set. -/
theorem srValue_putCid {c : Config} (hc : 1 < c.nsets) {v : BitVec 32} (h : srValue c v = v) (n : Nat) :
    srValue c (putCid v n) = putCid v n := by
  rw [srValue_eq_iff] at *
  obtain ⟨h1, h2⟩ := h
  constructor
  · rw [getLsbD_putCid_low _ _ _ (by omega)]; exact h1
  · intro i hi h15 hv
    by_cases hlt : i < 28
    · rw [getLsbD_putCid_low _ _ _ hlt] at hv
      exact h2 i hi h15 hv
    · apply srWritable_cid hc
      interval_cases i <;> rfl

theorem context_eq_cid {s : State} (h : 1 < s.cfg.nsets) : context s = cidField s.sr := by
  unfold context cidField
  rw [if_neg (Nat.not_le.2 h)]

theorem nsets_le_of_wf {c : Config} (h : c.wf = true) : 1 ≤ c.nsets ∧ c.nsets ≤ 16 := by
  unfold Config.wf at h
  simp only [Bool.and_eq_true, decide_eq_true_eq] at h
  exact h.1.1.1.1.1.1.1.1.1.1.1.1.1.2

/-! ### Exceptions -/

/-- SR of exception entry. -/
theorem srOk_entry {s t : State} (h : srOk s) (hc : s.cfg.wf = true) (hx : entryContext s < s.cfg.nsets)
    (htc : t.cfg = s.cfg) (ht : t.sr = entrySr s (entryContext s)) : srOk t := by
  have hn := nsets_le_of_wf hc
  have hv : srValue s.cfg ((s.sr &&& ~~~0x00002066#32) ||| 1#32 ||| (if s.ds.isSome then 0x2000#32 else 0#32)) =
      (s.sr &&& ~~~0x00002066#32) ||| 1#32 ||| (if s.ds.isSome then 0x2000#32 else 0#32) := by
    refine srValue_of_bits h.1 fun n hn => ?_
    simp only [BitVec.getLsbD_or, BitVec.getLsbD_and, BitVec.getLsbD_not, hn, decide_true, Bool.true_and]
    by_cases hw : (0x00017E07#32).getLsbD n = true
    · exact .inr (.inl hw)
    · have hz : (1#32).getLsbD n = false ∧ (if s.ds.isSome then 0x2000#32 else 0#32).getLsbD n = false := by
        split <;> interval_cases n <;> simp_all
      rw [hz.1, hz.2, Bool.or_false, Bool.or_false]
      cases hm : (0x00002066#32).getLsbD n
      · left; simp
      · right; right
        refine ⟨by simp, ?_⟩
        rintro rfl
        exact absurd hm (by decide)
  unfold srOk
  rw [htc, ht]
  by_cases h1 : s.cfg.nsets ≤ 1
  · unfold entrySr context
    rw [htc, if_pos h1, if_pos h1]
    exact ⟨hv, by omega⟩
  · have h1' : 1 < t.cfg.nsets := by rw [htc]; omega
    rw [context_eq_cid h1', ht]
    unfold entrySr
    simp only [h1, if_false]
    exact ⟨srValue_putCid (by omega) hv _, by rw [cidField_putCid _ (by omega)]; exact hx⟩

theorem wf_enterAt {s : State} (e : Exc) (ea : Option Word) (h : s.wf = true)
    (hx : entryContext s < s.cfg.nsets) : (enterAt e ea (entryContext s) s).wf = true := by
  rw [wf_iff] at *
  obtain ⟨h1, h2, h3, h4, h5, h6⟩ := h
  refine ⟨h1, h2, h3, srOk_entry h4 h1 hx rfl rfl, ⟨inWidth_ofLo32 _ _, ?_⟩, h6⟩
  intro d hd; cases hd

/-- Taking an exception keeps the invariant. -/
theorem resultWf_enter {s : State} (e : Exc) (ea : Option Word) (h : s.wf = true) : resultWf (enter e ea s) := by
  rcases enter_cases e ea s with ⟨_, hr⟩ | ⟨_, hr⟩ | ⟨hc, hr⟩
  · rw [hr]; exact resultWf_next (wf_congr h rfl rfl rfl rfl rfl rfl rfl rfl rfl rfl)
  · rw [hr]; exact resultWf_refused _
  · rw [hr]; exact resultWf_next (wf_enterAt e ea h hc.2)

theorem resultWf_illegal {s : State} (h : s.wf = true) : resultWf (illegal s) := resultWf_enter _ _ h

/-- A value written to SR is one it can hold. -/
theorem srValue_srValue (c : Config) (v : BitVec 32) : srValue c (srValue c v) = srValue c v := by
  have hbit (n : Nat) (hn : n < 32) : (0x8000#32).getLsbD n = decide (n = 15) := by
    interval_cases n <;> rfl
  rw [srValue_eq_iff]
  constructor
  · simp [srValue]
  · intro n hn h15 hv
    simp only [srValue, BitVec.getLsbD_or, BitVec.getLsbD_and, hbit n hn, h15, decide_false, Bool.or_false,
      Bool.and_eq_true] at hv
    exact hv.2

/-- Returning from an exception keeps the invariant. -/
theorem resultWf_returnFrom {s : State} (h : s.wf = true) : resultWf (returnFrom s) := by
  rw [wf_iff] at h
  obtain ⟨h1, h2, h3, h4, h5, h6⟩ := h
  have hn := nsets_le_of_wf h1
  have done (v : BitVec 32) (hv : srValue s.cfg v = v) (hx : s.cfg.nsets ≤ 1 ∨ cidField v < s.cfg.nsets) :
      resultWf (.next { s with
        pc := narrow s.cfg (Table.read s.epcr (context s)), ppc := s.pc, sr := v, ds := none }) := by
    refine resultWf_next ((wf_iff _).2 ⟨h1, h2, h3, ⟨hv, ?_⟩, ⟨by simp, by intro d hd; cases hd⟩, h6⟩)
    rcases hx with hx | hx
    · simp only [context, hx, if_true]; omega
    · by_cases hm : s.cfg.nsets ≤ 1
      · simp only [context, hm, if_true]; omega
      · simp only [context, hm, if_false]; exact hx
  unfold returnFrom
  simp only
  split_ifs with c1 c2 c3 c4
  · exact done _ (srValue_srValue _ _) (.inl c1)
  · exact resultWf_refused _
  · have hx := h4.2
    refine done _ (srValue_putCid (by omega) (srValue_srValue _ _) _) (.inr ?_)
    rw [cidField_putCid _ (by omega)]
    omega
  · exact resultWf_refused _
  · exact done _ (srValue_srValue _ _) (.inr (by omega))

/-! ### Completing -/

theorem resultWf_checked {s : State} {needs : Needs} {regs : List Reg} {body : Result} (h : s.wf = true)
    (hb : resultWf body) : resultWf (checked s needs regs body) := by
  rcases checked_cases s needs regs body with hr | hr | ⟨_, hr⟩ <;> rw [hr]
  · exact resultWf_illegal h
  · exact resultWf_enter _ _ h
  · exact hb

theorem resultWf_writeBack {s : State} (h : s.wf = true) (d : Reg) (v : Word) : resultWf (writeBack s d v) :=
  resultWf_next (wf_advance (wf_setGpr h d v))

theorem resultWf_writeFlag {s : State} (h : s.wf = true) (v : Bool) : resultWf (writeFlag s v) :=
  resultWf_next (wf_advance (wf_setF h v))

/-- The bits AESR can receive. -/
theorem aesr_reserved {s : State} (h : s.aesr &&& 0xFFFFFF80#32 = 0#32) {k : Causes} (h1 : k.cyBit < 7)
    (h2 : k.ovBit < 7) (cy ov : Option Bool) : aesrAfter s k cy ov &&& 0xFFFFFF80#32 = 0#32 := by
  have hb (n : Nat) (hn : n < 7) (b : Bool) :
      (if b = true then 1#32 <<< n else 0#32) &&& 0xFFFFFF80#32 = 0#32 := by
    cases b
    · simp
    · interval_cases n <;> decide
  unfold aesrAfter
  split
  · rw [show ∀ a b c m : BitVec 32, (a ||| b ||| c) &&& m = (a &&& m) ||| (b &&& m) ||| (c &&& m) by
      intro a b c m; ext i; simp; grind]
    rw [h, hb _ h1, hb _ h2]; rfl
  · exact h

theorem resultWf_arithWith {s : State} (h : s.wf = true) {k : Causes} (h1 : k.cyBit < 7) (h2 : k.ovBit < 7)
    (cy ov : Option Bool) {store : State → State} (hs : ∀ t : State, t.wf = true → (store t).wf = true) :
    resultWf (arithWith s k cy ov store) := by
  have ht := wf_setFlags h cy ov
  have ha : ({ s.setFlags cy ov with aesr := aesrAfter s k cy ov } : State).wf = true := by
    rw [wf_iff] at h ht ⊢
    obtain ⟨g1, g2, g3, g4, g5, g6⟩ := ht
    exact ⟨g1, g2, g3, g4, g5, g6.1, g6.2.1, g6.2.2.1, aesr_reserved h.2.2.2.2.2.2.2.2 h1 h2 cy ov⟩
  unfold arithWith
  simp only
  split_ifs
  · exact resultWf_enter _ _ (hs _ ha)
  · exact resultWf_enter _ _ ha
  · exact resultWf_next (wf_advance (hs _ ht))

theorem resultWf_arith {s : State} (h : s.wf = true) {k : Causes} (h1 : k.cyBit < 7) (h2 : k.ovBit < 7) (d : Reg)
    (r : Arith) : resultWf (arith s k d r) := resultWf_arithWith h h1 h2 _ _ fun _ ht => wf_setGpr ht _ _

theorem resultWf_transfer {s t : State} (h : t.wf = true) : resultWf (transfer s t) := by
  unfold transfer
  split
  · exact resultWf_refused _
  · exact resultWf_next h

theorem resultWf_userViolation {s t : State} (h : s.wf = true) (ht : t.wf = true) : resultWf (userViolation s t) := by
  unfold userViolation
  split
  · exact resultWf_refused _
  · exact resultWf_illegal h
  · exact resultWf_next ht

/-! ### Loads and stores -/

theorem resultWf_finish {α : Type} {x : Attempt α} {s : State} {ea : Word} {f : α → State → Result} (h : s.wf = true)
    (hr : ∀ e t, x = .raise e t → mmuOnly s t) (hf : ∀ v t, x = .ok v t → resultWf (f v t)) :
    resultWf (x.finish ea f) := by
  cases x with
  | ok v t => exact hf v t rfl
  | raise e t => exact resultWf_enter _ _ (wf_mmuOnly h (hr e t rfl))
  | refuse r => exact resultWf_refused _

/-- A read of memory changes no more than a translation may. -/
theorem memRead_frame {s t : State} {ea : Word} {n : Nat} {strict : Bool} :
    (∀ r, memRead s ea n strict = .ok r t → mmuOnly s t) ∧ (∀ e, memRead s ea n strict = .raise e t → mmuOnly s t) := by
  unfold memRead
  constructor
  · intro r h
    obtain ⟨pas, u, hu, h⟩ := andThen_ok.1 h
    split at h
    · cases h; exact dataAddresses_frame.1 _ hu
    · cases h
  · intro e h
    rcases andThen_raise.1 h with h | ⟨pas, u, hu, h⟩
    · exact dataAddresses_frame.2 _ h
    · split at h
      · cases h
      · cases h; exact mmuOnly_abandon _ _

/-- A write of memory changes what a translation may and what the store writes. -/
theorem memWrite_frame {s t : State} {ea : Word} {n : Nat} {v : Word} :
    (memWrite s ea n v = .ok () t → ∃ u ps, mmuOnly s u ∧ t = u.storeAt ps n v) ∧
      (∀ e, memWrite s ea n v = .raise e t → mmuOnly s t) := by
  unfold memWrite
  constructor
  · intro h
    obtain ⟨pas, u, hu, h⟩ := andThen_ok.1 h
    split at h
    · cases h; exact ⟨u, pas, dataAddresses_frame.1 _ hu, rfl⟩
    · cases h
  · intro e h
    rcases andThen_raise.1 h with h | ⟨pas, u, hu, h⟩
    · exact dataAddresses_frame.2 _ h
    · split at h
      · cases h
      · cases h; exact mmuOnly_abandon _ _

theorem resultWf_loadWith {s : State} (h : s.wf = true) (d : Reg) (ea : Word) (n : Nat) (ext : Word → Word) :
    resultWf (loadWith s d ea n ext) :=
  resultWf_finish h (fun _ _ hr => memRead_frame.2 _ hr) fun _ _ hv =>
    resultWf_writeBack (wf_mmuOnly h (memRead_frame.1 _ hv)) _ _

theorem resultWf_loadReserve {s : State} (h : s.wf = true) (d : Reg) (ea : Word) : resultWf (loadReserve s d ea) :=
  resultWf_finish h (fun _ _ hr => memRead_frame.2 _ hr) fun _ _ hv => by
    refine resultWf_writeBack ?_ _ _
    exact wf_congr (wf_mmuOnly h (memRead_frame.1 _ hv)) rfl rfl rfl rfl rfl rfl rfl rfl rfl rfl

theorem resultWf_storeWith {s : State} (h : s.wf = true) (ea : Word) (n : Nat) (v : Word) :
    resultWf (storeWith s ea n v) :=
  resultWf_finish h (fun _ _ hr => memWrite_frame.2 _ hr) fun _ t hv => by
    obtain ⟨u, pas, hu, rfl⟩ := memWrite_frame.1 hv
    exact resultWf_next (wf_advance (wf_storeAt' (wf_mmuOnly h hu) _ _ _))

theorem resultWf_storeConditional {s : State} (h : s.wf = true) (ea : Word) (v : Word) :
    resultWf (storeConditional s ea v) := by
  refine resultWf_finish h (fun _ _ hr => dataAddresses_frame.2 _ hr) fun pas t hv => ?_
  have ht := wf_mmuOnly h (dataAddresses_frame.1 _ hv)
  split_ifs
  · refine resultWf_writeFlag ?_ _
    exact wf_congr (wf_storeAt' ht pas 4 v) rfl rfl rfl rfl rfl rfl rfl rfl rfl rfl
  · exact resultWf_enter _ _ (wf_congr h rfl rfl rfl rfl rfl rfl rfl rfl rfl rfl)
  · refine resultWf_writeFlag ?_ _
    exact wf_congr h rfl rfl rfl rfl rfl rfl rfl rfl rfl rfl

/-! ### Floating point and vectors -/

theorem fpcsr_reserved {s : State} (h : s.fpcsr &&& 0xFFFFF000#32 = 0#32) (flags : BitVec 9) :
    fpcsrAfter s flags &&& 0xFFFFF000#32 = 0#32 := by
  have hf : (flags.setWidth 32 <<< 3) &&& 0xFFFFF000#32 = 0#32 := by
    apply BitVec.eq_of_getLsbD_eq
    intro n hn
    simp only [BitVec.getLsbD_and, BitVec.getLsbD_shiftLeft, BitVec.getLsbD_setWidth, BitVec.getLsbD_zero]
    by_cases h12 : n < 12
    · have : (0xFFFFF000#32).getLsbD n = false := by interval_cases n <;> rfl
      simp [this]
    · rw [BitVec.getLsbD_of_ge flags _ (by omega)]; simp
  unfold fpcsrAfter
  split
  · rw [show ∀ a b m : BitVec 32, (a ||| b) &&& m = (a &&& m) ||| (b &&& m) by intro a b m; ext i; simp; grind, h, hf]
    rfl
  · rw [show ∀ a b c m : BitVec 32, ((a &&& c) ||| b) &&& m = ((a &&& m) &&& c) ||| (b &&& m) by
      intro a b c m; ext i; simp; grind, h, hf]
    simp

theorem wf_fpcsr {s t : State} (h : s.wf = true) (ht : t = { s with fpcsr := t.fpcsr })
    (hf : t.fpcsr &&& 0xFFFFF000#32 = 0#32) : t.wf = true := by
  rw [wf_iff] at *
  obtain ⟨g1, g2, g3, g4, g5, g6⟩ := h
  rw [ht]
  exact ⟨g1, g2, g3, g4, g5, hf, g6.2⟩

theorem resultWf_floatComplete {s : State} (h : s.wf = true) (d : Reg) (r : FloatResult) :
    resultWf (floatComplete s d r) := by
  have hf := fpcsr_reserved ((wf_iff s).1 h).2.2.2.2.2.1 r.flags
  have ht : ({ s.setGpr d r.value with fpcsr := fpcsrAfter s r.flags } : State).wf = true :=
    wf_fpcsr (wf_setGpr h d r.value) rfl hf
  unfold floatComplete
  simp only
  split_ifs
  · exact resultWf_enter _ _ ht
  · exact resultWf_next (wf_advance ht)

theorem resultWf_floatFlag {s : State} (h : s.wf = true) (v invalid : Bool) : resultWf (floatFlag s v invalid) := by
  have hf := ((wf_iff s).1 h).2.2.2.2.2.1
  refine resultWf_writeFlag (wf_fpcsr h rfl ?_) v
  show (if (s.cfg.fpCmpFlags && invalid) = true then s.fpcsr ||| 0x200#32 else s.fpcsr) &&& 0xFFFFF000#32 = 0#32
  split
  · rw [show ∀ a b m : BitVec 32, (a ||| b) &&& m = (a &&& m) ||| (b &&& m) by intro a b m; ext i; simp; grind, hf]
    decide
  · exact hf

theorem resultWf_vectorFlag {s : State} (h : s.wf = true) (d : Reg) (v : Bool) : resultWf (vectorFlag s d v) := by
  unfold vectorFlag
  split
  · exact resultWf_writeBack (wf_setF h v) _ _
  · exact resultWf_writeBack h _ _

/-! ### Special-purpose registers -/

theorem wf_moveOn {s t : State} (h : s.wf = true) (ht : t.wf = true) (hc : t.cfg = s.cfg) : (moveOn s t).wf = true := by
  refine wf_pc ht rfl ⟨?_, by intro d hd; cases hd⟩
  show inWidth t.cfg (seqPc s) = true
  rw [hc]
  exact inWidth_seqPc ((wf_iff s).1 h).2.2.2.2.1

/-- No bit outside a mask survives it. -/
theorem and_reserved (x m n : BitVec 32) (h : m &&& n = 0#32) : (x &&& m) &&& n = 0#32 := by
  rw [BitVec.and_assoc, h]; simp

theorem wf_writeSr {s t : State} {v : BitVec 32} (h : s.wf = true) (ht : writeSr s v = .ok t) :
    t.wf = true ∧ t.cfg = s.cfg := by
  unfold writeSr at ht
  split at ht
  · cases ht
  · next hn =>
    cases ht
    rw [wf_iff] at *
    obtain ⟨g1, g2, g3, g4, g5, g6⟩ := h
    have hs := nsets_le_of_wf g1
    refine ⟨⟨g1, g2, g3, ⟨srValue_srValue _ _, ?_⟩, g5, g6⟩, rfl⟩
    by_cases h1 : s.cfg.nsets ≤ 1
    · simp only [context, h1, if_true]; omega
    · have hcid : cidField (srValue s.cfg v) = cidField v := by
        unfold cidField
        congr 1
        apply BitVec.eq_of_getLsbD_eq
        intro i hi
        simp only [BitVec.getLsbD_extractLsb', hi, decide_true, Bool.true_and, srValue, BitVec.getLsbD_or,
          BitVec.getLsbD_and]
        have hw : (srWritable s.cfg).getLsbD (28 + i) = true :=
          srWritable_cid (by omega) (by interval_cases i <;> rfl)
        have hz : (0x8000#32).getLsbD (28 + i) = false := by interval_cases i <;> rfl
        simp [hw, hz]
      rw [context_eq_cid (by show 1 < s.cfg.nsets; omega)]
      show cidField (srValue s.cfg v) < s.cfg.nsets
      rw [hcid]
      omega

theorem wf_writeGroup0 {s t : State} {j : Nat} {v : Word} (h : s.wf = true) (ht : writeGroup0 s j v = .ok t) :
    t.wf = true ∧ t.cfg = s.cfg := by
  have hw := (wf_iff s).1 h
  obtain ⟨g1, g2, g3, g4, g5, g6⟩ := hw
  have plain {u : State} (hu : u = { s with epcr := u.epcr, eear := u.eear, esr := u.esr }) :
      u.wf = true ∧ u.cfg = s.cfg := by
    rw [hu]; exact ⟨wf_congr h rfl rfl rfl rfl rfl rfl rfl rfl rfl rfl, rfl⟩
  unfold writeGroup0 at ht
  simp only at ht
  by_cases j11 : j = 11
  · rw [if_pos j11] at ht; cases ht
    split
    · exact ⟨(wf_iff _).2 ⟨g1, g2, g3, g4, g5, g6.1, and_reserved _ _ _ (by decide), g6.2.2⟩, rfl⟩
    · exact ⟨h, rfl⟩
  rw [if_neg j11] at ht
  by_cases j12 : j = 12
  · rw [if_pos j12] at ht; cases ht
    split
    · exact ⟨(wf_iff _).2 ⟨g1, g2, g3, g4, g5, g6.1, g6.2.1, and_reserved _ _ _ (by decide), g6.2.2.2⟩, rfl⟩
    · exact ⟨h, rfl⟩
  rw [if_neg j12] at ht
  by_cases j13 : j = 13
  · rw [if_pos j13] at ht; cases ht
    split
    · exact ⟨(wf_iff _).2 ⟨g1, g2, g3, g4, g5, g6.1, g6.2.1, g6.2.2.1, and_reserved _ _ _ (by decide)⟩, rfl⟩
    · exact ⟨h, rfl⟩
  rw [if_neg j13] at ht
  by_cases j16 : j = 16
  · rw [if_pos j16] at ht; cases ht
  rw [if_neg j16] at ht
  by_cases j17 : j = 17
  · rw [if_pos j17] at ht; exact wf_writeSr h ht
  rw [if_neg j17] at ht
  by_cases j18 : j = 18
  · rw [if_pos j18] at ht; cases ht
  rw [if_neg j18] at ht
  by_cases j20 : j = 20
  · rw [if_pos j20] at ht; cases ht
    split
    · exact ⟨(wf_iff _).2 ⟨g1, g2, g3, g4, g5, and_reserved _ _ _ (by decide), g6.2⟩, rfl⟩
    · exact ⟨h, rfl⟩
  rw [if_neg j20] at ht
  by_cases jp : 32 ≤ j ∧ j ≤ 47
  · rw [if_pos jp] at ht; cases ht
    split
    · exact plain rfl
    · exact ⟨h, rfl⟩
  rw [if_neg jp] at ht
  by_cases je : 48 ≤ j ∧ j ≤ 63
  · rw [if_pos je] at ht; cases ht
    split
    · exact plain rfl
    · exact ⟨h, rfl⟩
  rw [if_neg je] at ht
  by_cases js : 64 ≤ j ∧ j ≤ 79
  · rw [if_pos js] at ht; cases ht
    split
    · exact plain rfl
    · exact ⟨h, rfl⟩
  rw [if_neg js] at ht
  by_cases jg : 1024 ≤ j ∧ j ≤ 1535
  · rw [if_pos jg] at ht; cases ht
    unfold State.writeWindow
    split
    · exact ⟨wf_setGprOf h _ _ _, by simp⟩
    · exact ⟨h, rfl⟩
  rw [if_neg jg] at ht
  cases ht
  exact ⟨h, rfl⟩

/-- A write outside group 0 changes none of the fields the invariant speaks of. -/
theorem wf_other {s t : State} (h : s.wf = true)
    (ht : t = { s with
      dmmu := t.dmmu, immu := t.immu, dccr := t.dccr, iccr := t.iccr, stale := t.stale, unwritten := t.unwritten,
      maclo := t.maclo, machi := t.machi, debugUnit := t.debugUnit, pccr := t.pccr, pcmr := t.pcmr, pmr := t.pmr,
      pic := t.pic, ttmr := t.ttmr, ttcr := t.ttcr, draws := t.draws }) : t.wf = true ∧ t.cfg = s.cfg := by
  rw [ht]
  exact ⟨wf_congr h rfl rfl rfl rfl rfl rfl rfl rfl rfl rfl, rfl⟩

theorem setMmu_shape (s : State) (k : Access) (m : Mmu) :
    s.setMmu k m = { s with dmmu := (s.setMmu k m).dmmu, immu := (s.setMmu k m).immu } := by cases k <;> rfl

theorem writeMmu_shape (s : State) (k : Access) (j : Nat) (v : Word) :
    s.writeMmu k j v = { s with dmmu := (s.writeMmu k j v).dmmu, immu := (s.writeMmu k j v).immu } := by
  unfold State.writeMmu
  split
  · rfl
  · simp only
    split_ifs <;> first | exact setMmu_shape _ _ _ | rfl | skip
    split <;> first | exact setMmu_shape _ _ _ | rfl

theorem writeDebug_shape (s : State) (j : Nat) (x : BitVec 32) :
    s.writeDebug j x = { s with debugUnit := (s.writeDebug j x).debugUnit } := by
  unfold State.writeDebug
  split
  · rfl
  · simp only
    split_ifs <;> rfl

theorem writeCounters_shape (s : State) (j : Nat) (x : BitVec 32) :
    s.writeCounters j x = { s with pccr := (s.writeCounters j x).pccr, pcmr := (s.writeCounters j x).pcmr } := by
  unfold State.writeCounters
  split
  · rfl
  · split_ifs <;> rfl

theorem writePic_shape (s : State) (j : Nat) (x : BitVec 32) :
    s.writePic j x = { s with pic := (s.writePic j x).pic } := by
  unfold State.writePic
  split_ifs <;> rfl

theorem writeTimer_shape (s : State) (j : Nat) (x : BitVec 32) :
    s.writeTimer j x = { s with ttmr := (s.writeTimer j x).ttmr, ttcr := (s.writeTimer j x).ttcr } := by
  unfold State.writeTimer
  split_ifs <;> rfl

/-- A write of the data cache's registers that discards nothing leaves memory. -/
theorem writeBackBlock_shape (s : State) (present : CacheConfig → Bool) (ea : Word) :
    s.writeBackBlock present ea =
      { s with
        stale := (s.writeBackBlock present ea).stale
        unwritten := (s.writeBackBlock present ea).unwritten
        draws := (s.writeBackBlock present ea).draws } := by
  unfold State.writeBackBlock State.onBlock
  split
  · rfl
  · split
    · split <;> rfl
    · rfl

/-- Bytes discarded one after the other change memory alone. -/
theorem discardBytes_shape (n : Nat) (l : List Nat) (s : State) :
    l.foldl (State.discardByte · n ·) s =
      { s with mem := (l.foldl (State.discardByte · n ·) s).mem,
               stale := (l.foldl (State.discardByte · n ·) s).stale } := by
  induction l generalizing s with
  | nil => rfl
  | cons pa rest ih => exact ih (s.discardByte n pa)

/-- Discarding bytes keeps the canonical form of memory. -/
theorem wf_discardBytes (n : Nat) (l : List Nat) (s : State) (h : Memory.wf s.mem = true) :
    Memory.wf (l.foldl (State.discardByte · n ·) s).mem = true := by
  induction l generalizing s with
  | nil => exact h
  | cons pa rest ih => exact ih (s.discardByte n pa) (Table.wf_write _ _ h)

theorem wf_discardBlock {s : State} (h : s.wf = true) (ea : Word) :
    (s.discardBlock ea).wf = true ∧ (s.discardBlock ea).cfg = s.cfg := by
  unfold State.discardBlock State.onBlock
  split
  · exact ⟨h, rfl⟩
  · split
    · split
      · simp only
        rw [discardBytes_shape]
        have hs : ({ s with draws := s.draws + 1 } : State).wf = true :=
          wf_congr h rfl rfl rfl rfl rfl rfl rfl rfl rfl rfl
        exact ⟨wf_mem hs rfl (wf_discardBytes _ _ _ ((wf_iff _).1 hs).2.1), rfl⟩
      · exact ⟨h, rfl⟩
    · exact ⟨h, rfl⟩

theorem wf_writeDataCache {s : State} (h : s.wf = true) (j : Nat) (v : Word) :
    (s.writeDataCache j v).wf = true ∧ (s.writeDataCache j v).cfg = s.cfg := by
  unfold State.writeDataCache
  simp only
  split_ifs
  · exact wf_other h rfl
  · exact ⟨h, rfl⟩
  · exact wf_other h (by rw [writeBackBlock_shape])
  · exact wf_discardBlock h _
  · exact wf_other h (by rw [writeBackBlock_shape])
  · exact ⟨h, rfl⟩

theorem writeInsnCache_shape (s : State) (j : Nat) (v : Word) :
    s.writeInsnCache j v =
      { s with iccr := (s.writeInsnCache j v).iccr, stale := (s.writeInsnCache j v).stale,
               draws := (s.writeInsnCache j v).draws } := by
  unfold State.writeInsnCache State.invalidateBlock State.onBlock
  split
  · split <;> rfl
  · split
    · split
      · rfl
      · split
        · split <;> rfl
        · rfl
    · rfl

/-- What ends a power mode changes PMR alone. -/
theorem wake_shape (s : State) : s.wake = { s with pmr := s.wake.pmr } := by
  unfold State.wake
  split <;> rfl

theorem wf_wake {s : State} (h : s.wf = true) : s.wake.wf = true := (wf_other h (by rw [wake_shape])).1

theorem wf_writePower {s : State} (h : s.wf = true) (j : Nat) (x : BitVec 32) :
    (s.writePower j x).wf = true ∧ (s.writePower j x).cfg = s.cfg := by
  unfold State.writePower
  split
  · exact ⟨wf_wake (wf_other h rfl).1, by simp⟩
  · exact ⟨h, rfl⟩

/-- A write to a special-purpose register keeps the invariant and the configuration. -/
theorem wf_sprWrite {s t : State} {addr : Nat} {v : Word} (h : s.wf = true) (ht : sprWrite s addr v = .ok t) :
    t.wf = true ∧ t.cfg = s.cfg := by
  unfold sprWrite at ht
  simp only at ht
  split at ht
  · exact wf_writeGroup0 h ht
  · cases ht; refine wf_other h ?_; rw [writeMmu_shape]
  · cases ht; refine wf_other h ?_; rw [writeMmu_shape]
  · cases ht; exact wf_writeDataCache h _ _
  · cases ht; refine wf_other h ?_; rw [writeInsnCache_shape]
  · cases ht; refine wf_other h ?_; split_ifs <;> rfl
  · cases ht; refine wf_other h ?_; rw [writeDebug_shape]
  · cases ht; refine wf_other h ?_; rw [writeCounters_shape]
  · cases ht; exact wf_writePower h _ _
  · cases ht; refine wf_other h ?_; rw [writePic_shape]
  · cases ht; refine wf_other h ?_; rw [writeTimer_shape]
  · cases ht; exact ⟨h, rfl⟩

/-! ### Between instructions -/

theorem count_shape (s : State) (user : Bool) (e : PerfEvents) :
    s.count user e = { s with pccr := (s.count user e).pccr, draws := (s.count user e).draws } := by
  unfold State.count
  split
  · rfl
  · split <;> rfl

theorem wf_count {s : State} (h : s.wf = true) (user : Bool) (e : PerfEvents) : (s.count user e).wf = true :=
  (wf_other h (by rw [count_shape])).1

theorem wf_watch {s : State} (h : s.wf = true) (w : BitVec 10) : (s.watch w).wf = true := by
  unfold State.watch
  split
  · exact h
  · exact (wf_other h rfl).1

theorem resultWf_observeFetch {s : State} {r : Result} (h : resultWf r) : resultWf (observeFetch s r) := by
  cases r with
  | next t => exact resultWf_next (wf_count (h t rfl) _ _)
  | fault f => exact resultWf_fault f
  | refused f => exact resultWf_refused f

theorem resultWf_observeEntry {s : State} {r : Result} (h : resultWf r) : resultWf (observeEntry s r) := by
  cases r with
  | next t => exact resultWf_next (wf_count (h t rfl) _ _)
  | fault f => exact resultWf_fault f
  | refused f => exact resultWf_refused f

theorem resultWf_observeCompleted {i : Instr} {s u t : State} (hu : u.wf = true) (ht : t.wf = true) :
    resultWf (observeCompleted i s u t) := by
  unfold observeCompleted
  simp only
  split
  · exact resultWf_enter _ _ (wf_count (wf_watch hu _) _ _)
  · exact resultWf_next (wf_count (wf_watch ht _) _ _)

/-- The state in which a floating-point instruction has completed keeps the invariant. -/
theorem wf_floatCompleted {s t : State} (hs : s.wf = true) (hg : Table.wf t.gprs = true)
    (hf : t.fpcsr &&& 0xFFFFF000#32 = 0#32) : (floatCompleted s t).wf = true := by
  refine wf_advance ?_
  rw [wf_iff] at *
  obtain ⟨h1, h2, h3, h4, h5, h6⟩ := hs
  exact ⟨h1, h2, hg, h4, h5, hf, h6.2⟩

theorem resultWf_observe {i : Instr} {s : State} {r : Result} (hs : s.wf = true) (h : resultWf r) :
    resultWf (observe i s r) := by
  cases r with
  | next t =>
    have ht := h t rfl
    have hw := (wf_iff t).1 ht
    unfold observe
    simp only
    split
    · exact resultWf_observeCompleted ht ht
    · exact resultWf_observeCompleted (wf_floatCompleted hs hw.2.2.1 hw.2.2.2.2.2.1) ht
    · exact resultWf_next (wf_count ht _ _)
  | fault f => exact resultWf_fault f
  | refused f => exact resultWf_refused f

/-- A register that a reset leaves free keeps to the register width and to its canonical form. -/
theorem wf_warmReset {s : State} (h : s.wf = true) : s.warmReset.wf = true := by
  rw [wf_iff] at *
  obtain ⟨g1, g2, g3, g4, g5, g6⟩ := h
  have hs := nsets_le_of_wf g1
  have hev : (if s.cfg.evbarPresent then s.cfg.evbarReset &&& 0xFFFFE000#32 else 0#32) &&& 0x1FFF#32 = 0#32 := by
    split
    · exact and_reserved _ _ _ (by decide)
    · decide
  refine ⟨g1, g2, Table.wf_tabulate _ _, ⟨?_, ?_⟩, ⟨inWidth_ofLo32 _ _, by intro d hd; cases hd⟩,
    (by decide : (0#32 &&& 0xFFFFF000#32 : BitVec 32) = 0#32), hev,
    (by decide : (0#32 &&& 0xFFFFFF80#32 : BitVec 32) = 0#32),
    (by decide : (0#32 &&& 0xFFFFFF80#32 : BitVec 32) = 0#32)⟩
  · show srValue s.cfg 0x00008001#32 = 0x00008001#32
    rw [srValue_eq_iff]
    refine ⟨by decide, fun n hn h15 hv => srWritable_base _ ?_⟩
    interval_cases n <;> simp_all
  · show (if s.cfg.nsets ≤ 1 then 0 else ((0x00008001#32 : BitVec 32).extractLsb' 28 4).toNat) < s.cfg.nsets
    split
    · omega
    · show 0 < _; omega

/-- An event of the environment keeps the invariant. -/
theorem wf_happen {s : State} (h : s.wf = true) (e : Input) : (s.happen e).wf = true := by
  cases e with
  | cpu => exact h
  | irq lines => exact (wf_other h rfl).1
  | tick =>
    show s.tick.wf = true
    unfold State.tick
    split
    · exact h
    · exact (wf_other h rfl).1
  | reset => exact wf_warmReset h
  | watch level => exact (wf_other h rfl).1
  | write pa v =>
    show (if mapped s.cfg pa then s.writeByte pa v else s).wf = true
    split
    · exact wf_mem h rfl (Table.wf_write _ _ ((wf_iff s).1 h).2.1)
    · exact h
  | loseReservation => exact wf_mem h rfl ((wf_iff s).1 h).2.1

/-- So does an event together with the end of a power mode that it brings about. -/
theorem wf_event {s : State} (h : s.wf = true) (e : Input) : (s.event e).wf = true := wf_wake (wf_happen h e)

end Sys2Proof.Machine
end

