-- ==== Sys2Proof/Laws/PerInstr.lean ====
section
/-!
SUPPORT. Laws/PerInstr.lean: for every instruction, decoding the pieces it is encoded in gives it back.
-/

namespace Sys2Proof

/-- Decoding the pieces an instruction is encoded in gives the instruction, every operand intact. -/
def Laws.Encoded.Statement (i : Instr) : Prop := decodeFields i.fields = .ok i

theorem Laws.Encoded.lAdd (d : Reg) (a : Reg) (b : Reg) : Statement (.lAdd d a b) := by
  show decodeAlu ⟨0x38#6, d, a, b, 0x000#11⟩ = _
  simp [decodeAlu, Fields.op30, Fields.op98]

theorem Laws.Encoded.lAddc (d : Reg) (a : Reg) (b : Reg) : Statement (.lAddc d a b) := by
  show decodeAlu ⟨0x38#6, d, a, b, 0x001#11⟩ = _
  simp [decodeAlu, Fields.op30, Fields.op98]

theorem Laws.Encoded.lAddi (d : Reg) (a : Reg) (i : Imm16) : Statement (.lAddi d a i) :=
  congrArg (fun x => Except.ok (Instr.lAddi d a x)) (Fields.imm_ofImm _ _ _ i)

theorem Laws.Encoded.lAddic (d : Reg) (a : Reg) (i : Imm16) : Statement (.lAddic d a i) :=
  congrArg (fun x => Except.ok (Instr.lAddic d a x)) (Fields.imm_ofImm _ _ _ i)

theorem Laws.Encoded.lSub (d : Reg) (a : Reg) (b : Reg) : Statement (.lSub d a b) := by
  show decodeAlu ⟨0x38#6, d, a, b, 0x002#11⟩ = _
  simp [decodeAlu, Fields.op30, Fields.op98]

theorem Laws.Encoded.lAnd (d : Reg) (a : Reg) (b : Reg) : Statement (.lAnd d a b) := by
  show decodeAlu ⟨0x38#6, d, a, b, 0x003#11⟩ = _
  simp [decodeAlu, Fields.op30, Fields.op98]

theorem Laws.Encoded.lAndi (d : Reg) (a : Reg) (k : Imm16) : Statement (.lAndi d a k) :=
  congrArg (fun x => Except.ok (Instr.lAndi d a x)) (Fields.imm_ofImm _ _ _ k)

theorem Laws.Encoded.lOr (d : Reg) (a : Reg) (b : Reg) : Statement (.lOr d a b) := by
  show decodeAlu ⟨0x38#6, d, a, b, 0x004#11⟩ = _
  simp [decodeAlu, Fields.op30, Fields.op98]

theorem Laws.Encoded.lOri (d : Reg) (a : Reg) (k : Imm16) : Statement (.lOri d a k) :=
  congrArg (fun x => Except.ok (Instr.lOri d a x)) (Fields.imm_ofImm _ _ _ k)

theorem Laws.Encoded.lXor (d : Reg) (a : Reg) (b : Reg) : Statement (.lXor d a b) := by
  show decodeAlu ⟨0x38#6, d, a, b, 0x005#11⟩ = _
  simp [decodeAlu, Fields.op30, Fields.op98]

theorem Laws.Encoded.lXori (d : Reg) (a : Reg) (i : Imm16) : Statement (.lXori d a i) :=
  congrArg (fun x => Except.ok (Instr.lXori d a x)) (Fields.imm_ofImm _ _ _ i)

theorem Laws.Encoded.lSll (d : Reg) (a : Reg) (b : Reg) : Statement (.lSll d a b) := by
  show decodeAlu ⟨0x38#6, d, a, b, 0x008#11⟩ = _
  simp [decodeAlu, Fields.op30, decodeShift, Fields.op96]

theorem Laws.Encoded.lSlli (d : Reg) (a : Reg) (l : Imm6) : Statement (.lSlli d a l) := by
  show decodeShi (Fields.ofShamt d a 0#2 l) = _
  rw [decodeShi, Fields.op76_ofShamt]
  exact congrArg (fun x => Except.ok (Instr.lSlli d a x)) (Fields.shamt_ofShamt _ _ _ l)

theorem Laws.Encoded.lSrl (d : Reg) (a : Reg) (b : Reg) : Statement (.lSrl d a b) := by
  show decodeAlu ⟨0x38#6, d, a, b, 0x048#11⟩ = _
  simp [decodeAlu, Fields.op30, decodeShift, Fields.op96]

theorem Laws.Encoded.lSrli (d : Reg) (a : Reg) (l : Imm6) : Statement (.lSrli d a l) := by
  show decodeShi (Fields.ofShamt d a 1#2 l) = _
  rw [decodeShi, Fields.op76_ofShamt]
  exact congrArg (fun x => Except.ok (Instr.lSrli d a x)) (Fields.shamt_ofShamt _ _ _ l)

theorem Laws.Encoded.lSra (d : Reg) (a : Reg) (b : Reg) : Statement (.lSra d a b) := by
  show decodeAlu ⟨0x38#6, d, a, b, 0x088#11⟩ = _
  simp [decodeAlu, Fields.op30, decodeShift, Fields.op96]

theorem Laws.Encoded.lSrai (d : Reg) (a : Reg) (l : Imm6) : Statement (.lSrai d a l) := by
  show decodeShi (Fields.ofShamt d a 2#2 l) = _
  rw [decodeShi, Fields.op76_ofShamt]
  exact congrArg (fun x => Except.ok (Instr.lSrai d a x)) (Fields.shamt_ofShamt _ _ _ l)

theorem Laws.Encoded.lRor (d : Reg) (a : Reg) (b : Reg) : Statement (.lRor d a b) := by
  show decodeAlu ⟨0x38#6, d, a, b, 0x0c8#11⟩ = _
  simp [decodeAlu, Fields.op30, decodeShift, Fields.op96]

theorem Laws.Encoded.lRori (d : Reg) (a : Reg) (l : Imm6) : Statement (.lRori d a l) := by
  show decodeShi (Fields.ofShamt d a 3#2 l) = _
  rw [decodeShi, Fields.op76_ofShamt]
  exact congrArg (fun x => Except.ok (Instr.lRori d a x)) (Fields.shamt_ofShamt _ _ _ l)

theorem Laws.Encoded.lCmov (d : Reg) (a : Reg) (b : Reg) : Statement (.lCmov d a b) := by
  show decodeAlu ⟨0x38#6, d, a, b, 0x00e#11⟩ = _
  simp [decodeAlu, Fields.op30, Fields.op98]

theorem Laws.Encoded.lFf1 (d : Reg) (a : Reg) : Statement (.lFf1 d a) := by
  show decodeAlu ⟨0x38#6, d, a, 0#5, 0x00f#11⟩ = _
  simp [decodeAlu, Fields.op30, Fields.op98]

theorem Laws.Encoded.lFl1 (d : Reg) (a : Reg) : Statement (.lFl1 d a) := by
  show decodeAlu ⟨0x38#6, d, a, 0#5, 0x10f#11⟩ = _
  simp [decodeAlu, Fields.op30, Fields.op98]

theorem Laws.Encoded.lMovhi (d : Reg) (k : Imm16) : Statement (.lMovhi d k) :=
  congrArg (fun x => Except.ok (Instr.lMovhi d x)) (Fields.imm_ofImm _ _ _ k)

theorem Laws.Encoded.lMul (d : Reg) (a : Reg) (b : Reg) : Statement (.lMul d a b) := by
  show decodeAlu ⟨0x38#6, d, a, b, 0x306#11⟩ = _
  simp [decodeAlu, Fields.op30, Fields.op98]

theorem Laws.Encoded.lMulu (d : Reg) (a : Reg) (b : Reg) : Statement (.lMulu d a b) := by
  show decodeAlu ⟨0x38#6, d, a, b, 0x30b#11⟩ = _
  simp [decodeAlu, Fields.op30, Fields.op98]

theorem Laws.Encoded.lMuli (d : Reg) (a : Reg) (i : Imm16) : Statement (.lMuli d a i) :=
  congrArg (fun x => Except.ok (Instr.lMuli d a x)) (Fields.imm_ofImm _ _ _ i)

theorem Laws.Encoded.lDiv (d : Reg) (a : Reg) (b : Reg) : Statement (.lDiv d a b) := by
  show decodeAlu ⟨0x38#6, d, a, b, 0x309#11⟩ = _
  simp [decodeAlu, Fields.op30, Fields.op98]

theorem Laws.Encoded.lDivu (d : Reg) (a : Reg) (b : Reg) : Statement (.lDivu d a b) := by
  show decodeAlu ⟨0x38#6, d, a, b, 0x30a#11⟩ = _
  simp [decodeAlu, Fields.op30, Fields.op98]

theorem Laws.Encoded.lExths (d : Reg) (a : Reg) : Statement (.lExths d a) := by
  show decodeAlu ⟨0x38#6, d, a, 0#5, 0x00c#11⟩ = _
  simp [decodeAlu, Fields.op30, decodeExt, Fields.op98, Fields.op96]

theorem Laws.Encoded.lExtbs (d : Reg) (a : Reg) : Statement (.lExtbs d a) := by
  show decodeAlu ⟨0x38#6, d, a, 0#5, 0x04c#11⟩ = _
  simp [decodeAlu, Fields.op30, decodeExt, Fields.op98, Fields.op96]

theorem Laws.Encoded.lExthz (d : Reg) (a : Reg) : Statement (.lExthz d a) := by
  show decodeAlu ⟨0x38#6, d, a, 0#5, 0x08c#11⟩ = _
  simp [decodeAlu, Fields.op30, decodeExt, Fields.op98, Fields.op96]

theorem Laws.Encoded.lExtbz (d : Reg) (a : Reg) : Statement (.lExtbz d a) := by
  show decodeAlu ⟨0x38#6, d, a, 0#5, 0x0cc#11⟩ = _
  simp [decodeAlu, Fields.op30, decodeExt, Fields.op98, Fields.op96]

theorem Laws.Encoded.lExtws (d : Reg) (a : Reg) : Statement (.lExtws d a) := by
  show decodeAlu ⟨0x38#6, d, a, 0#5, 0x00d#11⟩ = _
  simp [decodeAlu, Fields.op30, decodeExtw, Fields.op96]

theorem Laws.Encoded.lExtwz (d : Reg) (a : Reg) : Statement (.lExtwz d a) := by
  show decodeAlu ⟨0x38#6, d, a, 0#5, 0x04d#11⟩ = _
  simp [decodeAlu, Fields.op30, decodeExtw, Fields.op96]

theorem Laws.Encoded.lSfeq (a : Reg) (b : Reg) : Statement (.lSfeq a b) := rfl

theorem Laws.Encoded.lSfne (a : Reg) (b : Reg) : Statement (.lSfne a b) := rfl

theorem Laws.Encoded.lSfgtu (a : Reg) (b : Reg) : Statement (.lSfgtu a b) := rfl

theorem Laws.Encoded.lSfgeu (a : Reg) (b : Reg) : Statement (.lSfgeu a b) := rfl

theorem Laws.Encoded.lSfltu (a : Reg) (b : Reg) : Statement (.lSfltu a b) := rfl

theorem Laws.Encoded.lSfleu (a : Reg) (b : Reg) : Statement (.lSfleu a b) := rfl

theorem Laws.Encoded.lSfgts (a : Reg) (b : Reg) : Statement (.lSfgts a b) := rfl

theorem Laws.Encoded.lSfges (a : Reg) (b : Reg) : Statement (.lSfges a b) := rfl

theorem Laws.Encoded.lSflts (a : Reg) (b : Reg) : Statement (.lSflts a b) := rfl

theorem Laws.Encoded.lSfles (a : Reg) (b : Reg) : Statement (.lSfles a b) := rfl

theorem Laws.Encoded.lSfeqi (a : Reg) (i : Imm16) : Statement (.lSfeqi a i) :=
  congrArg (fun x => Except.ok (Instr.lSfeqi a x)) (Fields.imm_ofImm _ _ _ i)

theorem Laws.Encoded.lSfnei (a : Reg) (i : Imm16) : Statement (.lSfnei a i) :=
  congrArg (fun x => Except.ok (Instr.lSfnei a x)) (Fields.imm_ofImm _ _ _ i)

theorem Laws.Encoded.lSfgtui (a : Reg) (i : Imm16) : Statement (.lSfgtui a i) :=
  congrArg (fun x => Except.ok (Instr.lSfgtui a x)) (Fields.imm_ofImm _ _ _ i)

theorem Laws.Encoded.lSfgeui (a : Reg) (i : Imm16) : Statement (.lSfgeui a i) :=
  congrArg (fun x => Except.ok (Instr.lSfgeui a x)) (Fields.imm_ofImm _ _ _ i)

theorem Laws.Encoded.lSfltui (a : Reg) (i : Imm16) : Statement (.lSfltui a i) :=
  congrArg (fun x => Except.ok (Instr.lSfltui a x)) (Fields.imm_ofImm _ _ _ i)

theorem Laws.Encoded.lSfleui (a : Reg) (i : Imm16) : Statement (.lSfleui a i) :=
  congrArg (fun x => Except.ok (Instr.lSfleui a x)) (Fields.imm_ofImm _ _ _ i)

theorem Laws.Encoded.lSfgtsi (a : Reg) (i : Imm16) : Statement (.lSfgtsi a i) :=
  congrArg (fun x => Except.ok (Instr.lSfgtsi a x)) (Fields.imm_ofImm _ _ _ i)

theorem Laws.Encoded.lSfgesi (a : Reg) (i : Imm16) : Statement (.lSfgesi a i) :=
  congrArg (fun x => Except.ok (Instr.lSfgesi a x)) (Fields.imm_ofImm _ _ _ i)

theorem Laws.Encoded.lSfltsi (a : Reg) (i : Imm16) : Statement (.lSfltsi a i) :=
  congrArg (fun x => Except.ok (Instr.lSfltsi a x)) (Fields.imm_ofImm _ _ _ i)

theorem Laws.Encoded.lSflesi (a : Reg) (i : Imm16) : Statement (.lSflesi a i) :=
  congrArg (fun x => Except.ok (Instr.lSflesi a x)) (Fields.imm_ofImm _ _ _ i)

theorem Laws.Encoded.lLd (d : Reg) (a : Reg) (i : Imm16) : Statement (.lLd d a i) :=
  congrArg (fun x => Except.ok (Instr.lLd d a x)) (Fields.imm_ofImm _ _ _ i)

theorem Laws.Encoded.lLwz (d : Reg) (a : Reg) (i : Imm16) : Statement (.lLwz d a i) :=
  congrArg (fun x => Except.ok (Instr.lLwz d a x)) (Fields.imm_ofImm _ _ _ i)

theorem Laws.Encoded.lLws (d : Reg) (a : Reg) (i : Imm16) : Statement (.lLws d a i) :=
  congrArg (fun x => Except.ok (Instr.lLws d a x)) (Fields.imm_ofImm _ _ _ i)

theorem Laws.Encoded.lLbz (d : Reg) (a : Reg) (i : Imm16) : Statement (.lLbz d a i) :=
  congrArg (fun x => Except.ok (Instr.lLbz d a x)) (Fields.imm_ofImm _ _ _ i)

theorem Laws.Encoded.lLbs (d : Reg) (a : Reg) (i : Imm16) : Statement (.lLbs d a i) :=
  congrArg (fun x => Except.ok (Instr.lLbs d a x)) (Fields.imm_ofImm _ _ _ i)

theorem Laws.Encoded.lLhz (d : Reg) (a : Reg) (i : Imm16) : Statement (.lLhz d a i) :=
  congrArg (fun x => Except.ok (Instr.lLhz d a x)) (Fields.imm_ofImm _ _ _ i)

theorem Laws.Encoded.lLhs (d : Reg) (a : Reg) (i : Imm16) : Statement (.lLhs d a i) :=
  congrArg (fun x => Except.ok (Instr.lLhs d a x)) (Fields.imm_ofImm _ _ _ i)

theorem Laws.Encoded.lLwa (d : Reg) (a : Reg) (i : Imm16) : Statement (.lLwa d a i) :=
  congrArg (fun x => Except.ok (Instr.lLwa d a x)) (Fields.imm_ofImm _ _ _ i)

theorem Laws.Encoded.lSd (a : Reg) (b : Reg) (i : Imm16) : Statement (.lSd a b i) :=
  congrArg (fun x => Except.ok (Instr.lSd a b x)) (Fields.simm_ofSplit _ _ _ i)

theorem Laws.Encoded.lSw (a : Reg) (b : Reg) (i : Imm16) : Statement (.lSw a b i) :=
  congrArg (fun x => Except.ok (Instr.lSw a b x)) (Fields.simm_ofSplit _ _ _ i)

theorem Laws.Encoded.lSb (a : Reg) (b : Reg) (i : Imm16) : Statement (.lSb a b i) :=
  congrArg (fun x => Except.ok (Instr.lSb a b x)) (Fields.simm_ofSplit _ _ _ i)

theorem Laws.Encoded.lSh (a : Reg) (b : Reg) (i : Imm16) : Statement (.lSh a b i) :=
  congrArg (fun x => Except.ok (Instr.lSh a b x)) (Fields.simm_ofSplit _ _ _ i)

theorem Laws.Encoded.lSwa (a : Reg) (b : Reg) (i : Imm16) : Statement (.lSwa a b i) :=
  congrArg (fun x => Except.ok (Instr.lSwa a b x)) (Fields.simm_ofSplit _ _ _ i)

theorem Laws.Encoded.lBf (n : Imm26) : Statement (.lBf n) :=
  congrArg (fun x => Except.ok (Instr.lBf x)) (Fields.off_ofOff _ n)

theorem Laws.Encoded.lBnf (n : Imm26) : Statement (.lBnf n) :=
  congrArg (fun x => Except.ok (Instr.lBnf x)) (Fields.off_ofOff _ n)

theorem Laws.Encoded.lJ (n : Imm26) : Statement (.lJ n) :=
  congrArg (fun x => Except.ok (Instr.lJ x)) (Fields.off_ofOff _ n)

theorem Laws.Encoded.lJal (n : Imm26) : Statement (.lJal n) :=
  congrArg (fun x => Except.ok (Instr.lJal x)) (Fields.off_ofOff _ n)

theorem Laws.Encoded.lJr (b : Reg) : Statement (.lJr b) := rfl

theorem Laws.Encoded.lJalr (b : Reg) : Statement (.lJalr b) := rfl

theorem Laws.Encoded.lRfe : Statement .lRfe := rfl

theorem Laws.Encoded.lMac (a : Reg) (b : Reg) : Statement (.lMac a b) := rfl

theorem Laws.Encoded.lMaci (a : Reg) (i : Imm16) : Statement (.lMaci a i) :=
  congrArg (fun x => Except.ok (Instr.lMaci a x)) (Fields.imm_ofImm _ _ _ i)

theorem Laws.Encoded.lMsb (a : Reg) (b : Reg) : Statement (.lMsb a b) := rfl

theorem Laws.Encoded.lMacu (a : Reg) (b : Reg) : Statement (.lMacu a b) := rfl

theorem Laws.Encoded.lMsbu (a : Reg) (b : Reg) : Statement (.lMsbu a b) := rfl

theorem Laws.Encoded.lMacrc (d : Reg) : Statement (.lMacrc d) := rfl

theorem Laws.Encoded.lMuld (a : Reg) (b : Reg) : Statement (.lMuld a b) := by
  show decodeAlu ⟨0x38#6, 0#5, a, b, 0x307#11⟩ = _
  simp [decodeAlu, Fields.op30, Fields.op98]

theorem Laws.Encoded.lMuldu (a : Reg) (b : Reg) : Statement (.lMuldu a b) := by
  show decodeAlu ⟨0x38#6, 0#5, a, b, 0x30c#11⟩ = _
  simp [decodeAlu, Fields.op30, Fields.op98]

theorem Laws.Encoded.lMfspr (d : Reg) (a : Reg) (k : Imm16) : Statement (.lMfspr d a k) :=
  congrArg (fun x => Except.ok (Instr.lMfspr d a x)) (Fields.imm_ofImm _ _ _ k)

theorem Laws.Encoded.lMtspr (a : Reg) (b : Reg) (k : Imm16) : Statement (.lMtspr a b k) :=
  congrArg (fun x => Except.ok (Instr.lMtspr a b x)) (Fields.simm_ofSplit _ _ _ k)

theorem Laws.Encoded.lSys (k : Imm16) : Statement (.lSys k) :=
  congrArg (fun x => Except.ok (Instr.lSys x)) (Fields.imm_ofImm _ _ _ k)

theorem Laws.Encoded.lTrap (k : Imm16) : Statement (.lTrap k) :=
  congrArg (fun x => Except.ok (Instr.lTrap x)) (Fields.imm_ofImm _ _ _ k)

theorem Laws.Encoded.lNop (k : Imm16) : Statement (.lNop k) := by
  show decodeNop (Fields.ofImm 0x05#6 8#5 0#5 k) = _
  rw [decodeNop, if_pos (by simp [Fields.ofImm]), Fields.imm_ofImm]

theorem Laws.Encoded.lCsync : Statement .lCsync := rfl

theorem Laws.Encoded.lMsync : Statement .lMsync := rfl

theorem Laws.Encoded.lPsync : Statement .lPsync := rfl

theorem Laws.Encoded.lCust1 : Statement .lCust1 := rfl

theorem Laws.Encoded.lCust2 : Statement .lCust2 := rfl

theorem Laws.Encoded.lCust3 : Statement .lCust3 := rfl

theorem Laws.Encoded.lCust4 : Statement .lCust4 := rfl

theorem Laws.Encoded.lCust5 (d : Reg) (a : Reg) (b : Reg) (l : Imm6) (k : Imm5) : Statement (.lCust5 d a b l k) := by
  show Except.ok (Instr.lCust5 d a b _ _) = _
  rw [Instr.fields, Fields.custL_append, Fields.custK_append]

theorem Laws.Encoded.lCust6 : Statement .lCust6 := rfl

theorem Laws.Encoded.lCust7 : Statement .lCust7 := rfl

theorem Laws.Encoded.lCust8 : Statement .lCust8 := rfl

theorem Laws.Encoded.lfAddS (d : Reg) (a : Reg) (b : Reg) : Statement (.lfAddS d a b) := rfl

theorem Laws.Encoded.lfAddD (d : Reg) (a : Reg) (b : Reg) : Statement (.lfAddD d a b) := rfl

theorem Laws.Encoded.lfSubS (d : Reg) (a : Reg) (b : Reg) : Statement (.lfSubS d a b) := rfl

theorem Laws.Encoded.lfSubD (d : Reg) (a : Reg) (b : Reg) : Statement (.lfSubD d a b) := rfl

theorem Laws.Encoded.lfMulS (d : Reg) (a : Reg) (b : Reg) : Statement (.lfMulS d a b) := rfl

theorem Laws.Encoded.lfMulD (d : Reg) (a : Reg) (b : Reg) : Statement (.lfMulD d a b) := rfl

theorem Laws.Encoded.lfDivS (d : Reg) (a : Reg) (b : Reg) : Statement (.lfDivS d a b) := rfl

theorem Laws.Encoded.lfDivD (d : Reg) (a : Reg) (b : Reg) : Statement (.lfDivD d a b) := rfl

theorem Laws.Encoded.lfRemS (d : Reg) (a : Reg) (b : Reg) : Statement (.lfRemS d a b) := rfl

theorem Laws.Encoded.lfRemD (d : Reg) (a : Reg) (b : Reg) : Statement (.lfRemD d a b) := rfl

theorem Laws.Encoded.lfMaddS (d : Reg) (a : Reg) (b : Reg) : Statement (.lfMaddS d a b) := rfl

theorem Laws.Encoded.lfMaddD (d : Reg) (a : Reg) (b : Reg) : Statement (.lfMaddD d a b) := rfl

theorem Laws.Encoded.lfItofS (d : Reg) (a : Reg) : Statement (.lfItofS d a) := rfl

theorem Laws.Encoded.lfItofD (d : Reg) (a : Reg) : Statement (.lfItofD d a) := rfl

theorem Laws.Encoded.lfFtoiS (d : Reg) (a : Reg) : Statement (.lfFtoiS d a) := rfl

theorem Laws.Encoded.lfFtoiD (d : Reg) (a : Reg) : Statement (.lfFtoiD d a) := rfl

theorem Laws.Encoded.lfSfeqS (a : Reg) (b : Reg) : Statement (.lfSfeqS a b) := rfl

theorem Laws.Encoded.lfSfeqD (a : Reg) (b : Reg) : Statement (.lfSfeqD a b) := rfl

theorem Laws.Encoded.lfSfneS (a : Reg) (b : Reg) : Statement (.lfSfneS a b) := rfl

theorem Laws.Encoded.lfSfneD (a : Reg) (b : Reg) : Statement (.lfSfneD a b) := rfl

theorem Laws.Encoded.lfSfgtS (a : Reg) (b : Reg) : Statement (.lfSfgtS a b) := rfl

theorem Laws.Encoded.lfSfgtD (a : Reg) (b : Reg) : Statement (.lfSfgtD a b) := rfl

theorem Laws.Encoded.lfSfgeS (a : Reg) (b : Reg) : Statement (.lfSfgeS a b) := rfl

theorem Laws.Encoded.lfSfgeD (a : Reg) (b : Reg) : Statement (.lfSfgeD a b) := rfl

theorem Laws.Encoded.lfSfltS (a : Reg) (b : Reg) : Statement (.lfSfltS a b) := rfl

theorem Laws.Encoded.lfSfltD (a : Reg) (b : Reg) : Statement (.lfSfltD a b) := rfl

theorem Laws.Encoded.lfSfleS (a : Reg) (b : Reg) : Statement (.lfSfleS a b) := rfl

theorem Laws.Encoded.lfSfleD (a : Reg) (b : Reg) : Statement (.lfSfleD a b) := rfl

theorem Laws.Encoded.lfCust1S (a : Reg) (b : Reg) : Statement (.lfCust1S a b) := by
  show decodeFp ⟨0x32#6, 0#5, a, b, 0x0d0#11⟩ = _
  simp [decodeFp, Fields.op70]

theorem Laws.Encoded.lfCust1D (a : Reg) (b : Reg) : Statement (.lfCust1D a b) := by
  show decodeFp ⟨0x32#6, 0#5, a, b, 0x0e0#11⟩ = _
  simp [decodeFp, Fields.op70]

theorem Laws.Encoded.lvAllEqB (d : Reg) (a : Reg) (b : Reg) : Statement (.lvAllEqB d a b) := rfl

theorem Laws.Encoded.lvAllEqH (d : Reg) (a : Reg) (b : Reg) : Statement (.lvAllEqH d a b) := rfl

theorem Laws.Encoded.lvAllGeB (d : Reg) (a : Reg) (b : Reg) : Statement (.lvAllGeB d a b) := rfl

theorem Laws.Encoded.lvAllGeH (d : Reg) (a : Reg) (b : Reg) : Statement (.lvAllGeH d a b) := rfl

theorem Laws.Encoded.lvAllGtB (d : Reg) (a : Reg) (b : Reg) : Statement (.lvAllGtB d a b) := rfl

theorem Laws.Encoded.lvAllGtH (d : Reg) (a : Reg) (b : Reg) : Statement (.lvAllGtH d a b) := rfl

theorem Laws.Encoded.lvAllLeB (d : Reg) (a : Reg) (b : Reg) : Statement (.lvAllLeB d a b) := rfl

theorem Laws.Encoded.lvAllLeH (d : Reg) (a : Reg) (b : Reg) : Statement (.lvAllLeH d a b) := rfl

theorem Laws.Encoded.lvAllLtB (d : Reg) (a : Reg) (b : Reg) : Statement (.lvAllLtB d a b) := rfl

theorem Laws.Encoded.lvAllLtH (d : Reg) (a : Reg) (b : Reg) : Statement (.lvAllLtH d a b) := rfl

theorem Laws.Encoded.lvAllNeB (d : Reg) (a : Reg) (b : Reg) : Statement (.lvAllNeB d a b) := rfl

theorem Laws.Encoded.lvAllNeH (d : Reg) (a : Reg) (b : Reg) : Statement (.lvAllNeH d a b) := rfl

theorem Laws.Encoded.lvAnyEqB (d : Reg) (a : Reg) (b : Reg) : Statement (.lvAnyEqB d a b) := rfl

theorem Laws.Encoded.lvAnyEqH (d : Reg) (a : Reg) (b : Reg) : Statement (.lvAnyEqH d a b) := rfl

theorem Laws.Encoded.lvAnyGeB (d : Reg) (a : Reg) (b : Reg) : Statement (.lvAnyGeB d a b) := rfl

theorem Laws.Encoded.lvAnyGeH (d : Reg) (a : Reg) (b : Reg) : Statement (.lvAnyGeH d a b) := rfl

theorem Laws.Encoded.lvAnyGtB (d : Reg) (a : Reg) (b : Reg) : Statement (.lvAnyGtB d a b) := rfl

theorem Laws.Encoded.lvAnyGtH (d : Reg) (a : Reg) (b : Reg) : Statement (.lvAnyGtH d a b) := rfl

theorem Laws.Encoded.lvAnyLeB (d : Reg) (a : Reg) (b : Reg) : Statement (.lvAnyLeB d a b) := rfl

theorem Laws.Encoded.lvAnyLeH (d : Reg) (a : Reg) (b : Reg) : Statement (.lvAnyLeH d a b) := rfl

theorem Laws.Encoded.lvAnyLtB (d : Reg) (a : Reg) (b : Reg) : Statement (.lvAnyLtB d a b) := rfl

theorem Laws.Encoded.lvAnyLtH (d : Reg) (a : Reg) (b : Reg) : Statement (.lvAnyLtH d a b) := rfl

theorem Laws.Encoded.lvAnyNeB (d : Reg) (a : Reg) (b : Reg) : Statement (.lvAnyNeB d a b) := rfl

theorem Laws.Encoded.lvAnyNeH (d : Reg) (a : Reg) (b : Reg) : Statement (.lvAnyNeH d a b) := rfl

theorem Laws.Encoded.lvAddB (d : Reg) (a : Reg) (b : Reg) : Statement (.lvAddB d a b) := rfl

theorem Laws.Encoded.lvAddH (d : Reg) (a : Reg) (b : Reg) : Statement (.lvAddH d a b) := rfl

theorem Laws.Encoded.lvAddsB (d : Reg) (a : Reg) (b : Reg) : Statement (.lvAddsB d a b) := rfl

theorem Laws.Encoded.lvAddsH (d : Reg) (a : Reg) (b : Reg) : Statement (.lvAddsH d a b) := rfl

theorem Laws.Encoded.lvAdduB (d : Reg) (a : Reg) (b : Reg) : Statement (.lvAdduB d a b) := rfl

theorem Laws.Encoded.lvAdduH (d : Reg) (a : Reg) (b : Reg) : Statement (.lvAdduH d a b) := rfl

theorem Laws.Encoded.lvAddusB (d : Reg) (a : Reg) (b : Reg) : Statement (.lvAddusB d a b) := rfl

theorem Laws.Encoded.lvAddusH (d : Reg) (a : Reg) (b : Reg) : Statement (.lvAddusH d a b) := rfl

theorem Laws.Encoded.lvAnd (d : Reg) (a : Reg) (b : Reg) : Statement (.lvAnd d a b) := rfl

theorem Laws.Encoded.lvAvgB (d : Reg) (a : Reg) (b : Reg) : Statement (.lvAvgB d a b) := rfl

theorem Laws.Encoded.lvAvgH (d : Reg) (a : Reg) (b : Reg) : Statement (.lvAvgH d a b) := rfl

theorem Laws.Encoded.lvCmpEqB (d : Reg) (a : Reg) (b : Reg) : Statement (.lvCmpEqB d a b) := rfl

theorem Laws.Encoded.lvCmpEqH (d : Reg) (a : Reg) (b : Reg) : Statement (.lvCmpEqH d a b) := rfl

theorem Laws.Encoded.lvCmpGeB (d : Reg) (a : Reg) (b : Reg) : Statement (.lvCmpGeB d a b) := rfl

theorem Laws.Encoded.lvCmpGeH (d : Reg) (a : Reg) (b : Reg) : Statement (.lvCmpGeH d a b) := rfl

theorem Laws.Encoded.lvCmpGtB (d : Reg) (a : Reg) (b : Reg) : Statement (.lvCmpGtB d a b) := rfl

theorem Laws.Encoded.lvCmpGtH (d : Reg) (a : Reg) (b : Reg) : Statement (.lvCmpGtH d a b) := rfl

theorem Laws.Encoded.lvCmpLeB (d : Reg) (a : Reg) (b : Reg) : Statement (.lvCmpLeB d a b) := rfl

theorem Laws.Encoded.lvCmpLeH (d : Reg) (a : Reg) (b : Reg) : Statement (.lvCmpLeH d a b) := rfl

theorem Laws.Encoded.lvCmpLtB (d : Reg) (a : Reg) (b : Reg) : Statement (.lvCmpLtB d a b) := rfl

theorem Laws.Encoded.lvCmpLtH (d : Reg) (a : Reg) (b : Reg) : Statement (.lvCmpLtH d a b) := rfl

theorem Laws.Encoded.lvCmpNeB (d : Reg) (a : Reg) (b : Reg) : Statement (.lvCmpNeB d a b) := rfl

theorem Laws.Encoded.lvCmpNeH (d : Reg) (a : Reg) (b : Reg) : Statement (.lvCmpNeH d a b) := rfl

theorem Laws.Encoded.lvMaddsH (d : Reg) (a : Reg) (b : Reg) : Statement (.lvMaddsH d a b) := rfl

theorem Laws.Encoded.lvMaxB (d : Reg) (a : Reg) (b : Reg) : Statement (.lvMaxB d a b) := rfl

theorem Laws.Encoded.lvMaxH (d : Reg) (a : Reg) (b : Reg) : Statement (.lvMaxH d a b) := rfl

theorem Laws.Encoded.lvMergeB (d : Reg) (a : Reg) (b : Reg) : Statement (.lvMergeB d a b) := rfl

theorem Laws.Encoded.lvMergeH (d : Reg) (a : Reg) (b : Reg) : Statement (.lvMergeH d a b) := rfl

theorem Laws.Encoded.lvMinB (d : Reg) (a : Reg) (b : Reg) : Statement (.lvMinB d a b) := rfl

theorem Laws.Encoded.lvMinH (d : Reg) (a : Reg) (b : Reg) : Statement (.lvMinH d a b) := rfl

theorem Laws.Encoded.lvMsubsH (d : Reg) (a : Reg) (b : Reg) : Statement (.lvMsubsH d a b) := rfl

theorem Laws.Encoded.lvMulsH (d : Reg) (a : Reg) (b : Reg) : Statement (.lvMulsH d a b) := rfl

theorem Laws.Encoded.lvNand (d : Reg) (a : Reg) (b : Reg) : Statement (.lvNand d a b) := rfl

theorem Laws.Encoded.lvNor (d : Reg) (a : Reg) (b : Reg) : Statement (.lvNor d a b) := rfl

theorem Laws.Encoded.lvOr (d : Reg) (a : Reg) (b : Reg) : Statement (.lvOr d a b) := rfl

theorem Laws.Encoded.lvPackB (d : Reg) (a : Reg) (b : Reg) : Statement (.lvPackB d a b) := rfl

theorem Laws.Encoded.lvPackH (d : Reg) (a : Reg) (b : Reg) : Statement (.lvPackH d a b) := rfl

theorem Laws.Encoded.lvPacksB (d : Reg) (a : Reg) (b : Reg) : Statement (.lvPacksB d a b) := rfl

theorem Laws.Encoded.lvPacksH (d : Reg) (a : Reg) (b : Reg) : Statement (.lvPacksH d a b) := rfl

theorem Laws.Encoded.lvPackusB (d : Reg) (a : Reg) (b : Reg) : Statement (.lvPackusB d a b) := rfl

theorem Laws.Encoded.lvPackusH (d : Reg) (a : Reg) (b : Reg) : Statement (.lvPackusH d a b) := rfl

theorem Laws.Encoded.lvPermN (d : Reg) (a : Reg) (b : Reg) : Statement (.lvPermN d a b) := rfl

theorem Laws.Encoded.lvRlB (d : Reg) (a : Reg) (b : Reg) : Statement (.lvRlB d a b) := rfl

theorem Laws.Encoded.lvRlH (d : Reg) (a : Reg) (b : Reg) : Statement (.lvRlH d a b) := rfl

theorem Laws.Encoded.lvSllB (d : Reg) (a : Reg) (b : Reg) : Statement (.lvSllB d a b) := rfl

theorem Laws.Encoded.lvSllH (d : Reg) (a : Reg) (b : Reg) : Statement (.lvSllH d a b) := rfl

theorem Laws.Encoded.lvSll (d : Reg) (a : Reg) (b : Reg) : Statement (.lvSll d a b) := rfl

theorem Laws.Encoded.lvSrlB (d : Reg) (a : Reg) (b : Reg) : Statement (.lvSrlB d a b) := rfl

theorem Laws.Encoded.lvSrlH (d : Reg) (a : Reg) (b : Reg) : Statement (.lvSrlH d a b) := rfl

theorem Laws.Encoded.lvSraB (d : Reg) (a : Reg) (b : Reg) : Statement (.lvSraB d a b) := rfl

theorem Laws.Encoded.lvSraH (d : Reg) (a : Reg) (b : Reg) : Statement (.lvSraH d a b) := rfl

theorem Laws.Encoded.lvSrl (d : Reg) (a : Reg) (b : Reg) : Statement (.lvSrl d a b) := rfl

theorem Laws.Encoded.lvSubB (d : Reg) (a : Reg) (b : Reg) : Statement (.lvSubB d a b) := rfl

theorem Laws.Encoded.lvSubH (d : Reg) (a : Reg) (b : Reg) : Statement (.lvSubH d a b) := rfl

theorem Laws.Encoded.lvSubsB (d : Reg) (a : Reg) (b : Reg) : Statement (.lvSubsB d a b) := rfl

theorem Laws.Encoded.lvSubsH (d : Reg) (a : Reg) (b : Reg) : Statement (.lvSubsH d a b) := rfl

theorem Laws.Encoded.lvSubuB (d : Reg) (a : Reg) (b : Reg) : Statement (.lvSubuB d a b) := rfl

theorem Laws.Encoded.lvSubuH (d : Reg) (a : Reg) (b : Reg) : Statement (.lvSubuH d a b) := rfl

theorem Laws.Encoded.lvSubusB (d : Reg) (a : Reg) (b : Reg) : Statement (.lvSubusB d a b) := rfl

theorem Laws.Encoded.lvSubusH (d : Reg) (a : Reg) (b : Reg) : Statement (.lvSubusH d a b) := rfl

theorem Laws.Encoded.lvUnpackB (d : Reg) (a : Reg) (b : Reg) : Statement (.lvUnpackB d a b) := rfl

theorem Laws.Encoded.lvUnpackH (d : Reg) (a : Reg) (b : Reg) : Statement (.lvUnpackH d a b) := rfl

theorem Laws.Encoded.lvXor (d : Reg) (a : Reg) (b : Reg) : Statement (.lvXor d a b) := rfl

theorem Laws.Encoded.lvCust1 : Statement .lvCust1 := rfl

theorem Laws.Encoded.lvCust2 : Statement .lvCust2 := rfl

theorem Laws.Encoded.lvCust3 : Statement .lvCust3 := rfl

theorem Laws.Encoded.lvCust4 : Statement .lvCust4 := rfl

end Sys2Proof
end

