-- ==== Sys2Proof/Laws/Vector.lean ====
section
/-!
SUPPORT. Laws/Vector.lean: the elements of a value built element by element, and saturation as clamping.
-/

namespace Sys2Proof.Machine

theorem ofElems_succ (w n : Nat) (f : Nat → BitVec w) :
    ofElems w (n + 1) f = ofElems w n f ||| ((f n).setWidth 64 <<< (w * n)) := by
  simp [ofElems, List.range_succ]

/-- Bit by bit, the value whose elements are given. -/
theorem getLsbD_ofElems (w n : Nat) (f : Nat → BitVec w) (j : Nat) (hj : j < 64) :
    (ofElems w n f).getLsbD j = (decide (j < w * n) && (f (j / w)).getLsbD (j % w)) := by
  induction n with
  | zero => simp [ofElems]
  | succ n ih =>
    rw [ofElems_succ, BitVec.getLsbD_or, ih, BitVec.getLsbD_shiftLeft, BitVec.getLsbD_setWidth]
    by_cases h1 : j < w * n
    · have : j < w * (n + 1) := by rw [Nat.mul_add]; omega
      simp [h1, this]
    · by_cases h2 : j < w * (n + 1)
      · have hw : 0 < w := by
          rcases Nat.eq_zero_or_pos w with h | h
          · subst h; simp at h2
          · exact h
        rw [Nat.mul_add, Nat.mul_one] at h2
        have hd : j / w = n := by
          apply Nat.div_eq_of_lt_le
          · rw [Nat.mul_comm]; omega
          · rw [Nat.succ_mul, Nat.mul_comm]; omega
        have hm : j % w = j - w * n := by
          have := Nat.div_add_mod j w
          rw [hd] at this
          omega
        simp [h1, hj, hd, hm, Nat.mul_add, h2, show j - w * n < 64 by omega]
      · have h3 : (f n).getLsbD (j - w * n) = false := by
          apply BitVec.getLsbD_of_ge
          rw [Nat.mul_add, Nat.mul_one] at h2
          omega
        simp [h1, h2, h3]

/-- An element of the value whose elements are given. -/
theorem elem_ofElems {w n : Nat} (f : Nat → BitVec w) {k : Nat} (hk : k < n) (hn : w * n ≤ 64) :
    elem w (ofElems w n f) k = f k := by
  apply BitVec.eq_of_getLsbD_eq
  intro i hi
  have hle : w * k + i < w * n := by
    have : w * (k + 1) ≤ w * n := Nat.mul_le_mul_left w hk
    rw [Nat.mul_add] at this
    omega
  unfold elem
  rw [BitVec.getLsbD_extractLsb', getLsbD_ofElems _ _ _ _ (by omega)]
  have hd : (w * k + i) / w = k := by
    rw [Nat.mul_add_div (by omega), Nat.div_eq_of_lt hi, Nat.add_zero]
  have hm : (w * k + i) % w = i := by
    rw [Nat.mul_add_mod, Nat.mod_eq_of_lt hi]
  simp [hi, hle, hd, hm]

/-- An element of a value computed element by element. -/
theorem elem_mapElems {w n : Nat} (f : BitVec w → BitVec w → BitVec w) (a b : Word) {k : Nat} (hk : k < n)
    (hn : w * n ≤ 64) : elem w (mapElems w n f a b) k = f (elem w a k) (elem w b k) := elem_ofElems _ hk hn

/-- Signed saturation clamps. -/
theorem satS_toInt {n : Nat} (hn : 0 < n) (z : Int) :
    (satS n z).toInt = max (-(2 ^ (n - 1))) (min (2 ^ (n - 1) - 1) z) := by
  unfold satS
  obtain ⟨m, rfl⟩ : ∃ m, n = m + 1 := ⟨n - 1, by omega⟩
  have hp : (0 : Int) < 2 ^ m := by positivity
  rw [BitVec.toInt_ofInt, Nat.add_sub_cancel, Int.bmod_def]
  have h2 : ((2 ^ (m + 1) : Nat) : Int) = 2 * 2 ^ m := by push_cast; ring
  rw [h2]
  generalize (2 : Int) ^ m = p at *
  have hr : (2 * p + 1) / 2 = p := by omega
  rw [hr]
  rcases le_or_gt 0 (max (-p) (min (p - 1) z)) with h | h
  · rw [Int.emod_eq_of_lt h (by omega), if_pos (by omega)]
  · rw [show max (-p) (min (p - 1) z) % (2 * p) = max (-p) (min (p - 1) z) + 2 * p by
      rw [← Int.add_mul_emod_self_left _ _ 1, Int.emod_eq_of_lt (by omega) (by omega)]; ring]
    rw [if_neg (by omega)]
    ring

/-- Unsigned saturation clamps. -/
theorem satU_toNat (n : Nat) (z : Int) : ((satU n z).toNat : Int) = max 0 (min (2 ^ n - 1) z) := by
  unfold satU
  rw [BitVec.toNat_ofInt]
  have hp : (0 : Int) < 2 ^ n := by positivity
  have h2 : ((2 ^ n : Nat) : Int) = 2 ^ n := by push_cast; ring
  rw [h2, Int.emod_eq_of_lt (by omega) (by omega), Int.toNat_of_nonneg (by omega)]

end Sys2Proof.Machine
end

