-- ==== Sys2Proof/Tests/Slice0.lean ====
section
/-!
SUPPORT. Tests/Slice0.lean: the check of ill-formed instructions, decoding of words written from the spec's encodings,
single steps with the expected values of spec/95_test_vectors.md, and for each obligation with hypotheses a state and
operands that meet them.
-/

open Sys2Proof Sys2Proof.Machine

namespace Sys2Proof.Tests

-- One theorem after another: many evaluations at once need more memory than the check allows.
set_option Elab.async false

/-! ### Well-formedness -/

/-- "It is not allowed to specify link register r9 as rB" (43 R486). -/
theorem test_wellFormed_refuses_jalr_r9 : (Instr.lJalr 9#5).wellFormed = false := by decide

theorem test_wellFormed_accepts_jalr_r8 : (Instr.lJalr 8#5).wellFormed = true := by decide

/-! ### Decoding -/

/-- Every word decodes to the instruction beside it. -/
def decodesAll (l : List (BitVec 32 × Instr)) : Bool :=
  l.all fun p => match decode p.1 with
    | .ok i => decide (i = p.2)
    | .error _ => false

/-- Words written field by field as 30 R310 to R319 lay them out: opcode, D, A, B or immediate, secondary opcodes and
reserved bits. -/
theorem test_decode_fields : decodesAll [
    (0x38#6 ++ 1#5 ++ 2#5 ++ 3#5 ++ 0#1 ++ 0#2 ++ 0#4 ++ 0x0#4, .lAdd 1#5 2#5 3#5),
    (0x38#6 ++ 31#5 ++ 30#5 ++ 29#5 ++ 0#1 ++ 3#2 ++ 0#4 ++ 0x9#4, .lDiv 31#5 30#5 29#5),
    (0x2e#6 ++ 1#5 ++ 2#5 ++ 0#8 ++ 3#2 ++ 63#6, .lRori 1#5 2#5 63#6),
    (0x06#6 ++ 4#5 ++ 0#4 ++ 0#1 ++ 0xABCD#16, .lMovhi 4#5 0xABCD#16),
    (0x06#6 ++ 4#5 ++ 0#4 ++ 1#1 ++ 0#16, .lMacrc 4#5),
    (0x39#6 ++ 0x0#5 ++ 2#5 ++ 3#5 ++ 0#11, .lSfeq 2#5 3#5),
    (0x2f#6 ++ 0xd#5 ++ 2#5 ++ 0x8000#16, .lSflesi 2#5 0x8000#16),
    (0x21#6 ++ 1#5 ++ 2#5 ++ 0xFFFC#16, .lLwz 1#5 2#5 0xFFFC#16),
    (0x35#6 ++ 0b11111#5 ++ 2#5 ++ 3#5 ++ 0x7FC#11, .lSw 2#5 3#5 0xFFFC#16),
    (0x00#6 ++ 0x3FFFFFF#26, .lJ 0x3FFFFFF#26), (0x12#6 ++ 0#10 ++ 3#5 ++ 0#11, .lJalr 3#5),
    (0x30#6 ++ 0b10000#5 ++ 2#5 ++ 3#5 ++ 0x011#11, .lMtspr 2#5 3#5 0x8011#16),
    (0x31#6 ++ 0#5 ++ 2#5 ++ 3#5 ++ 0#7 ++ 0x4#4, .lMsbu 2#5 3#5),
    (0x2000#16 ++ 0x1234#16, .lSys 0x1234#16), (0x22800000#32, .lPsync), (0x09#6 ++ 0#26, .lRfe),
    (0x32#6 ++ 1#5 ++ 2#5 ++ 3#5 ++ 0#3 ++ 0x13#8, .lfDivD 1#5 2#5 3#5),
    (0x0A#6 ++ 1#5 ++ 2#5 ++ 3#5 ++ 0#3 ++ 0x66#8, .lvPermN 1#5 2#5 3#5) ] = true := by
  decide

/-- Words the tables leave undecoded (30 R331; V-S7 of 95_test_vectors 2.8). -/
theorem test_decode_rejects : ([0x14000000#32, 0xE000000B#32, 0xC8000020#32, 0x28000000#32, 0xE4C00000#32].all fun w =>
    match decode w with
    | .ok _ => false
    | .error _ => true) = true := by
  decide

/-- Words of the family Arith: the fixed bits of spec/opcode_table.json, rD = 1, rA = 2, rB = 3, the top bit of each
immediate set. -/
theorem test_decode_arith : decodesAll [
    (0xE0221800#32, .lAdd 1#5 2#5 3#5), (0xE0221801#32, .lAddc 1#5 2#5 3#5),
    (0x9C228123#32, .lAddi 1#5 2#5 0x8123#16), (0xA0228123#32, .lAddic 1#5 2#5 0x8123#16),
    (0xE0221802#32, .lSub 1#5 2#5 3#5), (0xE0221803#32, .lAnd 1#5 2#5 3#5),
    (0xA4228123#32, .lAndi 1#5 2#5 0x8123#16), (0xE0221804#32, .lOr 1#5 2#5 3#5),
    (0xA8228123#32, .lOri 1#5 2#5 0x8123#16), (0xE0221805#32, .lXor 1#5 2#5 3#5),
    (0xAC228123#32, .lXori 1#5 2#5 0x8123#16), (0xE0221808#32, .lSll 1#5 2#5 3#5),
    (0xB822002D#32, .lSlli 1#5 2#5 0x2d#6), (0xE0221848#32, .lSrl 1#5 2#5 3#5),
    (0xB822006D#32, .lSrli 1#5 2#5 0x2d#6), (0xE0221888#32, .lSra 1#5 2#5 3#5),
    (0xB82200AD#32, .lSrai 1#5 2#5 0x2d#6), (0xE02218C8#32, .lRor 1#5 2#5 3#5),
    (0xB82200ED#32, .lRori 1#5 2#5 0x2d#6), (0xE022180E#32, .lCmov 1#5 2#5 3#5),
    (0xE022000F#32, .lFf1 1#5 2#5), (0xE022010F#32, .lFl1 1#5 2#5),
    (0x18208123#32, .lMovhi 1#5 0x8123#16), (0xE0221B06#32, .lMul 1#5 2#5 3#5),
    (0xE0221B0B#32, .lMulu 1#5 2#5 3#5), (0xB0228123#32, .lMuli 1#5 2#5 0x8123#16),
    (0xE0221B09#32, .lDiv 1#5 2#5 3#5), (0xE0221B0A#32, .lDivu 1#5 2#5 3#5),
    (0xE022000C#32, .lExths 1#5 2#5), (0xE022004C#32, .lExtbs 1#5 2#5),
    (0xE022008C#32, .lExthz 1#5 2#5), (0xE02200CC#32, .lExtbz 1#5 2#5),
    (0xE022000D#32, .lExtws 1#5 2#5), (0xE022004D#32, .lExtwz 1#5 2#5) ] = true := by
  decide

/-- Words of the family Compare: the fixed bits of spec/opcode_table.json, rD = 1, rA = 2, rB = 3, the top bit of each
immediate set. -/
theorem test_decode_compare : decodesAll [
    (0xE4021800#32, .lSfeq 2#5 3#5), (0xE4221800#32, .lSfne 2#5 3#5),
    (0xE4421800#32, .lSfgtu 2#5 3#5), (0xE4621800#32, .lSfgeu 2#5 3#5),
    (0xE4821800#32, .lSfltu 2#5 3#5), (0xE4A21800#32, .lSfleu 2#5 3#5),
    (0xE5421800#32, .lSfgts 2#5 3#5), (0xE5621800#32, .lSfges 2#5 3#5),
    (0xE5821800#32, .lSflts 2#5 3#5), (0xE5A21800#32, .lSfles 2#5 3#5),
    (0xBC028123#32, .lSfeqi 2#5 0x8123#16), (0xBC228123#32, .lSfnei 2#5 0x8123#16),
    (0xBC428123#32, .lSfgtui 2#5 0x8123#16), (0xBC628123#32, .lSfgeui 2#5 0x8123#16),
    (0xBC828123#32, .lSfltui 2#5 0x8123#16), (0xBCA28123#32, .lSfleui 2#5 0x8123#16),
    (0xBD428123#32, .lSfgtsi 2#5 0x8123#16), (0xBD628123#32, .lSfgesi 2#5 0x8123#16),
    (0xBD828123#32, .lSfltsi 2#5 0x8123#16), (0xBDA28123#32, .lSflesi 2#5 0x8123#16) ] = true := by
  decide

/-- Words of the family LoadStore: the fixed bits of spec/opcode_table.json, rD = 1, rA = 2, rB = 3, the top bit of each
immediate set. -/
theorem test_decode_loadStore : decodesAll [
    (0x80228123#32, .lLd 1#5 2#5 0x8123#16), (0x84228123#32, .lLwz 1#5 2#5 0x8123#16),
    (0x88228123#32, .lLws 1#5 2#5 0x8123#16), (0x8C228123#32, .lLbz 1#5 2#5 0x8123#16),
    (0x90228123#32, .lLbs 1#5 2#5 0x8123#16), (0x94228123#32, .lLhz 1#5 2#5 0x8123#16),
    (0x98228123#32, .lLhs 1#5 2#5 0x8123#16), (0x6C228123#32, .lLwa 1#5 2#5 0x8123#16),
    (0xD2021923#32, .lSd 2#5 3#5 0x8123#16), (0xD6021923#32, .lSw 2#5 3#5 0x8123#16),
    (0xDA021923#32, .lSb 2#5 3#5 0x8123#16), (0xDE021923#32, .lSh 2#5 3#5 0x8123#16),
    (0xCE021923#32, .lSwa 2#5 3#5 0x8123#16) ] = true := by
  decide

/-- Words of the family Control: the fixed bits of spec/opcode_table.json, rD = 1, rA = 2, rB = 3, the top bit of each
immediate set. -/
theorem test_decode_control : decodesAll [
    (0x12ABCDE1#32, .lBf 0x2abcde1#26), (0x0EABCDE1#32, .lBnf 0x2abcde1#26),
    (0x02ABCDE1#32, .lJ 0x2abcde1#26), (0x06ABCDE1#32, .lJal 0x2abcde1#26),
    (0x44001800#32, .lJr 3#5), (0x48001800#32, .lJalr 3#5),
    (0x24000000#32, .lRfe) ] = true := by
  decide

/-- Words of the family System: the fixed bits of spec/opcode_table.json, rD = 1, rA = 2, rB = 3, the top bit of each
immediate set. -/
theorem test_decode_system : decodesAll [
    (0xC4021801#32, .lMac 2#5 3#5), (0x4C028123#32, .lMaci 2#5 0x8123#16),
    (0xC4021802#32, .lMsb 2#5 3#5), (0xC4021803#32, .lMacu 2#5 3#5),
    (0xC4021804#32, .lMsbu 2#5 3#5), (0x18210000#32, .lMacrc 1#5),
    (0xE0021B07#32, .lMuld 2#5 3#5), (0xE0021B0C#32, .lMuldu 2#5 3#5),
    (0xB4228123#32, .lMfspr 1#5 2#5 0x8123#16), (0xC2021923#32, .lMtspr 2#5 3#5 0x8123#16),
    (0x20008123#32, .lSys 0x8123#16), (0x21008123#32, .lTrap 0x8123#16),
    (0x15008123#32, .lNop 0x8123#16), (0x23000000#32, .lCsync),
    (0x22000000#32, .lMsync), (0x22800000#32, .lPsync),
    (0x70000000#32, .lCust1), (0x74000000#32, .lCust2),
    (0x78000000#32, .lCust3), (0x7C000000#32, .lCust4),
    (0xF0221DB5#32, .lCust5 1#5 2#5 3#5 0x2d#6 0x15#5), (0xF4000000#32, .lCust6),
    (0xF8000000#32, .lCust7), (0xFC000000#32, .lCust8) ] = true := by
  decide

/-- Words of the family Float: the fixed bits of spec/opcode_table.json, rD = 1, rA = 2, rB = 3, the top bit of each
immediate set. -/
theorem test_decode_float : decodesAll [
    (0xC8221800#32, .lfAddS 1#5 2#5 3#5), (0xC8221810#32, .lfAddD 1#5 2#5 3#5),
    (0xC8221801#32, .lfSubS 1#5 2#5 3#5), (0xC8221811#32, .lfSubD 1#5 2#5 3#5),
    (0xC8221802#32, .lfMulS 1#5 2#5 3#5), (0xC8221812#32, .lfMulD 1#5 2#5 3#5),
    (0xC8221803#32, .lfDivS 1#5 2#5 3#5), (0xC8221813#32, .lfDivD 1#5 2#5 3#5),
    (0xC8221806#32, .lfRemS 1#5 2#5 3#5), (0xC8221816#32, .lfRemD 1#5 2#5 3#5),
    (0xC8221807#32, .lfMaddS 1#5 2#5 3#5), (0xC8221817#32, .lfMaddD 1#5 2#5 3#5),
    (0xC8220004#32, .lfItofS 1#5 2#5), (0xC8220014#32, .lfItofD 1#5 2#5),
    (0xC8220005#32, .lfFtoiS 1#5 2#5), (0xC8220015#32, .lfFtoiD 1#5 2#5),
    (0xC8021808#32, .lfSfeqS 2#5 3#5), (0xC8021818#32, .lfSfeqD 2#5 3#5),
    (0xC8021809#32, .lfSfneS 2#5 3#5), (0xC8021819#32, .lfSfneD 2#5 3#5),
    (0xC802180A#32, .lfSfgtS 2#5 3#5), (0xC802181A#32, .lfSfgtD 2#5 3#5),
    (0xC802180B#32, .lfSfgeS 2#5 3#5), (0xC802181B#32, .lfSfgeD 2#5 3#5),
    (0xC802180C#32, .lfSfltS 2#5 3#5), (0xC802181C#32, .lfSfltD 2#5 3#5),
    (0xC802180D#32, .lfSfleS 2#5 3#5), (0xC802181D#32, .lfSfleD 2#5 3#5),
    (0xC80218D0#32, .lfCust1S 2#5 3#5), (0xC80218E0#32, .lfCust1D 2#5 3#5) ] = true := by
  decide

/-- Words of the family VectorA: the fixed bits of spec/opcode_table.json, rD = 1, rA = 2, rB = 3, the top bit of each
immediate set. -/
theorem test_decode_vectorA : decodesAll [
    (0x28221810#32, .lvAllEqB 1#5 2#5 3#5), (0x28221811#32, .lvAllEqH 1#5 2#5 3#5),
    (0x28221812#32, .lvAllGeB 1#5 2#5 3#5), (0x28221813#32, .lvAllGeH 1#5 2#5 3#5),
    (0x28221814#32, .lvAllGtB 1#5 2#5 3#5), (0x28221815#32, .lvAllGtH 1#5 2#5 3#5),
    (0x28221816#32, .lvAllLeB 1#5 2#5 3#5), (0x28221817#32, .lvAllLeH 1#5 2#5 3#5),
    (0x28221818#32, .lvAllLtB 1#5 2#5 3#5), (0x28221819#32, .lvAllLtH 1#5 2#5 3#5),
    (0x2822181A#32, .lvAllNeB 1#5 2#5 3#5), (0x2822181B#32, .lvAllNeH 1#5 2#5 3#5),
    (0x28221820#32, .lvAnyEqB 1#5 2#5 3#5), (0x28221821#32, .lvAnyEqH 1#5 2#5 3#5),
    (0x28221822#32, .lvAnyGeB 1#5 2#5 3#5), (0x28221823#32, .lvAnyGeH 1#5 2#5 3#5),
    (0x28221824#32, .lvAnyGtB 1#5 2#5 3#5), (0x28221825#32, .lvAnyGtH 1#5 2#5 3#5),
    (0x28221826#32, .lvAnyLeB 1#5 2#5 3#5), (0x28221827#32, .lvAnyLeH 1#5 2#5 3#5),
    (0x28221828#32, .lvAnyLtB 1#5 2#5 3#5), (0x28221829#32, .lvAnyLtH 1#5 2#5 3#5),
    (0x2822182A#32, .lvAnyNeB 1#5 2#5 3#5), (0x2822182B#32, .lvAnyNeH 1#5 2#5 3#5),
    (0x28221830#32, .lvAddB 1#5 2#5 3#5), (0x28221831#32, .lvAddH 1#5 2#5 3#5),
    (0x28221832#32, .lvAddsB 1#5 2#5 3#5), (0x28221833#32, .lvAddsH 1#5 2#5 3#5),
    (0x28221834#32, .lvAdduB 1#5 2#5 3#5), (0x28221835#32, .lvAdduH 1#5 2#5 3#5),
    (0x28221836#32, .lvAddusB 1#5 2#5 3#5), (0x28221837#32, .lvAddusH 1#5 2#5 3#5),
    (0x28221838#32, .lvAnd 1#5 2#5 3#5), (0x28221839#32, .lvAvgB 1#5 2#5 3#5),
    (0x2822183A#32, .lvAvgH 1#5 2#5 3#5), (0x28221840#32, .lvCmpEqB 1#5 2#5 3#5),
    (0x28221841#32, .lvCmpEqH 1#5 2#5 3#5), (0x28221842#32, .lvCmpGeB 1#5 2#5 3#5),
    (0x28221843#32, .lvCmpGeH 1#5 2#5 3#5), (0x28221844#32, .lvCmpGtB 1#5 2#5 3#5),
    (0x28221845#32, .lvCmpGtH 1#5 2#5 3#5), (0x28221846#32, .lvCmpLeB 1#5 2#5 3#5),
    (0x28221847#32, .lvCmpLeH 1#5 2#5 3#5), (0x28221848#32, .lvCmpLtB 1#5 2#5 3#5),
    (0x28221849#32, .lvCmpLtH 1#5 2#5 3#5), (0x2822184A#32, .lvCmpNeB 1#5 2#5 3#5),
    (0x2822184B#32, .lvCmpNeH 1#5 2#5 3#5), (0x280000C0#32, .lvCust1),
    (0x280000D0#32, .lvCust2), (0x280000E0#32, .lvCust3),
    (0x280000F0#32, .lvCust4) ] = true := by
  decide

/-- Words of the family VectorB: the fixed bits of spec/opcode_table.json, rD = 1, rA = 2, rB = 3, the top bit of each
immediate set. -/
theorem test_decode_vectorB : decodesAll [
    (0x28221854#32, .lvMaddsH 1#5 2#5 3#5), (0x28221855#32, .lvMaxB 1#5 2#5 3#5),
    (0x28221856#32, .lvMaxH 1#5 2#5 3#5), (0x28221857#32, .lvMergeB 1#5 2#5 3#5),
    (0x28221858#32, .lvMergeH 1#5 2#5 3#5), (0x28221859#32, .lvMinB 1#5 2#5 3#5),
    (0x2822185A#32, .lvMinH 1#5 2#5 3#5), (0x2822185B#32, .lvMsubsH 1#5 2#5 3#5),
    (0x2822185C#32, .lvMulsH 1#5 2#5 3#5), (0x2822185D#32, .lvNand 1#5 2#5 3#5),
    (0x2822185E#32, .lvNor 1#5 2#5 3#5), (0x2822185F#32, .lvOr 1#5 2#5 3#5),
    (0x28221860#32, .lvPackB 1#5 2#5 3#5), (0x28221861#32, .lvPackH 1#5 2#5 3#5),
    (0x28221862#32, .lvPacksB 1#5 2#5 3#5), (0x28221863#32, .lvPacksH 1#5 2#5 3#5),
    (0x28221864#32, .lvPackusB 1#5 2#5 3#5), (0x28221865#32, .lvPackusH 1#5 2#5 3#5),
    (0x28221866#32, .lvPermN 1#5 2#5 3#5), (0x28221867#32, .lvRlB 1#5 2#5 3#5),
    (0x28221868#32, .lvRlH 1#5 2#5 3#5), (0x28221869#32, .lvSllB 1#5 2#5 3#5),
    (0x2822186A#32, .lvSllH 1#5 2#5 3#5), (0x2822186B#32, .lvSll 1#5 2#5 3#5),
    (0x2822186C#32, .lvSrlB 1#5 2#5 3#5), (0x2822186D#32, .lvSrlH 1#5 2#5 3#5),
    (0x2822186E#32, .lvSraB 1#5 2#5 3#5), (0x2822186F#32, .lvSraH 1#5 2#5 3#5),
    (0x28221870#32, .lvSrl 1#5 2#5 3#5), (0x28221871#32, .lvSubB 1#5 2#5 3#5),
    (0x28221872#32, .lvSubH 1#5 2#5 3#5), (0x28221873#32, .lvSubsB 1#5 2#5 3#5),
    (0x28221874#32, .lvSubsH 1#5 2#5 3#5), (0x28221875#32, .lvSubuB 1#5 2#5 3#5),
    (0x28221876#32, .lvSubuH 1#5 2#5 3#5), (0x28221877#32, .lvSubusB 1#5 2#5 3#5),
    (0x28221878#32, .lvSubusH 1#5 2#5 3#5), (0x28221879#32, .lvUnpackB 1#5 2#5 3#5),
    (0x2822187A#32, .lvUnpackH 1#5 2#5 3#5), (0x2822187B#32, .lvXor 1#5 2#5 3#5) ] = true := by
  decide

/-! ### Single steps -/

/-- The defaults of 00 R9 at pc = 0x2000 with the eight bytes the load and store vectors place at 0x1000. -/
def start (sr : BitVec 32) (regs : List (Reg × Word)) : State :=
  let s : State := { State.resetOf Config.specDefault with
    pc := 0x2000#64
    sr := sr
    mem := [(0x1000, 0x80#8), (0x1001, 0x01#8), (0x1002, 0xFF#8), (0x1003, 0x7F#8), (0x1004, 0x12#8),
      (0x1005, 0x34#8), (0x1006, 0x56#8), (0x1007, 0x78#8)] }
  regs.foldl (fun s p => s.setGpr p.1 p.2) s

/-- One step of a word placed at pc ends in a next state that passes a check. -/
def stepEnds (w : BitVec 32) (s : State) (check : State → Bool) : Bool :=
  match step (s.withFetchWord 32 w.toNat) with
  | .next t => check t
  | _ => false

/-- The step moves on, with this value in this register and this SR. -/
def stepGives (w sr : BitVec 32) (regs : List (Reg × Word)) (d : Reg) (v : Word) (sr' : BitVec 32) : Bool :=
  stepEnds w (start sr regs) fun t => gpr t d == v && t.sr == sr' && t.pc == 0x2004#64

/-- The step stores: the eight bytes at 0x1000, the reservation and SR after it. -/
def storeGives (w : BitVec 32) (resv : Option Nat) (regs : List (Reg × Word)) (bytes : List Byte) (resv' : Option Nat)
    (sr' : BitVec 32) : Bool :=
  stepEnds w { start 0x8001#32 regs with resv := resv } fun t =>
    (List.range 8).map (fun i => readByte t (0x1000 + i)) == bytes && t.resv == resv' && t.sr == sr'

/-- The step leaves these values in MACHI, MACLO and SR. -/
def macGives (w sr hi lo : BitVec 32) (regs : List (Reg × Word)) (hi' lo' sr' : BitVec 32) : Bool :=
  stepEnds w { start sr regs with machi := hi, maclo := lo } fun t => t.machi == hi' && t.maclo == lo' && t.sr == sr'

/-- The step enters an exception: the vector, EPCR0, ESR0 and SR. -/
def stepRaises (w sr : BitVec 32) (regs : List (Reg × Word)) (pc epcr : Word) (esr sr' : BitVec 32) : Bool :=
  stepEnds w (start sr regs) fun t =>
    t.pc == pc && Table.read t.epcr 0 == epcr && Table.read t.esr 0 == esr && t.sr == sr'

/-- The full implementation with these values in r1 and r2. -/
def fullWith (a b : Word) : State := ((State.resetOf Config.full).setGpr 1#5 a).setGpr 2#5 b

/-- The step leaves this value in r3 and this FPCSR. -/
def floatGives (w fpcsr : BitVec 32) (a b v : Word) (fpcsr' : BitVec 32) : Bool :=
  stepEnds w { fullWith a b with fpcsr := fpcsr } fun t => gpr t 3#5 == v && t.fpcsr == fpcsr'

/-- The step leaves this value in r3, from the operands of the table. -/
def vectorGives (w : BitVec 32) (v : Word) : Bool :=
  stepEnds w (fullWith 0x80007FFF00FF1234#64 0x8000000100FFEDCC#64) fun t => gpr t 3#5 == v && t.sr == 0x8001#32

/-- Vectors T1, T3, T5, T6, T9, T10, T11, T12, T13 of 95_test_vectors 2.1. -/
theorem test_step_addAndSubtract : ([
    stepGives 0xE0221800#32 0x00008001#32 [(2#5, 0x7FFFFFFF#64), (3#5, 0x00000001#64)]
      1#5 0x80000000#64 0x00008801#32,
    stepGives 0xE0221800#32 0x00008001#32 [(2#5, 0x80000000#64), (3#5, 0x80000000#64)]
      1#5 0x00000000#64 0x00008C01#32,
    stepGives 0xE0221801#32 0x00008401#32 [(2#5, 0xFFFFFFFF#64), (3#5, 0x00000000#64)]
      1#5 0x00000000#64 0x00008401#32,
    stepGives 0xE0221801#32 0x00008401#32 [(2#5, 0x7FFFFFFF#64), (3#5, 0x00000000#64)]
      1#5 0x80000000#64 0x00008801#32,
    stepGives 0x9C22FFFF#32 0x00008001#32 [(2#5, 0x80000000#64)] 1#5 0x7FFFFFFF#64 0x00008C01#32,
    stepGives 0x9C227FFF#32 0x00008001#32 [(2#5, 0x7FFFFFFF#64)] 1#5 0x80007FFE#64 0x00008801#32,
    stepGives 0xA022FFFF#32 0x00008401#32 [(2#5, 0x00000000#64)] 1#5 0x00000000#64 0x00008401#32,
    stepGives 0xE0221802#32 0x00008001#32 [(2#5, 0x00000000#64), (3#5, 0x00000001#64)]
      1#5 0xFFFFFFFF#64 0x00008401#32,
    stepGives 0xE0221802#32 0x00008001#32 [(2#5, 0x80000000#64), (3#5, 0x00000001#64)]
      1#5 0x7FFFFFFF#64 0x00008801#32].all id) = true := by
  decide +kernel

/-- Vectors T19, T20, T21, T22, T23, T24, T25, T26, T27, T29, T30, T31, T32, T33, T35, T36, T37, T38, T39, T40, T42,
T43, T45, T46, T47, T48, T49, T50, T51, T52 of 95_test_vectors 2.2. -/
theorem test_step_logicAndShifts : ([
    stepGives 0xE0221803#32 0x00008E01#32 [(2#5, 0xF0F0FF00#64), (3#5, 0x0FF0F0F0#64)]
      1#5 0x00F0F000#64 0x00008E01#32,
    stepGives 0xE0221804#32 0x00008001#32 [(2#5, 0xF0F0FF00#64), (3#5, 0x0FF0F0F0#64)]
      1#5 0xFFF0FFF0#64 0x00008001#32,
    stepGives 0xE0221805#32 0x00008001#32 [(2#5, 0xF0F0FF00#64), (3#5, 0x0FF0F0F0#64)]
      1#5 0xFF000FF0#64 0x00008001#32,
    stepGives 0xA4228001#32 0x00008001#32 [(2#5, 0xFFFFFFFF#64)] 1#5 0x00008001#64 0x00008001#32,
    stepGives 0xA8228001#32 0x00008001#32 [(2#5, 0x12340000#64)] 1#5 0x12348001#64 0x00008001#32,
    stepGives 0xAC22FFFF#32 0x00008001#32 [(2#5, 0x12345678#64)] 1#5 0xEDCBA987#64 0x00008001#32,
    stepGives 0xAC227FFF#32 0x00008001#32 [(2#5, 0x12345678#64)] 1#5 0x12342987#64 0x00008001#32,
    stepGives 0x18208000#32 0x00008001#32 [(1#5, 0xFFFFFFFF#64)] 1#5 0x80000000#64 0x00008001#32,
    stepGives 0xE0221808#32 0x00008001#32 [(2#5, 0x80000001#64), (3#5, 0x00000004#64)]
      1#5 0x00000010#64 0x00008001#32,
    stepGives 0xE0221808#32 0x00008001#32 [(2#5, 0x80000001#64), (3#5, 0xFFFFFFFF#64)]
      1#5 0x80000000#64 0x00008001#32,
    stepGives 0xE0221848#32 0x00008001#32 [(2#5, 0x80000001#64), (3#5, 0x00000004#64)]
      1#5 0x08000000#64 0x00008001#32,
    stepGives 0xE0221888#32 0x00008001#32 [(2#5, 0x80000001#64), (3#5, 0x00000004#64)]
      1#5 0xF8000000#64 0x00008001#32,
    stepGives 0xE0221888#32 0x00008001#32 [(2#5, 0x80000001#64), (3#5, 0x0000001F#64)]
      1#5 0xFFFFFFFF#64 0x00008001#32,
    stepGives 0xE02218C8#32 0x00008001#32 [(2#5, 0x80000001#64), (3#5, 0x00000004#64)]
      1#5 0x18000000#64 0x00008001#32,
    stepGives 0xB822001F#32 0x00008001#32 [(2#5, 0x00000003#64)] 1#5 0x80000000#64 0x00008001#32,
    stepGives 0xB8220041#32 0x00008001#32 [(2#5, 0xFFFFFFFF#64)] 1#5 0x7FFFFFFF#64 0x00008001#32,
    stepGives 0xB8220081#32 0x00008001#32 [(2#5, 0xFFFFFFFE#64)] 1#5 0xFFFFFFFF#64 0x00008001#32,
    stepGives 0xB82200C8#32 0x00008001#32 [(2#5, 0x12345678#64)] 1#5 0x78123456#64 0x00008001#32,
    stepGives 0xE022180E#32 0x00008201#32 [(2#5, 0x11111111#64), (3#5, 0x22222222#64)]
      1#5 0x11111111#64 0x00008201#32,
    stepGives 0xE022180E#32 0x00008001#32 [(2#5, 0x11111111#64), (3#5, 0x22222222#64)]
      1#5 0x22222222#64 0x00008001#32,
    stepGives 0xE022000F#32 0x00008001#32 [(2#5, 0x80000000#64)] 1#5 0x00000020#64 0x00008001#32,
    stepGives 0xE022000F#32 0x00008001#32 [(2#5, 0x00010100#64)] 1#5 0x00000009#64 0x00008001#32,
    stepGives 0xE022010F#32 0x00008001#32 [(2#5, 0x80000000#64)] 1#5 0x00000020#64 0x00008001#32,
    stepGives 0xE022010F#32 0x00008001#32 [(2#5, 0x00010100#64)] 1#5 0x00000011#64 0x00008001#32,
    stepGives 0xE022004C#32 0x00008001#32 [(2#5, 0x12345680#64)] 1#5 0xFFFFFF80#64 0x00008001#32,
    stepGives 0xE02200CC#32 0x00008001#32 [(2#5, 0x12345680#64)] 1#5 0x00000080#64 0x00008001#32,
    stepGives 0xE022000C#32 0x00008001#32 [(2#5, 0x12348000#64)] 1#5 0xFFFF8000#64 0x00008001#32,
    stepGives 0xE022008C#32 0x00008001#32 [(2#5, 0x12348000#64)] 1#5 0x00008000#64 0x00008001#32,
    stepGives 0xE022000D#32 0x00008001#32 [(2#5, 0x80000001#64)] 1#5 0x80000001#64 0x00008001#32,
    stepGives 0xE022004D#32 0x00008001#32 [(2#5, 0x80000001#64)] 1#5 0x80000001#64 0x00008001#32].all id) = true := by
  decide +kernel

/-- Vectors T54, T56, T58, T59, T60, T61, T63, T65, T68 of 95_test_vectors 2.3. -/
theorem test_step_multiplyAndDivide : ([
    stepGives 0xE0221B06#32 0x00008001#32 [(2#5, 0x00010000#64), (3#5, 0x00008000#64)]
      1#5 0x80000000#64 0x00008801#32,
    stepGives 0xE0221B06#32 0x00008401#32 [(2#5, 0x0000FFFF#64), (3#5, 0x00008000#64)]
      1#5 0x7FFF8000#64 0x00008401#32,
    stepGives 0xE0221B0B#32 0x00008801#32 [(2#5, 0x00010000#64), (3#5, 0x00010000#64)]
      1#5 0x00000000#64 0x00008C01#32,
    stepGives 0xE0221B0B#32 0x00008001#32 [(2#5, 0xFFFFFFFF#64), (3#5, 0xFFFFFFFF#64)]
      1#5 0x00000001#64 0x00008401#32,
    stepGives 0xB022FFFE#32 0x00008001#32 [(2#5, 0x40000000#64)] 1#5 0x80000000#64 0x00008001#32,
    stepGives 0xB022FFFE#32 0x00008001#32 [(2#5, 0x40000001#64)] 1#5 0x7FFFFFFE#64 0x00008801#32,
    stepGives 0xE0221B09#32 0x00008001#32 [(2#5, 0xFFFFFFF9#64), (3#5, 0x00000002#64)]
      1#5 0xFFFFFFFD#64 0x00008001#32,
    stepGives 0xE0221B09#32 0x00008801#32 [(2#5, 0x80000000#64), (3#5, 0xFFFFFFFF#64)]
      1#5 0x80000000#64 0x00008001#32,
    stepGives 0xE0221B0A#32 0x00008001#32 [(2#5, 0xFFFFFFF9#64), (3#5, 0x00000002#64)]
      1#5 0x7FFFFFFC#64 0x00008001#32].all id) = true := by
  decide +kernel

/-- Vectors T71, T72, T73, T74, T75, T76, T77, T78, T79, T80, T81 of 95_test_vectors 2.4. -/
theorem test_step_compare : ([
    stepGives 0xBC83FFFF#32 0x00008001#32 [(3#5, 0x00000005#64)] 3#5 0x00000005#64 0x00008201#32,
    stepGives 0xBC43FFFF#32 0x00008001#32 [(3#5, 0x0000FFFF#64)] 3#5 0x0000FFFF#64 0x00008001#32,
    stepGives 0xBC437FFF#32 0x00008001#32 [(3#5, 0xFFFFFFFF#64)] 3#5 0xFFFFFFFF#64 0x00008201#32,
    stepGives 0xBD83FFFF#32 0x00008001#32 [(3#5, 0x00000005#64)] 3#5 0x00000005#64 0x00008001#32,
    stepGives 0xBD63FFFF#32 0x00008001#32 [(3#5, 0xFFFFFFFF#64)] 3#5 0xFFFFFFFF#64 0x00008201#32,
    stepGives 0xBC038000#32 0x00008001#32 [(3#5, 0xFFFF8000#64)] 3#5 0xFFFF8000#64 0x00008201#32,
    stepGives 0xBC238000#32 0x00008001#32 [(3#5, 0x00008000#64)] 3#5 0x00008000#64 0x00008201#32,
    stepGives 0xBCA30000#32 0x00008001#32 [(3#5, 0x00000000#64)] 3#5 0x00000000#64 0x00008201#32,
    stepGives 0xBC630001#32 0x00008201#32 [(3#5, 0x00000000#64)] 3#5 0x00000000#64 0x00008001#32,
    stepGives 0xBD430000#32 0x00008201#32 [(3#5, 0x80000000#64)] 3#5 0x80000000#64 0x00008001#32,
    stepGives 0xBDA37FFF#32 0x00008001#32 [(3#5, 0x7FFFFFFF#64)] 3#5 0x7FFFFFFF#64 0x00008001#32].all id) = true := by
  decide +kernel

/-- Vectors T83, T94, T84, T86, T88, T90, T91, T87 of 95_test_vectors 2.5. -/
theorem test_step_loads : ([
    stepGives 0x84620004#32 0x00008001#32 [(2#5, 0x00001000#64), (3#5, 0xAAAAAAAA#64)]
      3#5 0x12345678#64 0x00008001#32,
    stepGives 0x9462FFFE#32 0x00008001#32 [(2#5, 0x00001006#64), (3#5, 0xAAAAAAAA#64)]
      3#5 0x00001234#64 0x00008001#32,
    stepGives 0x88620000#32 0x00008001#32 [(2#5, 0x00001000#64), (3#5, 0xAAAAAAAA#64)]
      3#5 0x8001FF7F#64 0x00008001#32,
    stepGives 0x8C620003#32 0x00008001#32 [(2#5, 0x00001000#64), (3#5, 0xAAAAAAAA#64)]
      3#5 0x0000007F#64 0x00008001#32,
    stepGives 0x90620002#32 0x00008001#32 [(2#5, 0x00001000#64), (3#5, 0xAAAAAAAA#64)]
      3#5 0xFFFFFFFF#64 0x00008001#32,
    stepGives 0x94620000#32 0x00008001#32 [(2#5, 0x00001000#64), (3#5, 0xAAAAAAAA#64)]
      3#5 0x00008001#64 0x00008001#32,
    stepGives 0x98620000#32 0x00008001#32 [(2#5, 0x00001000#64), (3#5, 0xAAAAAAAA#64)]
      3#5 0xFFFF8001#64 0x00008001#32,
    stepGives 0x90620000#32 0x00008001#32 [(2#5, 0x00001000#64), (3#5, 0xAAAAAAAA#64)]
      3#5 0xFFFFFF80#64 0x00008001#32].all id) = true := by
  decide +kernel

/-- Vectors T99, T101, T102, T103, T106, T108 of 95_test_vectors 2.5. -/
theorem test_step_stores : ([
    storeGives 0xD4021800#32 none [(2#5, 0x00001000#64), (3#5, 0xDEADBEEF#64)]
      [0xDE#8, 0xAD#8, 0xBE#8, 0xEF#8, 0x12#8, 0x34#8, 0x56#8, 0x78#8] none 0x00008001#32,
    storeGives 0xD7E21FFC#32 none [(2#5, 0x00001008#64), (3#5, 0xDEADBEEF#64)]
      [0x80#8, 0x01#8, 0xFF#8, 0x7F#8, 0xDE#8, 0xAD#8, 0xBE#8, 0xEF#8] none 0x00008001#32,
    storeGives 0xDC021802#32 none [(2#5, 0x00001000#64), (3#5, 0xDEADBEEF#64)]
      [0x80#8, 0x01#8, 0xBE#8, 0xEF#8, 0x12#8, 0x34#8, 0x56#8, 0x78#8] none 0x00008001#32,
    storeGives 0xD8021805#32 none [(2#5, 0x00001000#64), (3#5, 0xDEADBEEF#64)]
      [0x80#8, 0x01#8, 0xFF#8, 0x7F#8, 0x12#8, 0xEF#8, 0x56#8, 0x78#8] none 0x00008001#32,
    storeGives 0xCC021800#32 (some 0x00001000) [(2#5, 0x00001000#64), (3#5, 0xDEADBEEF#64)]
      [0xDE#8, 0xAD#8, 0xBE#8, 0xEF#8, 0x12#8, 0x34#8, 0x56#8, 0x78#8] none 0x00008201#32,
    storeGives 0xCC021804#32 (some 0x00001000) [(2#5, 0x00001000#64), (3#5, 0xDEADBEEF#64)]
      [0x80#8, 0x01#8, 0xFF#8, 0x7F#8, 0x12#8, 0x34#8, 0x56#8, 0x78#8] none 0x00008001#32].all id) = true := by
  decide +kernel

/-- Vectors T113, T114, T117, T118, T121, T124, T125, T127 of 95_test_vectors 2.6. -/
theorem test_step_multiplyAccumulate : ([
    macGives 0xC4021801#32 0x00008001#32 0x00000000#32 0x00000000#32 [(2#5, 0xFFFFFFFD#64), (3#5, 0x00000007#64)]
      0xFFFFFFFF#32 0xFFFFFFEB#32 0x00008001#32,
    macGives 0xC4021801#32 0x00008001#32 0x7FFFFFFF#32 0xFFFFFFFF#32 [(2#5, 0x00000001#64), (3#5, 0x00000001#64)]
      0x80000000#32 0x00000000#32 0x00008801#32,
    macGives 0x4C02FFFE#32 0x00008001#32 0x00000000#32 0x00000010#32 [(2#5, 0x00000003#64)]
      0x00000000#32 0x0000000A#32 0x00008001#32,
    macGives 0xC4021802#32 0x00008001#32 0x00000000#32 0x00000000#32 [(2#5, 0x00000003#64), (3#5, 0x00000007#64)]
      0xFFFFFFFF#32 0xFFFFFFEB#32 0x00008001#32,
    macGives 0xC4021803#32 0x00008001#32 0xFFFFFFFF#32 0xFFFFFFFF#32 [(2#5, 0x00000001#64), (3#5, 0x00000001#64)]
      0x00000000#32 0x00000000#32 0x00008401#32,
    macGives 0xC4021804#32 0x00008401#32 0x00000000#32 0x00000006#32 [(2#5, 0x00000002#64), (3#5, 0x00000003#64)]
      0x00000000#32 0x00000000#32 0x00008001#32,
    macGives 0xE0021B07#32 0x00008801#32 0x11111111#32 0x22222222#32 [(2#5, 0x80000000#64), (3#5, 0x80000000#64)]
      0x40000000#32 0x00000000#32 0x00008001#32,
    macGives 0xE0021B0C#32 0x00008401#32 0x00000000#32 0x00000000#32 [(2#5, 0xFFFFFFFF#64), (3#5, 0x00000002#64)]
      0x00000001#32 0xFFFFFFFE#32 0x00008001#32].all id) = true := by
  decide +kernel

/-- Vectors T16, T67, T96, T104 of 95_test_vectors: an exception entry. -/
theorem test_step_exceptions : ([
    stepRaises 0xE0221800#32 0x00009001#32 [(1#5, 0xAAAAAAAA#64), (2#5, 0x7FFFFFFF#64), (3#5, 0x00000001#64)]
      0x00000B00#64 0x00002000#64 0x00009801#32 0x00009801#32,
    stepRaises 0xE0221B09#32 0x00009001#32 [(1#5, 0xAAAAAAAA#64), (2#5, 0x00000007#64), (3#5, 0x00000000#64)]
      0x00000B00#64 0x00002000#64 0x00009801#32 0x00009801#32,
    stepRaises 0x84620002#32 0x00008001#32 [(2#5, 0x00001000#64), (3#5, 0xAAAAAAAA#64)]
      0x00000600#64 0x00002000#64 0x00008001#32 0x00008001#32,
    stepRaises 0xDC021801#32 0x00008001#32 [(2#5, 0x00001000#64), (3#5, 0xDEADBEEF#64)]
      0x00000600#64 0x00002000#64 0x00008001#32 0x00008001#32].all id) = true := by
  decide +kernel

/-- Vectors F3, F5, F16, F22, F26, F30, F36, F41, F53, F56, F62, F67, FD1, FD2, FD3, FD4, FD6, FD7, FD9 of
95_test_vectors 2.10. -/
theorem test_step_floatingPoint : ([
    floatGives 0xC8611000#32 0x000#32 0x3F800001#64 0x33800000#64 0x3F800002#64 0x100#32,
    floatGives 0xC8611000#32 0x004#32 0x3F800000#64 0x33800000#64 0x3F800001#64 0x104#32,
    floatGives 0xC8611000#32 0x006#32 0x3F800000#64 0xBF800000#64 0x80000000#64 0x086#32,
    floatGives 0xC8611001#32 0x000#32 0x00800000#64 0x00000001#64 0x007FFFFF#64 0x000#32,
    floatGives 0xC8611002#32 0x002#32 0x7F7FFFFF#64 0x40000000#64 0x7F7FFFFF#64 0x10A#32,
    floatGives 0xC8611002#32 0x000#32 0x00800001#64 0x3F000000#64 0x00400000#64 0x110#32,
    floatGives 0xC8611003#32 0x002#32 0x3F800000#64 0x40400000#64 0x3EAAAAAA#64 0x102#32,
    floatGives 0xC8611003#32 0x000#32 0x3F800000#64 0x00000000#64 0x7F800000#64 0xC00#32,
    floatGives 0xC8610004#32 0x002#32 0x7FFFFFFF#64 0x0#64 0x4EFFFFFF#64 0x102#32,
    floatGives 0xC8610004#32 0x004#32 0x01000001#64 0x0#64 0x4B800001#64 0x104#32,
    floatGives 0xC8610005#32 0x004#32 0x40200000#64 0x0#64 0x00000003#64 0x104#32,
    floatGives 0xC8610005#32 0x006#32 0xC0200000#64 0x0#64 0xFFFFFFFD#64 0x106#32,
    floatGives 0xC8611010#32 0x000#32 0x3FB999999999999A#64 0x3FC999999999999A#64 0x3FD3333333333334#64 0x100#32,
    floatGives 0xC8611011#32 0x000#32 0x3FF0000000000000#64 0x3FF0000000000000#64 0x0000000000000000#64 0x080#32,
    floatGives 0xC8611012#32 0x000#32 0x3FF8000000000000#64 0xC000000000000000#64 0xC008000000000000#64 0x000#32,
    floatGives 0xC8611013#32 0x000#32 0x3FF0000000000000#64 0x4008000000000000#64 0x3FD5555555555555#64 0x100#32,
    floatGives 0xC8611010#32 0x000#32 0x3FF0000000000001#64 0x3CA0000000000000#64 0x3FF0000000000002#64 0x100#32,
    floatGives 0xC8610014#32 0x000#32 0x0020000000000001#64 0x0#64 0x4340000000000000#64 0x100#32,
    floatGives 0xC8610015#32 0x000#32 0xC004000000000000#64 0x0#64 0xFFFFFFFFFFFFFFFE#64 0x100#32].all id) = true := by
  decide +kernel

/-- Rows all_eq.b, all_ge.h, any_lt.h, any_ne.b, add.b, adds.h, addus.h, avg.b, cmp_ge.b, cmp_gt.h, max.h, merge.b,
min.b, muls.h, nand, pack.b, packs.h, packus.b, perm.n, rl.h, sll.b, srl.h, sra.h, subs.b, subus.h, unpack.b,
unpack.h, xor of the table of 95_test_vectors 2.11. -/
theorem test_step_vector : ([
    vectorGives 0x28611010#32 0x0000000000000000#64, vectorGives 0x28611013#32 0xFFFFFFFFFFFFFFFF#64,
    vectorGives 0x28611029#32 0x0000000000000000#64, vectorGives 0x2861102A#32 0xFFFFFFFFFFFFFFFF#64,
    vectorGives 0x28611030#32 0x00007F0000FEFF00#64, vectorGives 0x28611033#32 0x80007FFF01FE0000#64,
    vectorGives 0x28611037#32 0xFFFF800001FEFFFF#64, vectorGives 0x28611039#32 0x80003F0000FFFF00#64,
    vectorGives 0x28611042#32 0xFFFFFF00FFFFFFFF#64, vectorGives 0x28611045#32 0x0000FFFF0000FFFF#64,
    vectorGives 0x28611056#32 0x80007FFF00FF1234#64, vectorGives 0x28611057#32 0x80007F0100FF12CC#64,
    vectorGives 0x28611059#32 0x800000FF00FFEDCC#64, vectorGives 0x2861105C#32 0x7FFF7FFF7FFF8000#64,
    vectorGives 0x2861105D#32 0x7FFFFFFEFF00FFFB#64, vectorGives 0x28611060#32 0x00FF0F2400010FDC#64,
    vectorGives 0x28611063#32 0x807F7F7F80017F80#64, vectorGives 0x28611064#32 0xF0FF0FFFF0010FFF#64,
    vectorGives 0x28611066#32 0xF444444344880000#64, vectorGives 0x28611068#32 0x8000FFFE807F4123#64,
    vectorGives 0x28611069#32 0x80007FFE00804040#64, vectorGives 0x2861106D#32 0x80003FFF00000001#64,
    vectorGives 0x2861106F#32 0x80003FFF00000001#64, vectorGives 0x28611073#32 0x00007FFE00002568#64,
    vectorGives 0x28611078#32 0x00007FFE00000000#64, vectorGives 0x28611079#32 0x0000FFFF01020304#64,
    vectorGives 0x2861107A#32 0x0000FFFF00120034#64,
    vectorGives 0x2861107B#32 0x00007FFE0000FFF8#64].all id) = true := by
  decide +kernel

/-- The 64-bit loads and stores exist where either ORBIS64 or ORFPX64 does (00 R2). -/
theorem test_doubleWord_needs_either_subset :
    (implemented { Config.full with orbis64 := false } .doubleWord &&
      implemented { Config.full with orfpx64 := false } .doubleWord &&
      !implemented { Config.full with orbis64 := false, orfpx64 := false } .doubleWord) = true := by
  decide

/-- A fetch from a cache-inhibited page gets the newest byte; from another page an enabled instruction cache may hold an
older one (20 R273, R286). -/
theorem test_fetch_past_the_cache :
    (let s : State := { fullWith 0 0 with sr := 0x8011#32, mem := [(0x100, 2#8)], stale := [(0x100, 1#8)] }
     let here (ci : Bool) : Place :=
       { pa := 0x100, attributes := some { wbc := false, ci := ci, wom := false, cc := false } }
     fetchCandidates s (here true) == [2#8] && fetchCandidates s (here false) == [2#8, 1#8]) = true := by
  decide +kernel

/-- A block written back after the instruction cache was told to drop it may still be fetched as it was, for the cache may
have refilled from memory in between; in the other order it may not (20 R273, 70 R843). -/
theorem test_write_back_before_invalidate :
    (let s : State := { fullWith 0 0 with sr := 0x8011#32, mem := [(0x100, 2#8)], unwritten := [(0x100, 1#8)] }
     let here : Place := { pa := 0x100, attributes := some { wbc := true, ci := false, wom := false, cc := false } }
     let wrong := (s.invalidateBlock 0x100#64).writeBackBlock (·.writeBack) 0x100#64
     let right := (s.writeBackBlock (·.writeBack) 0x100#64).invalidateBlock 0x100#64
     fetchCandidates wrong here == [2#8, 1#8] && fetchCandidates right here == [2#8]) = true := by
  decide +kernel

/-- Sleep mode ends when the input rises, though it falls before the processor's turn (60 R803). -/
theorem test_sleep_ends_at_the_first_instant :
    (let s : State :=
      { fullWith 0 0 with inputs := [.irq 1#32, .irq 0#32], pmr := 0x20#32,
                          pic := { mask := 1#32, latch := 0#32, irq := 0#32 } }
     match step s with
     | .next t => !waiting t
     | _ => false) = true := by
  decide +kernel

/-- DMR1[21:20] are reserved (60 R808). -/
theorem test_dmr1_reserved_bits :
    (match sprWrite (fullWith 0 0) 0x3010 0xFFFFFFFF#64 with
     | .ok t => t.debugUnit.dmr1 == 0x00CFFFFF#32
     | .error _ => false) = true := by
  decide +kernel

/-- DTLBEIR clears a matching entry with PL1 = 1 too (20 R208, R234). -/
theorem test_invalidate_level1 :
    (let s : State := { fullWith 0 0 with dmmu := { Mmu.reset with tlbMr := [(9, 0x3#64)] } }
     match sprWrite s 0x0802 0x12344#64 with
     | .ok t => Table.read t.dmmu.tlbMr 9 == 0x2#64
     | .error _ => false) = true := by
  decide +kernel

/-- After `lf.add.s` raises the floating-point exception, PPC names it, for it has completed (45 R543, 60 R741): 1 + NaN
with FPEE set. -/
theorem test_float_exception_completes :
    stepEnds 0xC8611000#32 { fullWith 0x3F800000 0x7FC00000 with fpcsr := 1#32 }
      (fun t => t.ppc == 0x100#64 && t.pc == 0xD00#64) = true := by
  decide +kernel

/-! ### Hypotheses that can be met

One theorem or more for each obligation with hypotheses, named after it: a state and operands that meet them together,
each clause at the ends of its range. -/

/-- The implementation with every unit, right after reset. -/
def full : State := State.resetOf Config.full

/-- The implementation of the defaults of 00 R9, right after reset. -/
def plain : State := State.resetOf Config.specDefault

/-- Each need is met and registers 0 and 31 exist: where `available` is the only hypothesis, this meets it. -/
def hasAll (s : State) (needs : List Needs) : Bool :=
  needs.all (implemented s.cfg) && regsExist s.cfg [0#5, 31#5]

theorem witness_EncodedBitsComeFromTheWord : decode 0xE0221CF0#32 = .ok (.lAdd 1#5 2#5 3#5) := by decide

theorem witness_ResetIsWhatSoftwareReliesOn :
    (∃ c : Config, full = State.resetOf c) ∧ ∃ t : State, plain.warmReset = t.warmReset :=
  ⟨⟨_, rfl⟩, ⟨_, rfl⟩⟩

theorem witness_StepKeepsTheInvariant : State.reset.wf = true ∧ ∃ t : State, step State.reset = .next t :=
  ⟨by decide +kernel, _, rfl⟩

/-- `l.add r1,r2,r3` placed where `plain` fetches. -/
def placed : State := plain.placeNext 0xE0221800#32

/-- A word no instruction has, placed where `plain` fetches. -/
def unplaced : State := plain.placeNext 0x14000000#32

theorem witness_StepRunsTheDecodedInstruction : ready placed ∧ placed.cfg.debugUnit = none ∧
    placed.cfg.counters = none ∧
    ∃ (w : BitVec 32) (t : State), fetch placed.fresh = .ok w t ∧ decode w = .ok (.lAdd 1#5 2#5 3#5) :=
  ⟨⟨rfl, rfl, rfl, rfl, rfl⟩, rfl, rfl, _, _, rfl, by decide +kernel⟩

theorem witness_StepRunsTheDecodedInstruction_none : ready unplaced ∧
    ∃ (w : BitVec 32) (t : State), fetch unplaced.fresh = .ok w t ∧
      decode w = .error (.unassignedSub 0x05#6 0#26) ∧ canEnter t .illegal :=
  ⟨⟨rfl, rfl, rfl, rfl, rfl⟩, _, _, rfl, by decide +kernel, rfl, by decide⟩

/-- The MMUs of the full implementation are reloaded by software. -/
theorem full_reload : ∀ g : MmuConfig, full.cfg.dmmu = some g ∨ full.cfg.immu = some g → g.reload = false := by
  rintro g (h | h) <;> cases h <;> rfl

theorem witness_PlacedWordIsFetched : (∀ g : MmuConfig, full.cfg.immu = some g → g.reload = false) ∧
    aligned full.pc 4 = true ∧
    ∃ (p : Place) (u : State), translate full .fetch full.pc = .ok p u ∧
      [p.pa, p.pa + 1, p.pa + 2, p.pa + 3].all (mapped full.cfg) = true :=
  ⟨fun g h => full_reload g (.inr h), by decide, _, _, rfl, by decide +kernel⟩

theorem witness_InterruptsAreTakenBetweenInstructions_tick :
    let s : State := { plain with sr := 0x8007#32, ttmr := 0x10000000#32 }
    s.inputs = [] ∧ s.stopped = false ∧ waiting s = false ∧ s.cfg.tickTimer = true ∧ s.ttmr.getLsbD 28 = true ∧
      srBit s srTEE = true ∧ canEnter s .tick :=
  ⟨rfl, rfl, rfl, rfl, by decide, by decide, rfl, by decide⟩

/-- Input 31 by level with the tick timer's exception off; input 0 by its edge with no tick interrupt pending; input 1,
which the implementation never masks; and the one line of an implementation without a PIC. -/
theorem witness_InterruptsAreTakenBetweenInstructions_external :
    let s : State :=
      { plain with sr := 0x8005#32, ttmr := 0x10000000#32,
                   pic := { mask := 1#32 <<< 31, latch := 0#32, irq := 1#32 <<< 31 } }
    let t : State :=
      { State.resetOf { Config.specDefault with picEdge := 1#32 } with
        sr := 0x8007#32, pic := { mask := 1#32, latch := 1#32, irq := 0#32 } }
    let u : State :=
      { State.resetOf { Config.specDefault with picFixedUnmasked := true } with
        sr := 0x8005#32, pic := { mask := 0#32, latch := 0#32, irq := 2#32 } }
    let v : State :=
      { State.resetOf { Config.specDefault with pic := false } with
        sr := 0x8005#32, pic := { mask := 0#32, latch := 0#32, irq := 1#32 } }
    (waiting s = false ∧ srBit s srTEE = false ∧ srBit s srIEE = true ∧ s.cfg.pic = true ∧
      (31 < 32 ∧ s.pic.mask.getLsbD 31 = true ∧
        (if s.cfg.picEdge.getLsbD 31 then s.pic.latch.getLsbD 31 else s.pic.irq.getLsbD 31) = true) ∧
      canEnter s .external) ∧
    (waiting t = false ∧ t.ttmr.getLsbD 28 = false ∧ srBit t srIEE = true ∧ (0 < 32 ∧ t.pic.mask.getLsbD 0 = true ∧
        (if t.cfg.picEdge.getLsbD 0 then t.pic.latch.getLsbD 0 else t.pic.irq.getLsbD 0) = true) ∧
      canEnter t .external) ∧
    (waiting u = false ∧ srBit u srTEE = false ∧ srBit u srIEE = true ∧ u.cfg.picFixedUnmasked = true ∧ 1 < 2 ∧
      (if u.cfg.picEdge.getLsbD 1 then u.pic.latch.getLsbD 1 else u.pic.irq.getLsbD 1) = true ∧
      canEnter u .external) ∧
    (waiting v = false ∧ srBit v srTEE = false ∧ srBit v srIEE = true ∧ v.cfg.pic = false ∧
      v.pic.irq.getLsbD 0 = true ∧ canEnter v .external) :=
  ⟨⟨rfl, by decide, by decide, rfl, by decide, rfl, by decide⟩,
    ⟨rfl, by decide, by decide, by decide, rfl, by decide⟩,
    ⟨rfl, by decide, by decide, rfl, by decide, by decide, rfl, by decide⟩,
    rfl, by decide, by decide, rfl, by decide, rfl, by decide⟩

/-- Each event; a write to the granule of the reservation, where memory answers. -/
theorem witness_InterruptsAreTakenBetweenInstructions_event :
    (∀ e ∈ [Input.irq 1#32, .write 0x1000 5#8, .loseReservation, .watch true],
      ({ plain with inputs := [e] } : State).inputs = e :: []) ∧
    (let s : State := { plain with inputs := [.write 0x1003 5#8], resv := some 0x1000 }
     mapped s.cfg 0x1003 = true ∧ ∃ p : Nat, s.resv = some p ∧ sameGranule s.cfg p 0x1003 = true) :=
  ⟨fun _ _ => rfl, by decide +kernel, 0x1000, rfl, by decide +kernel⟩

/-- SR[CE] set in the last context but one: the exception uses the last. -/
def inContext14 : State := { full with sr := 0xE0008101#32 }

/-- A delay slot at the top of the 32-bit space. -/
def inDelaySlot : State := { plain with ds := some { jump := 0xFFFFFFF8#64, next := 0x2000#64 }, pc := 0xFFFFFFFC#64 }

theorem witness_ExceptionEntrySavesAndVectors : canEnter plain .busError ∧ canEnter inContext14 .trap :=
  ⟨⟨rfl, by decide⟩, rfl, by decide⟩

theorem witness_ExceptionEntrySetsSr : (inContext14.wf = true ∧ canEnter inContext14 .trap ∧
      ∃ t : State, enter .trap none inContext14 = .next t) ∧
    (inDelaySlot.wf = true ∧ canEnter inDelaySlot .range ∧ ∃ t : State, enter .range none inDelaySlot = .next t) :=
  ⟨⟨by decide +kernel, ⟨rfl, by decide⟩, _, rfl⟩, by decide +kernel, ⟨rfl, by decide⟩, _, rfl⟩

theorem witness_ExceptionVectors : (canEnter plain .busError ∧ ∃ t : State, enter .busError none plain = .next t) ∧
    (canEnter full .trap ∧ ∃ t : State, enter .trap (some 0#64) full = .next t) :=
  ⟨⟨⟨rfl, by decide⟩, _, rfl⟩, ⟨rfl, by decide⟩, _, rfl⟩

theorem witness_ExceptionEntrySavesPc : (canEnter inDelaySlot .systemCall ∧ inDelaySlot.ds.isSome = true ∧
      ∃ t : State, enter .systemCall none inDelaySlot = .next t) ∧
    (canEnter full .floatingPoint ∧ full.ds = none ∧ ∃ t : State, enter .floatingPoint none full = .next t) ∧
    (canEnter full .trap ∧ ∃ t : State, enter .trap none full = .next t) :=
  ⟨⟨⟨rfl, by decide⟩, rfl, _, rfl⟩, ⟨⟨rfl, by decide⟩, rfl, _, rfl⟩, ⟨rfl, by decide⟩, _, rfl⟩

theorem witness_ReturnUndoesEntry : inContext14.wf = true ∧ canEnter inContext14 .systemCall ∧
    ∃ t : State, enter .systemCall none inContext14 = .next t :=
  ⟨by decide +kernel, ⟨rfl, by decide⟩, _, rfl⟩

/-- One register set; SR[CE] set in context 1; SR[CE] clear with context 15 saved. -/
theorem witness_ReturnFromExceptionCompletes :
    (srBit plain srSM = true ∧ plain.ds = none ∧ plain.cfg.nsets ≤ 1) ∧
    (let s : State := { full with sr := 0x10008101#32 }
     srBit s srSM = true ∧ s.ds = none ∧ srBit s srCE = true ∧ 0 < context s) ∧
    (let s : State := { full with esr := [(0, 0xF0008001#32)] }
     srBit s srSM = true ∧ s.ds = none ∧ srBit s srCE = false ∧
      (Table.read s.esr (context s)).toNat / 2 ^ 28 < s.cfg.nsets) := by
  decide +kernel

theorem witness_SystemCallTrapNopAndSynchronisation :
    hasAll plain [.base, .classII .trap, .classII .msync, .classII .psync, .classII .csync] = true ∧
      canEnter plain .systemCall ∧ canEnter plain .trap :=
  ⟨by decide, ⟨rfl, by decide⟩, rfl, by decide⟩

/-- One instruction of each kind that the defaults lack, and of those an implementation may leave out; a custom
instruction; and multiply-and-add, absent and present. -/
theorem witness_AbsentInstructionsAreIllegal : canEnter plain .illegal ∧
    ([Instr.lLd 1#5 2#5 0#16, .lfAddS 1#5 2#5 3#5, .lfAddD 1#5 2#5 3#5, .lvAddB 1#5 2#5 3#5, .lCust8].all fun i =>
      !implemented plain.cfg (demands i).1) = true ∧
    (let s := State.resetOf { Config.specDefault with mac := false, omitted := [.div] }
     canEnter s .illegal ∧ implemented s.cfg (demands (.lMac 1#5 2#5)).1 = false ∧
      implemented s.cfg (demands (.lDiv 1#5 2#5 3#5)).1 = false) ∧
    plain.cfg.maddPresent = false ∧
    (let s := State.resetOf { Config.full with maddPresent := true }
     available s (.madd false) [] ∧ available s (.madd true) []) :=
  ⟨⟨rfl, by decide⟩, by decide, ⟨⟨rfl, by decide⟩, rfl, by decide⟩, rfl, ⟨rfl, rfl⟩, rfl, rfl⟩

theorem witness_VectorAccumulateIsRefused : available full .vector [0#5, 31#5, 1#5] := ⟨rfl, by decide⟩

/-- With SR[OVE] clear no flag traps; with SR[OVE] set an operation without overflow does not. -/
theorem witness_AddAndSubtract : hasAll plain [.base] = true ∧
    (∀ cy ov : Option Bool, rangeTraps plain addCauses cy ov = false) ∧
    rangeTraps (start 0x9001#32 []) addCauses (some true) (some false) = false := by
  decide +kernel

/-- SR[OVE] and every bit of AECR set, operands in r1 and r2, and the two words of the accumulator. -/
def trapping (a b : Word) (hi lo : BitVec 32) : State :=
  { fullWith a b with sr := 0x9001#32, aecr := 0x7F#32, machi := hi, maclo := lo }

/-- Sixteen registers: `l.add` naming the first that does not exist. -/
theorem witness_RangeExceptions_register :
    let s := State.resetOf { Config.specDefault with ngpr := 16 }
    implemented s.cfg (demands (.lAdd 1#5 2#5 16#5)).1 = true ∧
      (∃ r ∈ (demands (.lAdd 1#5 2#5 16#5)).2, s.cfg.ngpr ≤ r.toNat) ∧ canEnter s .range :=
  ⟨rfl, ⟨16#5, by decide, by decide⟩, rfl, by decide⟩

theorem witness_RangeExceptions_add : canEnter (trapping (2 ^ 63 - 1) 1 0 0) .range ∧
    hasAll full [.base] = true ∧
    (let s := trapping (2 ^ 63 - 1) 1 0 0
     let c := s.cfg
     let m := sextImm c 1#16
     let sum := addArith c (gpr s 1#5) (gpr s 2#5) false
     let sumCy := addArith c (gpr s 1#5) (gpr s 2#5) (srBit s srCY)
     let sumI := addArith c (gpr s 1#5) m false
     let sumICy := addArith c (gpr s 1#5) m (srBit s srCY)
     let diff := subArith c (gpr s 2#5) (gpr s 1#5 + 3#64)
     rangeTraps s addCauses sum.cy sum.ov = true ∧ rangeTraps s addCauses sumCy.cy sumCy.ov = true ∧
      rangeTraps s addCauses sumI.cy sumI.ov = true ∧ rangeTraps s addCauses sumICy.cy sumICy.ov = true ∧
      rangeTraps s addCauses diff.cy diff.ov = true) :=
  ⟨⟨rfl, by decide⟩, by decide, by decide +kernel⟩

theorem witness_RangeExceptions_multiply : canEnter (trapping (2 ^ 63) 2 0 0) .range ∧
    hasAll full [.base, .classII .muli, .classII .div, .classII .divu] = true ∧
    (let s := trapping (2 ^ 63) 2 0 0
     let c := s.cfg
     let p := mulArith c (gpr s 1#5) (gpr s 2#5)
     let q := muluArith c (gpr s 1#5) (gpr s 2#5)
     let pi := mulArith c (gpr s 1#5) (sextImm c 2#16)
     rangeTraps s mulCauses p.cy p.ov = true ∧ rangeTraps s mulCauses q.cy q.ov = true ∧
      rangeTraps s mulCauses pi.cy pi.ov = true) ∧
    (let s := trapping 7 0 0 0
     let d := divArith s.cfg (gpr s 1#5) (gpr s 2#5)
     let du := divuArith s.cfg (gpr s 1#5) (gpr s 2#5)
     rangeTraps s divCauses d.cy d.ov = true ∧ rangeTraps s divCauses du.cy du.ov = true) :=
  ⟨⟨rfl, by decide⟩, by decide, by decide +kernel, by decide +kernel⟩

theorem witness_RangeExceptions_accumulate :
    hasAll full [.macUnit .mac, .macUnit .maci, .macUnit .msb, .macUnit .macu, .macUnit .msbu, .macUnit .muld,
      .macUnit .muldu] = true ∧
    (let s := trapping 1 1 0x7FFFFFFF 0xFFFFFFFF
     rangeTraps s macCauses (macSigned s 1).cy (macSigned s 1).ov = true ∧
      signedW s.cfg (gpr s 1#5) * signedW s.cfg (gpr s 2#5) = 1 ∧ canEnter s .range) ∧
    (let s := trapping 1 1 0x80000000 0
     rangeTraps s macCauses (macSigned s (-1)).cy (macSigned s (-1)).ov = true) ∧
    (let s := trapping 1 1 0xFFFFFFFF 0xFFFFFFFF
     rangeTraps s macCauses (macUnsigned s 1).cy (macUnsigned s 1).ov = true) ∧
    (let s := trapping 1 1 0 0
     rangeTraps s macCauses (macUnsigned s (-1)).cy (macUnsigned s (-1)).ov = true) ∧
    (let s := trapping (2 ^ 63) (2 ^ 63) 0 0
     let p := signedW s.cfg (gpr s 1#5) * signedW s.cfg (gpr s 2#5)
     rangeTraps s mulCauses (muldSigned p).cy (muldSigned p).ov = true) ∧
    (let s := trapping (2 ^ 63) (2 ^ 63) 0 0
     let q := (unsignedW s.cfg (gpr s 1#5) : Int) * unsignedW s.cfg (gpr s 2#5)
     rangeTraps s mulCauses (muldUnsigned q).cy (muldUnsigned q).ov = true) :=
  ⟨by decide, ⟨by decide +kernel, by decide +kernel, rfl, by decide⟩, by decide +kernel, by decide +kernel,
    by decide +kernel, by decide +kernel, by decide +kernel⟩

theorem witness_BitwiseLogic : available plain .base [0#5, 31#5, 1#5] ∧ available plain .base [31#5, 0#5] :=
  ⟨⟨rfl, by decide⟩, rfl, by decide⟩

/-- r2 = 0, and r1 with its lowest and its highest bit set, the only ones. -/
theorem witness_ImmediatesMovesSearchesAndExtensions :
    hasAll full [.base, .classII .cmov, .classII .ff1, .classII .fl1, .classII .extbs, .classII .exths, .classII .extws,
      .classII .extbz, .classII .exthz, .classII .extwz] = true ∧
    (let x := gpr (fullWith (2 ^ 63 + 1) 0) 1#5
     gpr (fullWith (2 ^ 63 + 1) 0) 2#5 = 0#64 ∧ x.getLsbD 0 = true ∧ x.getLsbD 63 = true ∧
      (∀ j : Nat, j < 0 → x.getLsbD j = false)) ∧
    ∀ j : Nat, 63 < j → (gpr (fullWith (2 ^ 63 + 1) 0) 1#5).getLsbD j = false :=
  ⟨by decide, by decide +kernel, fun j h => BitVec.getLsbD_of_ge _ j h⟩

theorem witness_ShiftsAndRotates : hasAll plain [.base, .classII .ror, .classII .rori] = true := by decide

theorem witness_Multiplication : hasAll plain [.base, .classII .muli] = true ∧
    (∀ cy ov : Option Bool, rangeTraps plain mulCauses cy ov = false) ∧
    rangeTraps (start 0x9001#32 []) mulCauses none (some false) = false := by
  decide +kernel

theorem witness_Division : hasAll full [.classII .div, .classII .divu] = true ∧ gpr (fullWith 1 2) 2#5 ≠ 0#64 ∧
    gpr (fullWith 1 2) 3#5 = 0#64 ∧ rangeTraps (fullWith 1 2) divCauses none (some true) = false ∧
    rangeTraps (fullWith 1 2) divCauses (some true) none = false := by
  decide +kernel

theorem witness_SetFlagOnRegisters : available plain .base [0#5, 31#5] := ⟨rfl, by decide⟩

theorem witness_SetFlagOnImmediate : available plain .base [31#5] := ⟨rfl, by decide⟩

/-- A double word near the bottom of memory, a word, a half-word and a byte at its top. -/
theorem witness_Loads : hasAll full [.doubleWord, .base] = true ∧
    (∃ (ps : List Place) (u : State), dataAddresses full .load (effective full 0#5 8#16) 8 false = .ok ps u ∧
      (addressesOf ps).all (mapped full.cfg) = true) ∧
    (∃ (ps : List Place) (u : State), dataAddresses plain .load (effective plain 0#5 0xFFFC#16) 4 false = .ok ps u ∧
      (addressesOf ps).all (mapped plain.cfg) = true) ∧
    (∃ (ps : List Place) (u : State), dataAddresses plain .load (effective plain 0#5 0xFFFE#16) 2 false = .ok ps u ∧
      (addressesOf ps).all (mapped plain.cfg) = true) ∧
    ∃ (ps : List Place) (u : State), dataAddresses plain .load (effective plain 0#5 0xFFFF#16) 1 false = .ok ps u ∧
      (addressesOf ps).all (mapped plain.cfg) = true :=
  ⟨by decide, ⟨_, _, rfl, by decide +kernel⟩, ⟨_, _, rfl, by decide +kernel⟩, ⟨_, _, rfl, by decide +kernel⟩,
    _, _, rfl, by decide +kernel⟩

/-- Both byte orders, and a byte of an operand. -/
theorem witness_byteOrder : srBit full srLEE = false ∧ srBit { full with sr := 0x8081#32 } srLEE = true ∧
    [10, 11, 12, 13][3]? = some 13 := by
  decide +kernel

/-- As for the loads. -/
theorem witness_Stores : hasAll full [.doubleWord, .base] = true ∧
    (∃ (ps : List Place) (u : State), dataAddresses full .store (effective full 0#5 8#16) 8 false = .ok ps u ∧
      (addressesOf ps).all (mapped full.cfg) = true) ∧
    (∃ (ps : List Place) (u : State), dataAddresses plain .store (effective plain 0#5 0xFFFC#16) 4 false = .ok ps u ∧
      (addressesOf ps).all (mapped plain.cfg) = true) ∧
    (∃ (ps : List Place) (u : State), dataAddresses plain .store (effective plain 0#5 0xFFFE#16) 2 false = .ok ps u ∧
      (addressesOf ps).all (mapped plain.cfg) = true) ∧
    ∃ (ps : List Place) (u : State), dataAddresses plain .store (effective plain 0#5 0xFFFF#16) 1 false = .ok ps u ∧
      (addressesOf ps).all (mapped plain.cfg) = true :=
  ⟨by decide, ⟨_, _, rfl, by decide +kernel⟩, ⟨_, _, rfl, by decide +kernel⟩, ⟨_, _, rfl, by decide +kernel⟩,
    _, _, rfl, by decide +kernel⟩

theorem witness_LoadReserve : available plain (.classII .lwa) [0#5, 31#5] ∧
    ∃ (ps : List Place) (u : State), dataAddresses plain .load (effective plain 0#5 0xFFFC#16) 4 true = .ok ps u ∧
      (addressesOf ps).all (mapped plain.cfg) = true :=
  ⟨⟨rfl, by decide⟩, _, _, rfl, by decide +kernel⟩

/-- A reservation for the word at 0x1000; the same where no memory answers; and one for the word after it. -/
theorem witness_StoreConditional :
    (let s : State := { plain with resv := some 0x1000 }
     available s (.classII .swa) [0#5, 31#5] ∧
      ∃ (ps : List Place) (u : State), dataAddresses s .store (effective s 0#5 0x1000#16) 4 true = .ok ps u ∧
        u.resv = (addressesOf ps).head? ∧ (addressesOf ps).all (mapped s.cfg) = true) ∧
    (let s : State := { State.resetOf { Config.specDefault with memMap := [] } with resv := some 0x1000 }
     available s (.classII .swa) [0#5, 31#5] ∧ canEnter s .busError ∧
      ∃ (ps : List Place) (u : State), dataAddresses s .store (effective s 0#5 0x1000#16) 4 true = .ok ps u ∧
        u.resv = (addressesOf ps).head? ∧ (addressesOf ps).all (mapped s.cfg) = false) ∧
    (let s : State := { plain with resv := some 0x1004 }
     ∃ (ps : List Place) (u : State), dataAddresses s .store (effective s 0#5 0x1000#16) 4 true = .ok ps u ∧
        u.resv ≠ (addressesOf ps).head?) :=
  ⟨⟨⟨rfl, by decide⟩, _, _, rfl, by decide +kernel, by decide +kernel⟩,
    ⟨⟨rfl, by decide⟩, ⟨rfl, by decide⟩, _, _, rfl, by decide +kernel, by decide +kernel⟩,
    _, _, rfl, by decide +kernel⟩

/-- The data MMU on, with nothing in it. -/
def translated : State := { full with sr := 0x8021#32 }

/-- No memory answers. -/
def unmapped : State := State.resetOf { Config.full with memMap := [] }

/-- An operand that is not aligned, of each size; a translation miss, also of a byte; and addresses at which no memory
answers. -/
theorem witness_AccessExceptions :
    hasAll full [.doubleWord, .base, .classII .lwa, .classII .swa] = true ∧
    (canEnter full .alignment ∧
      (∃ u : State, dataAddresses full .load (effective full 0#5 4#16) 8 false = .raise .alignment u) ∧
      (∃ u : State, dataAddresses full .load (effective full 0#5 2#16) 4 false = .raise .alignment u) ∧
      (∃ u : State, dataAddresses full .store (effective full 0#5 1#16) 2 false = .raise .alignment u) ∧
      ∃ u : State, dataAddresses full .store (effective full 0#5 3#16) 4 true = .raise .alignment u) ∧
    (canEnter translated .dtlbMiss ∧
      ∃ u : State, dataAddresses translated .load (effective translated 0#5 1#16) 1 false = .raise .dtlbMiss u) ∧
    (canEnter unmapped .busError ∧
      ∃ (ps : List Place) (u : State), dataAddresses unmapped .load (effective unmapped 0#5 0#16) 1 false = .ok ps u ∧
        (addressesOf ps).all (mapped unmapped.cfg) = false) :=
  ⟨by decide, ⟨⟨rfl, by decide⟩, ⟨_, rfl⟩, ⟨_, rfl⟩, ⟨_, rfl⟩, _, rfl⟩, ⟨⟨rfl, by decide⟩, _, rfl⟩,
    ⟨rfl, by decide⟩, _, _, rfl, by decide⟩

/-- A pc that is not aligned; the instruction MMU on with nothing in it; and no memory at pc. -/
theorem witness_AccessExceptions_fetch :
    (let s : State := { full with pc := 0x102#64 }
     ready s ∧ s.pc.toNat % 4 ≠ 0 ∧ canEnter s .alignment) ∧
    (let s : State := { full with sr := 0x8041#32 }
     ready s ∧ s.pc.toNat % 4 = 0 ∧ ∃ u : State, translate s.fresh .fetch s.pc = .raise .itlbMiss u ∧
      canEnter u .itlbMiss) ∧
    (ready unmapped ∧ unmapped.pc.toNat % 4 = 0 ∧ canEnter unmapped .busError ∧
      ∃ (p : Place) (u : State), translate unmapped.fresh .fetch unmapped.pc = .ok p u ∧
        ∃ j : Nat, j < 4 ∧ mapped unmapped.cfg (p.pa + j) = false) :=
  ⟨⟨⟨rfl, rfl, rfl, rfl, rfl⟩, by decide, rfl, by decide⟩,
    ⟨⟨rfl, rfl, rfl, rfl, rfl⟩, by decide, _, rfl, rfl, by decide⟩,
    ⟨rfl, rfl, rfl, rfl, rfl⟩, by decide, ⟨rfl, by decide⟩, _, _, rfl, 3, by decide, rfl⟩

theorem witness_OperandAddresses : translates full .load = false ∧ translates plain .fetch = false ∧
    (effective full 0#5 0xFFF8#16).toNat % 8 = 0 ∧ (effective full 0#5 0xFFFF#16).toNat % 8 ≠ 0 ∧
    full.cfg.unalignedSupported = false ∧
    (let s := State.resetOf { Config.specDefault with unalignedSupported := true }
     translates s .store = false ∧ (effective s 0#5 0xFFFF#16).toNat % 4 ≠ 0 ∧ s.cfg.unalignedSupported = true) := by
  decide +kernel

/-- Vectors V-M1 to V-M4 of 95_test_vectors 2.12: page 9 mapped to page 0x400 with SRE alone, in way 3. -/
def mappedPage : State :=
  { translated with dmmu := { Mmu.reset with tlbMr := [(777, 0x12001#64)], tlbTr := [(777, 0x800100#64)] } }

/-- The way matches, and it alone; a load is permitted and a store is not. -/
theorem witness_TlbTranslation_hit : mmuConfig mappedPage.cfg .load = some MmuConfig.full ∧
    translates mappedPage .load = true ∧
    (let m := mmuOf mappedPage .load
     let n := tlbSet MmuConfig.full 0x12344#64
     (∀ y : Nat, y < 4 → tlbHitLevel1 mappedPage m 0x12344#64 n y = false) ∧
      (∀ y : Nat, y < 4 → (tlbHit mappedPage m 0x12344#64 n y = true ↔ y = 3)) ∧
      ((Entry.tlb (256 * 3 + n)).translate m).getLsbD (permission true .load true) = true ∧
      ((Entry.tlb (256 * 3 + n)).translate m).getLsbD (permission true .store true) = false ∧
      mappedPage.cfg.adOnFault = false) ∧
    (let s : State := { mappedPage with cfg := { mappedPage.cfg with adOnFault := true } }
     s.cfg.adOnFault = true ∧
      ((Entry.tlb 777).translate (mmuOf s .store)).getLsbD (permission true .store true) = false) := by
  decide +kernel

/-- The same page in two ways; and way 0 holding the 16-Mbyte page of the address, under either policy. -/
theorem witness_TlbTranslation_ways :
    (let m := { mappedPage.dmmu with tlbMr := [(9, 0x12001#64), (777, 0x12001#64)] }
     ∀ y : Nat, y < 4 → (tlbHit mappedPage m 0x12344#64 9 y = true ↔ y = 0 ∨ y = 3)) ∧
    (let m := { mappedPage.dmmu with tlbMr := [(9, 0x00003#64), (777, 0x12001#64)] }
     tlbHitLevel1 mappedPage m 0x12344#64 9 0 = true ∧ tlbHit mappedPage m 0x12344#64 9 3 = true) ∧
    (let m := { mappedPage.dmmu with tlbMr := [(9, 0x00003#64)] }
     (∀ y : Nat, y < 4 → (tlbHitLevel1 mappedPage m 0x12344#64 9 y = true ↔ y = 0) ∧
        tlbHit mappedPage m 0x12344#64 9 y = false) ∧ mappedPage.cfg.tlbPl1 = .refuse ∧
      ({ Config.full with tlbPl1 := .largePage } : Config).tlbPl1 = .largePage) := by
  decide +kernel

/-- An ATB entry for 16 Mbyte, and one for 32 Gbyte. -/
theorem witness_TlbTranslation_atb :
    let m := { mappedPage.dmmu with atbMr := [(0, 0x1000001#64), (3, 0x21#64)], atbTr := [(0, 0x1000040#64)] }
    (∀ y : Nat, y < 4 → tlbHit mappedPage m 0x1012344#64 9 y = false ∧
      tlbHitLevel1 mappedPage m 0x1012344#64 9 y = false) ∧
      atbHit mappedPage m 0x1012344#64 0 = true ∧ (Table.read m.atbMr 0).getLsbD 5 = false ∧
      ((Entry.atb 0).translate m).getLsbD (permission false .load true) = true ∧
      ((Entry.atb 0).translate m).getLsbD (permission false .store true) = false ∧
      atbHit mappedPage m 0x7FFFFFFFF#64 3 = true ∧ (Table.read m.atbMr 3).getLsbD 5 = true := by
  decide +kernel

theorem witness_TlbTranslation_miss : MmuConfig.full.reload = false ∧
    let m := mmuOf mappedPage .load
    let n := tlbSet MmuConfig.full 0x112344#64
    (∀ y : Nat, y < 4 → tlbHitLevel1 mappedPage m 0x112344#64 n y = false) ∧
      (∀ y : Nat, y < 4 → tlbHit mappedPage m 0x112344#64 n y = false) ∧
      ∀ j : Nat, j < 4 → atbHit mappedPage m 0x112344#64 j = false := by
  decide +kernel

/-- The same search of an empty TLB where the hardware reloads. -/
theorem witness_TlbTranslation_reload :
    let g : MmuConfig := { MmuConfig.full with reload := true }
    let s : State := { State.resetOf { Config.full with dmmu := some g } with sr := 0x8021#32 }
    mmuConfig s.cfg .store = some g ∧ translates s .store = true ∧ g.reload = true ∧
      (∀ y : Nat, y < 4 → tlbHit s (mmuOf s .store) 0#64 (tlbSet g 0#64) y = false) ∧
      ∀ j : Nat, j < 4 → atbHit s (mmuOf s .store) 0#64 j = false := by
  decide +kernel

/-- A page table whose first entry, wherever the search finds it, describes a 16-Mbyte page (L set, PPI 1). -/
theorem witness_TlbTranslation_page :
    let g : MmuConfig := { MmuConfig.full with reload := true }
    let pa := Config.freePte 0 0 0 0
    let c : Config := { Config.specDefault with dmmu := some g, memMap := [{ base := pa, size := 4 }] }
    let s : State := { State.resetOf c with sr := 0x8021#32, mem := [(pa + 2, 2#8), (pa + 3, 0x40#8)] }
    s.cfg.wf = true ∧ translates s .load = true ∧ walk s .load 0#64 = .page 0x240#32 pa 24 := by
  intro g pa c s
  refine ⟨by decide +kernel, by decide +kernel, ?_⟩
  have hm (i : Nat) (h : i < 4) : mapped s.cfg (pa + i) = true := by simp [mapped, s, c, h, State.resetOf]
  have hp : readEntry s pa = 0x240#32 := by
    simp [readEntry, readByte, s, Table.read]
  have hb : ((mmuOf s .load).control.extractLsb' 10 22).toNat = 0 := by decide +kernel
  have hf : walkFields s.cfg = [(32, 24), (24, 13)] := rfl
  have hx : context s = 0 := by decide +kernel
  have hi : slice 0#64 32 24 = 0 := by decide
  rw [walk, hb, hf, walkFrom, hx, hi]
  have h0 := hm 0 (by omega)
  simp only [List.all_cons, List.all_nil, Bool.and_true, hm 1 (by omega), hm 2 (by omega), hm 3 (by omega),
    show mapped s.cfg pa = true from h0, show Config.freePte 0 0 0 0 = pa from rfl, if_true, hp]
  rw [show s.cfg.pteLayout = PteLayout.default from rfl, show pteLast PteLayout.default 0x240#32 = true by decide,
    if_neg (by decide), Bool.true_or, if_pos rfl]

theorem witness_LoadReturnsWhatWasStored : hasAll full [.base, .doubleWord] = true ∧ translates full .store = false ∧
    (∀ p ∈ [(0xFFFC#16, 4), (0xFFFE#16, 2), (0xFFFF#16, 1), (0xFFF8#16, 8)],
      let s := full.setGpr 1#5 0x8000#64
      (effective s 1#5 p.1).toNat % p.2 = 0 ∧
        ∀ j : Nat, j < p.2 → mapped s.cfg (physical s.cfg (effective s 1#5 p.1) + j) = true) := by
  decide +kernel

theorem witness_JumpsAndBranches : full.ds = none ∧ available full .base [] ∧ available full .base [31#5] :=
  ⟨rfl, ⟨rfl, rfl⟩, rfl, by decide⟩

/-- A jump outside a delay slot; and, in a delay slot, each instruction that is refused there. -/
theorem witness_DelaySlotThenTarget : full.ds = none ∧ full.cfg.nd = false ∧
    (∃ t : State, exec (.lJ 0x3FFFFFF#26) full = .next t ∧ canEnter t .systemCall) ∧
    inDelaySlot.ds ≠ none ∧ available inDelaySlot .base [31#5] ∧ srBit inDelaySlot srSM = true :=
  ⟨rfl, rfl, ⟨_, rfl, rfl, by decide⟩, nofun, ⟨rfl, by decide⟩, by decide⟩

theorem witness_MultiplyAccumulate :
    hasAll plain [.macUnit .mac, .macUnit .maci, .macUnit .msb, .macUnit .macu, .macUnit .msbu, .macUnit .muld,
      .macUnit .muldu, .macUnit .macrc] = true ∧
    (∀ cy ov : Option Bool, rangeTraps plain macCauses cy ov = false ∧ rangeTraps plain mulCauses cy ov = false) ∧
    rangeTraps (start 0x9001#32 []) macCauses none (some false) = false := by
  decide +kernel

/-- In supervisor mode; in user mode; in user mode with SR[SUMRA]. -/
theorem witness_MoveFromSpr : available full .base [0#5, 31#5] ∧ srBit full srSM = true ∧
    (let user : State := { full with sr := 0x8000#32 }
     srBit user srSM = false ∧ ((gpr user 0#5).toNat ||| (0x2801#16).toNat) % 2 ^ 16 = 0x2801 ∧
      ((gpr user 0#5).toNat ||| (0x2802#16).toNat) % 2 ^ 16 = 0x2802) ∧
    (let user : State := { full with sr := 0x18000#32 }
     srBit user srSM = false ∧ srBit user srSUMRA = true ∧
      ([0x0014#16, 0x3800#16, 0x3807#16, 0x5001#16, 0x0020#16, 0x003F#16].all fun k =>
        decide (((gpr user 0#5).toNat ||| k.toNat) % 2 ^ 16 = k.toNat)) = true) :=
  ⟨⟨rfl, by decide⟩, by decide, by decide +kernel, by decide +kernel⟩

/-- Every register of the list exists in the full implementation, the first and the last of each file. -/
theorem witness_SprAddresses : full.cfg.evbarPresent = true ∧ full.cfg.aecsrPresent = true ∧ full.cfg.orfpx32 = true ∧
    0 < full.cfg.nsets ∧ 15 < full.cfg.nsets ∧ 0 < full.cfg.ngpr ∧ 31 < full.cfg.ngpr ∧ full.cfg.mac = true ∧
    (∀ k ∈ [Access.load, .fetch], mmuConfig full.cfg k = some MmuConfig.full) ∧ MmuConfig.full.control = true ∧
    MmuConfig.full.protect = true ∧ 3 < MmuConfig.full.atbs ∧ 3 < MmuConfig.full.ways ∧
    127 < 2 ^ MmuConfig.full.setsLog ∧ full.cfg.dcache = some CacheConfig.full ∧
    full.cfg.icache = some CacheConfig.full ∧ CacheConfig.full.control = true ∧
    full.cfg.debugUnit = some { pairs := 8, counters := true } ∧ full.cfg.counters = some 8 ∧ full.cfg.pic = true ∧
    full.cfg.debugUnit.isSome = true ∧ full.cfg.power = true ∧ full.cfg.tickTimer = true := by
  decide

/-- With r0 = 0 the immediate is the address: the ends of every range of the statement. -/
theorem witness_MoveToSpr : available full .base [0#5, 31#5] ∧ srBit full srSM = true ∧
    ([0x0010#16, 0x0012#16, 0x0011#16, 0#16, 0x03FF#16, 0x0400#16, 0x05FF#16, 0x0600#16, 0x07FF#16, 0x0800#16,
        0x0FFF#16, 0x1000#16, 0x17FF#16, 0x1800#16, 0x1803#16, 0x1FFF#16, 0x2000#16, 0x27FF#16, 0x2800#16, 0x2FFF#16,
        0x3000#16, 0x37FF#16, 0x3800#16, 0x3FFF#16, 0x4000#16, 0x47FF#16, 0x4800#16, 0x4FFF#16, 0x5000#16, 0x57FF#16,
        0x5800#16, 0xFFFF#16].all fun k => decide (((gpr full 0#5).toNat ||| k.toNat) % 2 ^ 16 = k.toNat)) = true ∧
    (let user : State := { full with sr := 0x8000#32 }
     srBit user srSM = false ∧ ((gpr user 0#5).toNat ||| (0x2003#16).toNat) % 2 ^ 16 = 0x2003) ∧
    (let s := (State.resetOf { Config.full with nsets := 2 }).setGpr 1#5 0x20000000#64
     1 < s.cfg.nsets ∧ s.cfg.nsets ≤ ((gpr s 1#5).setWidth 32).toNat / 2 ^ 28) :=
  ⟨⟨rfl, by decide⟩, by decide, by decide +kernel, by decide +kernel, by decide +kernel⟩

/-- A write to the first and the last register of each clause gives a state. -/
theorem witness_SprReadsBackWhatWasWritten :
    ∀ addr ∈ [0x000B, 0x000C, 0x000D, 0x0014, 0x0020, 0x003F, 0x0040, 0x004F, 0x0400, 0x05FF, 0x0800, 0x0801, 0x0802,
      0x0804, 0x0807, 0x0808, 0x080B, 0x0A00, 0x0D7F, 0x0A80, 0x0DFF, 0x1000, 0x1001, 0x1002, 0x1004, 0x100B, 0x1200,
      0x15FF, 0x1800, 0x2000, 0x2801, 0x2802, 0x3000, 0x3007, 0x3008, 0x300F, 0x3010, 0x3011, 0x3012, 0x3013, 0x3014,
      0x3015, 0x3800, 0x3807, 0x3808, 0x380F, 0x4000, 0x4800, 0x4802, 0x5000, 0x5001],
      ∃ t : State, sprWrite full addr 0xFFFFFFFF#64 = .ok t := by
  have ok (addr : Nat) (h : (sprWrite full addr 0xFFFFFFFF#64).isOk = true) :
      ∃ t : State, sprWrite full addr 0xFFFFFFFF#64 = .ok t := by
    cases e : sprWrite full addr 0xFFFFFFFF#64 with
    | ok t => exact ⟨t, rfl⟩
    | error r => rw [e] at h; cases h
  intro addr h
  exact ok addr (by revert addr; decide +kernel)

/-- A way that a write of the address it maps to DTLBEIR clears; and doze mode that ends as it begins. -/
theorem witness_SprReadsBackWhatWasWritten_acts :
    tlbHit mappedPage (mmuOf mappedPage .load) (narrow mappedPage.cfg 0x12344#64) (tlbSet MmuConfig.full 0x12344#64) 3 =
      true ∧
    (let s : State := { full with ttmr := 0x10000000#32 }
     s.cfg.power = true ∧ (0x10#64).getLsbD 7 = false ∧ (0x10#64).getLsbD 4 = true ∧ (0x10#64).getLsbD 5 = false ∧
      tickPending s = true) := by
  decide +kernel

/-- The three policies, with EPCR0 (0x20) to read and SR (0x11) to write. -/
theorem witness_UserModeIsTurnedAway :
    ∀ p ∈ [UserSprPolicy.refuse, .illegal, .ignore],
      let s : State := { State.resetOf { Config.specDefault with userSpr := p } with sr := 0x8000#32 }
      srBit s srSM = false ∧ hasAll s [.base] = true ∧ s.cfg.userSpr = p ∧
        userReads s (((gpr s 0#5).toNat ||| (0x20#16).toNat) % 2 ^ 16) = false ∧
        userWrites (((gpr s 0#5).toNat ||| (0x11#16).toNat) % 2 ^ 16) = false ∧ debugTakes s .illegal = false ∧
        entryContext s < s.cfg.nsets := by
  decide +kernel

/-- In user mode: an addition, and a system call, which enters the supervisor. -/
theorem witness_UserModeKeepsPrivilegedState :
    let s : State := { full with sr := 0x8000#32 }
    (∀ g : MmuConfig, s.cfg.dmmu = some g → g.reload = false) ∧ srBit s srSM = false ∧
      (∃ t : State, exec (.lAdd 1#5 2#5 3#5) s = .next t ∧ srBit t srSM = false) ∧
      ∃ t : State, exec (.lSys 0#16) s = .next t ∧ srBit t srSM = true :=
  ⟨fun g h => full_reload g (.inl h), by decide, ⟨_, rfl, by decide +kernel⟩, _, rfl, by decide +kernel⟩

/-- FPEE clear; FPEE set, a flag raised (1 / 3, inexact) and none raised (1 + 2). -/
theorem witness_FloatingPointArithmetic : hasAll full [.single, .double] = true ∧ full.fpcsr.getLsbD 0 = false ∧
    (let s : State := { fullWith 0x3F800000 0x40400000 with fpcsr := 1#32 }
     let r := floatDiv s.cfg singleFormat (roundingOf s.fpcsr) (gpr s 1#5) (gpr s 2#5)
     s.fpcsr.getLsbD 0 = true ∧ r.flags &&& s.cfg.trapMask ≠ 0#9 ∧ canEnter s .floatingPoint) ∧
    (let s : State := { fullWith 0x3F800000 0x40000000 with fpcsr := 1#32 }
     let r := floatAdd s.cfg singleFormat (roundingOf s.fpcsr) (gpr s 1#5) (gpr s 2#5)
     r.flags &&& s.cfg.trapMask = 0#9) :=
  ⟨by decide, by decide, ⟨by decide +kernel, by decide +kernel, rfl, by decide⟩, by decide +kernel⟩

theorem witness_FloatingPointComparison : hasAll full [.single, .double] = true := by decide

theorem witness_RoundingIsCorrect : (0 : Int) ≤ 0 ∧ (0 : Int) < 1 := by decide

/-- The smallest and the largest number of each format; and finite operands, none zero. -/
theorem witness_ExactResultsAreRoundedOnce : Config.full.denormals = .ieee ∧
    (∀ f ∈ [singleFormat, doubleFormat],
      (f.emin - f.fracBits ≤ f.emin - f.fracBits ∧ f.emin - f.fracBits + Nat.log2 1 ≤ f.bias) ∧
      (2 ^ (f.fracBits + 1) - 1 ≠ 0 ∧ f.emin - f.fracBits ≤ (f.bias : Int) - f.fracBits ∧
        (f.bias : Int) - f.fracBits + Nat.log2 (2 ^ (f.fracBits + 1) - 1) ≤ f.bias)) ∧
    floatValue Config.full singleFormat 0xBF800000#64 = .finite true (2 ^ 23) (-23) ∧
    floatValue Config.full singleFormat 0x00000001#64 = .finite false 1 (-149) ∧
    floatValue Config.full doubleFormat 0x7FEFFFFFFFFFFFFF#64 = .finite false (2 ^ 53 - 1) 971 := by
  decide +kernel

/-- A quiet and a signalling NaN, an infinity, a zero and another finite number, of both formats. -/
theorem witness_SpecialOperands :
    floatValue Config.full singleFormat 0x7FC00000#64 = .nan false ∧
    floatValue Config.full singleFormat 0x7F800001#64 = .nan true ∧
    floatValue Config.full singleFormat 0xFF800000#64 = .infinity true ∧
    floatValue Config.full singleFormat 0x80000000#64 = .finite true 0 (-149) ∧
    floatValue Config.full singleFormat 0x3F800000#64 = .finite false (2 ^ 23) (-23) ∧
    floatValue Config.full doubleFormat 0x7FF8000000000000#64 = .nan false ∧
    floatValue Config.full doubleFormat 0xFFF0000000000001#64 = .nan true ∧
    floatValue Config.full doubleFormat 0x7FF0000000000000#64 = .infinity false ∧
    floatValue Config.full doubleFormat 0#64 = .finite false 0 (-1074) := by
  decide +kernel

theorem witness_VectorSums : hasAll full [.vector, .vectorII .lvMulsH] = true := by decide

theorem witness_VectorSelectionsAndLogic : available full .vector [0#5, 31#5, 1#5] := ⟨rfl, by decide⟩

theorem witness_VectorCompareMasks : available full .vector [31#5, 0#5, 1#5] := ⟨rfl, by decide⟩

theorem witness_VectorAllAndAny : available full .vector [31#5, 1#5, 0#5] := ⟨rfl, by decide⟩

theorem witness_VectorShifts : available full .vector [1#5, 31#5, 0#5] ∧ full.cfg.lvFlagged = .asWritten ∧
    (let s := State.resetOf { Config.full with lvFlagged := .refuse }
     available s .vector [1#5, 31#5, 0#5] ∧ s.cfg.lvFlagged = .refuse) :=
  ⟨⟨rfl, by decide⟩, rfl, ⟨rfl, by decide⟩, rfl⟩

theorem witness_VectorRearrangements : available full .vector [1#5, 0#5, 31#5] ∧ available full .vector [31#5, 0#5] :=
  ⟨⟨rfl, by decide⟩, rfl, by decide⟩

/-- The four modes with and without a match, and sleep mode. -/
theorem witness_TickTimer :
    ([0, 1, 2, 3].all fun m => [0#28, 0xFFFFFFF#28].all fun tp =>
      let s : State := { plain with inputs := [.tick], ttmr := BitVec.ofNat 2 m ++ 2#2 ++ tp }
      decide (s.inputs = [.tick] ∧ s.cfg.tickTimer = true ∧ s.ttmr.toNat / 2 ^ 30 = m ∧ s.cfg.power = false)) = true ∧
    (let s : State := { full with inputs := [.tick], pmr := 0x20#32 }
     s.cfg.tickTimer = true ∧ s.cfg.power = true ∧ s.pmr.getLsbD 5 = true) := by
  decide +kernel

/-- Suspend; sleep with no request and with one; doze with a pending tick interrupt; and an interrupt input that rises
in sleep mode. -/
theorem witness_PowerModes : full.inputs = [] ∧ full.stopped = false ∧ full.cfg.power = true ∧
    (let s : State := { full with pmr := 0x80#32 }
     s.pmr.getLsbD 7 = true) ∧
    (let s : State := { full with pmr := 0x20#32 }
     s.pmr.getLsbD 7 = false ∧ s.pmr.getLsbD 5 = true ∧ intRequest s = false) ∧
    (let s : State := { full with pmr := 0x20#32, pic := { mask := 1#32, latch := 0#32, irq := 1#32 } }
     intRequest s = true) ∧
    (let s : State := { full with pmr := 0x10#32, ttmr := 0x10000000#32 }
     s.pmr.getLsbD 4 = true ∧ s.pmr.getLsbD 5 = false ∧ tickPending s = true) ∧
    (let s : State :=
      { full with inputs := [.irq 1#32], pmr := 0x20#32, pic := { mask := 1#32, latch := 0#32, irq := 0#32 } }
     s.inputs = [.irq 1#32] ∧ Input.irq 1#32 ≠ .cpu ∧ Input.irq 1#32 ≠ .reset ∧ s.pmr.getLsbD 7 = false ∧
      s.pmr.getLsbD 5 = true ∧ (match step s with
        | .next t => intRequest t
        | _ => false) = true) := by
  decide +kernel

/-- The defaults of the debug unit; DMR1[ST] with any instruction; DMR1[BT] with a jump; a breakpoint on watchpoint 0,
which DCR0 lets match at every address; a floating-point instruction that raised, with DMR1[ST]; a bit of DSR; and the
stopped processor. -/
theorem witness_DebugUnit :
    (let t : State := { full with debugUnit := { Debug.reset with dmr1 := 1#32 <<< 22 } }
     t.raised = none ∧ t.cfg.debugUnit = some { pairs := 8, counters := true } ∧ t.debugUnit.dmr1.getLsbD 22 = true ∧
      canEnter t .trap) ∧
    (let t : State := { full with debugUnit := { Debug.reset with dmr1 := 1#32 <<< 23 } }
     t.debugUnit.dmr1.getLsbD 23 = true ∧ ∃ (n : Imm26) (b : Reg),
      Instr.lJalr 3#5 ∈ [Instr.lJ n, .lJal n, .lBf n, .lBnf n, .lJr b, .lJalr b]) ∧
    (let t : State :=
      { full with debugUnit := { Debug.reset with dcr := [(0, 0x2A#32)], dmr2 := 1#32 <<< 12 } }
     (firedWatchpoints (.lNop 0#16) t t).getLsbD 0 = true ∧ t.debugUnit.dmr2.getLsbD 12 = true) ∧
    (let t : State := { full with debugUnit := { Debug.reset with dmr1 := 1#32 <<< 22 }, raised := some .floatingPoint }
     t.raised = some .floatingPoint ∧ t.cfg.debugUnit.isSome = true ∧ t.debugUnit.dmr1.getLsbD 22 = true ∧
      canEnter t .trap) ∧
    (let t : State := { full with debugUnit := { Debug.reset with dsr := 0x400#32 } }
     t.cfg.debugUnit.isSome = true ∧ t.debugUnit.dsr.getLsbD 11 = false ∧ t.debugUnit.dsr.getLsbD 10 = true) ∧
    (let t : State := { full with stopped := true }
     t.inputs = [] ∧ t.stopped = true) :=
  ⟨⟨rfl, rfl, by decide, rfl, by decide⟩, ⟨by decide, 0#26, 3#5, by decide⟩, ⟨by decide +kernel, by decide⟩,
    ⟨rfl, rfl, by decide, rfl, by decide⟩, ⟨rfl, by decide, by decide⟩, rfl, rfl⟩

/-- Counter 0 enabled in supervisor mode for fetches, counter 7 in user mode for stores. -/
theorem witness_PerformanceCounters :
    let t : State :=
      { State.resetOf { Config.full with debugUnit := none } with pcmr := [(0, 0x44#32), (7, 0x28#32)] }
    t.cfg.debugUnit = none ∧ t.cfg.counters = some 8 ∧ 0 < 8 ∧ 7 < 8 ∧ Table.read t.pcmr 0 &&& 0x4F80#32 = 0#32 ∧
      Table.read t.pcmr 7 &&& 0x4F80#32 = 0#32 :=
  ⟨rfl, rfl, by decide, by decide, by decide +kernel, by decide +kernel⟩

end Sys2Proof.Tests
end

