-- ==== Sys2Proof/Proofs/Endings.lean ====
section
/-!
PROOFS. Proofs/Endings.lean: the ways an instruction can end once its demands are met, said once for all instructions.
-/

namespace Sys2Proof.Machine

/-! ### The endings -/

/-- What the meaning of an instruction does after the check of its demands: one constructor for each of the shared ways
to end, together with what every instruction that ends so guarantees. -/
inductive Ending (s : State) : Result → Prop where
  /-- A register is written (43 R480). -/
  | writeBack (d : Reg) (v : Word) : Ending s (writeBack s d v)
  /-- F is written (43 R480). -/
  | writeFlag (v : Bool) : Ending s (writeFlag s v)
  /-- Nothing but the advance of pc (44 R519 to R523). -/
  | advance : Ending s (.next s.advance)
  /-- A register with its flags, or the range exception (40 R352). -/
  | arith (k : Causes) (hk : k ∈ [addCauses, mulCauses, divCauses]) (d : Reg) (r : Arith) : Ending s (arith s k d r)
  /-- The accumulator with its flags, or the range exception (40 R352). -/
  | arithMac (k : Causes) (hk : k ∈ [mulCauses, macCauses]) (r : Arith) :
      Ending s (arithWith s k r.cy r.ov fun t => t.setMac r.value)
  /-- The accumulator is read and cleared (44 R506). -/
  | macRead (d : Reg) : Ending s (.next ((s.setGpr d (macRead s)).setMac 0#64).advance)
  /-- A load (42 R446). -/
  | load (d : Reg) (ea : Word) (n : Nat) (ext : Word → Word) : Ending s (loadWith s d ea n ext)
  /-- `l.lwa` (42 R458). -/
  | loadReserve (d : Reg) (ea : Word) : Ending s (loadReserve s d ea)
  /-- A store (42 R447). -/
  | store (ea : Word) (n : Nat) (v : Word) : Ending s (storeWith s ea n v)
  /-- `l.swa` (42 R468). -/
  | storeConditional (ea : Word) (v : Word) : Ending s (storeConditional s ea v)
  /-- A jump or a branch that is taken, to an address of the register width (43 R481 to R485). -/
  | branch (ea : Word) (hea : inWidth s.cfg ea = true) : Ending s (transfer s (s.branchTo ea))
  /-- A branch that is not taken (43 R481, R482). -/
  | fallThrough : Ending s (transfer s s.fallThrough)
  /-- A jump that leaves its return address (43 R484, R486). -/
  | link (ea : Word) (hea : inWidth s.cfg ea = true) :
      Ending s (transfer s ((s.setGpr linkReg (linkAddress s)).branchTo ea))
  /-- `l.rfe` in supervisor mode, outside a delay slot (43 R489). -/
  | returnFrom (hsm : srBit s srSM = true) (hds : s.ds = none) : Ending s (returnFrom s)
  /-- A user-mode access that is turned away writes 0 to a register at most, where it is ignored (44 R515). -/
  | violationRead (d : Reg) : Ending s (userViolation s (s.setGpr d 0#64).advance)
  /-- See `violationRead`. -/
  | violation : Ending s (userViolation s s.advance)
  /-- A special-purpose register the mode may write is written (44 R511). -/
  | sprWrite (addr : Nat) (v : Word) (t : State) (hmode : (srBit s srSM || userWrites addr) = true)
      (ht : sprWrite s addr v = .ok t) : Ending s (.next (moveOn s t))
  /-- A floating-point result, or the floating-point exception (45 R543). -/
  | float (d : Reg) (r : FloatResult) : Ending s (floatComplete s d r)
  /-- A floating-point comparison (45 R545 (d)). -/
  | floatFlag (v invalid : Bool) : Ending s (floatFlag s v invalid)
  /-- A vector reduction (46 R592 (b)). -/
  | vectorFlag (d : Reg) (v : Bool) : Ending s (vectorFlag s d v)
  /-- An exception that the instruction raises in the state it starts from. -/
  | exception (e : Exc) (ea : Option Word) : Ending s (enter e ea s)
  /-- The instruction has no meaning here. -/
  | refused (r : Refusal) : Ending s (.refused r)

/-- An instruction ends by its demands: the illegal instruction exception or the range exception where they are not
met, else in one of the endings. -/
def endsByDemands (i : Instr) (s : State) : Prop :=
  ∃ body : Result, exec i s = checked s (demands i).1 (demands i).2 body ∧ Ending s body

/-- An instruction whose meaning is the check of its demands before an ending. -/
theorem endsByDemands_of_ending {i : Instr} {s : State} {body : Result} (hb : Ending s body)
    (he : exec i s = checked s (demands i).1 (demands i).2 body) : endsByDemands i s := ⟨body, he, hb⟩

/-! ### Instructions with a choice of endings -/

theorem inWidth_jumpTarget (s : State) (n : Imm26) : inWidth s.cfg (jumpTarget s n) = true := inWidth_narrow _ _

theorem inWidth_gpr (s : State) (r : Reg) : inWidth s.cfg (gpr s r) = true := by simp [inWidth]

theorem ending_flagged {s : State} {body : Result} (h : Ending s body) : Ending s (flagged s body) := by
  unfold flagged
  split
  · exact .refused _
  · exact h

theorem endsByDemands_lBf (s : State) (n : Imm26) : endsByDemands (.lBf n) s := by
  show ∃ body, execLBf n s = checked s .base [] body ∧ Ending s body
  refine ⟨_, rfl, ?_⟩
  split
  · exact .branch _ (inWidth_jumpTarget s n)
  · exact .fallThrough

theorem endsByDemands_lBnf (s : State) (n : Imm26) : endsByDemands (.lBnf n) s := by
  show ∃ body, execLBnf n s = checked s .base [] body ∧ Ending s body
  refine ⟨_, rfl, ?_⟩
  split
  · exact .fallThrough
  · exact .branch _ (inWidth_jumpTarget s n)

theorem endsByDemands_lRfe (s : State) : endsByDemands .lRfe s := by
  show ∃ body, execLRfe s = checked s .base [] body ∧ Ending s body
  refine ⟨_, rfl, ?_⟩
  split_ifs with huser hslot
  · exact .violation
  · exact .refused _
  · exact .returnFrom (by simpa using huser) (by simpa using hslot)

theorem endsByDemands_lMfspr (s : State) (d a : Reg) (k : Imm16) : endsByDemands (.lMfspr d a k) s := by
  show ∃ body, execLMfspr d a k s = checked s .base [d, a] body ∧ Ending s body
  refine ⟨_, rfl, ?_⟩
  simp only
  split
  · exact .writeBack _ _
  · exact .violationRead d

theorem endsByDemands_lMtspr (s : State) (a b : Reg) (k : Imm16) : endsByDemands (.lMtspr a b k) s := by
  show ∃ body, execLMtspr a b k s = checked s .base [a, b] body ∧ Ending s body
  refine ⟨_, rfl, ?_⟩
  simp only
  split
  · next hmode =>
    split
    · next t ht => exact .sprWrite _ _ t hmode ht
    · exact .refused _
  · exact .violation

/-! ### Every instruction -/

/-- What any instruction can do: the exception of a demand that is not met, or one of the endings. -/
theorem exec_endsByDemands (i : Instr) (s : State) : endsByDemands i s := by
  cases i with
  | lAdd | lAddc | lAddi | lAddic | lSub => exact endsByDemands_of_ending (.arith addCauses (by simp) _ _) rfl
  | lMul | lMulu | lMuli => exact endsByDemands_of_ending (.arith mulCauses (by simp) _ _) rfl
  | lDiv | lDivu => exact endsByDemands_of_ending (.arith divCauses (by simp) _ _) rfl
  | lAnd | lAndi | lOr | lOri | lXor | lXori | lSll | lSlli | lSrl | lSrli | lSra | lSrai | lRor | lRori | lCmov | lFf1
  | lFl1 | lMovhi | lExths | lExtbs | lExthz | lExtbz | lExtws | lExtwz =>
    exact endsByDemands_of_ending (.writeBack _ _) rfl
  | lSfeq | lSfne | lSfgtu | lSfgeu | lSfltu | lSfleu | lSfgts | lSfges | lSflts | lSfles | lSfeqi | lSfnei | lSfgtui
  | lSfgeui | lSfltui | lSfleui | lSfgtsi | lSfgesi | lSfltsi | lSflesi =>
    exact endsByDemands_of_ending (.writeFlag _) rfl
  | lLd | lLwz | lLws | lLbz | lLbs | lLhz | lLhs => exact endsByDemands_of_ending (.load _ _ _ _) rfl
  | lLwa => exact endsByDemands_of_ending (.loadReserve _ _) rfl
  | lSd | lSw | lSb | lSh => exact endsByDemands_of_ending (.store _ _ _) rfl
  | lSwa => exact endsByDemands_of_ending (.storeConditional _ _) rfl
  | lBf n => exact endsByDemands_lBf s n
  | lBnf n => exact endsByDemands_lBnf s n
  | lJ n => exact endsByDemands_of_ending (.branch _ (inWidth_jumpTarget s n)) rfl
  | lJr b => exact endsByDemands_of_ending (.branch _ (inWidth_gpr s b)) rfl
  | lJal n => exact endsByDemands_of_ending (.link _ (inWidth_jumpTarget s n)) rfl
  | lJalr b => exact endsByDemands_of_ending (.link _ (inWidth_gpr s b)) rfl
  | lRfe => exact endsByDemands_lRfe s
  | lMac | lMaci | lMsb | lMacu | lMsbu => exact endsByDemands_of_ending (.arithMac macCauses (by simp) _) rfl
  | lMuld | lMuldu => exact endsByDemands_of_ending (.arithMac mulCauses (by simp) _) rfl
  | lMacrc d => exact endsByDemands_of_ending (.macRead d) rfl
  | lMfspr d a k => exact endsByDemands_lMfspr s d a k
  | lMtspr a b k => exact endsByDemands_lMtspr s a b k
  | lSys => exact endsByDemands_of_ending (.exception .systemCall none) rfl
  | lTrap => exact endsByDemands_of_ending (.exception .trap none) rfl
  | lCust1 | lCust2 | lCust3 | lCust4 | lCust5 | lCust6 | lCust7 | lCust8 | lfCust1S | lfCust1D | lvCust1 | lvCust2
  | lvCust3 | lvCust4 => exact endsByDemands_of_ending (.exception .illegal (some s.pc)) rfl
  | lNop | lCsync | lMsync | lPsync => exact endsByDemands_of_ending .advance rfl
  | lfAddS | lfAddD | lfSubS | lfSubD | lfMulS | lfMulD | lfDivS | lfDivD | lfRemS | lfRemD | lfItofS | lfItofD | lfFtoiS
  | lfFtoiD => exact endsByDemands_of_ending (.float _ _) rfl
  | lfMaddS | lfMaddD | lvMaddsH | lvMsubsH => exact endsByDemands_of_ending (.refused _) rfl
  | lfSfeqS | lfSfeqD | lfSfneS | lfSfneD | lfSfgtS | lfSfgtD | lfSfgeS | lfSfgeD | lfSfltS | lfSfltD | lfSfleS
  | lfSfleD => exact endsByDemands_of_ending (.floatFlag _ _) rfl
  | lvAllEqB | lvAllEqH | lvAllGeB | lvAllGeH | lvAllGtB | lvAllGtH | lvAllLeB | lvAllLeH | lvAllLtB | lvAllLtH
  | lvAllNeB | lvAllNeH | lvAnyEqB | lvAnyEqH | lvAnyGeB | lvAnyGeH | lvAnyGtB | lvAnyGtH | lvAnyLeB | lvAnyLeH
  | lvAnyLtB | lvAnyLtH | lvAnyNeB | lvAnyNeH => exact endsByDemands_of_ending (.vectorFlag _ _) rfl
  | lvSll | lvSrl => exact endsByDemands_of_ending (ending_flagged (.writeBack _ _)) rfl
  | lvAddB | lvAddH | lvAddsB | lvAddsH | lvAdduB | lvAdduH | lvAddusB | lvAddusH | lvAnd | lvAvgB | lvAvgH | lvCmpEqB
  | lvCmpEqH | lvCmpGeB | lvCmpGeH | lvCmpGtB | lvCmpGtH | lvCmpLeB | lvCmpLeH | lvCmpLtB | lvCmpLtH | lvCmpNeB
  | lvCmpNeH | lvMaxB | lvMaxH | lvMergeB | lvMergeH | lvMinB | lvMinH | lvMulsH | lvNand | lvNor | lvOr | lvPackB
  | lvPackH | lvPacksB | lvPacksH | lvPackusB | lvPackusH | lvPermN | lvRlB | lvRlH | lvSllB | lvSllH | lvSrlB | lvSrlH
  | lvSraB | lvSraH | lvSubB | lvSubH | lvSubsB | lvSubsH | lvSubuB | lvSubuH | lvSubusB | lvSubusH | lvUnpackB
  | lvUnpackH | lvXor => exact endsByDemands_of_ending (.writeBack _ _) rfl

end Sys2Proof.Machine
end

