-- ==== Sys2Proof/Proofs/Invariant.lean ====
section
/-!
PROOFS. Proofs/Invariant.lean: the invariant holds after reset and every step keeps it (O5, O6).
-/

namespace Sys2Proof.Machine

/-! ### Reset -/

/-- The machine of any implementation the spec admits starts in the invariant. -/
theorem wf_resetOf {c : Config} (h : c.wf = true) : (State.resetOf c).wf = true := by
  have hn := nsets_le_of_wf h
  have hevbar : (if c.evbarPresent then c.evbarReset &&& 0xFFFFE000#32 else 0#32) &&& 0x1FFF#32 = 0#32 := by
    split
    · exact and_reserved _ _ _ (by decide)
    · decide
  have hsr : srValue c 0x00008001#32 = 0x00008001#32 := by
    rw [srValue_eq_iff]
    refine ⟨by decide, fun n hlt h15 hbit => srWritable_base _ ?_⟩
    interval_cases n <;> simp_all
  have hcontext : context (State.resetOf c) < c.nsets := by
    show (if c.nsets ≤ 1 then 0 else ((0x00008001#32 : BitVec 32).extractLsb' 28 4).toNat) < c.nsets
    split
    · omega
    · show 0 < _; omega
  exact (wf_iff _).2 ⟨h, rfl, rfl, ⟨hsr, hcontext⟩, ⟨inWidth_ofLo32 _ _, nofun⟩, BitVec.zero_and, hevbar,
    BitVec.zero_and, BitVec.zero_and⟩

/-- Settles O5: the implementation after reset is one the spec admits. -/
theorem resetHasTheInvariant : Obligations.ResetHasTheInvariant := wf_resetOf (c := Config.full) (by decide)

/-! ### Instructions -/

/-- Every cause has its enable bits within AECR. -/
theorem causes_lt {k : Causes} (h : k ∈ [addCauses, mulCauses, divCauses, macCauses]) :
    k.cyBit < 7 ∧ k.ovBit < 7 := by
  revert k
  decide

theorem wf_link {s : State} (h : s.wf = true) {ea : Word} (hea : inWidth s.cfg ea = true) :
    ((s.setGpr linkReg (linkAddress s)).branchTo ea).wf = true :=
  wf_branchTo (wf_setGpr h _ _) (by simpa using hea)

/-- Every ending keeps the invariant. -/
theorem resultWf_ending {s : State} {r : Result} (h : s.wf = true) (hr : Ending s r) : resultWf r := by
  cases hr with
  | writeBack d v => exact resultWf_writeBack h d v
  | writeFlag v => exact resultWf_writeFlag h v
  | advance => exact resultWf_next (wf_advance h)
  | arith k hk d r =>
    obtain ⟨hcy, hov⟩ := causes_lt (k := k) (by simp only [List.mem_cons] at hk ⊢; tauto)
    exact resultWf_arith h hcy hov d r
  | arithMac k hk r =>
    obtain ⟨hcy, hov⟩ := causes_lt (k := k) (by simp only [List.mem_cons] at hk ⊢; tauto)
    exact resultWf_arithWith h hcy hov _ _ fun t ht => wf_setMac ht _
  | macRead d => exact resultWf_next (wf_advance (wf_setMac (wf_setGpr h _ _) _))
  | load d ea n ext => exact resultWf_loadWith h d ea n ext
  | loadReserve d ea => exact resultWf_loadReserve h d ea
  | store ea n v => exact resultWf_storeWith h ea n v
  | storeConditional ea v => exact resultWf_storeConditional h ea v
  | branch ea hea => exact resultWf_transfer (wf_branchTo h hea)
  | fallThrough => exact resultWf_transfer (wf_fallThrough h)
  | link ea hea => exact resultWf_transfer (wf_link h hea)
  | returnFrom => exact resultWf_returnFrom h
  | violationRead d => exact resultWf_userViolation h (wf_advance (wf_setGpr h _ _))
  | violation => exact resultWf_userViolation h (wf_advance h)
  | sprWrite addr v t hmode ht =>
    obtain ⟨hwf, hcfg⟩ := wf_sprWrite h ht
    exact resultWf_next (wf_moveOn h hwf hcfg)
  | float d r => exact resultWf_floatComplete h d r
  | floatFlag v invalid => exact resultWf_floatFlag h v invalid
  | vectorFlag d v => exact resultWf_vectorFlag h d v
  | exception e ea => exact resultWf_enter e ea h
  | refused r => exact resultWf_refused r

/-- Every instruction keeps the invariant. -/
theorem resultWf_exec {s : State} (h : s.wf = true) (i : Instr) : resultWf (exec i s) := by
  obtain ⟨body, he, hb⟩ := exec_endsByDemands i s
  rw [he]
  exact resultWf_checked h (resultWf_ending h hb)

/-! ### Steps -/

/-- Fetching, decoding and executing keeps the invariant. -/
theorem resultWf_instructionStep {s : State} (h : s.wf = true) : resultWf (instructionStep s) := by
  unfold instructionStep
  cases hf : fetch s with
  | refuse r => exact resultWf_refused r
  | raise e t => exact resultWf_observeFetch (resultWf_enter _ _ (wf_mmuOnly h (fetch_frame.2 e hf)))
  | ok w t =>
    have ht := wf_mmuOnly h (fetch_frame.1 w hf)
    cases hd : decode w with
    | error e => simpa only [hd] using resultWf_observeFetch (s := s) (resultWf_illegal ht)
    | ok i => simpa only [hd] using resultWf_observe ht (resultWf_exec ht i)

/-- The model's own record and the coming events are no part of the invariant. -/
theorem wf_fresh {s : State} (h : s.wf = true) : s.fresh.wf = true :=
  wf_congr h rfl rfl rfl rfl rfl rfl rfl rfl rfl rfl

/-- See `wf_fresh`. -/
theorem wf_inputs {s : State} (h : s.wf = true) (l : List Input) : ({ s with inputs := l } : State).wf = true :=
  wf_congr h rfl rfl rfl rfl rfl rfl rfl rfl rfl rfl

/-- The processor's turn keeps the invariant. -/
theorem resultWf_processorStep {s : State} (h : s.wf = true) : resultWf (processorStep s) := by
  have hfresh := wf_fresh h
  unfold processorStep
  simp only
  split_ifs
  · exact resultWf_fault _
  · exact resultWf_next (wf_wake h)
  · exact resultWf_observeEntry (resultWf_enter _ _ hfresh)
  · exact resultWf_observeEntry (resultWf_enter _ _ hfresh)
  · exact resultWf_instructionStep hfresh

/-- Settles O6: an event of the environment keeps the invariant, and so does the processor's turn. -/
theorem stepKeepsTheInvariant : Obligations.StepKeepsTheInvariant := by
  intro s t h
  show cycle s = .next t → t.wf = true
  unfold cycle
  split
  · exact resultWf_processorStep h t
  · exact resultWf_processorStep (wf_inputs h _) t
  · exact resultWf_next (wf_event (wf_inputs h _) _) t

end Sys2Proof.Machine
end

