-- ==== Sys2Proof/Proofs/SprReads.lean ====
section
/-!
PROOFS. Proofs/SprReads.lean: what a read of each special-purpose register delivers (O41).
-/

namespace Sys2Proof.Machine

/-! ### A 32-bit register as a word -/

theorem ofLo32_eq_ofNat (v : BitVec 32) : Word.ofLo32 v = BitVec.ofNat 64 v.toNat := by
  apply BitVec.eq_of_toNat_eq
  simp [Word.ofLo32]

/-- What a register of 32 bits reads as, by its number. -/
theorem sprRead_eq_ofNat {s : State} {addr n : Nat} {v : BitVec 32} (h : sprRead s addr = Word.ofLo32 v)
    (hv : v.toNat = n) : sprRead s addr = BitVec.ofNat 64 n := by
  rw [h, ofLo32_eq_ofNat, hv]

theorem getLsbD_ofLo32 (v : BitVec 32) (n : Nat) : (Word.ofLo32 v).getLsbD n = (decide (n < 32) && v.getLsbD n) := by
  by_cases h : n < 32
  · simp [Word.ofLo32, h, show n < 64 by omega]
  · simp [Word.ofLo32, h, BitVec.getLsbD_of_ge v n (by omega)]

/-- What a register of 32 bits reads as, by its bits. -/
theorem getLsbD_sprRead {s : State} {addr : Nat} {v : BitVec 32} {f : Nat → Bool}
    (h : sprRead s addr = Word.ofLo32 v) (hf : ∀ n, n < 32 → v.getLsbD n = f n) (n : Nat) :
    (sprRead s addr).getLsbD n = (decide (n < 32) && f n) := by
  rw [h, getLsbD_ofLo32]
  by_cases hn : n < 32
  · rw [hf n hn]
  · simp [hn]

/-! ### Configuration registers bit by bit -/

theorem getLsbD_flagBit (b : Bool) {i : Nat} (hi : i < 32) (n : Nat) :
    (flagBit b i).getLsbD n = (b && decide (n = i)) := by
  cases b with
  | false => simp [flagBit]
  | true => simpa [putBit, flagBit] using getLsbD_putBit 0#32 i true n hi

/-- A field whose lowest bit is bit 0. -/
theorem getLsbD_fieldAt_zero (v : Nat) {n : Nat} (hn : n < 32) : (fieldAt v 0).getLsbD n = v.testBit n := by
  rw [fieldAt, BitVec.shiftLeft_zero, BitVec.getLsbD_ofNat, decide_eq_true hn, Bool.true_and]

/-- VR without its reserved bits (10_state R110). -/
theorem getLsbD_vrValue (c : Config) {n : Nat} (hn : n < 32) :
    (vrValue c).getLsbD n = ((decide (n < 7) || decide (16 ≤ n)) && c.vr.getLsbD n) := by
  have hmask : (0xFFFF007F#32).getLsbD n = (decide (n < 7) || decide (16 ≤ n)) := by interval_cases n <;> rfl
  rw [vrValue, BitVec.getLsbD_and, hmask, Bool.and_comm]

/-- AVR without its reserved bits (10_state R120). -/
theorem getLsbD_avrValue (c : Config) {n : Nat} (hn : n < 32) :
    (avrValue c).getLsbD n = (decide (8 ≤ n) && c.avr.getLsbD n) := by
  have hmask : (0xFFFFFF00#32).getLsbD n = decide (8 ≤ n) := by interval_cases n <;> rfl
  rw [avrValue, BitVec.getLsbD_and, hmask, Bool.and_comm]

/-- UPR as the union of the bits of the units (10_state R111). -/
theorem getLsbD_uprValue (c : Config) (n : Nat) :
    (uprValue c).getLsbD n =
      ((if n < 24 then false else c.customUnits.getLsbD (n - 24)) || (c.tickTimer && decide (n = 10)) ||
        (c.power && decide (n = 9)) || (c.pic && decide (n = 8)) || (c.counters.isSome && decide (n = 7)) ||
        (c.debugUnit.isSome && decide (n = 6)) || (c.mac && decide (n = 5)) || (c.immu.isSome && decide (n = 4)) ||
        (c.dmmu.isSome && decide (n = 3)) || (c.icache.isSome && decide (n = 2)) ||
        (c.dcache.isSome && decide (n = 1)) || decide (n = 0)) := by
  rw [uprValue]
  simp only [BitVec.getLsbD_or, BitVec.getLsbD_append]
  simp [getLsbD_flagBit]

/-- CPUCFGR as the union of its bits (10_state R112). -/
theorem getLsbD_cpucfgrValue (c : Config) {n : Nat} (hn : n < 32) :
    (cpucfgrValue c).getLsbD n =
      ((c.aecsrPresent && decide (n = 14)) || (c.isrPresent && decide (n = 13)) ||
        (c.evbarPresent && decide (n = 12)) || (c.avrPresent && decide (n = 11)) || (c.nd && decide (n = 10)) ||
        (c.orvdx64 && decide (n = 9)) || (c.orfpx64 && decide (n = 8)) || (c.orfpx32 && decide (n = 7)) ||
        (c.orbis64 && decide (n = 6)) || decide (n = 5) || (decide (c.ngpr < 32) && decide (n = 4)) ||
        (decide (n < 4) && (c.nsets - 1).testBit n)) := by
  have h5 : (0x20#32).getLsbD n = decide (n = 5) := by interval_cases n <;> rfl
  have hsets : (fieldAt ((c.nsets - 1) % 16) 0).getLsbD n = (decide (n < 4) && (c.nsets - 1).testBit n) := by
    rw [getLsbD_fieldAt_zero _ hn, show 16 = 2 ^ 4 from rfl, Nat.testBit_mod_two_pow]
  simp only [cpucfgrValue, BitVec.getLsbD_or, h5, hsets]
  simp [getLsbD_flagBit]

/-! ### Configuration registers field by field

A register is written as its fields from the highest down; each field joined below the others is one step of Horner's
scheme. -/

theorem toNat_flagBit (b : Bool) {i : Nat} (hi : i < 32) : (flagBit b i).toNat = 2 ^ i * b.toNat := by
  have hp : 2 ^ i < 2 ^ 32 := Nat.pow_lt_pow_right (by omega) hi
  cases b with
  | false => simp [flagBit]
  | true =>
    rw [flagBit, if_pos rfl, BitVec.toNat_shiftLeft, Nat.shiftLeft_eq, BitVec.toNat_one (by omega), Nat.one_mul,
      Nat.mod_eq_of_lt hp, Bool.toNat_true, Nat.mul_one]

theorem toNat_fieldAt {v i w : Nat} (hv : v < 2 ^ w) (hi : i + w ≤ 32) : (fieldAt v i).toNat = 2 ^ i * v := by
  have hlt : v * 2 ^ i < 2 ^ 32 :=
    calc v * 2 ^ i < 2 ^ w * 2 ^ i := Nat.mul_lt_mul_of_pos_right hv (by positivity)
      _ = 2 ^ (i + w) := by rw [← pow_add, Nat.add_comm]
      _ ≤ 2 ^ 32 := Nat.pow_le_pow_right (by omega) hi
  have hw : v < 2 ^ 32 := lt_of_lt_of_le hv (Nat.pow_le_pow_right (by omega) (by omega))
  rw [fieldAt, BitVec.toNat_shiftLeft, BitVec.toNat_ofNat, Nat.mod_eq_of_lt hw, Nat.shiftLeft_eq,
    Nat.mod_eq_of_lt hlt, Nat.mul_comm]

/-- A field joined right below what a register holds so far. -/
theorem toNat_or_fieldAt {x : BitVec 32} {a v i w : Nat} (hx : x.toNat = 2 ^ (i + w) * a) (hv : v < 2 ^ w)
    (hi : i + w ≤ 32) : (x ||| fieldAt v i).toNat = 2 ^ i * (2 ^ w * a + v) := by
  have hlt : 2 ^ i * v < 2 ^ (i + w) := by
    rw [pow_add]; exact Nat.mul_lt_mul_of_pos_left hv (by positivity)
  rw [BitVec.toNat_or, hx, toNat_fieldAt hv hi, ← Nat.two_pow_add_eq_or_of_lt hlt, pow_add]
  ring

/-- A bit joined right below what a register holds so far. -/
theorem toNat_or_flagBit {x : BitVec 32} {a i : Nat} (hx : x.toNat = 2 ^ (i + 1) * a) (b : Bool) (hi : i < 32) :
    (x ||| flagBit b i).toNat = 2 ^ i * (2 * a + b.toNat) := by
  have hb : flagBit b i = fieldAt b.toNat i := by cases b <;> simp [flagBit, fieldAt]
  rw [hb]
  exact toNat_or_fieldAt (w := 1) hx b.toNat_lt hi

/-- DMMUCFGR and IMMUCFGR (10_state R113, R114). -/
theorem toNat_mmucfgrValue (m : MmuConfig) :
    (mmucfgrValue (some m)).toNat =
      2048 * m.reload.toNat + 1024 * m.invalidate.toNat + 512 * m.protect.toNat + 256 * m.control.toNat +
        32 * (m.atbs % 8) + 4 * (m.setsLog % 8) + (m.ways - 1) % 4 := by
  have h11 := toNat_flagBit m.reload (i := 11) (by omega)
  have h10 := toNat_or_flagBit (i := 10) h11 m.invalidate (by omega)
  have h9 := toNat_or_flagBit (i := 9) h10 m.protect (by omega)
  have h8 := toNat_or_flagBit (i := 8) h9 m.control (by omega)
  have h5 := toNat_or_fieldAt (i := 5) (w := 3) (v := m.atbs % 8) h8 (by omega) (by omega)
  have h2 := toNat_or_fieldAt (i := 2) (w := 3) (v := m.setsLog % 8) h5 (by omega) (by omega)
  have h0 := toNat_or_fieldAt (i := 0) (w := 2) (v := (m.ways - 1) % 4) h2 (by omega) (by omega)
  rw [mmucfgrValue, h0]
  ring

/-- DCCFGR (10_state R115). -/
theorem toNat_dccfgrValue (d : CacheConfig) :
    (dccfgrValue (some d)).toNat =
      16384 * d.writeBack.toNat + 8192 * d.flush.toNat + 256 * d.copyBack.toNat +
        (4096 * d.lock.toNat + 2048 * d.prefetch.toNat + 1024 * d.invalidate.toNat + 512 * d.control.toNat +
          128 * d.block32.toNat + 8 * (d.setsLog % 16) + d.waysLog % 8) := by
  have h14 := toNat_flagBit d.writeBack (i := 14) (by omega)
  have h13 := toNat_or_flagBit (i := 13) h14 d.flush (by omega)
  have h12 := toNat_or_flagBit (i := 12) h13 d.lock (by omega)
  have h11 := toNat_or_flagBit (i := 11) h12 d.prefetch (by omega)
  have h10 := toNat_or_flagBit (i := 10) h11 d.invalidate (by omega)
  have h9 := toNat_or_flagBit (i := 9) h10 d.control (by omega)
  have h8 := toNat_or_flagBit (i := 8) h9 d.copyBack (by omega)
  have h7 := toNat_or_flagBit (i := 7) h8 d.block32 (by omega)
  have h3 := toNat_or_fieldAt (i := 3) (w := 4) (v := d.setsLog % 16) h7 (by omega) (by omega)
  have h0 := toNat_or_fieldAt (i := 0) (w := 3) (v := d.waysLog % 8) h3 (by omega) (by omega)
  rw [dccfgrValue, h0]
  ring

/-- ICCFGR, which has no bit 8 (10_state R116). -/
theorem toNat_iccfgrValue (d : CacheConfig) :
    (iccfgrValue (some d)).toNat =
      4096 * d.lock.toNat + 2048 * d.prefetch.toNat + 1024 * d.invalidate.toNat + 512 * d.control.toNat +
        128 * d.block32.toNat + 8 * (d.setsLog % 16) + d.waysLog % 8 := by
  have h12 := toNat_flagBit d.lock (i := 12) (by omega)
  have h11 := toNat_or_flagBit (i := 11) h12 d.prefetch (by omega)
  have h10 := toNat_or_flagBit (i := 10) h11 d.invalidate (by omega)
  have h9 := toNat_or_flagBit (i := 9) h10 d.control (by omega)
  have h8 := h9.trans (Nat.mul_assoc (2 ^ 8) 2 _)
  have h7 := toNat_or_flagBit (i := 7) h8 d.block32 (by omega)
  have h3 := toNat_or_fieldAt (i := 3) (w := 4) (v := d.setsLog % 16) h7 (by omega) (by omega)
  have h0 := toNat_or_fieldAt (i := 0) (w := 3) (v := d.waysLog % 8) h3 (by omega) (by omega)
  rw [iccfgrValue, h0]
  ring

/-- DCFGR (10_state R117). -/
theorem toNat_dcfgrValue (d : DebugConfig) :
    (dcfgrValue (some d)).toNat = 8 * d.counters.toNat + (d.pairs - 1) % 8 := by
  have h3 := toNat_flagBit d.counters (i := 3) (by omega)
  have h0 := toNat_or_fieldAt (i := 0) (w := 3) (v := (d.pairs - 1) % 8) h3 (by omega) (by omega)
  rw [dcfgrValue, h0]
  ring

/-- PCCFGR (10_state R118). -/
theorem toNat_pccfgrValue (n : Nat) : (pccfgrValue (some n)).toNat = (n - 1) % 8 := by
  have h0 := toNat_fieldAt (v := (n - 1) % 8) (i := 0) (w := 3) (by omega) (by omega)
  rw [pccfgrValue, h0, pow_zero, Nat.one_mul]

/-! ### The groups -/

theorem sprRead_group0 (s : State) {j : Nat} (hj : j < 2048) : sprRead s j = readGroup0 s j := by
  simp only [sprRead, Nat.div_eq_of_lt hj, Nat.mod_eq_of_lt hj]

theorem sprRead_dataCache (s : State) {j : Nat} (hj : j < 2048) :
    sprRead s (0x1800 + j) = if j = 0 ∧ hasControl s.cfg.dcache then Word.ofLo32 s.dccr else 0#64 := by
  simp only [sprRead, show (0x1800 + j) / 2048 = 3 by omega, show (0x1800 + j) % 2048 = j by omega]

theorem sprRead_insnCache (s : State) {j : Nat} (hj : j < 2048) :
    sprRead s (0x2000 + j) = if j = 0 ∧ hasControl s.cfg.icache then Word.ofLo32 s.iccr else 0#64 := by
  simp only [sprRead, show (0x2000 + j) / 2048 = 4 by omega, show (0x2000 + j) % 2048 = j by omega]

theorem sprRead_debug (s : State) {j : Nat} (hj : j < 2048) :
    sprRead s (0x3000 + j) = Word.ofLo32 (readDebug s j) := by
  simp only [sprRead, show (0x3000 + j) / 2048 = 6 by omega, show (0x3000 + j) % 2048 = j by omega]

theorem sprRead_counters (s : State) {j : Nat} (hj : j < 2048) :
    sprRead s (0x3800 + j) = Word.ofLo32 (readCounters s j) := by
  simp only [sprRead, show (0x3800 + j) / 2048 = 7 by omega, show (0x3800 + j) % 2048 = j by omega]

/-- Groups 11 and above name nothing (10_state R42, R43). -/
theorem sprRead_unassigned (s : State) {addr : Nat} (h : 0x5800 ≤ addr) : sprRead s addr = 0#64 := by
  obtain ⟨g, hg⟩ : ∃ g, addr / 2048 = g + 11 := ⟨addr / 2048 - 11, by omega⟩
  simp only [sprRead, hg]

/-- The first address of the group of the MMU of an access (10_state R100). -/
def mmuBase (k : Access) : Nat := if k = .fetch then 0x1000 else 0x0800

theorem sprRead_mmu (s : State) (k : Access) {j : Nat} (hj : j < 2048) :
    sprRead s (mmuBase k + j) = narrow s.cfg (readMmu s k j) := by
  have hdata : sprRead s (0x0800 + j) = narrow s.cfg (readMmu s .load j) := by
    simp only [sprRead, show (0x0800 + j) / 2048 = 1 by omega, show (0x0800 + j) % 2048 = j by omega]
  have hinsn : sprRead s (0x1000 + j) = narrow s.cfg (readMmu s .fetch j) := by
    simp only [sprRead, show (0x1000 + j) / 2048 = 2 by omega, show (0x1000 + j) % 2048 = j by omega]
  cases k with
  | load => exact hdata
  | store => exact hdata
  | fetch => exact hinsn

/-! ### Registers of their own -/

/-- VR2 exists where VR[UVRP] is set (10_state R119). -/
theorem sprRead_vr2 (s : State) :
    sprRead s 0x0009 = Word.ofLo32 (if s.cfg.vr.getLsbD 6 then s.cfg.vr2 else 0#32) := by
  show (if s.cfg.vr.getLsbD 6 then Word.ofLo32 s.cfg.vr2 else 0#64) = _
  split <;> rfl

/-- AVR reads 0 where it does not exist. -/
theorem sprRead_avr (s : State) :
    sprRead s 0x000A = Word.ofLo32 (if s.cfg.avrPresent then avrValue s.cfg else 0#32) := by
  show (if s.cfg.avrPresent then Word.ofLo32 (avrValue s.cfg) else 0#64) = _
  split <;> rfl

theorem sprRead_evbar {s : State} (h : s.cfg.evbarPresent = true) : sprRead s 0x000B = Word.ofLo32 s.evbar := by
  show (if s.cfg.evbarPresent then Word.ofLo32 s.evbar else 0#64) = _
  rw [if_pos h]

/-- AECR and AESR. -/
theorem sprRead_aecsr {s : State} (h : s.cfg.aecsrPresent = true) :
    sprRead s 0x000C = Word.ofLo32 s.aecr ∧ sprRead s 0x000D = Word.ofLo32 s.aesr := by
  show (if s.cfg.aecsrPresent then Word.ofLo32 s.aecr else 0#64) = _ ∧
    (if s.cfg.aecsrPresent then Word.ofLo32 s.aesr else 0#64) = _
  rw [if_pos h, if_pos h]
  exact ⟨rfl, rfl⟩

theorem sprRead_fpcsr {s : State} (h : s.cfg.orfpx32 = true ∨ (s.cfg.orfpx64 = true ∧ s.cfg.xlen = .x64)) :
    sprRead s 0x0014 = Word.ofLo32 s.fpcsr := by
  have hp : fpcsrPresent s.cfg = true := by simpa [fpcsrPresent] using h
  show (if fpcsrPresent s.cfg then Word.ofLo32 s.fpcsr else 0#64) = _
  rw [if_pos hp]

/-- MACLO and MACHI. -/
theorem sprRead_mac {s : State} (h : s.cfg.mac = true) :
    sprRead s 0x2801 = Word.ofLo32 s.maclo ∧ sprRead s 0x2802 = Word.ofLo32 s.machi := by
  show (if !s.cfg.mac then 0#64 else Word.ofLo32 s.maclo) = _ ∧ (if !s.cfg.mac then 0#64 else Word.ofLo32 s.machi) = _
  simp [h]

theorem sprRead_pmr {s : State} (h : s.cfg.power = true) : sprRead s 0x4000 = Word.ofLo32 s.pmr := by
  show (if 0 = 0 ∧ s.cfg.power = true then Word.ofLo32 s.pmr else 0#64) = _
  rw [if_pos ⟨rfl, h⟩]

/-- PICMR and PICSR. -/
theorem sprRead_pic {s : State} (h : s.cfg.pic = true) :
    sprRead s 0x4800 = Word.ofLo32 (picmr s) ∧ sprRead s 0x4802 = Word.ofLo32 (picsr s) := by
  show (if !s.cfg.pic then 0#64 else Word.ofLo32 (picmr s)) = _ ∧
    (if !s.cfg.pic then 0#64 else Word.ofLo32 (picsr s)) = _
  simp [h]

/-- TTMR and TTCR. -/
theorem sprRead_timer {s : State} (h : s.cfg.tickTimer = true) :
    sprRead s 0x5000 = Word.ofLo32 s.ttmr ∧ sprRead s 0x5001 = Word.ofLo32 s.ttcr := by
  show (if !s.cfg.tickTimer then 0#64 else Word.ofLo32 s.ttmr) = _ ∧
    (if !s.cfg.tickTimer then 0#64 else Word.ofLo32 s.ttcr) = _
  simp [h]

/-! ### Register files of group 0 -/

/-- ISR0 to ISR7. -/
theorem sprRead_isr (s : State) {j : Nat} (hj : j < 8) :
    sprRead s (0x15 + j) = Word.ofLo32 (if s.cfg.isrPresent then s.cfg.isr.getD j 0#32 else 0#32) := by
  rw [sprRead_group0 s (by omega)]
  simp (disch := omega) only [readGroup0, if_neg, if_pos, Nat.add_sub_cancel_left]
  split <;> rfl

/-- The registers of a context that exists. -/
theorem readContext_of_lt {w : Nat} {s : State} (t : Table w) {j : Nat} (hj : j < s.cfg.nsets) :
    readContext s t j = Table.read t j := if_pos hj

/-- EPCR0 to EPCR15. -/
theorem sprRead_epcr (s : State) {j : Nat} (hj : j < 16) (hs : j < s.cfg.nsets) :
    sprRead s (0x20 + j) = narrow s.cfg (Table.read s.epcr j) := by
  rw [sprRead_group0 s (by omega)]
  simp (disch := omega) only [readGroup0, if_neg, if_pos, Nat.add_sub_cancel_left, readContext_of_lt]

/-- EEAR0 to EEAR15. -/
theorem sprRead_eear (s : State) {j : Nat} (hj : j < 16) (hs : j < s.cfg.nsets) :
    sprRead s (0x30 + j) = narrow s.cfg (Table.read s.eear j) := by
  rw [sprRead_group0 s (by omega)]
  simp (disch := omega) only [readGroup0, if_neg, if_pos, Nat.add_sub_cancel_left, readContext_of_lt]

/-- ESR0 to ESR15. -/
theorem sprRead_esr (s : State) {j : Nat} (hj : j < 16) (hs : j < s.cfg.nsets) :
    sprRead s (0x40 + j) = Word.ofLo32 (Table.read s.esr j) := by
  rw [sprRead_group0 s (by omega)]
  simp (disch := omega) only [readGroup0, if_neg, if_pos, Nat.add_sub_cancel_left, readContext_of_lt]

/-- The general registers (10_state R49). -/
theorem sprRead_gpr (s : State) {set r : Nat} (hset : set < 16) (hs : set < s.cfg.nsets) (hr : r < s.cfg.ngpr)
    (h32 : r < 32) : sprRead s (0x400 + 32 * set + r) = gprOf s set r := by
  have hj : 0x400 + 32 * set + r - 1024 = 32 * set + r := by omega
  have hdiv : (32 * set + r) / 32 = set := by omega
  have hmod : (32 * set + r) % 32 = r := by omega
  rw [sprRead_group0 s (by omega)]
  simp (disch := omega) only [readGroup0, if_neg, if_pos, hj, readWindow, hdiv, hmod]

/-! ### The MMU registers -/

section
variable {s : State} {k : Access} {g : MmuConfig} (hg : mmuConfig s.cfg k = some g)
include hg

theorem sprRead_mmuControl (h : g.control = true) : sprRead s (mmuBase k) = Word.ofLo32 (mmuOf s k).control := by
  rw [← Nat.add_zero (mmuBase k), sprRead_mmu s k (by omega)]
  simp only [readMmu, hg, if_pos, h, narrow_ofLo32]

theorem sprRead_mmuProtect (h : g.protect = true) :
    sprRead s (mmuBase k + 1) = Word.ofLo32 (mmuOf s k).protect := by
  rw [sprRead_mmu s k (by omega)]
  simp (disch := omega) only [readMmu, hg, if_neg, h, if_true, narrow_ofLo32]

/-- xTLBEIR is write-only. -/
theorem sprRead_tlbInvalidate : sprRead s (mmuBase k + 2) = 0#64 := by
  rw [sprRead_mmu s k (by omega)]
  simp (disch := omega) only [readMmu, hg, if_neg, narrow_zero]

theorem sprRead_atbMatch {j : Nat} (hj : j < 4) (h : j < g.atbs) :
    sprRead s (mmuBase k + 4 + j) = narrow s.cfg (Table.read (mmuOf s k).atbMr j) := by
  rw [Nat.add_assoc, sprRead_mmu s k (by omega)]
  simp (disch := omega) only [readMmu, hg, if_neg, if_pos, Nat.add_sub_cancel_left]

theorem sprRead_atbTranslate {j : Nat} (hj : j < 4) (h : j < g.atbs) :
    sprRead s (mmuBase k + 8 + j) = narrow s.cfg (Table.read (mmuOf s k).atbTr j) := by
  rw [Nat.add_assoc, sprRead_mmu s k (by omega)]
  simp (disch := omega) only [readMmu, hg, if_neg, if_pos, Nat.add_sub_cancel_left]

omit hg in
/-- The index of a match register of the TLB (20 R208). -/
theorem tlbRegister_match {y n : Nat} (hy : y < g.ways) (hn : n < 128) (hs : n < 2 ^ g.setsLog) :
    tlbRegister g (512 + 256 * y + n) = some (true, tlbIndex y n) := by
  have hdiv : (512 + 256 * y + n - 512) / 256 = y := by omega
  have hmod : (512 + 256 * y + n - 512) % 256 = n := by omega
  simp only [tlbRegister, hdiv, hmod, Nat.mod_eq_of_lt hn, hy, hs, hn, and_self, if_true, decide_true]

omit hg in
/-- The index of a translate register of the TLB (20 R208). -/
theorem tlbRegister_translate {y n : Nat} (hy : y < g.ways) (hn : n < 128) (hs : n < 2 ^ g.setsLog) :
    tlbRegister g (640 + 256 * y + n) = some (false, tlbIndex y n) := by
  have hdiv : (640 + 256 * y + n - 512) / 256 = y := by omega
  have hmod : (640 + 256 * y + n - 512) % 256 = 128 + n := by omega
  have hset : (128 + n) % 128 = n := by omega
  have hupper : ¬ 128 + n < 128 := by omega
  simp only [tlbRegister, hdiv, hmod, hset, hy, hs, hupper, and_self, if_true, decide_false]

omit hg in
/-- LRU in its place in a match register (20 R211). -/
theorem lruField_eq (v : BitVec 2) : v.setWidth 64 <<< 6 = BitVec.ofNat 64 (64 * v.toNat) := by
  have hv := v.isLt
  apply BitVec.eq_of_toNat_eq
  simp only [BitVec.toNat_shiftLeft, BitVec.toNat_setWidth, BitVec.toNat_ofNat, Nat.shiftLeft_eq]
  omega

theorem sprRead_tlbMatch {y n : Nat} (hy4 : y < 4) (hy : y < g.ways) (hn : n < 128) (hs : n < 2 ^ g.setsLog) :
    sprRead s (mmuBase k + 512 + 256 * y + n) =
      narrow s.cfg (Table.read (mmuOf s k).tlbMr (256 * y + n) |||
        BitVec.ofNat 64 (64 * (Table.read (mmuOf s k).tlbLru (256 * y + n)).toNat)) := by
  rw [show mmuBase k + 512 + 256 * y + n = mmuBase k + (512 + 256 * y + n) by omega, sprRead_mmu s k (by omega)]
  simp (disch := omega) only [readMmu, hg, if_neg, if_pos, tlbRegister_match hy hn hs, tlbIndex, lruField_eq]

theorem sprRead_tlbTranslate {y n : Nat} (hy4 : y < 4) (hy : y < g.ways) (hn : n < 128) (hs : n < 2 ^ g.setsLog) :
    sprRead s (mmuBase k + 640 + 256 * y + n) = narrow s.cfg (Table.read (mmuOf s k).tlbTr (256 * y + n)) := by
  rw [show mmuBase k + 640 + 256 * y + n = mmuBase k + (640 + 256 * y + n) by omega, sprRead_mmu s k (by omega)]
  simp (disch := omega) only [readMmu, hg, if_neg, if_pos, tlbRegister_translate hy hn hs, tlbIndex]

end

/-! ### The caches, the debug unit and the counters -/

theorem sprRead_dccr {s : State} {d : CacheConfig} (hd : s.cfg.dcache = some d) (h : d.control = true) :
    sprRead s 0x1800 = Word.ofLo32 s.dccr :=
  (sprRead_dataCache s (j := 0) (by omega)).trans (if_pos ⟨rfl, by rw [hd]; exact h⟩)

theorem sprRead_iccr {s : State} {d : CacheConfig} (hd : s.cfg.icache = some d) (h : d.control = true) :
    sprRead s 0x2000 = Word.ofLo32 s.iccr :=
  (sprRead_insnCache s (j := 0) (by omega)).trans (if_pos ⟨rfl, by rw [hd]; exact h⟩)

/-- The block operations of the caches are write-only. -/
theorem sprRead_cacheOperation (s : State) {j : Nat} (h0 : 0 < j) (hj : j < 0x800) :
    sprRead s (0x1800 + j) = 0#64 ∧ sprRead s (0x2000 + j) = 0#64 := by
  rw [sprRead_dataCache s hj, sprRead_insnCache s hj]
  exact ⟨if_neg fun h => by omega, if_neg fun h => by omega⟩

section
variable {s : State} {g : DebugConfig} (hg : s.cfg.debugUnit = some g)
include hg

theorem sprRead_dvr {j : Nat} (h8 : j < 8) (hj : j < g.pairs) :
    sprRead s (0x3000 + j) = Word.ofLo32 (Table.read s.debugUnit.dvr j) := by
  rw [sprRead_debug s (by omega)]
  simp only [readDebug, hg, h8, hj, if_true]

theorem sprRead_dcr {j : Nat} (h8 : j < 8) (hj : j < g.pairs) :
    sprRead s (0x3008 + j) = Word.ofLo32 (Table.read s.debugUnit.dcr j ||| 1#32) := by
  rw [show 0x3008 + j = 0x3000 + (8 + j) by omega, sprRead_debug s (by omega)]
  simp (disch := omega) only [readDebug, hg, if_neg, if_pos, Nat.add_sub_cancel_left]

theorem sprRead_dwcr (h : g.counters = true) :
    sprRead s 0x3012 = Word.ofLo32 s.debugUnit.dwcr0 ∧ sprRead s 0x3013 = Word.ofLo32 s.debugUnit.dwcr1 := by
  constructor
  · exact (sprRead_debug s (j := 18) (by omega)).trans (by simp [readDebug, hg, h])
  · exact (sprRead_debug s (j := 19) (by omega)).trans (by simp [readDebug, hg, h])

theorem sprRead_debugModes :
    sprRead s 0x3010 = Word.ofLo32 s.debugUnit.dmr1 ∧ sprRead s 0x3011 = Word.ofLo32 s.debugUnit.dmr2 ∧
      sprRead s 0x3014 = Word.ofLo32 s.debugUnit.dsr ∧ sprRead s 0x3015 = Word.ofLo32 s.debugUnit.drr := by
  refine ⟨?_, ?_, ?_, ?_⟩
  · exact (sprRead_debug s (j := 16) (by omega)).trans (by simp [readDebug, hg])
  · exact (sprRead_debug s (j := 17) (by omega)).trans (by simp [readDebug, hg])
  · exact (sprRead_debug s (j := 20) (by omega)).trans (by simp [readDebug, hg])
  · exact (sprRead_debug s (j := 21) (by omega)).trans (by simp [readDebug, hg])

end

section
variable {s : State} {n : Nat} (hn : s.cfg.counters = some n)
include hn

theorem sprRead_pccr {j : Nat} (h8 : j < 8) (hj : j < n) :
    sprRead s (0x3800 + j) = Word.ofLo32 (Table.read s.pccr j) := by
  rw [sprRead_counters s (by omega)]
  simp only [readCounters, hn, h8, hj, if_true]

theorem sprRead_pcmr {j : Nat} (h8 : j < 8) (hj : j < n) :
    sprRead s (0x3808 + j) = Word.ofLo32 (Table.read s.pcmr j ||| 1#32) := by
  rw [show 0x3808 + j = 0x3800 + (8 + j) by omega, sprRead_counters s (by omega)]
  simp (disch := omega) only [readCounters, hn, if_neg, if_pos, Nat.add_sub_cancel_left]

end

/-! ### All addresses -/

/-- Settles O41: the configuration registers bit by bit and field by field, the other registers one by one. -/
theorem sprAddresses : Obligations.SprAddresses := by
  intro s
  refine ⟨?upr, ?cpucfgr, ?dmmucfgr, ?immucfgr, ?dccfgr, ?iccfgr, ?dcfgr, ?pccfgr, ?vr2, ?avr, ?isr, ?vr,
    ofLo32_eq_ofNat _, rfl, rfl, ?evbar, ?aecsr, ?fpcsr, ?contexts, ?gprs, ?mmus, ?dccr, ?iccr, ?cacheOperations, ?mac,
    ?watches, ?watchCounters, ?counters, ?pic, ?debugModes, ?pmr, ?timer, fun addr h _ => sprRead_unassigned s h⟩
  case upr =>
    refine getLsbD_sprRead (v := uprValue s.cfg) rfl fun n hn => ?_
    rw [getLsbD_uprValue]
    interval_cases n <;> simp
  case cpucfgr =>
    refine getLsbD_sprRead (v := cpucfgrValue s.cfg) rfl fun n hn => ?_
    rw [getLsbD_cpucfgrValue _ hn]
    interval_cases n <;> simp
  case dmmucfgr =>
    refine sprRead_eq_ofNat (v := mmucfgrValue s.cfg.dmmu) rfl ?_
    cases s.cfg.dmmu with
    | none => rfl
    | some m => exact toNat_mmucfgrValue m
  case immucfgr =>
    refine sprRead_eq_ofNat (v := mmucfgrValue s.cfg.immu) rfl ?_
    cases s.cfg.immu with
    | none => rfl
    | some m => exact toNat_mmucfgrValue m
  case dccfgr =>
    refine sprRead_eq_ofNat (v := dccfgrValue s.cfg.dcache) rfl ?_
    cases s.cfg.dcache with
    | none => rfl
    | some d => exact toNat_dccfgrValue d
  case iccfgr =>
    refine sprRead_eq_ofNat (v := iccfgrValue s.cfg.icache) rfl ?_
    cases s.cfg.icache with
    | none => rfl
    | some d => exact toNat_iccfgrValue d
  case dcfgr =>
    refine sprRead_eq_ofNat (v := dcfgrValue s.cfg.debugUnit) rfl ?_
    cases s.cfg.debugUnit with
    | none => rfl
    | some d => exact toNat_dcfgrValue d
  case pccfgr =>
    refine sprRead_eq_ofNat (v := pccfgrValue s.cfg.counters) rfl ?_
    cases s.cfg.counters with
    | none => rfl
    | some n => exact toNat_pccfgrValue n
  case vr2 => exact sprRead_eq_ofNat (sprRead_vr2 s) rfl
  case avr =>
    refine getLsbD_sprRead (sprRead_avr s) fun n hn => ?_
    cases s.cfg.avrPresent with
    | false => simp
    | true => simp [getLsbD_avrValue _ hn]
  case isr => exact fun j hj => sprRead_eq_ofNat (sprRead_isr s hj) rfl
  case vr => exact getLsbD_sprRead (v := vrValue s.cfg) rfl fun n hn => getLsbD_vrValue _ hn
  case evbar => exact fun h => sprRead_eq_ofNat (sprRead_evbar h) rfl
  case aecsr =>
    exact fun h => ⟨sprRead_eq_ofNat (sprRead_aecsr h).1 rfl, sprRead_eq_ofNat (sprRead_aecsr h).2 rfl⟩
  case fpcsr => exact fun h => sprRead_eq_ofNat (sprRead_fpcsr h) rfl
  case contexts =>
    exact fun j hj hs => ⟨sprRead_epcr s hj hs, sprRead_eear s hj hs, sprRead_eq_ofNat (sprRead_esr s hj hs) rfl⟩
  case gprs => exact fun set r hset hs hr h32 => sprRead_gpr s hset hs hr h32
  case mmus =>
    exact fun k g hg => ⟨fun h => sprRead_eq_ofNat (sprRead_mmuControl hg h) rfl,
      fun h => sprRead_eq_ofNat (sprRead_mmuProtect hg h) rfl, sprRead_tlbInvalidate hg,
      fun j hj h => ⟨sprRead_atbMatch hg hj h, sprRead_atbTranslate hg hj h⟩,
      fun y n hy4 hy hn hs => ⟨sprRead_tlbMatch hg hy4 hy hn hs, sprRead_tlbTranslate hg hy4 hy hn hs⟩⟩
  case dccr => exact fun d hd h => sprRead_eq_ofNat (sprRead_dccr hd h) rfl
  case iccr => exact fun d hd h => sprRead_eq_ofNat (sprRead_iccr hd h) rfl
  case cacheOperations => exact fun j h0 hj => sprRead_cacheOperation s h0 hj
  case mac => exact fun h => ⟨sprRead_eq_ofNat (sprRead_mac h).1 rfl, sprRead_eq_ofNat (sprRead_mac h).2 rfl⟩
  case watches =>
    exact fun g hg j h8 hj =>
      ⟨sprRead_eq_ofNat (sprRead_dvr hg h8 hj) rfl, sprRead_eq_ofNat (sprRead_dcr hg h8 hj) rfl⟩
  case watchCounters =>
    exact fun g hg h =>
      ⟨sprRead_eq_ofNat (sprRead_dwcr hg h).1 rfl, sprRead_eq_ofNat (sprRead_dwcr hg h).2 rfl⟩
  case counters =>
    exact fun n hn j h8 hj =>
      ⟨sprRead_eq_ofNat (sprRead_pccr hn h8 hj) rfl, sprRead_eq_ofNat (sprRead_pcmr hn h8 hj) rfl⟩
  case pic => exact fun h => ⟨sprRead_eq_ofNat (sprRead_pic h).1 rfl, sprRead_eq_ofNat (sprRead_pic h).2 rfl⟩
  case debugModes =>
    intro h
    obtain ⟨g, hg⟩ := Option.isSome_iff_exists.1 h
    obtain ⟨hdmr1, hdmr2, hdsr, hdrr⟩ := sprRead_debugModes hg
    exact ⟨sprRead_eq_ofNat hdmr1 rfl, sprRead_eq_ofNat hdmr2 rfl, sprRead_eq_ofNat hdsr rfl,
      sprRead_eq_ofNat hdrr rfl⟩
  case pmr => exact fun h => sprRead_eq_ofNat (sprRead_pmr h) rfl
  case timer => exact fun h => ⟨sprRead_eq_ofNat (sprRead_timer h).1 rfl, sprRead_eq_ofNat (sprRead_timer h).2 rfl⟩

end Sys2Proof.Machine
end

