-- ==== Sys2Proof/Proofs/MemoryAccess.lean ====
section
/-!
PROOFS. Proofs/MemoryAccess.lean: where an operand lies, what a store leaves for a load, and how an access that cannot
be made ends (O33, O34, O36).
-/

namespace Sys2Proof.Machine

/-! ### Where an operand lies -/

/-- The bits of an immediate and its number agree modulo the register width (30 R304). -/
theorem toNat_sextImm (c : Config) (i : Imm16) : ((sextImm c i).toNat : Int) = i.toInt % 2 ^ c.xlen.bits := by
  have hsign : ((i.signExtend 64).toNat : Int) = i.toInt % 2 ^ 64 := by
    rw [← BitVec.toInt_signExtend_of_le (show 16 ≤ 64 by omega), BitVec.toInt_eq_toNat_bmod]
    have hlt := (i.signExtend 64).isLt
    exact (Int.bmod_emod.trans (Int.emod_eq_of_lt (by omega) (by omega))).symm
  unfold sextImm
  rw [narrow_toNat]
  push_cast
  rw [hsign]
  cases c.xlen <;> simp only [Xlen.bits] <;> omega

/-- The effective address is the exact sum modulo 2^W (20 R164, 42 R445). -/
theorem toNat_effective (s : State) (a : Reg) (i : Imm16) :
    ((effective s a i).toNat : Int) = ((gpr s a).toNat + i.toInt) % 2 ^ s.cfg.xlen.bits := by
  have himm := toNat_sextImm s.cfg i
  unfold effective
  rw [narrow_toNat, BitVec.toNat_add]
  generalize sextImm s.cfg i = x at himm ⊢
  push_cast
  cases h : s.cfg.xlen <;> simp only [h, Xlen.bits] at himm ⊢ <;> omega

theorem aligned_iff (ea : Word) (n : Nat) : aligned ea n = true ↔ ea.toNat % n = 0 := by simp [aligned]

theorem aligned_eq_false_iff (ea : Word) (n : Nat) : aligned ea n = false ↔ ea.toNat % n ≠ 0 := by simp [aligned]

/-- With translation off several addresses are their own physical addresses, and nothing changes. -/
theorem translateAll_off {s : State} {k : Access} (h : translates s k = false) (eas : List Word) :
    translateAll s k eas = .ok (eas.map fun ea => { pa := physical s.cfg ea, attributes := none }) s := by
  induction eas with
  | nil => rfl
  | cons ea rest ih => simp only [translateAll, translate_off h, Attempt.andThen, ih, List.map_cons]

/-- The address `j` bytes on, modulo 2^W. -/
theorem toNat_byteEa (c : Config) (ea : Word) (j : Nat) :
    (narrow c (ea + BitVec.ofNat 64 j)).toNat = (ea.toNat + j) % 2 ^ c.xlen.bits := by
  rw [narrow_toNat, BitVec.toNat_add, BitVec.toNat_ofNat]
  cases c.xlen <;> simp only [Xlen.bits] <;> omega

/-- With translation off the bytes of an operand that is not aligned lie each at the low bits of its own address. -/
theorem dataAddresses_bytewise_off {s : State} {k : Access} {ea : Word} {n : Nat} (h : translates s k = false)
    (ha : aligned ea n = false) (hu : s.cfg.unalignedSupported = true) :
    dataAddresses s k ea n false = .ok ((List.range n).map fun j =>
      { pa := (ea.toNat + j) % 2 ^ s.cfg.xlen.bits % 2 ^ s.cfg.paddrBits, attributes := none }) s := by
  have hplaces : (byteEas s.cfg ea n).map (fun x => ({ pa := physical s.cfg x, attributes := none } : Place)) =
      (List.range n).map fun j =>
        { pa := (ea.toNat + j) % 2 ^ s.cfg.xlen.bits % 2 ^ s.cfg.paddrBits, attributes := none } := by
    simp only [byteEas, List.map_map, Function.comp_def, physical, toNat_byteEa]
  unfold dataAddresses
  rw [translateAll_off h, hplaces]
  simp [ha, hu]

/-- Settles O34: the cases of `dataAddresses` with translation off, by alignment. -/
theorem operandAddresses : Obligations.OperandAddresses := by
  intro s k a i n strict hoff
  refine ⟨toNat_effective s a i, fun hal => ?_, fun hmis hraise => ?_, fun hmis hsup hstrict => ?_⟩
  · exact dataAddresses_off hoff ((aligned_iff _ n).2 hal) strict
  · exact dataAddresses_misaligned ((aligned_eq_false_iff _ n).2 hmis) hraise
  · subst hstrict
    exact dataAddresses_bytewise_off hoff ((aligned_eq_false_iff _ n).2 hmis) hsup

/-! ### What a load and a store do -/

/-- A load whose places are known and where memory answers. -/
theorem loadWith_eq {s u : State} {ea : Word} {n : Nat} {ps : List Place}
    (h : dataAddresses s .load ea n false = .ok ps u) (hm : (addressesOf ps).all (mapped s.cfg) = true) (d : Reg)
    (ext : Word → Word) : loadWith s d ea n ext = writeBack u d (ext (datumAt u (addressesOf ps))) := by
  simp only [loadWith, memRead_eq h hm, Attempt.finish]

/-- A write of memory that every byte answers. -/
theorem memWrite_eq {s u : State} {ea : Word} {n : Nat} {ps : List Place}
    (h : dataAddresses s .store ea n false = .ok ps u) (hm : (addressesOf ps).all (mapped s.cfg) = true) (v : Word) :
    memWrite s ea n v = .ok () (u.storeAt ps n v) := by
  simp only [memWrite, h, Attempt.andThen, hm, if_true]

/-- A write of memory to which the bus does not answer. -/
theorem memWrite_busError {s u : State} {ea : Word} {n : Nat} {ps : List Place}
    (h : dataAddresses s .store ea n false = .ok ps u) (hm : (addressesOf ps).all (mapped s.cfg) = false) (v : Word) :
    memWrite s ea n v = .raise .busError (s.abandon u) := by
  simp only [memWrite, h, Attempt.andThen, hm, Bool.false_eq_true, if_false]

/-- A store whose places are known and where memory answers. -/
theorem storeWith_eq {s u : State} {ea : Word} {n : Nat} {ps : List Place}
    (h : dataAddresses s .store ea n false = .ok ps u) (hm : (addressesOf ps).all (mapped s.cfg) = true) (v : Word) :
    storeWith s ea n v = .next (u.storeAt ps n v).advance := by
  simp only [storeWith, memWrite_eq h hm, Attempt.finish]

/-! ### A store, then a load -/

theorem fst_mem_of_mem_zip {α β : Type} {l : List α} {l' : List β} {a : α} (h : a ∈ (l.zip l').map (·.1)) : a ∈ l := by
  obtain ⟨⟨x, y⟩, hxy, rfl⟩ := List.mem_map.1 h
  exact (List.of_mem_zip hxy).1

/-- Bytes written at different addresses are all read back. -/
theorem map_storedByte_zip {pas : List Nat} {l : List Byte} (hn : pas.Nodup) (hl : l.length = pas.length)
    (old : Nat → Byte) : (pas.map fun pa => storedByte (pas.zip l) (old pa) pa) = l := by
  induction pas generalizing l old with
  | nil => exact (List.length_eq_zero_iff.1 hl).symm
  | cons p rest ih =>
    cases l with
    | nil => simp at hl
    | cons b l =>
      obtain ⟨hp, hrest⟩ := List.nodup_cons.1 hn
      have hhead : storedByte ((p, b) :: rest.zip l) (old p) p = b := by
        show storedByte (rest.zip l) (if p = p then b else old p) p = b
        rw [if_pos rfl]
        exact storedByte_of_notMem (fun h => hp (fst_mem_of_mem_zip h)) b
      have htail : ∀ q ∈ rest, storedByte ((p, b) :: rest.zip l) (old q) q = storedByte (rest.zip l) (old q) q := by
        intro q hq
        show storedByte (rest.zip l) (if p = q then b else old q) q = _
        rw [if_neg fun h : p = q => hp (h ▸ hq)]
      rw [List.zip_cons_cons, List.map_cons, hhead, List.map_congr_left htail, ih hrest (by simpa using hl)]

@[simp] theorem ordered_length (s : State) (l : List Byte) : (ordered s l).length = l.length := by
  unfold ordered; split <;> simp

/-- Turning bytes around twice leaves them as they were. -/
theorem ordered_ordered {s t : State} (h : srBit t srLEE = srBit s srLEE) (l : List Byte) :
    ordered t (ordered s l) = l := by
  unfold ordered
  rw [h]
  split <;> simp

/-- The datum at different places after a store there: the low bytes of what was stored, in either byte order. -/
theorem datumAt_storeAt {s t : State} {ps : List Place} {n : Nat} {v : Word} (hn : (addressesOf ps).Nodup)
    (hl : ps.length = n) (hm : t.mem = (s.storeAt ps n v).mem) (hs : t.sr = s.sr) :
    datumAt t (addressesOf ps) = BitVec.ofNat 64 (v.toNat % 2 ^ (8 * n)) := by
  have hread : readBytes t (addressesOf ps) = ordered s (splitBytes v.toNat n) := by
    have hbyte (pa : Nat) : readByte t pa =
        storedByte ((addressesOf ps).zip (ordered s (splitBytes v.toNat n))) (readByte s pa) pa := by
      rw [← bytesStored, ← readByte_storeAt]
      exact memoryKept_of_mem hm pa
    rw [readBytes, funext hbyte]
    exact map_storedByte_zip hn (by simp [splitBytes_length, addressesOf, hl]) (readByte s)
  have hlee : srBit t srLEE = srBit s srLEE := by unfold srBit; rw [hs]
  unfold datumAt
  rw [hread, ordered_ordered hlee, joinBytes_splitBytes, pow_mul]
  rfl

theorem translates_congr {s t : State} (hc : t.cfg = s.cfg) (hs : t.sr = s.sr) (k : Access) :
    translates t k = translates s k := by
  unfold translates srBit
  rw [hc, hs]

theorem effective_congr {s t : State} (hc : t.cfg = s.cfg) (hs : t.sr = s.sr) (hg : t.gprs = s.gprs) (a : Reg)
    (i : Imm16) : effective t a i = effective s a i := by
  unfold effective gpr context
  rw [hc, hs, gprOf_congr hc hg]

/-- The places of the `n` bytes of an operand from a physical address on, with translation off. -/
def untranslatedPlaces (p n : Nat) : List Place := (List.range n).map fun j => { pa := p + j, attributes := none }

theorem addressesOf_untranslatedPlaces (p n : Nat) :
    addressesOf (untranslatedPlaces p n) = (List.range n).map (p + ·) := by
  simp [addressesOf, untranslatedPlaces]

theorem untranslatedPlaces_length (p n : Nat) : (untranslatedPlaces p n).length = n := by simp [untranslatedPlaces]

theorem all_mapped_untranslatedPlaces {c : Config} {p n : Nat} (h : ∀ j : Nat, j < n → mapped c (p + j) = true) :
    (addressesOf (untranslatedPlaces p n)).all (mapped c) = true := by
  rw [addressesOf_untranslatedPlaces]
  simpa [List.all_eq_true] using h

theorem nodup_untranslatedPlaces (p n : Nat) : (addressesOf (untranslatedPlaces p n)).Nodup := by
  rw [addressesOf_untranslatedPlaces]
  exact List.nodup_range.map fun i j h => Nat.add_left_cancel h

/-- With translation off an aligned store, then the load of the same size at the same operands, writes the low bytes of
what was stored to the destination. -/
theorem load_of_store {s : State} {store load : Instr} {a b d : Reg} {i : Imm16} {n : Nat} {needs : Needs}
    (hoff : translates s .store = false) (hst : available s needs [a, b]) (hld : available s needs [d, a])
    (hstore : exec store s = checked s needs [a, b] (storeWith s (effective s a i) n (gpr s b)))
    (hload : ∀ t, exec load t = checked t needs [d, a] (loadWith t d (effective t a i) n id))
    (hal : (effective s a i).toNat % n = 0)
    (hm : ∀ j : Nat, j < n → mapped s.cfg (physical s.cfg (effective s a i) + j) = true) :
    ∃ t u : State, exec store s = .next t ∧ exec load t = .next u ∧
      registerIs t u d (BitVec.ofNat 64 ((gpr s b).toNat % 2 ^ (8 * n))) := by
  have hal := (aligned_iff _ n).2 hal
  generalize hps : untranslatedPlaces (physical s.cfg (effective s a i)) n = ps
  have hmap : (addressesOf ps).all (mapped s.cfg) = true := hps ▸ all_mapped_untranslatedPlaces hm
  have hplaces : dataAddresses s .store (effective s a i) n false = .ok ps s := hps ▸ dataAddresses_off hoff hal false
  generalize ht : (s.storeAt ps n (gpr s b)).advance = t
  have hcfg : t.cfg = s.cfg := by rw [← ht]; simp
  have hsr : t.sr = s.sr := by rw [← ht]; simp
  have hgprs : t.gprs = s.gprs := by rw [← ht]; simp
  have hmem : t.mem = (s.storeAt ps n (gpr s b)).mem := by rw [← ht]; simp
  have hplaces' : dataAddresses t .load (effective s a i) n false = .ok ps t := by
    rw [dataAddresses_off ((translates_congr hcfg hsr .load).trans hoff) hal, hcfg, ← hps]
    rfl
  have hdatum : datumAt t (addressesOf ps) = BitVec.ofNat 64 ((gpr s b).toNat % 2 ^ (8 * n)) :=
    datumAt_storeAt (hps ▸ nodup_untranslatedPlaces _ _) (hps ▸ untranslatedPlaces_length _ _) hmem hsr
  obtain ⟨u, hu, hreg, -⟩ := writeBack_spec t d (datumAt t (addressesOf ps))
  refine ⟨t, u, ?_, ?_, hdatum ▸ hreg⟩
  · rw [hstore, checked_eq hst, storeWith_eq hplaces hmap, ht]
  · have hld' : available t needs [d, a] := by unfold available; rw [hcfg]; exact hld
    rw [hload, checked_eq hld', effective_congr hcfg hsr hgprs, loadWith_eq hplaces' (by rw [hcfg]; exact hmap)]
    exact hu

/-- Settles O36: `load_of_store` for each size. -/
theorem loadReturnsWhatWasStored : Obligations.LoadReturnsWhatWasStored := by
  intro s a b d i hoff
  refine ⟨fun hst hld => ⟨?_, ?_, ?_⟩, fun hst hld => ?_⟩
  all_goals exact load_of_store hoff hst hld rfl fun _ => rfl

/-! ### Loads and stores that cannot be made -/

/-- An access whose instruction raises what finding its places raises, and else the bus error. -/
theorem accessRaises_of_enter {i : Instr} {s : State} {k : Access} {ea : Word} {n : Nat} {strict : Bool}
    (hraise : ∀ e u, dataAddresses s k ea n strict = .raise e u → exec i s = enter e (some ea) u)
    (hbus : ∀ ps u, dataAddresses s k ea n strict = .ok ps u → (addressesOf ps).all (mapped s.cfg) = false →
      exec i s = enter .busError (some ea) (s.abandon u)) : accessRaises i s k ea n strict := by
  constructor
  · intro e u h hcan
    rw [hraise e u h]
    exact ⟨dataAddresses_frame.2 e h, enter_spec _ hcan⟩
  · intro ps u h hm hcan
    rw [hbus ps u h hm]
    exact enter_spec (s := s.abandon u) _ hcan

/-- A read of memory raises what finding its places raises. -/
theorem memRead_raise {s u : State} {ea : Word} {n : Nat} {strict : Bool} {e : Exc}
    (h : dataAddresses s .load ea n strict = .raise e u) : memRead s ea n strict = .raise e u := by
  simp only [memRead, h, Attempt.andThen]

/-- A write of memory raises what finding its places raises. -/
theorem memWrite_raise {s u : State} {ea : Word} {n : Nat} {e : Exc}
    (h : dataAddresses s .store ea n false = .raise e u) (v : Word) : memWrite s ea n v = .raise e u := by
  simp only [memWrite, h, Attempt.andThen]

section
variable {i : Instr} {s : State} {needs : Needs} {regs : List Reg} (h : available s needs regs)
include h

/-- An available instruction that ends in a read of memory: a load, or the load that reserves. -/
theorem accessRaises_of_memRead {ea : Word} {n : Nat} {strict : Bool} {f : Word × List Nat → State → Result}
    (he : exec i s = checked s needs regs ((memRead s ea n strict).finish ea f)) :
    accessRaises i s .load ea n strict := by
  rw [checked_eq h] at he
  refine accessRaises_of_enter (fun e u hd => ?_) fun ps u hd hm => ?_
  · rw [he, memRead_raise hd, Attempt.finish]
  · rw [he, memRead_busError hd hm, Attempt.finish]

/-- An available instruction that is a store. -/
theorem accessRaises_of_storeWith {ea : Word} {n : Nat} {v : Word}
    (he : exec i s = checked s needs regs (storeWith s ea n v)) : accessRaises i s .store ea n false := by
  rw [checked_eq h, storeWith] at he
  refine accessRaises_of_enter (fun e u hd => ?_) fun ps u hd hm => ?_
  · rw [he, memWrite_raise hd, Attempt.finish]
  · rw [he, memWrite_busError hd hm, Attempt.finish]

end

/-- `l.swa` raises what finding its place raises, whatever its reservation (42 R468). -/
theorem storeConditional_raise {s u : State} {ea : Word} {e : Exc} (h : dataAddresses s .store ea 4 true = .raise e u)
    (v : Word) : storeConditional s ea v = enter e (some ea) u := by
  rw [storeConditional, h, Attempt.finish]

/-! ### Fetches that cannot be made -/

/-- A fetch from a pc that is not a multiple of 4 (20 R177). -/
theorem fetch_misaligned {s : State} (h : aligned s.pc 4 = false) : fetch s = .raise .alignment s := by
  simp [fetch, h]

/-- A fetch raises what translating pc raises. -/
theorem fetch_raise {s u : State} {e : Exc} (ha : aligned s.pc 4 = true) (h : translate s .fetch s.pc = .raise e u) :
    fetch s = .raise e u := by
  simp [fetch, ha, h, Attempt.andThen]

/-- A fetch to which the bus does not answer (20 R178). -/
theorem fetch_busError {s u : State} {p : Place} (ha : aligned s.pc 4 = true)
    (h : translate s .fetch s.pc = .ok p u) (hm : [p.pa, p.pa + 1, p.pa + 2, p.pa + 3].all (mapped s.cfg) = false) :
    fetch s = .raise .busError (s.abandon u) := by
  simp only [fetch, ha, h, Attempt.andThen, hm, Bool.not_true, Bool.false_eq_true, if_false]

/-- One byte of a word that does not answer keeps all four from answering. -/
theorem all_mapped_word_eq_false {c : Config} {p j : Nat} (hj : j < 4) (h : mapped c (p + j) = false) :
    [p, p + 1, p + 2, p + 3].all (mapped c) = false := by
  have hmem : p + j ∈ [p, p + 1, p + 2, p + 3] := by simp; omega
  exact List.all_eq_false.2 ⟨_, hmem, by simp [h]⟩

/-- The step of a processor that is ready is an instruction, its own record of the step emptied. -/
theorem step_of_ready {s : State} (h : ready s) : step s = instructionStep s.fresh := by
  obtain ⟨hinputs, hstopped, hwaiting, htick, hint⟩ := h
  have htick' : (tickPending s.fresh && srBit s.fresh srTEE) = false := htick
  have hint' : (intRequest s.fresh && srBit s.fresh srIEE) = false := hint
  show cycle s = _
  simp [cycle, hinputs, processorStep, hstopped, hwaiting, htick', hint']

/-- What counting changes, as a record update. -/
theorem State.count_eq (s : State) (user : Bool) (e : PerfEvents) :
    s.count user e = { s with pccr := (s.count user e).pccr, draws := (s.count user e).draws } := by
  unfold State.count
  split
  · rfl
  · split <;> rfl

/-- Without performance counters nothing is counted. -/
theorem State.count_none {s : State} (h : s.cfg.counters = none) (user : Bool) (e : PerfEvents) :
    s.count user e = s := by
  unfold State.count; rw [h]

/-- An exception in place of a fetch is taken, and the counters see it. -/
theorem takesExceptionCounted_observeFetch {s u : State} {e : Exc} (ea : Option Word) (h : canEnter u e) :
    takesExceptionCounted (observeFetch s (enter e ea u)) u e ea := by
  obtain ⟨t, ht, hspec⟩ := enter_spec ea h
  have hcfg : t.cfg = u.cfg := by
    obtain ⟨-, -, -, -, -, -, -, -, -, -, heq⟩ := hspec
    rw [heq]
  refine ⟨t, t.count (!srBit s srSM) (fetchEvents t), ⟨t, rfl, hspec⟩, by rw [ht, observeFetch], ?_, fun hn => ?_⟩
  · exact State.count_eq t _ _
  · exact State.count_none (by rw [hcfg]; exact hn) _ _

/-- A step whose fetch raises takes that exception, with pc as its address. -/
theorem step_of_fetch_raise {s u : State} {e : Exc} (hr : ready s) (hf : fetch s.fresh = .raise e u)
    (hcan : canEnter u e) : takesExceptionCounted (step s) u e (some s.pc) := by
  rw [step_of_ready hr, instructionStep, hf]
  exact takesExceptionCounted_observeFetch _ hcan

/-- Settles O33: each load and store by the way it ends, each fetch by what keeps it from its word. -/
theorem accessExceptions : Obligations.AccessExceptions := by
  constructor
  · intro s d a b i
    refine ⟨fun h => ?ld, fun h => ⟨?lwz, ?lws, ?lbz, ?lbs, ?lhz, ?lhs⟩, fun h => ?lwa, fun h => ?sd,
      fun h => ⟨?sw, ?sb, ?sh⟩, fun h e u hd hcan => ?swa⟩
    case ld | lwz | lws | lbz | lbs | lhz | lhs | lwa => exact accessRaises_of_memRead h rfl
    case sd | sw | sb | sh => exact accessRaises_of_storeWith h rfl
    case swa =>
      have hexec : exec (.lSwa a b i) s = enter e (some (effective s a i)) u := by
        show checked s _ _ (storeConditional s (effective s a i) (gpr s b)) = _
        rw [checked_eq h, storeConditional_raise hd]
      rw [hexec]
      exact ⟨dataAddresses_frame.2 e hd, enter_spec _ hcan⟩
  · intro s hr
    refine ⟨fun hmis hcan => ?_, fun hal => ?_⟩
    · exact step_of_fetch_raise hr (fetch_misaligned ((aligned_eq_false_iff _ 4).2 hmis)) hcan
    · have hal : aligned s.fresh.pc 4 = true := (aligned_iff _ 4).2 hal
      refine ⟨fun e u htr hcan => ?_, fun p u htr hno hcan => ?_⟩
      · exact ⟨translate_frame.2 e htr, step_of_fetch_raise hr (fetch_raise hal htr) hcan⟩
      · obtain ⟨j, hj, hm⟩ := hno
        exact step_of_fetch_raise hr (fetch_busError hal htr (all_mapped_word_eq_false hj hm)) hcan

end Sys2Proof.Machine
end

