-- ==== Sys2Proof/Proofs/Fetching.lean ====
section
/-!
PROOFS. Proofs/Fetching.lean: the branches of the translation procedure, and the word that a fetch gets after it was
placed there (O8).
-/

namespace Sys2Proof.Machine

/-! ### Translation by what the lookup finds -/

section
variable {s : State} {k : Access} {g : MmuConfig} {ea : Word} (ht : translates s k = true)
  (hg : mmuConfig s.cfg k = some g)
include ht hg

/-- A level-1 entry of the TLB stops the translation. -/
theorem translate_level1 (h : lookup s k g ea = .level1) : translate s k ea = .refuse .tlbLevel1Match := by
  simp only [translate, ht, hg, h]

/-- An access that an entry matches goes through it. -/
theorem translate_hit {e : Entry} (h : lookup s k g ea = .hit e) : translate s k ea = translateHit s k g ea e := by
  simp only [translate, ht, hg, h]

/-- A miss where software reloads the entries. -/
theorem translate_miss (h : lookup s k g ea = .miss) (hr : g.reload = false) :
    translate s k ea = .raise (missExc k) (s.countMiss k) := by
  simp [translate, ht, hg, h, hr]

/-- A miss where the hardware reloads the entries. -/
theorem translate_reload (h : lookup s k g ea = .miss) (hr : g.reload = true) :
    translate s k ea = reload (s.countMiss k) k g ea := by
  simp [translate, ht, hg, h, hr]

end

/-- An MMU that is on is present. -/
theorem mmuConfig_of_translates {s : State} {k : Access} (h : translates s k = true) :
    ∃ g, mmuConfig s.cfg k = some g := by
  unfold translates at h
  exact Option.isSome_iff_exists.1 (Bool.and_eq_true_iff.1 h).1

/-! ### Translation without hardware reload does not see memory -/

/-- The state with other contents of memory and of the lists of older bytes. -/
def State.withMemory (s : State) (m x y : List Host.Cell) : State := { s with mem := m, stale := x, unwritten := y }

/-- Placing a word changes memory and the lists of older bytes alone. -/
theorem State.placeWord_eq (s : State) (pa : Nat) (w : BitVec 32) :
    s.placeWord pa w = s.withMemory (s.placeWord pa w).mem (s.placeWord pa w).stale (s.placeWord pa w).unwritten := rfl

section
variable (s : State) (m x y : List Host.Cell) (k : Access)

theorem translates_withMemory : translates (s.withMemory m x y) k = translates s k := rfl

theorem mmuOf_withMemory : mmuOf (s.withMemory m x y) k = mmuOf s k := by cases k <;> rfl

theorem setMmu_withMemory (m' : Mmu) : (s.withMemory m x y).setMmu k m' = (s.setMmu k m').withMemory m x y := by
  cases k <;> rfl

theorem lookup_withMemory (g : MmuConfig) (ea : Word) : lookup (s.withMemory m x y) k g ea = lookup s k g ea := by
  cases k <;> rfl

end

/-- Without hardware reload no page table is marked. -/
theorem useTable_noReload {g : MmuConfig} (h : g.reload = false) (s : State) (k mark : Access) (ea r : Word) :
    s.useTable k mark g ea r = s := by
  simp [State.useTable, h]

/-- Without hardware reload an access through an entry goes the same way whatever memory holds. -/
theorem translateHit_withMemory {s u : State} {k : Access} {g : MmuConfig} {ea : Word} {e : Entry} {p : Place}
    (hr : g.reload = false) (h : translateHit s k g ea e = .ok p u) (m x y : List Host.Cell) :
    translateHit (s.withMemory m x y) k g ea e = .ok p (u.withMemory m x y) := by
  unfold translateHit at h ⊢
  simp only [useTable_noReload hr, mmuOf_withMemory, setMmu_withMemory] at h ⊢
  split_ifs at h with hp
  cases h
  exact if_pos hp

/-- Without hardware reload an access goes the same way whatever memory holds. -/
theorem translate_withMemory {s u : State} {k : Access} {ea : Word} {p : Place}
    (hr : ∀ g, mmuConfig s.cfg k = some g → g.reload = false) (h : translate s k ea = .ok p u)
    (m x y : List Host.Cell) : translate (s.withMemory m x y) k ea = .ok p (u.withMemory m x y) := by
  cases ht : translates s k with
  | false =>
    rw [translate_off ht] at h
    cases h
    exact translate_off (by rw [translates_withMemory]; exact ht) ea
  | true =>
    obtain ⟨g, hg⟩ := mmuConfig_of_translates ht
    have ht' : translates (s.withMemory m x y) k = true := ht
    have hlookup := lookup_withMemory s m x y k g ea
    cases hl : lookup s k g ea with
    | level1 => rw [translate_level1 ht hg hl] at h; cases h
    | miss => rw [translate_miss ht hg hl (hr g hg)] at h; cases h
    | hit e =>
      rw [translate_hit ht hg hl] at h
      rw [translate_hit ht' hg (hlookup.trans hl)]
      exact translateHit_withMemory (hr g hg) h m x y

/-! ### A word placed in memory -/

/-- The four bytes of a word, most significant first, make it up. -/
theorem append_extractLsb'_bytes (w : BitVec 32) :
    w.extractLsb' 24 8 ++ w.extractLsb' 16 8 ++ w.extractLsb' 8 8 ++ w.extractLsb' 0 8 = w := by
  apply BitVec.eq_of_getLsbD_eq
  intro n hn
  simp only [BitVec.getLsbD_append, BitVec.getLsbD_extractLsb']
  split_ifs with h1 h2 h3
  · simp [h1]
  all_goals rw [decide_eq_true (by omega), Bool.true_and]; congr 1; omega

/-- The bytes of a placed word. -/
theorem read_placeWord (s : State) (pa : Nat) (w : BitVec 32) {i : Nat} (hi : i < 4) :
    Table.read (s.placeWord pa w).mem (pa + i) = w.extractLsb' (24 - 8 * i) 8 := by
  simp only [State.placeWord, Table.read_write, Nat.add_left_cancel_iff]
  interval_cases i <;> rfl

/-- Of the bytes of a placed word a list keeps no older ones. -/
theorem olderBytes_placed (l : List Host.Cell) (pa : Nat) {i : Nat} (hi : i < 4) :
    olderBytes (l.filter fun c => decide (c.1 < pa ∨ pa + 4 ≤ c.1)) (pa + i) = [] := by
  simp only [olderBytes, List.map_eq_nil_iff, List.filter_eq_nil_iff, List.mem_filter, decide_eq_true_eq, beq_iff_eq]
  omega

/-- Where no list holds an older byte a fetch gets the newest. -/
theorem fetchByte_newest {s : State} {p : Place} (hs : olderBytes s.stale p.pa = [])
    (hu : olderBytes s.unwritten p.pa = []) (n : Nat) : fetchByte s p n = readByte s p.pa := by
  simp [fetchByte, fetchCandidates, hs, hu]

/-- A fetch whose place is known and where memory answers. -/
theorem fetch_ok {s t : State} {p : Place} (ha : aligned s.pc 4 = true) (h : translate s .fetch s.pc = .ok p t)
    (hm : [p.pa, p.pa + 1, p.pa + 2, p.pa + 3].all (mapped s.cfg) = true) :
    fetch s = .ok (fetchByte t (p.offset 0) (t.draws + 0) ++ fetchByte t (p.offset 1) (t.draws + 1) ++
        fetchByte t (p.offset 2) (t.draws + 2) ++ fetchByte t (p.offset 3) (t.draws + 3))
      { t with draws := if t.stale.isEmpty && t.unwritten.isEmpty then t.draws else t.draws + 4 } := by
  simp only [fetch, ha, h, Attempt.andThen, hm, Bool.not_true, Bool.false_eq_true, if_false, if_true]

/-- A byte of a placed word is the one a fetch gets. -/
theorem fetchByte_placed (s u : State) (p : Place) (w : BitVec 32) (n : Nat) {i : Nat} (hi : i < 4) :
    fetchByte (u.withMemory (s.placeWord p.pa w).mem (s.placeWord p.pa w).stale (s.placeWord p.pa w).unwritten)
      (p.offset i) n = w.extractLsb' (24 - 8 * i) 8 :=
  (fetchByte_newest (olderBytes_placed s.stale p.pa hi) (olderBytes_placed s.unwritten p.pa hi) n).trans
    (read_placeWord s p.pa w hi)

/-- Settles O8: the placed word lies where the translation, which does not see memory, leads the fetch. -/
theorem placedWordIsFetched : Obligations.PlacedWordIsFetched := by
  intro s u p w hr hal htr hm
  have haddr : fetchAddress s = p.pa := by rw [fetchAddress, htr]
  have htr' := translate_withMemory (k := .fetch) hr htr (s.placeWord p.pa w).mem (s.placeWord p.pa w).stale
    (s.placeWord p.pa w).unwritten
  rw [← State.placeWord_eq] at htr'
  have hfetch := fetch_ok (s := s.placeWord p.pa w) hal htr' hm
  simp only [fetchByte_placed s u p w _ (by decide : 0 < 4), fetchByte_placed s u p w _ (by decide : 1 < 4),
    fetchByte_placed s u p w _ (by decide : 2 < 4), fetchByte_placed s u p w _ (by decide : 3 < 4)] at hfetch
  rw [append_extractLsb'_bytes] at hfetch
  rw [State.placeNext, haddr]
  exact ⟨_, hfetch, fetch_frame.1 w hfetch⟩

end Sys2Proof.Machine
end

