-- ==== Sys2Proof/Proofs/Lookup.lean ====
section
/-!
PROOFS. Proofs/Lookup.lean: when an entry of the TLB or of the ATB matches, and what a lookup finds by what matches (for
O35).
-/

namespace Sys2Proof.Machine

/-! ### When an entry matches -/

/-- Bits `hi` - 1 down to `lo` of a word, as a quotient first. -/
theorem slice_eq (x : Word) (lo n : Nat) : slice x (lo + n) lo = x.toNat / 2 ^ lo % 2 ^ n := by
  rw [slice, pow_add, Nat.mod_mul_right_div_self]

theorem cidMatches_iff (s : State) (cid : Nat) : cidMatches s cid = true ↔ (1 < s.cfg.nsets → cid = context s) := by
  simp only [cidMatches, Bool.or_eq_true, decide_eq_true_eq, beq_iff_eq]
  omega

section
variable {s : State} (h : s.cfg.xlen = .x32) (m : Mmu) (ea : Word)
include h

theorem pageMatches_x32 {lo : Nat} (r : Word) (n : Nat) (hn : 32 = lo + n) :
    pageMatches s.cfg r ea lo = true ↔ r.toNat / 2 ^ lo % 2 ^ n = ea.toNat / 2 ^ lo % 2 ^ n := by
  simp only [pageMatches, vaBits, matchShift, h, Nat.add_zero, beq_iff_eq]
  rw [hn, slice_eq, slice_eq]

/-- On 32 bits, when a way of the TLB matches (20 R208). -/
theorem tlbHit_iff_x32 (n j : Nat) : tlbHit s m ea n j = true ↔
    let r := Table.read m.tlbMr (256 * j + n)
    r.getLsbD 0 = true ∧ r.getLsbD 1 = false ∧ (1 < s.cfg.nsets → r.toNat / 2 ^ 2 % 2 ^ 4 = context s) ∧
      r.toNat / 2 ^ 13 % 2 ^ 19 = ea.toNat / 2 ^ 13 % 2 ^ 19 := by
  simp only [tlbHit, tlbIndex, Bool.and_eq_true, Bool.not_eq_true', cidMatches_iff, pageMatches_x32 h ea _ 19 rfl,
    slice_eq _ 2 4, and_assoc]

/-- On 32 bits, when an entry of the ATB matches (20 R224). -/
theorem atbHit_iff_x32 (j : Nat) : atbHit s m ea j = true ↔
    let r := Table.read m.atbMr j
    r.getLsbD 0 = true ∧ r.getLsbD 5 = false ∧ (1 < s.cfg.nsets → r.toNat / 2 % 2 ^ 4 = context s) ∧
      r.toNat / 2 ^ 24 % 2 ^ 8 = ea.toNat / 2 ^ 24 % 2 ^ 8 := by
  generalize hr : Table.read m.atbMr j = r
  cases h5 : r.getLsbD 5 with
  | true => simp only [atbHit, hr, h5, h, decide_true, Bool.and_true, Bool.not_true, Bool.and_false, Bool.false_and,
      Bool.true_eq_false, Bool.false_eq_true, false_and, and_false]
  | false =>
    simp only [atbHit, hr, atbPageLog, h5, Bool.and_eq_true, cidMatches_iff, Bool.false_eq_true, if_false,
      pageMatches_x32 h ea _ 8 rfl, slice_eq _ 1 4, Bool.false_and, Bool.not_false, and_true, true_and, and_assoc,
      pow_one]

end

/-! ### What a lookup finds -/

/-- One of several candidates is one of them. -/
theorem chooseOne_mem (n y : Nat) (ys : List Nat) : chooseOne n (y :: ys) y ∈ y :: ys := by
  cases ys with
  | nil => simp [chooseOne]
  | cons z zs =>
    have hlt : Config.freeWay n % (y :: z :: zs).length < (y :: z :: zs).length := Nat.mod_lt _ (by simp)
    simp only [chooseOne, List.getD_eq_getElem _ _ hlt]
    exact List.getElem_mem hlt

section
variable {s : State} {k : Access} {g : MmuConfig} {ea : Word}

/-- A level-1 entry that claims the address, where the policy is to refuse it. -/
theorem lookup_level1 {y : Nat} (hy : y < g.ways) (h : tlbHitLevel1 s (mmuOf s k) ea (tlbSet g ea) y = true)
    (hp : s.cfg.tlbPl1 = .refuse) : lookup s k g ea = .level1 :=
  if_pos ⟨hp, List.any_eq_true.2 ⟨y, List.mem_range.2 hy, h⟩⟩

/-- Where the policy does not stop it, a lookup finds one of the ways that claim the address. -/
theorem lookup_tlb
    (hp : s.cfg.tlbPl1 = .refuse → ¬∃ y, y < g.ways ∧ tlbHitLevel1 s (mmuOf s k) ea (tlbSet g ea) y = true)
    (h : ∃ y, y < g.ways ∧ tlbClaims s (mmuOf s k) ea (tlbSet g ea) y = true) :
    ∃ y, y < g.ways ∧ tlbClaims s (mmuOf s k) ea (tlbSet g ea) y = true ∧
      lookup s k g ea = .hit (.tlb (256 * y + tlbSet g ea)) := by
  obtain ⟨z, hz, hclaim⟩ := h
  have hmem : z ∈ (List.range g.ways).filter (tlbClaims s (mmuOf s k) ea (tlbSet g ea)) :=
    List.mem_filter.2 ⟨List.mem_range.2 hz, hclaim⟩
  unfold lookup
  rw [if_neg (by simpa using hp)]
  cases hl : (List.range g.ways).filter (tlbClaims s (mmuOf s k) ea (tlbSet g ea)) with
  | nil => rw [hl] at hmem; cases hmem
  | cons y ys =>
    have hchosen := chooseOne_mem s.draws y ys
    rw [← hl, List.mem_filter, List.mem_range, hl] at hchosen
    exact ⟨_, hchosen.1, hchosen.2, by simp only [tlbIndex]⟩

/-- Where no way of the TLB claims the address none is found, and none at level 1. -/
theorem no_tlbClaims (h : ¬∃ y, y < g.ways ∧ tlbClaims s (mmuOf s k) ea (tlbSet g ea) y = true) :
    ¬(s.cfg.tlbPl1 = .refuse ∧ (List.range g.ways).any (tlbHitLevel1 s (mmuOf s k) ea (tlbSet g ea)) = true) ∧
      (List.range g.ways).filter (tlbClaims s (mmuOf s k) ea (tlbSet g ea)) = [] := by
  refine ⟨fun ⟨_, hany⟩ => ?_, by simpa [List.filter_eq_nil_iff] using h⟩
  obtain ⟨y, hy, hhit⟩ := List.any_eq_true.1 hany
  exact h ⟨y, List.mem_range.1 hy, by simp [tlbClaims, hhit]⟩

/-- A lookup that no way of the TLB serves finds one of the entries of the ATB that match. -/
theorem lookup_atb (h : ¬∃ y, y < g.ways ∧ tlbClaims s (mmuOf s k) ea (tlbSet g ea) y = true)
    (ha : ∃ j, j < g.atbs ∧ atbHit s (mmuOf s k) ea j = true) :
    ∃ j, j < g.atbs ∧ atbHit s (mmuOf s k) ea j = true ∧ lookup s k g ea = .hit (.atb j) := by
  obtain ⟨z, hz, hhit⟩ := ha
  have hmem : z ∈ (List.range g.atbs).filter (atbHit s (mmuOf s k) ea) :=
    List.mem_filter.2 ⟨List.mem_range.2 hz, hhit⟩
  obtain ⟨hlevel1, hnone⟩ := no_tlbClaims h
  unfold lookup
  rw [if_neg hlevel1, hnone]
  cases hl : (List.range g.atbs).filter (atbHit s (mmuOf s k) ea) with
  | nil => rw [hl] at hmem; cases hmem
  | cons i is =>
    have hchosen := chooseOne_mem s.draws i is
    rw [← hl, List.mem_filter, List.mem_range, hl] at hchosen
    exact ⟨_, hchosen.1, hchosen.2, rfl⟩

/-- A lookup that no entry serves is a miss. -/
theorem lookup_miss (h : ¬∃ y, y < g.ways ∧ tlbClaims s (mmuOf s k) ea (tlbSet g ea) y = true)
    (ha : ¬∃ j, j < g.atbs ∧ atbHit s (mmuOf s k) ea j = true) : lookup s k g ea = .miss := by
  have hatb : (List.range g.atbs).filter (atbHit s (mmuOf s k) ea) = [] := by
    simpa [List.filter_eq_nil_iff] using ha
  obtain ⟨hlevel1, hnone⟩ := no_tlbClaims h
  unfold lookup
  rw [if_neg hlevel1, hnone, hatb]

end

end Sys2Proof.Machine
end

