-- ==== Sys2Proof/Proofs/EntryAccess.lean ====
section
/-!
PROOFS. Proofs/EntryAccess.lean: an access through an entry that matches does what `goesThrough` says (for O35).
-/

namespace Sys2Proof.Machine

/-! ### The MMU of an access -/

/-- The state a translation leaves: the MMU of the access replaced, free values drawn. -/
theorem mmuOf_setMmu (s : State) (k : Access) (m : Mmu) (n : Nat) :
    mmuOf ({ s.setMmu k m with draws := n } : State) k = m := by
  cases k <;> rfl

/-- The MMU of the other kind of access is left alone. -/
theorem otherMmu_setMmu {s w : State} (k : Access) (m : Mmu) (n : Nat) (hd : w.dmmu = s.dmmu) (hi : w.immu = s.immu) :
    if k = .fetch then ({ w.setMmu k m with draws := n } : State).dmmu = s.dmmu
      else ({ w.setMmu k m with draws := n } : State).immu = s.immu := by
  cases k
  · exact hi
  · exact hi
  · exact hd

theorem setMmu_eq (s : State) (k : Access) (m : Mmu) :
    s.setMmu k m = { s with dmmu := (s.setMmu k m).dmmu, immu := (s.setMmu k m).immu } := by
  cases k <;> rfl

theorem translate_setTranslate (m : Mmu) (e e' : Entry) (v : Word) :
    e'.translate (m.setTranslate e v) = if e' = e then v else e'.translate m := by
  cases e <;> cases e' <;> simp [Entry.translate, Mmu.setTranslate, Table.read_write]

/-- Replacing a translate register leaves every other register as it was. -/
theorem setTranslate_eq (m : Mmu) (e : Entry) (v : Word) :
    m.setTranslate e v = { m with tlbTr := (m.setTranslate e v).tlbTr, atbTr := (m.setTranslate e v).atbTr } := by
  cases e <;> rfl

theorem setTranslate_tlbLru (m : Mmu) (e : Entry) (v : Word) : (m.setTranslate e v).tlbLru = m.tlbLru := by
  cases e <;> rfl

theorem translate_touchLru (m : Mmu) (g : MmuConfig) (n d : Nat) (e : Entry) :
    e.translate (m.touchLru g n d) = e.translate m := by
  cases e <;> rfl

/-- Writing a table at some numbers leaves what it holds at every other. -/
theorem read_foldl_write {w : Nat} (t : Table w) (l : List Nat) (f : Nat → Nat) (v : Nat → BitVec w) {j : Nat}
    (h : ∀ y ∈ l, j ≠ f y) : Table.read (l.foldl (fun t y => Table.write t (f y) (v y)) t) j = Table.read t j := by
  induction l generalizing t with
  | nil => rfl
  | cons y rest ih =>
    rw [List.foldl_cons, ih _ fun z hz => h z (List.mem_cons_of_mem y hz),
      Table.read_write_other _ _ (h y List.mem_cons_self)]

/-- Only the LRU fields of the set are touched. -/
theorem read_touchLru (m : Mmu) (g : MmuConfig) (n d : Nat) {j : Nat} (h : ∀ y, y < g.ways → j ≠ 256 * y + n) :
    Table.read (m.touchLru g n d).tlbLru j = Table.read m.tlbLru j :=
  read_foldl_write m.tlbLru (List.range g.ways) (tlbIndex · n) (Config.freeLru d) fun y hy => h y (List.mem_range.1 hy)

/-! ### The entry after the access -/

section
variable {s w : State} {k : Access} (hd : w.dmmu = s.dmmu) (hi : w.immu = s.immu) (g : MmuConfig) (ea : Word)
  (e : Entry) (r : Word) (n : Nat)
include hd hi

/-- An access that is made marks its entry and touches the LRU fields of its set. -/
theorem entryHolds_touched (d : Nat) :
    entryHolds s { w.setMmu k (((mmuOf s k).setTranslate e r).touchLru g (tlbSet g ea) d) with draws := n } k g ea e r
      true := by
  refine ⟨?_, fun e' he' => ?_, fun j hj => ?_, ?_, otherMmu_setMmu k _ n hd hi⟩
  all_goals rw [mmuOf_setMmu]
  · rw [translate_touchLru, translate_setTranslate, if_pos rfl]
  · rw [translate_touchLru, translate_setTranslate, if_neg he']
  · rw [read_touchLru _ _ _ _ (hj.resolve_left (by decide)), setTranslate_tlbLru]
  · cases e <;> rfl

/-- An access that the entry forbids marks it at most. -/
theorem entryHolds_untouched :
    entryHolds s { w.setMmu k ((mmuOf s k).setTranslate e r) with draws := n } k g ea e r false := by
  refine ⟨?_, fun e' he' => ?_, fun j _ => ?_, ?_, otherMmu_setMmu k _ n hd hi⟩
  all_goals rw [mmuOf_setMmu]
  · rw [translate_setTranslate, if_pos rfl]
  · rw [translate_setTranslate, if_neg he']
  · rw [setTranslate_tlbLru]
  · rw [setTranslate_eq]

end

/-- Where nothing of the MMUs changes every entry holds what it held. -/
theorem entryHolds_refl (s : State) (k : Access) (g : MmuConfig) (ea : Word) (e : Entry) (n : Nat) :
    entryHolds s { s with draws := n } k g ea e (e.translate (mmuOf s k)) false := by
  have hm : mmuOf ({ s with draws := n } : State) k = mmuOf s k := by cases k <;> rfl
  refine ⟨by rw [hm], fun e' _ => by rw [hm], fun j _ => by rw [hm], by rw [hm], ?_⟩
  split <;> rfl

/-! ### The page table after the access -/

/-- What a page table entry written back changes. -/
theorem readByte_writeEntry (s : State) (pa : Nat) (p : BitVec 32) (q : Nat) :
    readByte (s.writeEntry pa p) q = if q = pa + 3 then p.extractLsb' 0 8 else if q = pa + 2 then p.extractLsb' 8 8
      else if q = pa + 1 then p.extractLsb' 16 8 else if q = pa then p.extractLsb' 24 8 else readByte s q := by
  simp only [State.writeEntry, readByte_writeBytes, storedByte, List.foldl_cons, List.foldl_nil, eq_comm (b := q)]

/-- A page table entry written back is read again. -/
theorem readEntry_writeEntry (s : State) (pa : Nat) (p : BitVec 32) : readEntry (s.writeEntry pa p) pa = p := by
  have h (i : Nat) (hi : i < 4) : readByte (s.writeEntry pa p) (pa + i) = p.extractLsb' (24 - 8 * i) 8 := by
    rw [readByte_writeEntry]
    interval_cases i <;> simp
  show readByte _ (pa + 0) ++ _ ++ _ ++ _ = p
  rw [h 0 (by decide), h 1 (by decide), h 2 (by decide), h 3 (by decide)]
  exact append_extractLsb'_bytes p

theorem resv_writeEntry (s : State) (pa : Nat) (p : BitVec 32) :
    (s.writeEntry pa p).resv = resvAfterStore s [pa, pa + 1, pa + 2, pa + 3] := resv_writeBytes s _

/-- Marking the page table changes memory, and what goes with it, at most. -/
theorem useTable_eq (s : State) (k mark : Access) (g : MmuConfig) (ea r : Word) :
    s.useTable k mark g ea r = { s with
      mem := (s.useTable k mark g ea r).mem, resv := (s.useTable k mark g ea r).resv
      stale := (s.useTable k mark g ea r).stale, unwritten := (s.useTable k mark g ea r).unwritten } := by
  unfold State.useTable
  split
  · split
    · exact State.writeBytes_eq s _
    · rfl
  · rfl

theorem useTable_dmmu (s : State) (k mark : Access) (g : MmuConfig) (ea r : Word) :
    (s.useTable k mark g ea r).dmmu = s.dmmu := by rw [useTable_eq]

theorem useTable_immu (s : State) (k mark : Access) (g : MmuConfig) (ea r : Word) :
    (s.useTable k mark g ea r).immu = s.immu := by rw [useTable_eq]

/-- Where the hardware does not reload, or the marks are there already, no page table is marked. -/
theorem useTable_unmarked {g : MmuConfig} {mark : Access} {r : Word} (h : ¬(g.reload = true ∧ markUsed mark r ≠ r))
    (s : State) (k : Access) (ea : Word) : s.useTable k mark g ea r = s := by
  unfold State.useTable
  rw [if_neg (by simpa using h)]

/-- Where the search finds no page nothing is marked. -/
theorem useTable_noPage {s : State} {k : Access} {ea : Word} (h : ∀ p pa size, walk s k ea ≠ .page p pa size)
    (mark : Access) (g : MmuConfig) (r : Word) : s.useTable k mark g ea r = s := by
  unfold State.useTable
  split
  · split
    · next p pa size hw => exact absurd hw (h p pa size)
    · rfl
  · rfl

/-- Where the hardware reloads and a mark is missing the entry that the search finds is marked. -/
theorem useTable_marked {s : State} {k mark : Access} {g : MmuConfig} {ea r : Word} {p : BitVec 32} {pa size : Nat}
    (h : g.reload = true ∧ markUsed mark r ≠ r) (hw : walk s k ea = .page p pa size) :
    s.useTable k mark g ea r = s.writeEntry pa (pteUsed s.cfg.pteLayout mark p) := by
  unfold State.useTable
  rw [if_pos (by simpa using h), hw]

/-- The state after an access that marked the page table and replaced an MMU. -/
theorem tableMarked_useTable {mark : Access} {g : MmuConfig} {r : Word} {marks : Prop}
    (hmarks : marks ↔ g.reload = true ∧ markUsed mark r ≠ r) (s : State) (k : Access) (ea : Word) (m : Mmu) (n : Nat) :
    tableMarked s { (s.useTable k mark g ea r).setMmu k m with draws := n } k mark ea marks := by
  rw [hmarks]
  refine ⟨?_, fun hno => ?_, fun hmark p pa size hw => ?_⟩
  · rw [setMmu_eq, useTable_eq]
  · have hsame : s.useTable k mark g ea r = s := by
      rcases hno with hunmarked | hnopage
      · exact useTable_unmarked hunmarked s k ea
      · exact useTable_noPage hnopage mark g r
    rw [hsame]
    refine ⟨memoryKept_of_mem (State.setMmu_mem s k m), ?_⟩
    rw [setMmu_eq]
  · rw [useTable_marked hmark hw]
    generalize hset : s.writeEntry pa (pteUsed s.cfg.pteLayout mark p) = w
    have hread (q : Nat) : readByte ({ w.setMmu k m with draws := n } : State) q = readByte w q :=
      memoryKept_of_mem (State.setMmu_mem w k m) q
    refine ⟨?_, fun q hq => ?_, ?_⟩
    · simp only [readEntry, hread]
      rw [← hset]
      exact readEntry_writeEntry s pa _
    · rw [hread, ← hset, readByte_writeEntry]
      rw [if_neg (by omega), if_neg (by omega), if_neg (by omega), if_neg (by omega)]
    · show (w.setMmu k m).resv = _
      rw [State.setMmu_resv, ← hset, resv_writeEntry]

/-- The state after an access that marked nothing. -/
theorem tableMarked_unmarked (s : State) (k mark : Access) (ea : Word) (n : Nat) {marks : Prop} (h : ¬marks) :
    tableMarked s { s with draws := n } k mark ea marks :=
  ⟨rfl, fun _ => ⟨memoryKept_of_mem rfl, rfl⟩, fun hmark => absurd hmark h⟩

/-! ### An access through an entry -/

theorem markUsed_eq (k : Access) (r : Word) : markUsed k r = r ||| (if k = .store then 0x30#64 else 0x10#64) := by
  cases k <;> rfl

theorem faultExc_eq (k : Access) : faultExc k = if k = .fetch then .insnPageFault else .dataPageFault := by
  cases k <;> rfl

theorem missExc_eq (k : Access) : missExc k = if k = .fetch then .itlbMiss else .dtlbMiss := by
  cases k <;> rfl

theorem permitBit_tlb (j : Nat) (k : Access) (b : Bool) : (Entry.tlb j).permitBit k b = permission true k b := by
  cases k <;> cases b <;> rfl

theorem permitBit_atb (j : Nat) (k : Access) (b : Bool) : (Entry.atb j).permitBit k b = permission false k b := by
  cases k <;> cases b <;> rfl

section
variable {s : State} {k : Access} (g : MmuConfig) (ea : Word) {e : Entry}

/-- An access that the entry permits. -/
theorem translateHit_permitted
    (h : (e.translate (mmuOf s k)).getLsbD (e.permitBit k (srBit s srSM)) = true) :
    translateHit s k g ea e = .ok (e.place s.cfg (mmuOf s k) ea)
      { (s.useTable k k g ea (e.translate (mmuOf s k))).setMmu k (((mmuOf s k).setTranslate e
          (markUsed k (e.translate (mmuOf s k)))).touchLru g (tlbSet g ea) s.draws) with draws := s.draws + 1 } :=
  if_pos h

/-- An access that the entry forbids, where that marks the entry as accessed (`AD_ON_FAULT`). -/
theorem translateHit_forbidden_marked
    (h : (e.translate (mmuOf s k)).getLsbD (e.permitBit k (srBit s srSM)) = false) (ha : s.cfg.adOnFault = true) :
    translateHit s k g ea e = .raise (faultExc k)
      { (s.useTable k .load g ea (e.translate (mmuOf s k))).setMmu k ((mmuOf s k).setTranslate e
          (markUsed .load (e.translate (mmuOf s k)))) with draws := s.draws + 1 } := by
  simp only [translateHit, h, ha, Bool.false_eq_true, if_false, if_true]

/-- An access that the entry forbids, where that marks nothing. -/
theorem translateHit_forbidden
    (h : (e.translate (mmuOf s k)).getLsbD (e.permitBit k (srBit s srSM)) = false) (ha : s.cfg.adOnFault = false) :
    translateHit s k g ea e = .raise (faultExc k) { s with draws := s.draws + 1 } := by
  simp only [translateHit, h, ha, Bool.false_eq_true, if_false]

/-- The only exception of an access through an entry is the page fault. -/
theorem translateHit_raise {x : Exc} {u : State} (h : translateHit s k g ea e = .raise x u) : x = faultExc k := by
  unfold translateHit at h
  simp only at h
  split_ifs at h <;> cases h <;> rfl

/-- An access through an entry does what `goesThrough` says. -/
theorem goesThrough_translateHit {tlb : Bool} {log : Nat}
    (hperm : ∀ b, e.permitBit k b = permission tlb k b) (hlog : e.pageLog (mmuOf s k) = log) :
    goesThrough (translateHit s k g ea e) s k g ea e tlb log := by
  simp only [goesThrough, ← hperm, ← markUsed_eq, ← faultExc_eq]
  subst hlog
  refine ⟨fun hp => ?_, fun hp => ?_⟩
  · exact ⟨_, translateHit_permitted g ea hp, entryHolds_touched (useTable_dmmu s ..) (useTable_immu s ..) ..,
      tableMarked_useTable Iff.rfl ..⟩
  · cases ha : s.cfg.adOnFault with
    | true =>
      exact ⟨_, translateHit_forbidden_marked g ea hp ha,
        entryHolds_untouched (useTable_dmmu s ..) (useTable_immu s ..) ..,
        tableMarked_useTable (and_iff_right rfl) ..⟩
    | false =>
      exact ⟨_, translateHit_forbidden g ea hp ha, entryHolds_refl .., tableMarked_unmarked _ _ _ _ _ (by simp)⟩

end

end Sys2Proof.Machine
end

