-- ==== Sys2Proof/Proofs/Reload.lean ====
section
/-!
PROOFS. Proofs/Reload.lean: the page that hardware reload finds is loaded into an entry that matches, maps and grants as
`entryLoaded` says (for O35).
-/

namespace Sys2Proof.Machine

/-! ### The search of the page tables -/

section
variable {s t : State} (hc : t.cfg = s.cfg) (hm : t.mem = s.mem) (hs : t.sr = s.sr)
include hc hm hs

theorem walkFrom_congr (ea : Word) (fields : List (Nat × Nat)) (level base : Nat) :
    walkFrom t ea level base fields = walkFrom s ea level base fields := by
  have hcontext : context t = context s := by unfold context; rw [hc, hs]
  have hentry : readEntry t = readEntry s := by
    funext pa
    simp only [readEntry, memoryKept_of_mem hm _]
  induction fields generalizing level base with
  | nil => rfl
  | cons field rest ih =>
    obtain ⟨hi, lo⟩ := field
    simp only [walkFrom, hc, hcontext, hentry, ih]

/-- What a search finds depends on the tables, the context and where the search begins. -/
theorem walk_congr {k : Access} (hp : (mmuOf t k).control = (mmuOf s k).control) (ea : Word) :
    walk t k ea = walk s k ea := by
  rw [walk, walk, hp, hc, walkFrom_congr hc hm hs]

end

/-- A search finds a page of a size that one of its levels has. -/
theorem walkFrom_page {s : State} {ea : Word} {p : BitVec 32} {pa log : Nat} {fields : List (Nat × Nat)}
    {level base : Nat} (h : walkFrom s ea level base fields = .page p pa log) : log ∈ fields.map (·.2) := by
  induction fields generalizing level base with
  | nil => cases h
  | cons field rest ih =>
    obtain ⟨hi, lo⟩ := field
    simp only [walkFrom] at h
    split_ifs at h
    · cases h; exact List.mem_cons_self
    · exact List.mem_cons_of_mem _ (ih h)

/-- Pages have 8 Kbyte, 16 Mbyte or, on 64 bits, 32 Gbyte (20 R205, R206). -/
theorem walk_page {s : State} {k : Access} {ea : Word} {p : BitVec 32} {pa log : Nat}
    (h : walk s k ea = .page p pa log) : log = 13 ∨ log = 24 ∨ (log = 35 ∧ s.cfg.xlen = .x64) := by
  have hmem := walkFrom_page h
  cases hx : s.cfg.xlen with
  | x32 =>
    simp only [walkFields, hx, List.map_cons, List.map_nil, List.mem_cons, List.not_mem_nil] at hmem
    tauto
  | x64 =>
    simp only [walkFields, hx, List.map_cons, List.map_nil, List.mem_cons, List.not_mem_nil] at hmem
    tauto

/-! ### Registers made of a page number and low bits -/

theorem getLsbD_eq_decide (r : Word) (n : Nat) : r.getLsbD n = decide (r.toNat / 2 ^ n % 2 = 1) :=
  Nat.testBit_eq_decide_div_mod_eq

theorem toNat_putPage (c : Config) (v shift : Nat) :
    (putPage c v shift).toNat = v * 2 ^ shift % 2 ^ c.xlen.bits := by
  have hdvd : 2 ^ c.xlen.bits ∣ 2 ^ 64 := Nat.pow_dvd_pow 2 (by cases c.xlen <;> decide)
  rw [putPage, narrow_toNat, BitVec.toNat_ofNat, Nat.mod_mod_of_dvd _ hdvd]

/-- A page number and what lies below it do not meet. -/
theorem toNat_page_or {x low : Word} {a q : Nat} (hx : x.toNat = 2 ^ q * a) (hlow : low.toNat < 2 ^ q) :
    (x ||| low).toNat = 2 ^ q * a + low.toNat := by
  rw [BitVec.toNat_or, hx, Nat.two_pow_add_eq_or_of_lt hlow]

/-- Below a page number lie the low bits. -/
theorem getLsbD_page_or {x : Word} {a q : Nat} (hx : x.toNat = 2 ^ q * a) (low : Word) {n : Nat} (hn : n < q) :
    (x ||| low).getLsbD n = low.getLsbD n := by
  have hzero : x.getLsbD n = false := by
    show x.toNat.testBit n = false
    rw [hx, Nat.testBit_two_pow_mul]
    simp [hn]
  rw [BitVec.getLsbD_or, hzero, Bool.false_or]

/-- The page numbers of match registers fit. -/
theorem vaBits_add_matchShift_le {c : Config} (h : c.wf = true) : vaBits c + matchShift c ≤ c.xlen.bits := by
  simp only [Config.wf, Bool.and_eq_true, decide_eq_true_eq] at h
  unfold vaBits matchShift
  cases hx : c.xlen <;> simp only [Xlen.bits] <;> omega

/-- The page numbers of translate registers fit, but for what lies beyond the width. -/
theorem shifted_mod {c : Config} (h : c.wf = true) {v : Nat} (hv : v < 2 ^ 35) :
    v * 2 ^ translateShift c % 2 ^ c.xlen.bits = v % 2 ^ c.xlen.bits * 2 ^ translateShift c := by
  simp only [Config.wf, Bool.and_eq_true, decide_eq_true_eq] at h
  unfold translateShift
  cases hx : c.xlen with
  | x32 => simp
  | x64 =>
    have hshift : 2 ^ c.mmu64.translateShift ≤ 2 ^ 29 := Nat.pow_le_pow_right (by decide) (by omega)
    have hfits : v * 2 ^ c.mmu64.translateShift < 2 ^ 64 := by
      calc v * 2 ^ c.mmu64.translateShift ≤ v * 2 ^ 29 := Nat.mul_le_mul_left v hshift
        _ < 2 ^ 64 := by omega
    simp only [Xlen.bits]
    rw [Nat.mod_eq_of_lt hfits, Nat.mod_eq_of_lt (by omega)]

/-- A match register made for an address: its page number is the address's, above its low bits. -/
theorem matchRegister {c : Config} (h : c.wf = true) (ea : Word) {lo : Nat} (hlo : lo ≤ vaBits c) {low : Word}
    (hlow : low.toNat < 2 ^ lo) :
    (∃ a, (putPage c (slice ea (vaBits c) lo * 2 ^ lo) (matchShift c) ||| low).toNat = 2 ^ lo * a + low.toNat) ∧
      pageMatches c (putPage c (slice ea (vaBits c) lo * 2 ^ lo) (matchShift c) ||| low) ea lo = true := by
  have hfit := vaBits_add_matchShift_le h
  generalize hp : slice ea (vaBits c) lo = page
  generalize hsh : matchShift c = shift at hfit ⊢
  have hpage : page < 2 ^ (vaBits c - lo) := by
    rw [← hp, slice]
    refine Nat.div_lt_of_lt_mul ?_
    rw [← pow_add, Nat.add_sub_cancel' hlo]
    exact Nat.mod_lt _ (by positivity)
  have hlt : 2 ^ (lo + shift) * page + low.toNat < 2 ^ (vaBits c + shift) := by
    have hle : low.toNat < 2 ^ (lo + shift) := lt_of_lt_of_le hlow (Nat.pow_le_pow_right (by decide) (by omega))
    calc 2 ^ (lo + shift) * page + low.toNat < 2 ^ (lo + shift) * (page + 1) := by rw [mul_add]; omega
      _ ≤ 2 ^ (lo + shift) * 2 ^ (vaBits c - lo) := Nat.mul_le_mul_left _ hpage
      _ = 2 ^ (vaBits c + shift) := by rw [← pow_add]; congr 1; omega
  have hput : (putPage c (page * 2 ^ lo) shift).toNat = 2 ^ (lo + shift) * page := by
    rw [toNat_putPage, mul_assoc, ← pow_add, mul_comm]
    exact Nat.mod_eq_of_lt (lt_of_lt_of_le (by omega) (Nat.pow_le_pow_right (by decide) hfit))
  have hsplit : 2 ^ (lo + shift) * page = 2 ^ lo * (2 ^ shift * page) := by rw [pow_add, mul_assoc]
  have hreg := toNat_page_or (hput.trans hsplit) hlow
  refine ⟨⟨_, hreg⟩, ?_⟩
  rw [← hsplit] at hreg
  rw [pageMatches, hp, beq_iff_eq, slice, hsh, hreg, Nat.mod_eq_of_lt hlt, Nat.mul_add_div (by positivity)]
  rw [Nat.div_eq_of_lt (lt_of_lt_of_le hlow (Nat.pow_le_pow_right (by decide) (by omega))), Nat.add_zero]

/-- A translate register made for a frame: the page number a translation takes from it, and its low bits. -/
theorem translateRegister {c : Config} (h : c.wf = true) {v q : Nat} (hv : v < 2 ^ 35) (hdvd : 2 ^ q ∣ v) (h10 : 10 ≤ q)
    (hq : q ≤ c.xlen.bits) {low : Word} (hlow : low.toNat < 2 ^ 10) :
    (putPage c v (translateShift c) ||| low).toNat / 2 ^ (q + translateShift c) * 2 ^ q = v % 2 ^ c.xlen.bits ∧
      ∀ n, n < 10 → (putPage c v (translateShift c) ||| low).getLsbD n = low.getLsbD n := by
  obtain ⟨a, ha⟩ := (Nat.dvd_mod_iff (Nat.pow_dvd_pow 2 hq)).2 hdvd
  generalize hsh : translateShift c = shift
  have hput : (putPage c v shift).toNat = 2 ^ (q + shift) * a := by
    rw [toNat_putPage, ← hsh, shifted_mod h hv, ha, pow_add]
    ring
  have hsmall : low.toNat < 2 ^ (q + shift) := lt_of_lt_of_le hlow (Nat.pow_le_pow_right (by decide) (by omega))
  refine ⟨?_, fun n hn => getLsbD_page_or hput low (by omega)⟩
  rw [toNat_page_or hput hsmall, Nat.mul_add_div (by positivity), Nat.div_eq_of_lt hsmall, ha, Nat.add_zero, mul_comm]

/-! ### The low bits of a loaded translate register -/

theorem getLsbD_bitAt (b : Bool) {i : Nat} (hi : i < 64) (n : Nat) :
    (if b = true then 1#64 <<< i else 0#64).getLsbD n = (b && decide (n = i)) := by
  cases b with
  | false => simp
  | true =>
    by_cases hn : n = i
    · simp [hn, hi]
    · simp only [if_true, BitVec.getLsbD_shiftLeft, BitVec.getLsbD_one, Bool.true_and, decide_eq_false hn]
      by_cases hlt : n < i
      · simp [hlt]
      · simp [show n - i ≠ 0 by omega]

/-- The attributes and marks of a page table entry, in bits 5 to 0. -/
theorem getLsbD_pteLowBits (l : PteLayout) (p : BitVec 32) (n : Nat) : (pteLowBits l p).getLsbD n =
    (p.getLsbD l.dirty && decide (n = 5) || p.getLsbD l.accessed && decide (n = 4) ||
      p.getLsbD l.wom && decide (n = 3) || p.getLsbD l.wbc && decide (n = 2) ||
      p.getLsbD l.ci && decide (n = 1) || p.getLsbD l.cc && decide (n = 0)) := by
  simp only [pteLowBits, BitVec.getLsbD_or, getLsbD_bitAt, Nat.reduceLT]

section
variable {e : Entry} {tlb : Bool} (hperm : ∀ k b, e.permitBit k b = permission tlb k b) (v : BitVec 32) (x : Nat)
include hperm

/-- The protection bits of a loaded entry for instructions. -/
theorem getLsbD_protection_fetch (n : Nat) : (e.protection .fetch v x).getLsbD n =
    (v.getLsbD (2 * (x - 1)) && decide (n = 6) || v.getLsbD (2 * (x - 1) + 1) && decide (n = 7)) := by
  simp only [Entry.protection, hperm, permission, BitVec.getLsbD_or, getLsbD_bitAt, Nat.reduceLT]

/-- The protection bits of a loaded entry for data. -/
theorem getLsbD_protection_data {k : Access} (hk : k ≠ .fetch) (n : Nat) : (e.protection k v x).getLsbD n =
    (v.getLsbD (4 * (x - 1)) && decide (n = permission tlb .load true) ||
      v.getLsbD (4 * (x - 1) + 1) && decide (n = permission tlb .store true) ||
      v.getLsbD (4 * (x - 1) + 2) && decide (n = permission tlb .load false) ||
      v.getLsbD (4 * (x - 1) + 3) && decide (n = permission tlb .store false)) := by
  have hlt (k : Access) (b : Bool) : permission tlb k b < 64 := by cases tlb <;> cases k <;> cases b <;> decide
  cases k with
  | fetch => exact absurd rfl hk
  | load | store => simp [Entry.protection, hperm, getLsbD_bitAt, hlt]

/-- The low bits of a loaded translate register lie below its page number. -/
theorem toNat_lowBits_lt (k : Access) (l : PteLayout) (p : BitVec 32) :
    (e.protection k v x ||| pteLowBits l p).toNat < 2 ^ 10 := by
  refine Nat.lt_pow_two_of_testBit _ fun n hn => ?_
  show (e.protection k v x ||| pteLowBits l p).getLsbD n = false
  have hlt (k : Access) (b : Bool) : n ≠ permission tlb k b := by
    cases tlb <;> cases k <;> cases b <;> simp only [permission] <;> omega
  have hpte : (pteLowBits l p).getLsbD n = false := by
    rw [getLsbD_pteLowBits]
    simp [show n ≠ 5 by omega, show n ≠ 4 by omega, show n ≠ 3 by omega, show n ≠ 2 by omega, show n ≠ 1 by omega,
      show n ≠ 0 by omega]
  rw [BitVec.getLsbD_or, hpte, Bool.or_false]
  by_cases hk : k = .fetch
  · subst hk
    rw [getLsbD_protection_fetch hperm]
    simp [show n ≠ 6 by omega, show n ≠ 7 by omega]
  · rw [getLsbD_protection_data hperm v x hk]
    simp [hlt]

/-- What a loaded translate register grants, marks and says of its page. -/
theorem lowBits_spec (k : Access) (l : PteLayout) (p : BitVec 32) {r : Word}
    (hr : ∀ n, n < 10 → r.getLsbD n = (e.protection k v x ||| pteLowBits l p).getLsbD n) :
    (if k = .fetch then
        r.getLsbD 6 = v.getLsbD (2 * (x - 1)) ∧ r.getLsbD 7 = v.getLsbD (2 * (x - 1) + 1)
      else
        r.getLsbD (permission tlb .load true) = v.getLsbD (4 * (x - 1)) ∧
        r.getLsbD (permission tlb .store true) = v.getLsbD (4 * (x - 1) + 1) ∧
        r.getLsbD (permission tlb .load false) = v.getLsbD (4 * (x - 1) + 2) ∧
        r.getLsbD (permission tlb .store false) = v.getLsbD (4 * (x - 1) + 3)) ∧
      r.getLsbD 5 = p.getLsbD l.dirty ∧ r.getLsbD 4 = p.getLsbD l.accessed ∧ r.getLsbD 3 = p.getLsbD l.wom ∧
      r.getLsbD 2 = p.getLsbD l.wbc ∧ r.getLsbD 1 = p.getLsbD l.ci ∧ r.getLsbD 0 = p.getLsbD l.cc := by
  by_cases hk : k = .fetch
  · subst hk
    simp only [hr, Nat.reduceLT, BitVec.getLsbD_or, getLsbD_protection_fetch hperm, getLsbD_pteLowBits]
    simp
  · rw [if_neg hk]
    cases tlb <;> simp only [permission, hr, Nat.reduceLT, BitVec.getLsbD_or, getLsbD_protection_data hperm v x hk,
      getLsbD_pteLowBits] <;> simp

end

/-! ### The loaded entry -/

theorem context_lt_16 (s : State) : context s < 16 := by
  unfold context
  split
  · decide
  · exact BitVec.isLt _

theorem tlbHit_congr {s t : State} (hc : t.cfg = s.cfg) (hx : context t = context s) (m : Mmu) (ea : Word) (n y : Nat) :
    tlbHit t m ea n y = tlbHit s m ea n y := by
  simp only [tlbHit, cidMatches, hc, hx]

theorem atbHit_congr {s t : State} (hc : t.cfg = s.cfg) (hx : context t = context s) (m : Mmu) (ea : Word) (j : Nat) :
    atbHit t m ea j = atbHit s m ea j := by
  simp only [atbHit, cidMatches, hc, hx]

/-- The frame of a page is a multiple of its size. -/
theorem dvd_pageFrame (l : PteLayout) (p : BitVec 32) (log : Nat) : 2 ^ log ∣ pageFrame l p log := Dvd.intro_left _ rfl

theorem pageFrame_lt (l : PteLayout) (p : BitVec 32) (log : Nat) : pageFrame l p log < 2 ^ 35 := by
  have hframe : pteFrame l p < 2 ^ 22 := BitVec.isLt _
  exact lt_of_le_of_lt (Nat.div_mul_le_self _ _) (by omega)

section
variable {s : State} {ea : Word} {log : Nat} (hwf : s.cfg.wf = true) (m : Mmu) (k : Access) (p : BitVec 32)
include hwf

/-- A page loaded into a way of the TLB matches the address it was loaded for. -/
theorem tlbHit_load (y n : Nat) : tlbHit s (m.load s k ea p log (.tlb (tlbIndex y n))) ea n y = true := by
  have hcontext := context_lt_16 s
  have hlow : (BitVec.ofNat 64 (4 * context s + 1)).toNat = 4 * context s + 1 := by
    rw [BitVec.toNat_ofNat]; omega
  have hva : 13 ≤ vaBits s.cfg := by unfold vaBits; split <;> decide
  obtain ⟨⟨a, hreg⟩, hpage⟩ := matchRegister hwf ea hva (low := BitVec.ofNat 64 (4 * context s + 1)) (by omega)
  simp only [tlbHit, Mmu.load, Table.read_write_same, hpage, getLsbD_eq_decide, slice_eq _ 2 4, hreg, hlow]
  simp [cidMatches]
  omega

/-- A page loaded into an entry of the ATB matches the address it was loaded for, with the page's own size. -/
theorem atbHit_load (hlog : log = 24 ∨ (log = 35 ∧ s.cfg.xlen = .x64)) (j : Nat) :
    atbHit s (m.load s k ea p log (.atb j)) ea j = true ∧
      (Table.read (m.load s k ea p log (.atb j)).atbMr j).getLsbD 5 = decide (log = 35) := by
  have hcontext := context_lt_16 s
  have hlow : (BitVec.ofNat 64 ((if log = 35 then 32 else 0) + 2 * context s + 1)).toNat =
      (if log = 35 then 32 else 0) + 2 * context s + 1 := by
    rw [BitVec.toNat_ofNat]; split <;> omega
  have hva : log ≤ vaBits s.cfg := by
    unfold vaBits
    rcases hlog with rfl | ⟨rfl, hx⟩
    · split <;> decide
    · rw [hx]; decide
  obtain ⟨⟨a, hreg⟩, hpage⟩ := matchRegister hwf ea hva
    (low := BitVec.ofNat 64 ((if log = 35 then 32 else 0) + 2 * context s + 1)) (by
      rw [hlow]
      rcases hlog with rfl | ⟨rfl, -⟩ <;> simp <;> omega)
  have hbits : (Table.read (m.load s k ea p log (.atb j)).atbMr j).getLsbD 5 = decide (log = 35) ∧
      (Table.read (m.load s k ea p log (.atb j)).atbMr j).getLsbD 0 = true ∧
      slice (Table.read (m.load s k ea p log (.atb j)).atbMr j) 5 1 = context s := by
    simp only [Mmu.load, Table.read_write_same, getLsbD_eq_decide, slice_eq _ 1 4, hreg, hlow]
    rcases hlog with rfl | ⟨rfl, -⟩ <;> simp <;> omega
  obtain ⟨h5, h0, hcid⟩ := hbits
  have hsize : atbPageLog (Table.read (m.load s k ea p log (.atb j)).atbMr j) = log := by
    rw [atbPageLog, h5]
    rcases hlog with rfl | ⟨rfl, -⟩ <;> rfl
  refine ⟨?_, h5⟩
  have hps : (decide (log = 35) && decide (s.cfg.xlen = .x32)) = false := by
    rcases hlog with rfl | ⟨rfl, hx⟩
    · rfl
    · rw [hx]; rfl
  simp only [atbHit, h5, h0, hcid, hsize, hps]
  simp only [Mmu.load, Table.read_write_same, hpage]
  simp [cidMatches]

end

/-- The state in which the page that the entry `p` of the page tables describes is loaded into `e`. -/
def loadedState (s : State) (k : Access) (ea : Word) (p : BitVec 32) (log : Nat) (e : Entry) : State :=
  { s.setMmu k ((mmuOf s k).load s k ea p log e) with draws := s.draws + 1 }

section
variable (s : State) (k : Access) (ea : Word) (p : BitVec 32) (log : Nat) (e : Entry)

theorem mmuOf_loadedState : mmuOf (loadedState s k ea p log e) k = (mmuOf s k).load s k ea p log e :=
  mmuOf_setMmu ..

theorem loadedState_eq : loadedState s k ea p log e =
    { s with dmmu := (loadedState s k ea p log e).dmmu, immu := (loadedState s k ea p log e).immu
             draws := (loadedState s k ea p log e).draws } := by
  unfold loadedState
  rw [setMmu_eq]

theorem loadedState_cfg : (loadedState s k ea p log e).cfg = s.cfg := by rw [loadedState_eq]

theorem loadedState_sr : (loadedState s k ea p log e).sr = s.sr := by rw [loadedState_eq]

theorem loadedState_mem : (loadedState s k ea p log e).mem = s.mem := by rw [loadedState_eq]

theorem context_loadedState : context (loadedState s k ea p log e) = context s := by
  unfold context
  rw [loadedState_cfg, loadedState_sr]

/-- Loading a page changes nothing that a search of the page tables depends on. -/
theorem walk_loadedState : walk (loadedState s k ea p log e) k ea = walk s k ea := by
  refine walk_congr (loadedState_cfg ..) (loadedState_mem ..) (loadedState_sr ..) ?_ ea
  rw [mmuOf_loadedState]
  cases e <;> rfl

end

section
variable {s : State} {k : Access} {g : MmuConfig} {ea : Word} {p : BitVec 32} {log : Nat} (hwf : s.cfg.wf = true)
include hwf

/-- A loaded entry is as `entryLoaded` says, where it matches, and where the frame `v` that its translate register was
made for gives the page's place. -/
theorem entryLoaded_loadedState {e : Entry} {tlb : Bool} {v : Nat} (hperm : ∀ k b, e.permitBit k b = permission tlb k b)
    (hhit : if tlb then ∃ y : Nat, y < g.ways ∧ e = .tlb (256 * y + tlbSet g ea) ∧
        tlbHit s ((mmuOf s k).load s k ea p log e) ea (tlbSet g ea) y = true
      else ∃ j : Nat, j < g.atbs ∧ e = .atb j ∧ atbHit s ((mmuOf s k).load s k ea p log e) ea j = true ∧
        (Table.read ((mmuOf s k).load s k ea p log e).atbMr j).getLsbD 5 = decide (log = 35))
    (hr : e.translate ((mmuOf s k).load s k ea p log e) = putPage s.cfg v (translateShift s.cfg) |||
      (e.protection k (mmuOf s k).protect (pteGroup s.cfg.pteLayout p) ||| pteLowBits s.cfg.pteLayout p))
    (hv : v < 2 ^ 35) (hdvd : 2 ^ (if tlb then 13 else log) ∣ v) (h10 : 10 ≤ if tlb then 13 else log)
    (hbits : (if tlb then 13 else log) ≤ s.cfg.xlen.bits)
    (hsum : v % 2 ^ s.cfg.xlen.bits + ea.toNat % 2 ^ (if tlb then 13 else log) =
      pageFrame s.cfg.pteLayout p log % 2 ^ s.cfg.xlen.bits + ea.toNat % 2 ^ log) :
    entryLoaded s (loadedState s k ea p log e) k g ea p log e tlb := by
  obtain ⟨hpage, hlow⟩ := translateRegister hwf hv hdvd h10 hbits
    (toNat_lowBits_lt hperm (mmuOf s k).protect (pteGroup s.cfg.pteLayout p) k s.cfg.pteLayout p)
  rw [← hr] at hpage hlow
  obtain ⟨hprot, h5, h4, h3, h2, h1, h0⟩ := lowBits_spec hperm _ _ k _ p hlow
  have hmmu := mmuOf_loadedState s k ea p log e
  unfold entryLoaded
  simp only [hmmu, tlbHit_congr (loadedState_cfg s k ea p log e) (context_loadedState ..),
    atbHit_congr (loadedState_cfg s k ea p log e) (context_loadedState ..)]
  refine ⟨hhit, ?_, hprot, h5, h4, h3, h2, h1, h0, fun j hj => ?_, fun j hj => ?_, ?_, loadedState_eq ..,
    otherMmu_setMmu k _ _ rfl rfl⟩
  · rw [hpage]
    exact hsum
  · cases e with
    | tlb i =>
      have hne : j ≠ i := fun h => hj (h ▸ rfl)
      simp [Mmu.load, Table.read_write_other _ _ hne]
    | atb i => exact ⟨rfl, rfl⟩
  · cases e with
    | tlb i => exact ⟨rfl, rfl⟩
    | atb i =>
      have hne : j ≠ i := fun h => hj (h ▸ rfl)
      simp [Mmu.load, Table.read_write_other _ _ hne]
  · cases e <;> rfl

/-- A page loaded into a way of the TLB: the 8 Kbyte around the address. -/
theorem entryLoaded_tlb (hlog : log = 13 ∨ log = 24 ∨ (log = 35 ∧ s.cfg.xlen = .x64)) {y : Nat} (hy : y < g.ways) :
    entryLoaded s (loadedState s k ea p log (.tlb (tlbIndex y (tlbSet g ea)))) k g ea p log
      (.tlb (tlbIndex y (tlbSet g ea))) true := by
  have hframe : pteFrame s.cfg.pteLayout p < 2 ^ 22 := BitVec.isLt _
  refine entryLoaded_loadedState hwf (v := pageFrame s.cfg.pteLayout p log + slice ea log 13 * 2 ^ 13)
    (permitBit_tlb _) ⟨y, hy, rfl, tlbHit_load hwf _ k p y _⟩ (by simp [Entry.translate, Mmu.load]) ?_ ?_ (by simp)
    (by cases s.cfg.xlen <;> simp [Xlen.bits]) ?_
  all_goals simp only [pageFrame, slice, if_true]
  · rcases hlog with rfl | rfl | ⟨rfl, -⟩ <;> omega
  · rcases hlog with rfl | rfl | ⟨rfl, -⟩ <;> omega
  · rcases hlog with rfl | rfl | ⟨rfl, hx⟩
    · cases s.cfg.xlen <;> simp only [Xlen.bits] <;> omega
    · cases s.cfg.xlen <;> simp only [Xlen.bits] <;> omega
    · simp only [hx, Xlen.bits]; omega

/-- A page loaded into an entry of the ATB, which has the page's size. -/
theorem entryLoaded_atb (hlog : log = 24 ∨ (log = 35 ∧ s.cfg.xlen = .x64)) {j : Nat} (hj : j < g.atbs) :
    entryLoaded s (loadedState s k ea p log (.atb j)) k g ea p log (.atb j) false := by
  obtain ⟨hhit, h5⟩ := atbHit_load (ea := ea) hwf (mmuOf s k) k p hlog j
  have hbits : log ≤ s.cfg.xlen.bits := by
    rcases hlog with rfl | ⟨rfl, hx⟩
    · cases s.cfg.xlen <;> decide
    · rw [hx]; decide
  exact entryLoaded_loadedState hwf (v := pageFrame s.cfg.pteLayout p log) (permitBit_atb _) ⟨j, hj, rfl, hhit, h5⟩
    (by simp [Entry.translate, Mmu.load]) (pageFrame_lt ..) (dvd_pageFrame ..)
    (by rcases hlog with rfl | ⟨rfl, -⟩ <;> decide) hbits rfl

end

/-! ### Hardware reload -/

/-- An MMU that the spec admits has a way. -/
theorem ways_pos {c : Config} (h : c.wf = true) {k : Access} {g : MmuConfig} (hg : mmuConfig c k = some g) :
    0 < g.ways := by
  simp only [Config.wf, Bool.and_eq_true] at h
  cases k <;> simp only [mmuConfig] at hg <;> simp only [hg, decide_eq_true_eq] at h <;> omega

/-- The entry that receives a page: a way of the address's set, or for a larger page an entry of the ATB. -/
theorem reloadEntry_cases (s : State) {g : MmuConfig} (hways : 0 < g.ways) (ea : Word) (log : Nat) :
    (∃ y, y < g.ways ∧ reloadEntry s g ea log = .tlb (tlbIndex y (tlbSet g ea))) ∨
      (log ≠ 13 ∧ ∃ j, j < g.atbs ∧ reloadEntry s g ea log = .atb j) := by
  unfold reloadEntry
  have hlt : Config.freeWay s.draws % (g.ways + if log = 13 then 0 else g.atbs) <
      g.ways + if log = 13 then 0 else g.atbs := Nat.mod_lt _ (by omega)
  generalize Config.freeWay s.draws % (g.ways + if log = 13 then 0 else g.atbs) = choice at hlt ⊢
  by_cases hchoice : choice < g.ways
  · exact .inl ⟨choice, hchoice, by simp [hchoice]⟩
  · have hlog : log ≠ 13 := by
      rintro rfl
      simp at hlt
      omega
    rw [if_neg hlog] at hlt
    exact .inr ⟨hlog, choice - g.ways, by omega, by simp [hchoice]⟩

section
variable {s : State} {k : Access} {g : MmuConfig} {ea : Word}

theorem reload_invalid (h : walk s k ea = .invalid) : reload s k g ea = .raise (faultExc k) s := by
  simp only [reload, h]

theorem reload_unanswered (h : walk s k ea = .unanswered) : reload s k g ea = .raise .busError s := by
  simp only [reload, h]

theorem reload_page {p : BitVec 32} {pa log : Nat} (h : walk s k ea = .page p pa log) :
    reload s k g ea =
      translateHit (loadedState s k ea p log (reloadEntry s g ea log)) k g ea (reloadEntry s g ea log) := by
  simp only [reload, h, loadedState]

/-- Hardware reload raises no miss: what it raises is the page fault or the bus error of the search. -/
theorem reload_raise {x : Exc} {u : State} (h : reload s k g ea = .raise x u) : x = faultExc k ∨ x = .busError := by
  cases hw : walk s k ea with
  | page p pa log => rw [reload_page hw] at h; exact .inl (translateHit_raise g ea h)
  | invalid => rw [reload_invalid hw] at h; cases h; exact .inl rfl
  | unanswered => rw [reload_unanswered hw] at h; cases h; exact .inr rfl

/-- A matching way of the TLB has a page of 8 Kbyte. -/
theorem pageLog_of_tlbHit {m : Mmu} {n y : Nat} (h : tlbHit s m ea n y = true) :
    (Entry.tlb (256 * y + n)).pageLog m = 13 := by
  simp only [tlbHit, tlbIndex, Bool.and_eq_true, Bool.not_eq_true'] at h
  obtain ⟨⟨⟨-, hlevel⟩, -⟩, -⟩ := h
  simp only [Entry.pageLog, hlevel, Bool.false_eq_true, if_false]

/-- A way of the TLB that claims its address at level 1 has a page of 16 Mbyte. -/
theorem pageLog_of_tlbHitLevel1 {m : Mmu} {n y : Nat} (h : tlbHitLevel1 s m ea n y = true) :
    (Entry.tlb (256 * y + n)).pageLog m = 24 := by
  simp only [tlbHitLevel1, tlbIndex, Bool.and_eq_true] at h
  obtain ⟨⟨⟨-, hlevel⟩, -⟩, -⟩ := h
  simp only [Entry.pageLog, hlevel, if_true]

/-- Where the search finds a page, an entry receives it and the access goes through that. -/
theorem reload_goesThrough (hwf : s.cfg.wf = true) (hg : mmuConfig s.cfg k = some g) {p : BitVec 32} {pa log : Nat}
    (hw : walk s k ea = .page p pa log) :
    ∃ (e : Entry) (way : Bool) (t : State), (way = false → log ≠ 13) ∧ entryLoaded s t k g ea p log e way ∧
      walk t k ea = .page p pa log ∧ goesThrough (reload s k g ea) t k g ea e way (if way then 13 else log) := by
  rw [reload_page hw]
  have hlog := walk_page hw
  rcases reloadEntry_cases s (ways_pos hwf hg) ea log with ⟨y, hy, he⟩ | ⟨h13, j, hj, he⟩
  · rw [he]
    refine ⟨_, true, _, nofun, entryLoaded_tlb hwf hlog hy, (walk_loadedState ..).trans hw,
      goesThrough_translateHit g ea (permitBit_tlb _ k) ?_⟩
    rw [mmuOf_loadedState]
    exact pageLog_of_tlbHit (tlbHit_load hwf (mmuOf s k) k p y (tlbSet g ea))
  · have hlog := hlog.resolve_left h13
    rw [he]
    refine ⟨_, false, _, fun _ => h13, entryLoaded_atb hwf hlog hj, (walk_loadedState ..).trans hw,
      goesThrough_translateHit g ea (permitBit_atb _ k) ?_⟩
    obtain ⟨-, h5⟩ := atbHit_load (ea := ea) hwf (mmuOf s k) k p hlog j
    rw [mmuOf_loadedState, Entry.pageLog, atbPageLog, h5]
    rcases hlog with rfl | ⟨rfl, -⟩ <;> rfl

end

end Sys2Proof.Machine
end

