-- ==== Sys2Proof/Proofs/Translation.lean ====
section
/-!
PROOFS. Proofs/Translation.lean: the translation procedure, case by case of what its lookup finds (O35).
-/

namespace Sys2Proof.Machine

section
variable {s : State} {k : Access} {g : MmuConfig} (ht : translates s k = true) (hg : mmuConfig s.cfg k = some g)
  (ea : Word)
include ht hg

/-- A way of the TLB that matches, at either level, serves as one of a page of its level's size. -/
theorem translate_tlb
    (hp : s.cfg.tlbPl1 = .refuse → ¬∃ y, y < g.ways ∧ tlbHitLevel1 s (mmuOf s k) ea (tlbSet g ea) y = true)
    (h : ∃ y, y < g.ways ∧ tlbClaims s (mmuOf s k) ea (tlbSet g ea) y = true) :
    ∃ y, y < g.ways ∧
      ((tlbHitLevel1 s (mmuOf s k) ea (tlbSet g ea) y = true ∧
          goesThrough (translate s k ea) s k g ea (.tlb (256 * y + tlbSet g ea)) true 24) ∨
        (tlbHit s (mmuOf s k) ea (tlbSet g ea) y = true ∧
          goesThrough (translate s k ea) s k g ea (.tlb (256 * y + tlbSet g ea)) true 13)) := by
  obtain ⟨y, hy, hclaim, hlookup⟩ := lookup_tlb hp h
  rw [translate_hit ht hg hlookup]
  refine ⟨y, hy, ?_⟩
  rcases Bool.or_eq_true_iff.1 hclaim with hhit | hhit
  · exact .inr ⟨hhit, goesThrough_translateHit g ea (permitBit_tlb _ k) (pageLog_of_tlbHit hhit)⟩
  · exact .inl ⟨hhit, goesThrough_translateHit g ea (permitBit_tlb _ k) (pageLog_of_tlbHitLevel1 hhit)⟩

/-- Where no way of the TLB serves, an entry of the ATB that matches does. -/
theorem translate_atb (h : ¬∃ y, y < g.ways ∧ tlbClaims s (mmuOf s k) ea (tlbSet g ea) y = true)
    (ha : ∃ j, j < g.atbs ∧ atbHit s (mmuOf s k) ea j = true) :
    ∃ j, j < g.atbs ∧ atbHit s (mmuOf s k) ea j = true ∧ goesThrough (translate s k ea) s k g ea (.atb j) false
      (if (Table.read (mmuOf s k).atbMr j).getLsbD 5 then 35 else 24) := by
  obtain ⟨j, hj, hhit, hlookup⟩ := lookup_atb h ha
  rw [translate_hit ht hg hlookup]
  exact ⟨j, hj, hhit, goesThrough_translateHit g ea (permitBit_atb _ k) rfl⟩

end

/-- Either level of match is a claim. -/
theorem exists_tlbClaims_iff (s : State) (g : MmuConfig) (m : Mmu) (ea : Word) (n : Nat) :
    (∃ y, y < g.ways ∧ tlbClaims s m ea n y = true) ↔
      (∃ y, y < g.ways ∧ tlbHitLevel1 s m ea n y = true) ∨ ∃ y, y < g.ways ∧ tlbHit s m ea n y = true := by
  simp only [tlbClaims, Bool.or_eq_true]
  constructor
  · rintro ⟨y, hy, hhit | hhit⟩
    · exact .inr ⟨y, hy, hhit⟩
    · exact .inl ⟨y, hy, hhit⟩
  · rintro (⟨y, hy, hhit⟩ | ⟨y, hy, hhit⟩)
    · exact ⟨y, hy, .inr hhit⟩
    · exact ⟨y, hy, .inl hhit⟩

/-- A counted miss, as the statement writes it. -/
theorem countMiss_eq (s : State) (k : Access) : s.countMiss k = { s with
    dtlbMisses := s.dtlbMisses + if k = .fetch then 0 else 1
    itlbMisses := s.itlbMisses + if k = .fetch then 1 else 0 } := by
  cases k <;> rfl

/-- Counting a miss changes nothing that a search of the page tables depends on. -/
theorem walk_countMiss (s : State) (k : Access) (ea : Word) : walk (s.countMiss k) k ea = walk s k ea :=
  walk_congr (State.countMiss_cfg s k) (State.countMiss_mem s k) (State.countMiss_sr s k) (by cases k <;> rfl) ea

/-- Settles O35: the lookup finds a level-1 entry, a way of the TLB, an entry of the ATB or nothing. -/
theorem tlbTranslation : Obligations.TlbTranslation := by
  intro s k g ea hg ht m n level1 tlb atb
  have hclaims := exists_tlbClaims_iff s g m ea n
  refine ⟨rfl, fun hx j => ⟨tlbHit_iff_x32 hx m ea n j, atbHit_iff_x32 hx m ea j⟩, ?refused, ?large, ?either, ?way,
    ?atb, ?miss⟩
  case refused =>
    rintro ⟨y, hy, hhit⟩ hpolicy
    exact translate_level1 ht hg (lookup_level1 hy hhit hpolicy)
  case large =>
    intro hlevel1 htlb hpolicy
    obtain ⟨y, hy, hthrough | ⟨hhit, -⟩⟩ :=
      translate_tlb ht hg ea (by rw [hpolicy]; nofun) (hclaims.2 (.inl hlevel1))
    · exact ⟨y, hy, hthrough⟩
    · exact absurd ⟨y, hy, hhit⟩ htlb
  case either =>
    intro hlevel1 _ hpolicy
    exact translate_tlb ht hg ea (by rw [hpolicy]; nofun) (hclaims.2 (.inl hlevel1))
  case way =>
    intro hlevel1 htlb
    obtain ⟨y, hy, ⟨hhit, -⟩ | hthrough⟩ := translate_tlb ht hg ea (fun _ => hlevel1) (hclaims.2 (.inr htlb))
    · exact absurd ⟨y, hy, hhit⟩ hlevel1
    · exact ⟨y, hy, hthrough⟩
  case atb =>
    intro hlevel1 htlb hatb
    exact translate_atb ht hg ea (fun h => (hclaims.1 h).elim hlevel1 htlb) hatb
  case miss =>
    intro hlevel1 htlb hatb
    have hlookup := lookup_miss (fun h => (hclaims.1 h).elim hlevel1 htlb) hatb
    intro fault counted
    have hcounted : s.countMiss k = counted := countMiss_eq s k
    have hfault : faultExc k = fault := faultExc_eq k
    have hwalk : walk counted k ea = walk s k ea := by rw [← hcounted, walk_countMiss]
    refine ⟨fun hr => ?_, fun hr => ?_⟩
    · rw [translate_miss ht hg hlookup hr, missExc_eq, hcounted]
    · rw [translate_reload ht hg hlookup hr, hcounted, ← hfault]
      exact ⟨fun hw => reload_invalid (hwalk.trans hw), fun hw => reload_unanswered (hwalk.trans hw),
        fun hwf p pa log hw => reload_goesThrough (s := counted) hwf hg (hwalk.trans hw), fun e u => reload_raise⟩

end Sys2Proof.Machine
end

