-- ==== Sys2Proof/Proofs/Encoding.lean ====
section
/-!
PROOFS. Proofs/Encoding.lean: decoding undoes encoding (O1, O3), and encoding what was decoded adds no bit to the word
(O2).
-/

namespace Sys2Proof

/-! ### Decoding what was encoded -/

open Laws.Encoded in
/-- Every instruction comes back from the pieces it is encoded in: one case per constructor of the instruction set, in
its order, each the law of that instruction. -/
theorem decodeFields_fields (i : Instr) : decodeFields i.fields = .ok i :=
  @Instr.casesOn Statement i
    lAdd lAddc lAddi lAddic lSub lAnd lAndi lOr lOri lXor lXori lSll lSlli lSrl lSrli lSra lSrai lRor lRori lCmov lFf1
    lFl1 lMovhi lMul lMulu lMuli lDiv lDivu lExths lExtbs lExthz lExtbz lExtws lExtwz lSfeq lSfne lSfgtu lSfgeu lSfltu
    lSfleu lSfgts lSfges lSflts lSfles lSfeqi lSfnei lSfgtui lSfgeui lSfltui lSfleui lSfgtsi lSfgesi lSfltsi lSflesi
    lLd lLwz lLws lLbz lLbs lLhz lLhs lLwa lSd lSw lSb lSh lSwa lBf lBnf lJ lJal lJr lJalr lRfe lMac lMaci lMsb lMacu
    lMsbu lMacrc lMuld lMuldu lMfspr lMtspr lSys lTrap lNop lCsync lMsync lPsync lCust1 lCust2 lCust3 lCust4 lCust5
    lCust6 lCust7 lCust8 lfAddS lfAddD lfSubS lfSubD lfMulS lfMulD lfDivS lfDivD lfRemS lfRemD lfMaddS lfMaddD lfItofS
    lfItofD lfFtoiS lfFtoiD lfSfeqS lfSfeqD lfSfneS lfSfneD lfSfgtS lfSfgtD lfSfgeS lfSfgeD lfSfltS lfSfltD lfSfleS
    lfSfleD lfCust1S lfCust1D lvAllEqB lvAllEqH lvAllGeB lvAllGeH lvAllGtB lvAllGtH lvAllLeB lvAllLeH lvAllLtB
    lvAllLtH lvAllNeB lvAllNeH lvAnyEqB lvAnyEqH lvAnyGeB lvAnyGeH lvAnyGtB lvAnyGtH lvAnyLeB lvAnyLeH lvAnyLtB
    lvAnyLtH lvAnyNeB lvAnyNeH lvAddB lvAddH lvAddsB lvAddsH lvAdduB lvAdduH lvAddusB lvAddusH lvAnd lvAvgB lvAvgH
    lvCmpEqB lvCmpEqH lvCmpGeB lvCmpGeH lvCmpGtB lvCmpGtH lvCmpLeB lvCmpLeH lvCmpLtB lvCmpLtH lvCmpNeB lvCmpNeH
    lvMaddsH lvMaxB lvMaxH lvMergeB lvMergeH lvMinB lvMinH lvMsubsH lvMulsH lvNand lvNor lvOr lvPackB lvPackH lvPacksB
    lvPacksH lvPackusB lvPackusH lvPermN lvRlB lvRlH lvSllB lvSllH lvSll lvSrlB lvSrlH lvSraB lvSraH lvSrl lvSubB
    lvSubH lvSubsB lvSubsH lvSubuB lvSubuH lvSubusB lvSubusH lvUnpackB lvUnpackH lvXor lvCust1 lvCust2 lvCust3 lvCust4

theorem decode_encode (i : Instr) : decode (encode i) = .ok i := by
  rw [decode, encode, Fields.ofWord_toWord, decodeFields_fields]

/-- Settles O1: the pieces of a word come back, and from them the instruction. -/
theorem decodeOfEncode : Obligations.DecodeOfEncode := decode_encode

/-- A word that is canonical for an instruction decodes to it. -/
theorem decode_of_eq_encode {w : BitVec 32} {i : Instr} (h : w = encode i) : decode w = .ok i := by
  rw [h, decode_encode]

/-- Settles O3: each of the words is the canonical one of its instruction. -/
theorem wordsOfTheSpecDecode : Obligations.WordsOfTheSpecDecode := by
  refine ⟨?_, ?_, ?_, ?_, ?_, ?_, ?_, ?_, ?_, ?_, ?_, ?_, ?_⟩
  all_goals exact decode_of_eq_encode (by decide)

/-! ### No 1 bit that the other lacks -/

/-- Every 1 bit of `x` is one of `y`. -/
def bitsWithin {w : Nat} (x y : BitVec w) : Prop := x &&& ~~~y = 0#w

theorem bitsWithin_iff {w : Nat} {x y : BitVec w} :
    bitsWithin x y ↔ ∀ j, x.getLsbD j = true → y.getLsbD j = true := by
  unfold bitsWithin
  constructor
  · intro h j hx
    have hbit := congrArg (·.getLsbD j) h
    have hj := BitVec.lt_of_getLsbD hx
    simpa [hx, hj] using hbit
  · intro h
    apply BitVec.eq_of_getLsbD_eq
    intro j hj
    cases hx : x.getLsbD j
    · simp [hx]
    · simp [h j hx]

@[simp] theorem bitsWithin_refl {w : Nat} (x : BitVec w) : bitsWithin x x := by simp [bitsWithin]

@[simp] theorem bitsWithin_zero {w : Nat} (y : BitVec w) : bitsWithin 0#w y := BitVec.zero_and

/-- A slice of `y`, back in its place, is within `y`. -/
theorem bitsWithin_slice {w : Nat} (y : BitVec w) (i k : Nat) :
    bitsWithin (BitVec.ofNat w (y.toNat / 2 ^ i % 2 ^ k * 2 ^ i)) y := by
  rw [bitsWithin_iff]
  intro j hj
  simp only [BitVec.getLsbD_ofNat, Nat.testBit_mul_two_pow, Nat.testBit_mod_two_pow, Nat.testBit_div_two_pow,
    Bool.and_eq_true, decide_eq_true_eq] at hj
  obtain ⟨-, hij, -, hbit⟩ := hj
  rwa [Nat.sub_add_cancel hij] at hbit

theorem bitsWithin_or {w : Nat} {x x' y : BitVec w} (h : bitsWithin x y) (h' : bitsWithin x' y) :
    bitsWithin (x ||| x') y := by
  rw [bitsWithin_iff] at *
  intro j hj
  rw [BitVec.getLsbD_or, Bool.or_eq_true] at hj
  exact hj.elim (h j) (h' j)

theorem bitsWithin_append {v w : Nat} {x x' : BitVec v} {y y' : BitVec w} (h : bitsWithin x x')
    (h' : bitsWithin y y') : bitsWithin (x ++ y) (x' ++ y') := by
  unfold bitsWithin at *
  rw [BitVec.not_append, BitVec.and_append, h, h', BitVec.zero_append_zero]

/-- The slice of `y` that holds `n`. -/
theorem bitsWithin_ofNat {w : Nat} {y : BitVec w} (i k : Nat) {n : Nat} (h : y.toNat / 2 ^ i % 2 ^ k = n) :
    bitsWithin (BitVec.ofNat w (n * 2 ^ i)) y := h ▸ bitsWithin_slice y i k

theorem bitsWithin_of_toNat {w n : Nat} {y : BitVec w} (h : y.toNat = n) : bitsWithin (BitVec.ofNat w n) y := by
  rw [← h, BitVec.ofNat_toNat, BitVec.setWidth_eq]
  exact bitsWithin_refl y

/-! ### Pieces -/

/-- Every piece of `f` has its 1 bits from the same piece of `g`. -/
structure Fields.Within (f g : Fields) : Prop where
  op : bitsWithin f.op g.op
  d : bitsWithin f.d g.d
  a : bitsWithin f.a g.a
  b : bitsWithin f.b g.b
  lo : bitsWithin f.lo g.lo

theorem Fields.Within.toWord {f g : Fields} (h : f.Within g) : bitsWithin f.toWord g.toWord :=
  bitsWithin_append (bitsWithin_append (bitsWithin_append (bitsWithin_append h.op h.d) h.a) h.b) h.lo

section
variable {f : Fields} {m n : Nat}

theorem Fields.bitsWithin_op30 (h : f.op30 = n) : bitsWithin (BitVec.ofNat 11 n) f.lo := by
  simpa using bitsWithin_ofNat (y := f.lo) 0 4 (by simpa [Fields.op30] using h)

theorem Fields.bitsWithin_op70 (h : f.op70 = n) : bitsWithin (BitVec.ofNat 11 n) f.lo := by
  simpa using bitsWithin_ofNat (y := f.lo) 0 8 (by simpa [Fields.op70] using h)

theorem Fields.bitsWithin_op98 (h : f.op98 = n) : bitsWithin (BitVec.ofNat 11 (n * 256)) f.lo := bitsWithin_ofNat 8 2 h

theorem Fields.bitsWithin_op96 (h : f.op96 = n) : bitsWithin (BitVec.ofNat 11 (n * 64)) f.lo := bitsWithin_ofNat 6 4 h

/-- The two opcode boxes of formats ALU, ALU0 and ALU1. -/
theorem Fields.bitsWithin_op98_op30 {x : BitVec 11} (hm : f.op98 = m) (hn : f.op30 = n)
    (hx : x = BitVec.ofNat 11 (m * 256) ||| BitVec.ofNat 11 n) : bitsWithin x f.lo :=
  hx ▸ bitsWithin_or (bitsWithin_op98 hm) (bitsWithin_op30 hn)

/-- The two opcode boxes of formats SHR and EXT. -/
theorem Fields.bitsWithin_op96_op30 {x : BitVec 11} (hm : f.op96 = m) (hn : f.op30 = n)
    (hx : x = BitVec.ofNat 11 (m * 64) ||| BitVec.ofNat 11 n) : bitsWithin x f.lo :=
  hx ▸ bitsWithin_or (bitsWithin_op96 hm) (bitsWithin_op30 hn)

/-- The first four bits of the opcode of the ORFPX and ORVDX groups. -/
theorem Fields.bitsWithin_op70_div (h : f.op70 / 16 = n) : bitsWithin (BitVec.ofNat 11 (n * 16)) f.lo :=
  bitsWithin_ofNat 4 4 (by rw [← h, Fields.op70]; omega)

end

theorem Fields.ofImm_imm (op : BitVec 6) (d a : BitVec 5) (f : Fields) :
    Fields.ofImm op d a f.imm = ⟨op, d, a, f.b, f.lo⟩ := by
  simp only [Fields.ofImm, Fields.imm, BitVec.extractLsb'_append_eq_left, BitVec.extractLsb'_append_eq_right]

theorem Fields.ofSplit_simm (op : BitVec 6) (a b : BitVec 5) (f : Fields) :
    Fields.ofSplit op a b f.simm = ⟨op, f.d, a, b, f.lo⟩ := by
  simp only [Fields.ofSplit, Fields.simm, BitVec.extractLsb'_append_eq_left, BitVec.extractLsb'_append_eq_right]

theorem Fields.ofOff_off (op : BitVec 6) (f : Fields) : Fields.ofOff op f.off = { f with op := op } := by
  simp (disch := decide) only [Fields.ofOff, Fields.off, BitVec.extractLsb'_append_eq_of_le,
    BitVec.extractLsb'_append_eq_right, Nat.reduceSub, BitVec.extractLsb'_eq_self]

theorem Fields.custL_append_custK (f : Fields) : f.custL ++ f.custK = f.lo := BitVec.extractLsb'_append_extractLsb'

/-- The low bits of format SHI, their reserved bits cleared. -/
theorem Fields.bitsWithin_op76_shamt {f : Fields} {n : Nat} (h : f.op76 = n) :
    bitsWithin (0#3 ++ BitVec.ofNat 2 n ++ f.shamt) f.lo := by
  have hhigh : f.lo.extractLsb' 8 3 ++ f.lo.extractLsb' 6 2 = f.lo.extractLsb' 6 5 :=
    BitVec.extractLsb'_append_extractLsb'_eq_extractLsb' rfl
  have hlo : f.lo.extractLsb' 8 3 ++ f.lo.extractLsb' 6 2 ++ f.shamt = f.lo := by
    rw [hhigh]
    exact BitVec.extractLsb'_append_extractLsb'
  have hop : (f.lo.extractLsb' 6 2).toNat = n := by
    rw [← h, BitVec.extractLsb'_toNat, Nat.shiftRight_eq_div_pow]
    rfl
  have hwithin := bitsWithin_append (bitsWithin_append (bitsWithin_zero (f.lo.extractLsb' 8 3))
    (bitsWithin_of_toNat hop)) (bitsWithin_refl f.shamt)
  rwa [hlo] at hwithin

/-! ### Formats -/

section
variable {f : Fields} {op : BitVec 6}

theorem Fields.within_ofImm {d a : BitVec 5} (hop : bitsWithin op f.op) (hd : bitsWithin d f.d)
    (ha : bitsWithin a f.a) : (Fields.ofImm op d a f.imm).Within f := by
  rw [ofImm_imm]
  exact ⟨hop, hd, ha, bitsWithin_refl _, bitsWithin_refl _⟩

theorem Fields.within_ofSplit (hop : bitsWithin op f.op) : (Fields.ofSplit op f.a f.b f.simm).Within f := by
  rw [ofSplit_simm]
  exact ⟨hop, bitsWithin_refl _, bitsWithin_refl _, bitsWithin_refl _, bitsWithin_refl _⟩

theorem Fields.within_ofOff (hop : bitsWithin op f.op) : (Fields.ofOff op f.off).Within f := by
  rw [ofOff_off]
  exact ⟨hop, bitsWithin_refl _, bitsWithin_refl _, bitsWithin_refl _, bitsWithin_refl _⟩

end

/-! ### Decoders -/

/-- What a decoder reads from `f`, if anything, is encoded in pieces within those of `f`. -/
def decodesWithin (f : Fields) (r : Except DecodeError Instr) : Prop := ∀ i, r = .ok i → i.fields.Within f

section
variable {f : Fields}

theorem decodesWithin_bad : decodesWithin f f.bad := nofun

theorem decodesWithin_of_fields {i : Instr} (h : i.fields.Within f) : decodesWithin f (.ok i) := by
  rintro _ ⟨⟩
  exact h

/-- An instruction of registers and opcode boxes. -/
theorem decodesWithin_ok {i : Instr} (hop : bitsWithin i.fields.op f.op)
    (hregs : bitsWithin i.fields.d f.d ∧ bitsWithin i.fields.a f.a ∧ bitsWithin i.fields.b f.b)
    (hlo : bitsWithin i.fields.lo f.lo) : decodesWithin f (.ok i) := by
  obtain ⟨hd, ha, hb⟩ := hregs
  exact decodesWithin_of_fields ⟨hop, hd, ha, hb, hlo⟩

theorem decodesWithin_ite {p : Prop} [Decidable p] {r r' : Except DecodeError Instr} (h : p → decodesWithin f r)
    (h' : decodesWithin f r') : decodesWithin f (if p then r else r') := by
  split
  · exact h ‹_›
  · exact h'

theorem decodesWithin_decodeShift (hop : f.op.toNat = 56) (hn : f.op30 = 8) : decodesWithin f (decodeShift f) := by
  unfold decodeShift
  split
  case h_5 => exact decodesWithin_bad
  all_goals
    next hm =>
    exact decodesWithin_ok (bitsWithin_of_toNat hop) (by simp [Instr.fields]) (Fields.bitsWithin_op96_op30 hm hn rfl)

theorem decodesWithin_decodeExt (hop : f.op.toNat = 56) (hn : f.op30 = 12) : decodesWithin f (decodeExt f) := by
  unfold decodeExt
  split
  case h_5 => exact decodesWithin_bad
  all_goals
    next hm =>
    exact decodesWithin_ok (bitsWithin_of_toNat hop) (by simp [Instr.fields]) (Fields.bitsWithin_op96_op30 hm hn rfl)

theorem decodesWithin_decodeExtw (hop : f.op.toNat = 56) (hn : f.op30 = 13) : decodesWithin f (decodeExtw f) := by
  unfold decodeExtw
  split
  case h_3 => exact decodesWithin_bad
  all_goals
    next hm =>
    exact decodesWithin_ok (bitsWithin_of_toNat hop) (by simp [Instr.fields]) (Fields.bitsWithin_op96_op30 hm hn rfl)

theorem decodesWithin_decodeAlu (hop : f.op.toNat = 56) : decodesWithin f (decodeAlu f) := by
  unfold decodeAlu
  split
  case h_9 hn => exact decodesWithin_decodeShift hop hn
  case h_13 hn =>
    exact decodesWithin_ite (fun hm => decodesWithin_ok (bitsWithin_of_toNat hop) (by simp [Instr.fields])
      (Fields.bitsWithin_op98_op30 hm hn rfl)) (decodesWithin_decodeExt hop hn)
  case h_14 hn => exact decodesWithin_decodeExtw hop hn
  case h_16 hn =>
    refine decodesWithin_ite ?_ (decodesWithin_ite ?_ decodesWithin_bad)
    all_goals
      exact fun hm => decodesWithin_ok (bitsWithin_of_toNat hop) (by simp [Instr.fields])
        (Fields.bitsWithin_op98_op30 hm hn rfl)
  case h_17 => exact decodesWithin_bad
  all_goals
    next hn =>
    exact decodesWithin_ite (fun hm => decodesWithin_ok (bitsWithin_of_toNat hop) (by simp [Instr.fields])
      (Fields.bitsWithin_op98_op30 hm hn rfl)) decodesWithin_bad

theorem decodesWithin_decodeShi (hop : f.op.toNat = 46) : decodesWithin f (decodeShi f) := by
  unfold decodeShi
  split
  case h_5 => exact decodesWithin_bad
  all_goals
    next hm =>
    exact decodesWithin_ok (bitsWithin_of_toNat hop) (by simp [Instr.fields, Fields.ofShamt])
      (Fields.bitsWithin_op76_shamt hm)

theorem decodesWithin_decodeSfi (hop : f.op.toNat = 47) : decodesWithin f (decodeSfi f) := by
  unfold decodeSfi
  split
  case h_11 => exact decodesWithin_bad
  all_goals
    next hd =>
    exact decodesWithin_of_fields
      (Fields.within_ofImm (bitsWithin_of_toNat hop) (bitsWithin_of_toNat hd) (bitsWithin_refl _))

theorem decodesWithin_decodeSf (hop : f.op.toNat = 57) : decodesWithin f (decodeSf f) := by
  unfold decodeSf
  split
  case h_11 => exact decodesWithin_bad
  all_goals
    next hd =>
    exact decodesWithin_ok (bitsWithin_of_toNat hop) ⟨bitsWithin_of_toNat hd, bitsWithin_refl _, bitsWithin_refl _⟩
      (bitsWithin_zero _)

theorem decodesWithin_decodeMac (hop : f.op.toNat = 49) : decodesWithin f (decodeMac f) := by
  unfold decodeMac
  split
  case h_5 => exact decodesWithin_bad
  all_goals
    next hn =>
    exact decodesWithin_ok (bitsWithin_of_toNat hop) (by simp [Instr.fields]) (Fields.bitsWithin_op30 hn)

/-- Of the place of A, `l.macrc` has only bit 16, the one that selects it (30 R315). -/
theorem decodesWithin_decodeMovhi (hop : f.op.toNat = 6) : decodesWithin f (decodeMovhi f) := by
  unfold decodeMovhi
  split_ifs with hmovhi hmacrc
  · exact decodesWithin_of_fields
      (Fields.within_ofImm (bitsWithin_of_toNat hop) (bitsWithin_refl _) (bitsWithin_zero _))
  · have ha : bitsWithin 1#5 f.a := bitsWithin_ofNat 0 1 (n := 1) (by omega)
    exact decodesWithin_ok (bitsWithin_of_toNat hop) ⟨bitsWithin_refl _, ha, bitsWithin_zero _⟩ (bitsWithin_zero _)
  · exact decodesWithin_bad

theorem decodesWithin_decodeSys (hop : f.op.toNat = 8) : decodesWithin f (decodeSys f) := by
  unfold decodeSys
  split
  case h_6 => exact decodesWithin_bad
  case h_1 hd | h_2 hd =>
    exact decodesWithin_ite (fun _ => decodesWithin_of_fields
      (Fields.within_ofImm (bitsWithin_of_toNat hop) (bitsWithin_of_toNat hd) (bitsWithin_zero _))) decodesWithin_bad
  all_goals
    next hd =>
    exact decodesWithin_ok (bitsWithin_of_toNat hop) ⟨bitsWithin_of_toNat hd, bitsWithin_zero _, bitsWithin_zero _⟩
      (bitsWithin_zero _)

theorem decodesWithin_decodeNop (hop : f.op.toNat = 5) : decodesWithin f (decodeNop f) := by
  unfold decodeNop
  refine decodesWithin_ite (fun hd => ?_) decodesWithin_bad
  have hlt := f.d.isLt
  have hbits : bitsWithin 8#5 f.d := bitsWithin_ofNat 3 2 (n := 1) (by omega)
  exact decodesWithin_of_fields (Fields.within_ofImm (bitsWithin_of_toNat hop) hbits (bitsWithin_zero _))

theorem decodesWithin_decodeFp (hop : f.op.toNat = 50) : decodesWithin f (decodeFp f) := by
  unfold decodeFp
  split
  case h_29 =>
    refine decodesWithin_ite ?_ (decodesWithin_ite ?_ decodesWithin_bad)
    all_goals
      exact fun h => decodesWithin_ok (bitsWithin_of_toNat hop) (by simp [Instr.fields])
        (Fields.bitsWithin_op70_div h)
  case h_13 h | h_14 h | h_15 h | h_16 h =>
    exact decodesWithin_ite (fun _ => decodesWithin_ok (bitsWithin_of_toNat hop) (by simp [Instr.fields])
      (Fields.bitsWithin_op70 h)) decodesWithin_bad
  all_goals
    next h =>
    exact decodesWithin_ok (bitsWithin_of_toNat hop) (by simp [Instr.fields]) (Fields.bitsWithin_op70 h)

theorem decodesWithin_decodeV (hop : f.op.toNat = 10) : decodesWithin f (decodeV f) := by
  unfold decodeV
  split
  case h_88 =>
    refine decodesWithin_ite ?_ (decodesWithin_ite ?_ (decodesWithin_ite ?_ (decodesWithin_ite ?_ decodesWithin_bad)))
    all_goals
      exact fun h => decodesWithin_ok (bitsWithin_of_toNat hop) (by simp [Instr.fields])
        (Fields.bitsWithin_op70_div h)
  all_goals
    next h =>
    exact decodesWithin_ok (bitsWithin_of_toNat hop) (by simp [Instr.fields]) (Fields.bitsWithin_op70 h)

/-- The cases are the rows of the major opcode map (30 R310), in its order; a row that is not named has its immediate
in bits 15-0. -/
theorem decodesWithin_decodeFields (f : Fields) : decodesWithin f (decodeFields f) := by
  unfold decodeFields
  split
  case h_1 hop | h_2 hop | h_3 hop | h_4 hop =>
    exact decodesWithin_of_fields (Fields.within_ofOff (bitsWithin_of_toNat hop))
  case h_5 hop => exact decodesWithin_decodeNop hop
  case h_6 hop => exact decodesWithin_decodeMovhi hop
  case h_7 hop => exact decodesWithin_decodeSys hop
  case h_9 hop => exact decodesWithin_decodeV hop
  case h_32 hop => exact decodesWithin_decodeShi hop
  case h_33 hop => exact decodesWithin_decodeSfi hop
  case h_35 hop => exact decodesWithin_decodeMac hop
  case h_36 hop => exact decodesWithin_decodeFp hop
  case h_42 hop => exact decodesWithin_decodeAlu hop
  case h_43 hop => exact decodesWithin_decodeSf hop
  case h_34 hop | h_37 hop | h_38 hop | h_39 hop | h_40 hop | h_41 hop =>
    exact decodesWithin_of_fields (Fields.within_ofSplit (bitsWithin_of_toNat hop))
  case h_44 hop =>
    refine decodesWithin_ok (bitsWithin_of_toNat hop) (by simp [Instr.fields]) ?_
    exact f.custL_append_custK ▸ bitsWithin_refl f.lo
  case h_8 hop | h_10 hop | h_11 hop | h_14 hop | h_15 hop | h_16 hop | h_17 hop | h_45 hop | h_46 hop | h_47 hop =>
    exact decodesWithin_ok (bitsWithin_of_toNat hop) (by simp [Instr.fields]) (bitsWithin_zero _)
  case h_48 => exact nofun
  all_goals
    next hop =>
    exact decodesWithin_of_fields (Fields.within_ofImm (bitsWithin_of_toNat hop) (by simp) (by simp))

end

/-! ### Words -/

/-- Settles O2: the pieces of what was decoded are within those of the word. -/
theorem encodedBitsComeFromTheWord : Obligations.EncodedBitsComeFromTheWord := by
  intro w i h
  have hwithin := (decodesWithin_decodeFields (Fields.ofWord w) i h).toWord
  rwa [Fields.toWord_ofWord] at hwithin

end Sys2Proof
end

