-- ==== Sys2Proof/Proofs/Absent.lean ====
section
/-!
PROOFS. Proofs/Absent.lean: what an implementation lacks is an illegal instruction (O17).
-/

namespace Sys2Proof.Machine

/-- The check of its demands turns an instruction away that the implementation lacks, whatever its meaning (30 R331). -/
theorem exec_unimplemented {i : Instr} {s : State} (h : implemented s.cfg (demands i).1 = false)
    (he : canEnter s .illegal) : takesException (exec i s) s .illegal (some s.pc) := by
  obtain ⟨body, hexec, -⟩ := exec_endsByDemands i s
  rw [hexec, checked_unimplemented h]
  exact enter_spec _ he

theorem implemented_madd_absent {c : Config} (h : c.maddPresent = false) (double : Bool) :
    implemented c (.madd double) = false := by
  simp [implemented, h]

/-- Settles O17: the custom placeholders demand what nothing has, and `lf.madd` demands FPNUM.madd before it is
refused. -/
theorem absentInstructionsAreIllegal : Obligations.AbsentInstructionsAreIllegal := by
  refine fun s => ⟨fun i h he => exec_unimplemented h he, fun d a b l k => ⟨?custom, ?absent, ?single, ?double⟩⟩
  case custom =>
    refine fun he i hi => exec_unimplemented ?_ he
    fin_cases hi <;> rfl
  case absent =>
    refine fun he hmadd i hi => exec_unimplemented ?_ he
    fin_cases hi
    · exact implemented_madd_absent hmadd false
    · exact implemented_madd_absent hmadd true
  case single => exact fun h => checked_eq h _
  case double => exact fun h => checked_eq h _

end Sys2Proof.Machine
end

