-- ==== Sys2Proof/Proofs/Width.lean ====
section
/-!
PROOFS. Proofs/Width.lean: the numbers a value of the register width stands for: unsigned, signed, and modulo 2^W;
result, carry and overflow of the arithmetic are those of the exact integer (O19).
-/

namespace Sys2Proof.Machine

/-! ### A value and its numbers -/

theorem bits_pos (x : Xlen) : 0 < x.bits := by cases x <;> decide

theorem two_pow_bits (x : Xlen) : (2 : Int) ^ x.bits = 2 ^ (x.bits - 1) * 2 :=
  (pow_sub_one_mul (bits_pos x).ne' 2).symm

theorem bits_le (x : Xlen) : x.bits ≤ 64 := by cases x <;> decide

/-- The unsigned number of a W-bit value. -/
theorem unsignedW_eq (c : Config) (x : Word) : unsignedW c x = x.toNat % 2 ^ c.xlen.bits := narrow_toNat c x

/-- The signed number is the unsigned one brought to the balanced residue modulo 2^W. -/
theorem signedW_eq_bmod (c : Config) (x : Word) : signedW c x = (unsignedW c x : Int).bmod (2 ^ c.xlen.bits) := by
  unfold signedW
  rw [unsignedW_eq]
  cases c.xlen
  · rw [BitVec.toInt_eq_toNat_bmod]
    simp [Word.lo32, Xlen.bits]
  · show x.toInt = ((x.toNat % 2 ^ 64 : Nat) : Int).bmod (2 ^ 64)
    rw [BitVec.toInt_eq_toNat_bmod, Nat.mod_eq_of_lt x.isLt]

/-- The signed and the unsigned number agree modulo 2^W. -/
theorem signedW_modEq (c : Config) (x : Word) : signedW c x ≡ unsignedW c x [ZMOD 2 ^ c.xlen.bits] := by
  rw [signedW_eq_bmod]
  have h := Int.bmod_emod (x := (unsignedW c x : Int)) (m := 2 ^ c.xlen.bits)
  rwa [Nat.cast_pow] at h

/-- The signed number lies in the signed range. -/
theorem signedW_bounds (c : Config) (x : Word) :
    -(2 : Int) ^ (c.xlen.bits - 1) ≤ signedW c x ∧ signedW c x < (2 : Int) ^ (c.xlen.bits - 1) := by
  unfold signedW
  cases c.xlen
  · exact ⟨BitVec.le_toInt _, BitVec.toInt_lt⟩
  · exact ⟨BitVec.le_toInt _, BitVec.toInt_lt⟩

/-- The top bit is the sign. -/
theorem getLsbD_top (c : Config) (x : Word) : x.getLsbD (c.xlen.bits - 1) = decide (signedW c x < 0) := by
  unfold signedW
  cases c.xlen
  · rw [← BitVec.msb_eq_toInt, BitVec.msb_eq_getLsbD_last]
    simp [Word.lo32, Xlen.bits]
  · rw [← BitVec.msb_eq_toInt, BitVec.msb_eq_getLsbD_last]
    simp [Xlen.bits]

theorem unsignedW_eq_zero {c : Config} {x : Word} : unsignedW c x = 0 ↔ narrow c x = 0#64 :=
  BitVec.toNat_inj (x := narrow c x) (y := 0#64)

/-- A W-bit value is 0 as a signed number just where it is as an unsigned one. -/
theorem signedW_eq_zero {c : Config} {x : Word} : signedW c x = 0 ↔ narrow c x = 0#64 := by
  rw [← unsignedW_eq_zero]
  have hb := signedW_bounds c x
  have hu := unsignedW_lt c x
  have hm := signedW_modEq c x
  unfold Int.ModEq at hm
  revert hb hu hm
  cases c.xlen <;> simp only [Xlen.bits] <;> omega

/-! ### An exact integer cut to the width -/

/-- The register of an exact integer holds it modulo 2^W. -/
theorem wordOfInt_toNat (c : Config) (z : Int) : ((wordOfInt c z).toNat : Int) = z % 2 ^ c.xlen.bits := by
  have hdvd : (2 : Int) ^ c.xlen.bits ∣ 2 ^ 64 := pow_dvd_pow 2 (bits_le c.xlen)
  rw [wordOfInt, narrow_toNat, Int.natCast_mod, BitVec.toNat_ofInt, Int.toNat_of_nonneg (Int.emod_nonneg _ (by simp))]
  push_cast
  exact Int.emod_emod_of_dvd z hdvd

@[simp] theorem narrow_wordOfInt (c : Config) (z : Int) : narrow c (wordOfInt c z) = wordOfInt c z := narrow_narrow c _

theorem narrow_ofInt (c : Config) (z : Int) : narrow c (BitVec.ofInt 64 z) = wordOfInt c z := rfl

theorem narrow_ofNat (c : Config) (n : Nat) : narrow c (BitVec.ofNat 64 n) = wordOfInt c n := by
  rw [wordOfInt, BitVec.ofInt_natCast]

/-- Integers that agree modulo 2^W are cut to the same register. -/
theorem wordOfInt_congr {c : Config} {y z : Int} (h : y ≡ z [ZMOD 2 ^ c.xlen.bits]) :
    wordOfInt c y = wordOfInt c z := by
  apply BitVec.eq_of_toNat_eq
  have hy := wordOfInt_toNat c y
  have hz := wordOfInt_toNat c z
  rw [h] at hy
  omega

/-- A register that agrees with an integer modulo 2^W is that integer cut to the width. -/
theorem narrow_eq_wordOfInt {c : Config} {x : Word} {z : Int} (h : (x.toNat : Int) ≡ z [ZMOD 2 ^ c.xlen.bits]) :
    narrow c x = wordOfInt c z := by
  rw [← wordOfInt_congr h, ← narrow_ofNat, BitVec.ofNat_toNat, BitVec.setWidth_eq]

theorem unsignedW_wordOfInt (c : Config) (z : Int) : (unsignedW c (wordOfInt c z) : Int) = z % 2 ^ c.xlen.bits := by
  rw [unsignedW, narrow_wordOfInt, wordOfInt_toNat]

/-- The signed number of an integer cut to the width. -/
theorem signedW_wordOfInt (c : Config) (z : Int) : signedW c (wordOfInt c z) ≡ z [ZMOD 2 ^ c.xlen.bits] :=
  (signedW_modEq c _).trans (by rw [unsignedW_wordOfInt]; exact Int.mod_modEq _ _)

/-- An immediate of 16 bits keeps its number at either width (30 R304). -/
theorem signedW_sextImm (c : Config) (i : Imm16) : signedW c (sextImm c i) = i.toInt := by
  have hi := BitVec.le_toInt i
  have hi' := BitVec.toInt_lt (x := i)
  have hb := signedW_bounds c (sextImm c i)
  have hm : signedW c (sextImm c i) ≡ i.toInt [ZMOD 2 ^ c.xlen.bits] := signedW_wordOfInt c _
  unfold Int.ModEq at hm
  revert hb hm
  cases c.xlen <;> simp only [Xlen.bits] <;> omega

/-! ### Carry and overflow -/

/-- Overflow is what the signed range does not hold. -/
theorem not_fitsSigned (c : Config) (z : Int) : (!fitsSigned c.xlen.bits z) = outOfRange c z := by
  unfold fitsSigned outOfRange
  rw [← decide_not]
  exact decide_eq_decide.2 (by omega)

/-- Carry out of a natural number is a number of more than W bits. -/
theorem not_fitsUnsigned_natCast (w n : Nat) : (!fitsUnsigned w n) = decide (2 ^ w ≤ n) := by
  have hp : ((2 ^ w : Nat) : Int) = 2 ^ w := Nat.cast_pow 2 w
  unfold fitsUnsigned
  rw [← decide_not]
  exact decide_eq_decide.2 (by omega)

/-- The borrow of a difference of two W-bit numbers. -/
theorem not_fitsUnsigned_sub {w m n : Nat} (h : m < 2 ^ w) : (!fitsUnsigned w (m - n)) = decide (m < n) := by
  have hp : ((2 ^ w : Nat) : Int) = 2 ^ w := Nat.cast_pow 2 w
  unfold fitsUnsigned
  rw [← decide_not]
  exact decide_eq_decide.2 (by omega)

/-- Addition by the exact sums. -/
theorem addArith_eq (c : Config) (x y : Word) (cin : Bool) :
    let u := unsignedW c x + unsignedW c y + cin.toNat
    addArith c x y cin =
      { value := wordOfInt c u
        cy := some (decide (2 ^ c.xlen.bits ≤ u))
        ov := some (outOfRange c (signedW c x + signedW c y + cin.toNat)) } := by
  simp only [addArith, not_fitsSigned]
  rw [← Nat.cast_add, ← Nat.cast_add, not_fitsUnsigned_natCast]

/-- Addition without a carry in. -/
theorem addArith_false (c : Config) (x y : Word) :
    addArith c x y false =
      { value := wordOfInt c (unsignedW c x + unsignedW c y : Nat)
        cy := some (decide (2 ^ c.xlen.bits ≤ unsignedW c x + unsignedW c y))
        ov := some (outOfRange c (signedW c x + signedW c y)) } := by
  simpa using addArith_eq c x y false

/-- Subtraction by the exact differences. -/
theorem subArith_eq (c : Config) (x y : Word) :
    subArith c x y =
      { value := wordOfInt c ((unsignedW c x : Int) - unsignedW c y)
        cy := some (decide (unsignedW c x < unsignedW c y))
        ov := some (outOfRange c (signedW c x - signedW c y)) } := by
  simp only [subArith, not_fitsSigned, not_fitsUnsigned_sub (unsignedW_lt c x)]

/-- Signed multiplication by the exact product. -/
theorem mulArith_eq (c : Config) (x y : Word) :
    mulArith c x y =
      { value := wordOfInt c (signedW c x * signedW c y)
        cy := none
        ov := some (outOfRange c (signedW c x * signedW c y)) } := by
  simp only [mulArith, not_fitsSigned]

/-- Unsigned multiplication by the exact product. -/
theorem muluArith_eq (c : Config) (x y : Word) :
    muluArith c x y =
      { value := wordOfInt c (unsignedW c x * unsignedW c y : Nat)
        cy := some (decide (2 ^ c.xlen.bits ≤ unsignedW c x * unsignedW c y))
        ov := none } := by
  simp only [muluArith]
  rw [← Nat.cast_mul, not_fitsUnsigned_natCast]

theorem outOfRange_iff (c : Config) (z : Int) :
    outOfRange c z = true ↔ z < -(2 : Int) ^ (c.xlen.bits - 1) ∨ (2 : Int) ^ (c.xlen.bits - 1) - 1 < z := by
  simp [outOfRange]

/-- An exact integer of at most one bit too many is out of range just where it and its register differ in sign. -/
theorem outOfRange_iff_sign {c : Config} {t : Int} {r : Word} (hlo : -(2 : Int) ^ c.xlen.bits ≤ t)
    (hhi : t < 2 ^ c.xlen.bits) (hr : signedW c r ≡ t [ZMOD 2 ^ c.xlen.bits]) :
    outOfRange c t = true ↔ ¬(signedW c r < 0 ↔ t < 0) := by
  have hb := signedW_bounds c r
  unfold Int.ModEq at hr
  rw [outOfRange_iff]
  revert hb hr hlo hhi
  cases c.xlen <;> simp only [Xlen.bits] <;> omega

/-- The bit form of `ovf_add`: the operands have one sign and the sum the other (40 R350). -/
theorem ov_add_bits (c : Config) (x y : Word) (cin : Bool) :
    outOfRange c (signedW c x + signedW c y + cin.toNat) =
      (x.getLsbD (c.xlen.bits - 1) == y.getLsbD (c.xlen.bits - 1) &&
        (addArith c x y cin).value.getLsbD (c.xlen.bits - 1) != x.getLsbD (c.xlen.bits - 1)) := by
  have hr : signedW c (addArith c x y cin).value ≡ signedW c x + signedW c y + cin.toNat [ZMOD 2 ^ c.xlen.bits] := by
    rw [addArith_eq]
    push_cast
    exact (signedW_wordOfInt c _).trans
      (((signedW_modEq c x).symm.add (signedW_modEq c y).symm).add_right _)
  have hx := signedW_bounds c x
  have hy := signedW_bounds c y
  have hcin := Bool.toNat_le cin
  have hpow := two_pow_bits c.xlen
  have hsign := outOfRange_iff_sign (by omega) (by omega) hr
  rw [outOfRange_iff] at hsign
  rw [Bool.eq_iff_iff, outOfRange_iff]
  simp only [getLsbD_top, Bool.and_eq_true, beq_iff_eq, bne_iff_ne, ne_eq, decide_eq_decide]
  omega

/-- The bit form of `ovf_sub`: the operands differ in sign and the difference has not the first one's (40 R350). -/
theorem ov_sub_bits (c : Config) (x y : Word) :
    outOfRange c (signedW c x - signedW c y) =
      (x.getLsbD (c.xlen.bits - 1) != y.getLsbD (c.xlen.bits - 1) &&
        (subArith c x y).value.getLsbD (c.xlen.bits - 1) != x.getLsbD (c.xlen.bits - 1)) := by
  have hr : signedW c (subArith c x y).value ≡ signedW c x - signedW c y [ZMOD 2 ^ c.xlen.bits] := by
    rw [subArith_eq]
    exact (signedW_wordOfInt c _).trans ((signedW_modEq c x).symm.sub (signedW_modEq c y).symm)
  have hx := signedW_bounds c x
  have hy := signedW_bounds c y
  have hpow := two_pow_bits c.xlen
  have hsign := outOfRange_iff_sign (by omega) (by omega) hr
  rw [outOfRange_iff] at hsign
  rw [Bool.eq_iff_iff, outOfRange_iff]
  simp only [getLsbD_top, Bool.and_eq_true, bne_iff_ne, ne_eq, decide_eq_decide]
  omega

/-- Settles O19: each of the four is given by its exact integers, and overflow of a sum or difference is a disagreement
of signs. -/
theorem carryAndOverflowAreExact : Obligations.CarryAndOverflowAreExact := by
  intro c x y cin
  refine ⟨?add, ?sub, ?mul, ?mulu⟩
  case add =>
    have hv := wordOfInt_toNat c (unsignedW c x + unsignedW c y + cin.toNat : Nat)
    refine ⟨?_, by rw [addArith_eq], by rw [addArith_eq], by rw [← ov_add_bits, addArith_eq]⟩
    rw [addArith_eq]
    exact_mod_cast hv
  case sub =>
    refine ⟨?_, by rw [subArith_eq], by rw [subArith_eq], by rw [← ov_sub_bits, subArith_eq]⟩
    rw [subArith_eq]
    exact wordOfInt_toNat c _
  case mul =>
    rw [mulArith_eq]
    exact ⟨wordOfInt_toNat c _, rfl, rfl⟩
  case mulu =>
    rw [muluArith_eq]
    have hv := wordOfInt_toNat c (unsignedW c x * unsignedW c y : Nat)
    exact ⟨by exact_mod_cast hv, rfl, rfl⟩

end Sys2Proof.Machine
end

