-- ==== Sys2Proof/Proofs/Arithmetic.lean ====
section
/-!
PROOFS. Proofs/Arithmetic.lean: addition, subtraction, multiplication and division where no range exception is raised
(O20, O25, O26).
-/

namespace Sys2Proof.Machine

/-! ### Results equal at the register width -/

/-- What a register is said to hold counts at the register width only. -/
theorem registerIs_congr {s t : State} {d : Reg} {v v' : Word} (h : narrow s.cfg v = narrow s.cfg v') :
    registerIs s t d v ↔ registerIs s t d v' := by
  unfold registerIs
  rw [h]

theorem writesRegister_congr {i : Instr} {s : State} {d : Reg} {v v' : Word} (h : narrow s.cfg v = narrow s.cfg v') :
    writesRegister i s d v ↔ writesRegister i s d v' := by
  simp only [writesRegister, registerIs_congr h]

theorem writesRegisterFlags_congr {i : Instr} {s : State} {d : Reg} {v v' : Word} {cy ov : Option Bool}
    (h : narrow s.cfg v = narrow s.cfg v') :
    writesRegisterFlags i s d v cy ov ↔ writesRegisterFlags i s d v' cy ov := by
  simp only [writesRegisterFlags, registerIs_congr h]

/-- An instruction that is available and ends in a result writes its value and flags. -/
theorem writesRegisterFlags_of_eq {i : Instr} {s : State} {needs : Needs} {regs : List Reg} {k : Causes} {d : Reg}
    {r : Arith} {v : Word} {cy ov : Option Bool} (h : available s needs regs)
    (he : exec i s = checked s needs regs (arith s k d r)) (hr : r = { value := v, cy := cy, ov := ov })
    (hfree : rangeTraps s k cy ov = false) : writesRegisterFlags i s d v cy ov := by
  subst hr
  exact writesRegisterFlags_of_arith h he hfree

/-- An instruction that is available and ends in an exact integer, cut to the width, writes any value that agrees
with it there. -/
theorem writesRegisterFlags_of_integer {i : Instr} {s : State} {needs : Needs} {regs : List Reg} {k : Causes} {d : Reg}
    {r : Arith} {v : Word} {z : Int} {cy ov : Option Bool} (h : available s needs regs)
    (he : exec i s = checked s needs regs (arith s k d r))
    (hr : r = { value := wordOfInt s.cfg z, cy := cy, ov := ov }) (hv : narrow s.cfg v = wordOfInt s.cfg z)
    (hfree : rangeTraps s k cy ov = false) : writesRegisterFlags i s d v cy ov := by
  rw [writesRegisterFlags_congr (hv.trans (narrow_wordOfInt _ _).symm)]
  exact writesRegisterFlags_of_eq h he hr hfree

/-! ### Addition and subtraction -/

/-- A difference of registers is the exact one, cut to the width. -/
theorem narrow_sub (c : Config) (x y : Word) :
    narrow c (x - y) = wordOfInt c ((unsignedW c x : Int) - unsignedW c y) := by
  apply narrow_eq_wordOfInt
  have hx := x.isLt
  have hy := y.isLt
  unfold Int.ModEq
  rw [BitVec.toNat_sub, unsignedW_eq, unsignedW_eq]
  cases c.xlen <;> simp only [Xlen.bits] <;> omega

/-- Settles O20: each of the five ends in the exact sum or difference. -/
theorem addAndSubtract : Obligations.AddAndSubtract := by
  intro s d a b i
  refine ⟨fun h => ⟨?add, ?addc, ?sub⟩, fun h => ⟨?addi, ?addic⟩⟩
  case add => exact writesRegisterFlags_of_integer h rfl (addArith_false s.cfg _ _) (narrow_ofNat _ _)
  case addc => exact writesRegisterFlags_of_integer h rfl (addArith_eq s.cfg _ _ (srBit s srCY)) (narrow_ofNat _ _)
  case sub => exact writesRegisterFlags_of_integer h rfl (subArith_eq s.cfg _ _) (narrow_sub _ _ _)
  case addi => exact writesRegisterFlags_of_integer h rfl (addArith_false s.cfg _ _) (narrow_ofNat _ _)
  case addic => exact writesRegisterFlags_of_integer h rfl (addArith_eq s.cfg _ _ (srBit s srCY)) (narrow_ofNat _ _)

/-! ### Multiplication -/

/-- Settles O25: each of the three ends in the exact product; an immediate keeps its number. -/
theorem multiplication : Obligations.Multiplication := by
  intro s d a b i
  refine ⟨fun h => ?mul, fun h => ?muli, fun h => ?mulu⟩
  case mul => exact writesRegisterFlags_of_integer h rfl (mulArith_eq s.cfg _ _) (narrow_ofInt _ _)
  case muli =>
    have hr := mulArith_eq s.cfg (gpr s a) (sextImm s.cfg i)
    rw [signedW_sextImm] at hr
    exact writesRegisterFlags_of_integer h rfl hr (narrow_ofInt _ _)
  case mulu => exact writesRegisterFlags_of_integer h rfl (muluArith_eq s.cfg _ _) (narrow_ofNat _ _)

/-! ### Division -/

/-- Flags that are 0 raise no range exception (40 R352). -/
theorem rangeTraps_of_not_fired {s : State} {k : Causes} {cy ov : Option Bool} (hcy : fired cy = false)
    (hov : fired ov = false) : rangeTraps s k cy ov = false := by
  simp [rangeTraps, cyTraps, ovTraps, hcy, hov]

theorem divArith_of_ne {c : Config} {x y : Word} (h : narrow c y ≠ 0#64) :
    divArith c x y = { value := wordOfInt c (Int.tdiv (signedW c x) (signedW c y)), cy := none, ov := some false } := by
  rw [divArith, if_neg (signedW_eq_zero.not.2 h)]

theorem divArith_of_eq {c : Config} {x y : Word} (h : narrow c y = 0#64) :
    divArith c x y = { value := narrow c (Config.freeQuotient 0 x y), cy := none, ov := some true } := by
  rw [divArith, if_pos (signedW_eq_zero.2 h)]

theorem divuArith_of_ne {c : Config} {x y : Word} (h : narrow c y ≠ 0#64) :
    divuArith c x y =
      { value := wordOfInt c (unsignedW c x / unsignedW c y : Nat), cy := some false, ov := none } := by
  rw [divuArith, if_neg (unsignedW_eq_zero.not.2 h)]

theorem divuArith_of_eq {c : Config} {x y : Word} (h : narrow c y = 0#64) :
    divuArith c x y = { value := narrow c (Config.freeQuotient 1 x y), cy := some true, ov := none } := by
  rw [divuArith, if_pos (unsignedW_eq_zero.2 h)]

/-- Settles O26: a register is 0 at the register width just where it is 0, and a divisor that is not raises nothing. -/
theorem division : Obligations.Division := by
  intro s d a b
  have hb : narrow s.cfg (gpr s b) = gpr s b := narrow_gpr s b
  refine ⟨fun h => ⟨fun hne => ?div, fun hz hfree => ?divZero⟩, fun h => ⟨fun hne => ?divu, fun hz hfree => ?divuZero⟩⟩
  case div =>
    exact writesRegisterFlags_of_integer h rfl (divArith_of_ne (hb.trans_ne hne)) (narrow_ofInt _ _)
      (rangeTraps_of_not_fired rfl rfl)
  case divZero => exact ⟨_, writesRegisterFlags_of_eq h rfl (divArith_of_eq (hb.trans hz)) hfree⟩
  case divu =>
    exact writesRegisterFlags_of_integer h rfl (divuArith_of_ne (hb.trans_ne hne)) (narrow_ofNat _ _)
      (rangeTraps_of_not_fired rfl rfl)
  case divuZero => exact ⟨_, writesRegisterFlags_of_eq h rfl (divuArith_of_eq (hb.trans hz)) hfree⟩

end Sys2Proof.Machine
end

