-- ==== Sys2Proof/Proofs/RangeException.lean ====
section
/-!
PROOFS. Proofs/RangeException.lean: when arithmetic raises the range exception and what it leaves, and the range
exception of a register that does not exist (O21).
-/

namespace Sys2Proof.Machine

/-! ### When it is raised -/

theorem fired_eq_true {f : Option Bool} : fired f = true ↔ f = some true := beq_iff_eq

/-- With AECR each cause is enabled on its own; without it only overflow counts (40 R352). -/
theorem rangeTraps_iff (s : State) (k : Causes) (cy ov : Option Bool) :
    rangeTraps s k cy ov = true ↔
      srBit s srOVE = true ∧
        if s.cfg.aecsrPresent then
          (ov = some true ∧ s.aecr.getLsbD k.ovBit = true) ∨ (cy = some true ∧ s.aecr.getLsbD k.cyBit = true)
        else ov = some true := by
  unfold rangeTraps cyTraps ovTraps
  cases s.cfg.aecsrPresent
  · simp [fired_eq_true]
  · simp [fired_eq_true, or_comm]

/-! ### A register that does not exist -/

/-- The check of its demands turns an instruction away that names a register the implementation lacks, whatever its
meaning (10_state R48). -/
theorem exec_noRegister {i : Instr} {s : State} (h : implemented s.cfg (demands i).1 = true)
    (hr : ∃ r ∈ (demands i).2, s.cfg.ngpr ≤ r.toNat) (he : canEnter s .range) :
    takesException (exec i s) s .range none := by
  obtain ⟨body, hexec, -⟩ := exec_endsByDemands i s
  have hregs : regsExist s.cfg (demands i).2 = false := by
    simpa [regsExist] using hr
  rw [hexec, checked_noRegister h hregs]
  exact enter_spec _ he

/-! ### The state in which it is taken -/

/-- The state with the flags and AESR written, in which the range exception is taken (40 R352). -/
def trapState (s : State) (k : Causes) (cy ov : Option Bool) : State :=
  { s.setFlags cy ov with aesr := aesrAfter s k cy ov }

theorem trapState_eq (s : State) (k : Causes) (cy ov : Option Bool) :
    trapState s k cy ov = { s with sr := (s.setFlags cy ov).sr, aesr := aesrAfter s k cy ov } := by
  rw [trapState, State.setFlags_eq]

/-- Bit by bit, AESR after a range exception. -/
theorem getLsbD_aesrAfter (s : State) (k : Causes) (cy ov : Option Bool) {n : Nat} (hn : n < 32) :
    (aesrAfter s k cy ov).getLsbD n = (s.aesr.getLsbD n ||
      (s.cfg.aecsrPresent && ((decide (n = k.cyBit) && fired cy && s.aecr.getLsbD k.cyBit) ||
        (decide (n = k.ovBit) && fired ov && s.aecr.getLsbD k.ovBit)))) := by
  have hbit (b : Nat) (p : Bool) :
      (if p = true then 1#32 <<< b else 0#32).getLsbD n = (decide (n = b) && p) := by
    cases p
    · simp
    · rw [if_pos rfl, ← BitVec.twoPow_eq, BitVec.getLsbD_twoPow, Bool.and_true, ← Bool.decide_and]
      exact decide_eq_decide.2 (by omega)
  unfold aesrAfter cyTraps ovTraps
  cases s.cfg.aecsrPresent
  · simp
  · simp only [if_true, BitVec.getLsbD_or, hbit, Bool.true_and, Bool.not_true, Bool.false_or, Bool.or_assoc,
      Bool.and_assoc]

/-- Writing flags keeps whether an exception can be taken. -/
theorem canEnter_of_setFlags {s u : State} {e : Exc} {cy ov : Option Bool} (h : canEnter s e) (hc : u.cfg = s.cfg)
    (hd : u.debugUnit = s.debugUnit) (hsr : u.sr = (s.setFlags cy ov).sr) : canEnter u e := by
  have hbit (n : Nat) : srBit u n = srBit (s.setFlags cy ov) n := by
    unfold srBit
    rw [hsr]
  have hce : srBit u srCE = srBit s srCE := (hbit _).trans (srBit_setFlags s cy ov srCE)
  have hctx : context u = context s :=
    (context_congr (by simp [hc]) fun n _ => hbit n).trans (context_setFlags s cy ov)
  obtain ⟨hdebug, henter⟩ := h
  refine ⟨?_, ?_⟩
  · rwa [debugTakes, hc, hd]
  · rwa [entryContext, hc, hce, hctx]

/-! ### What it leaves -/

/-- An update that changes none but the general registers and the accumulator. -/
def storesOnly (s t : State) : Prop := t = { s with gprs := t.gprs, machi := t.machi, maclo := t.maclo }

/-- An instruction that takes the range exception in a state that has the flags and AESR written, and of the
destinations what RANGE_WRITEBACK says, leaves what 40 R352 says. -/
theorem raisesRange_of_enter {i : Instr} {s u : State} {k : Causes} {cy ov : Option Bool} {stored : State → Prop}
    (hcan : canEnter s .range) (he : exec i s = enter .range none u) (hu : storesOnly (trapState s k cy ov) u)
    (hkept : s.cfg.rangeWriteback = false → u = trapState s k cy ov)
    (hstored : s.cfg.rangeWriteback = true → stored u) : raisesRange i s k cy ov stored := by
  have hrec : u = { s with sr := (s.setFlags cy ov).sr, aesr := aesrAfter s k cy ov, gprs := u.gprs,
                           machi := u.machi, maclo := u.maclo } := by
    rw [storesOnly, trapState_eq] at hu
    exact hu
  have hsr : u.sr = (s.setFlags cy ov).sr := by rw [hrec]
  have haesr : u.aesr = aesrAfter s k cy ov := by rw [hrec]
  have hcfg : u.cfg = s.cfg := by rw [hrec]
  refine ⟨u, ?_, flagsAre_setFlags hsr, fun n hn => ?_, fun hw => ?_, hstored, ?_, ?_⟩
  · rw [he]
    exact enter_spec none (canEnter_of_setFlags hcan hcfg (by rw [hrec]) hsr)
  · rw [haesr, getLsbD_aesrAfter s k cy ov hn]
  · have ht := (hkept hw).trans (trapState_eq s k cy ov)
    exact ⟨registersKept_of_gprs hcfg (by rw [ht]), by rw [ht], by rw [ht]⟩
  · exact memoryKept_of_mem (by rw [hrec])
  · rw [hsr, haesr]
    exact hrec

/-- An available instruction whose range exception is raised, and whose store does what `stored` says. -/
theorem raisesRange_of_arithWith {i : Instr} {s : State} {needs : Needs} {regs : List Reg} {k : Causes}
    {cy ov : Option Bool} {store : State → State} {stored : State → Prop} (hcan : canEnter s .range)
    (h : available s needs regs) (he : exec i s = checked s needs regs (arithWith s k cy ov store))
    (htraps : rangeTraps s k cy ov = true) (hstore : ∀ t : State, storesOnly t (store t))
    (hstored : stored (store (trapState s k cy ov))) : raisesRange i s k cy ov stored := by
  rw [checked_eq h, arithWith_traps htraps] at he
  cases hw : s.cfg.rangeWriteback with
  | false =>
    rw [hw, if_neg Bool.false_ne_true] at he
    exact raisesRange_of_enter hcan he rfl (fun _ => rfl) (by simp [hw])
  | true =>
    rw [hw, if_pos rfl] at he
    exact raisesRange_of_enter hcan he (hstore _) (by simp [hw]) (fun _ => hstored)

@[simp] theorem trapState_cfg (s : State) (k : Causes) (cy ov : Option Bool) : (trapState s k cy ov).cfg = s.cfg :=
  State.setFlags_cfg s cy ov

@[simp] theorem trapState_gprs (s : State) (k : Causes) (cy ov : Option Bool) : (trapState s k cy ov).gprs = s.gprs :=
  State.setFlags_gprs s cy ov

@[simp] theorem context_trapState (s : State) (k : Causes) (cy ov : Option Bool) :
    context (trapState s k cy ov) = context s := context_setFlags s cy ov

/-- With a general register as destination. -/
theorem raisesRange_of_arith {i : Instr} {s : State} {needs : Needs} {regs : List Reg} {k : Causes} {d : Reg}
    {r : Arith} (hcan : canEnter s .range) (he : exec i s = checked s needs regs (arith s k d r))
    (h : available s needs regs) (htraps : rangeTraps s k r.cy r.ov = true) :
    raisesRange i s k r.cy r.ov (registerStored s d r.value) := by
  have hg : ((trapState s k r.cy r.ov).setGpr d r.value).gprs = (s.setGpr d r.value).gprs := by
    simp only [State.setGpr, State.setGprOf, context_trapState, trapState_cfg, trapState_gprs, apply_ite State.gprs]
  refine raisesRange_of_arithWith hcan h he htraps (fun t => ?_) ⟨registerIs_of_setGpr ?_ ?_ hg, ?_, ?_⟩
  · rw [storesOnly, State.setGpr_eq]
  · simp
  · simp
  · simp [trapState_eq]
  · simp [trapState_eq]

/-- With the accumulator as destination. -/
theorem raisesRange_of_setMac {i : Instr} {s : State} {needs : Needs} {regs : List Reg} {k : Causes} {r : Arith}
    (hcan : canEnter s .range)
    (he : exec i s = checked s needs regs (arithWith s k r.cy r.ov fun t => t.setMac r.value))
    (h : available s needs regs) (htraps : rangeTraps s k r.cy r.ov = true) :
    raisesRange i s k r.cy r.ov (macStored s r.value) :=
  raisesRange_of_arithWith hcan h he htraps (fun _ => rfl)
    ⟨setMac_value _ _, registersKept_of_gprs (by simp) (by simp)⟩

/-- Settles O21: when it is raised, a register that does not exist, and the seventeen instructions, of which ten have a
general register as destination and seven the accumulator. -/
theorem rangeExceptions : Obligations.RangeExceptions := by
  refine ⟨rangeTraps_iff, fun s i => exec_noRegister, fun s d a b i hcan => ?_⟩
  refine ⟨?_, ?_, ?_, ?_, ?_, ?_, ?_, ?_, ?_, ?_, ?_, ?_, ?_, ?_, ?_, ?_, ?_⟩
  iterate 10 exact raisesRange_of_arith hcan rfl
  all_goals exact raisesRange_of_setMac hcan rfl

end Sys2Proof.Machine
end

