-- ==== Sys2Proof/Proofs/Logic.lean ====
section
/-!
PROOFS. Proofs/Logic.lean: the bit-wise instructions and their encoding (O22); immediates, moves, bit searches and
extensions (O23).
-/

namespace Sys2Proof

/-! ### A word as the bits of its pieces -/

theorem setWidth_append_eq_or {u v : Nat} (x : BitVec u) (y : BitVec v) (w : Nat) :
    (x ++ y).setWidth w = x.setWidth w <<< v ||| y.setWidth w := by
  apply BitVec.eq_of_getLsbD_eq
  intro n hn
  simp only [BitVec.getLsbD_setWidth, BitVec.getLsbD_or, BitVec.getLsbD_shiftLeft, BitVec.getLsbD_append, hn]
  by_cases hv : n < v
  · simp [hv]
  · simp [hv, BitVec.getLsbD_of_ge y n (by omega), show n - v < w by omega]

/-- The pieces of a word, each moved to its place. -/
theorem Fields.toWord_eq_or (f : Fields) :
    f.toWord = f.op.setWidth 32 <<< 26 ||| f.d.setWidth 32 <<< 21 ||| f.a.setWidth 32 <<< 16 |||
      f.b.setWidth 32 <<< 11 ||| f.lo.setWidth 32 := by
  rw [← BitVec.setWidth_eq f.toWord, Fields.toWord]
  simp only [setWidth_append_eq_or, BitVec.shiftLeft_or_distrib, ← BitVec.shiftLeft_add]

/-- The word of an instruction with three registers, from the word with register numbers 0 (30 R302). -/
theorem Fields.toWord_of_base {base : BitVec 32} {op : BitVec 6} {lo : BitVec 11}
    (h : base = op.setWidth 32 <<< 26 ||| lo.setWidth 32) (d a b : Reg) :
    base ||| d.setWidth 32 <<< 21 ||| a.setWidth 32 <<< 16 ||| b.setWidth 32 <<< 11 =
      Fields.toWord ⟨op, d, a, b, lo⟩ := by
  rw [Fields.toWord_eq_or, h]
  generalize op.setWidth 32 <<< 26 = o, lo.setWidth 32 = l, d.setWidth 32 <<< 21 = x, a.setWidth 32 <<< 16 = y,
    b.setWidth 32 <<< 11 = z
  ac_rfl

/-- The word of an instruction with two registers and an immediate, from its major opcode (30 R302). -/
theorem Fields.toWord_ofImm_of_base {base : BitVec 32} {op : BitVec 6} (h : base = op.setWidth 32 <<< 26) (d a : Reg)
    (i : Imm16) :
    base ||| d.setWidth 32 <<< 21 ||| a.setWidth 32 <<< 16 ||| i.setWidth 32 = (Fields.ofImm op d a i).toWord := by
  have himm := congrArg (BitVec.setWidth 32) (Fields.imm_ofImm op d a i)
  rw [Fields.imm, setWidth_append_eq_or] at himm
  rw [Fields.toWord_eq_or, h, ← himm]
  exact (BitVec.or_assoc _ _ _).symm

end Sys2Proof

namespace Sys2Proof.Machine

/-! ### Results at the register width -/

section

variable {i : Instr} {s : State} {needs : Needs} {regs : List Reg} {d : Reg} {v v' : Word}

/-- An instruction that is available and ends in `writeBack` writes any value that agrees at the register width. -/
theorem writesRegister_of_narrow_eq (h : available s needs regs)
    (he : exec i s = checked s needs regs (writeBack s d v')) (hv : narrow s.cfg v' = narrow s.cfg v) :
    writesRegister i s d v :=
  (writesRegister_congr hv).1 (writesRegister_of_writeBack h he)

/-- See `writesRegister_of_narrow_eq`: the value before it was cut to the width. -/
theorem writesRegister_of_eq_narrow (h : available s needs regs)
    (he : exec i s = checked s needs regs (writeBack s d v')) (hv : v' = narrow s.cfg v) : writesRegister i s d v :=
  writesRegister_of_narrow_eq h he (by rw [hv, narrow_narrow])

/-- See `writesRegister_of_narrow_eq`: the value itself, written otherwise. -/
theorem writesRegister_of_eq (h : available s needs regs) (he : exec i s = checked s needs regs (writeBack s d v'))
    (hv : v' = v) : writesRegister i s d v :=
  writesRegister_of_narrow_eq h he (congrArg _ hv)

end

theorem narrow_xor (c : Config) (x y : Word) : narrow c (x ^^^ y) = narrow c x ^^^ narrow c y := by
  unfold narrow
  cases c.xlen
  · simp [Word.ofLo32, Word.lo32]
  · rfl

/-- A zero-extended immediate has the immediate's number. -/
theorem zextImm_eq (k : Imm16) : zextImm k = BitVec.ofNat 64 k.toNat := (BitVec.ofNat_toNat 64 k).symm

/-! ### Bit-wise logic -/

/-- Settles O22: the words are the canonical ones of their instructions, and each ends in `writeBack`. -/
theorem bitwiseLogic : Obligations.BitwiseLogic := by
  intro s d a b k
  refine ⟨?decodeAnd, ?decodeOr, ?decodeXor, ?decodeAndi, fun h => ⟨?_, ?_, ?_⟩, fun h => ?_⟩
  case decodeAnd => exact decode_of_eq_encode (Fields.toWord_of_base (by decide) d a b)
  case decodeOr => exact decode_of_eq_encode (Fields.toWord_of_base (by decide) d a b)
  case decodeXor => exact decode_of_eq_encode (Fields.toWord_of_base (by decide) d a b)
  case decodeAndi => exact decode_of_eq_encode (Fields.toWord_ofImm_of_base (by decide) d a k)
  · exact writesRegister_of_writeBack h rfl
  · exact writesRegister_of_writeBack h rfl
  · exact writesRegister_of_writeBack h rfl
  · exact writesRegister_of_eq h rfl (congrArg _ (zextImm_eq k))

/-! ### Bit searches -/

/-- No bit of a register stands above the register width. -/
theorem lt_bits_of_getLsbD {s : State} {r : Reg} {n : Nat} (h : (gpr s r).getLsbD n = true) : n < s.cfg.xlen.bits := by
  by_contra hn
  have hlt : (gpr s r).toNat < 2 ^ s.cfg.xlen.bits := by
    rw [← narrow_gpr, narrow_toNat]
    exact Nat.mod_lt _ (by positivity)
  rw [BitVec.getLsbD, Nat.testBit_lt_two_pow (hlt.trans_le (Nat.pow_le_pow_right (by decide) (by omega)))] at h
  cases h

theorem findFirst_zero (c : Config) : findFirst c 0#64 = 0#64 := by
  have hfind : (List.range c.xlen.bits).find? (fun k => (0#64).getLsbD k) = none := by simp
  rw [findFirst, hfind]

theorem findLast_zero (c : Config) : findLast c 0#64 = 0#64 := by
  have hfind : (List.range c.xlen.bits).reverse.find? (fun k => (0#64).getLsbD k) = none := by simp
  rw [findLast, hfind]

/-- The lowest 1, where it stands within the register width. -/
theorem findFirst_eq {c : Config} {x : Word} {n : Nat} (hn : n < c.xlen.bits) (h : x.getLsbD n = true)
    (hlow : ∀ j < n, x.getLsbD j = false) : findFirst c x = BitVec.ofNat 64 (n + 1) := by
  have hfind : (List.range c.xlen.bits).find? (fun k => x.getLsbD k) = some n :=
    List.find?_range_eq_some.2 ⟨h, List.mem_range.2 hn, fun j hj => by simp [hlow j hj]⟩
  rw [findFirst, hfind]

/-- The highest 1, where it stands within the register width. -/
theorem findLast_eq {c : Config} {x : Word} {n : Nat} (hn : n < c.xlen.bits) (h : x.getLsbD n = true)
    (hhigh : ∀ j, n < j → x.getLsbD j = false) : findLast c x = BitVec.ofNat 64 (n + 1) := by
  have hfind : (List.range c.xlen.bits).reverse.find? (fun k => x.getLsbD k) = some n := by
    rw [List.find?_eq_some_iff_getElem]
    refine ⟨h, c.xlen.bits - 1 - n, by simp; omega, by simp; omega, fun j hj => ?_⟩
    have hj' : n < c.xlen.bits - 1 - j := by omega
    simp [hhigh _ hj']
  rw [findLast, hfind]

/-! ### Immediates, moves and extensions -/

/-- The sign-extended immediate, before it is cut to the width. -/
theorem narrow_ofInt_imm (c : Config) (i : Imm16) : narrow c (BitVec.ofInt 64 i.toInt) = sextImm c i := rfl

theorem narrow_sextImm (c : Config) (i : Imm16) : narrow c (sextImm c i) = sextImm c i := narrow_narrow c _

/-- `l.movhi` gives the immediate times 2^16 (40 R383). -/
theorem zextImm_shiftLeft (k : Imm16) : zextImm k <<< 16 = BitVec.ofNat 64 (k.toNat * 2 ^ 16) := by
  apply BitVec.eq_of_toNat_eq
  rw [zextImm_eq, BitVec.toNat_shiftLeft, Nat.shiftLeft_eq, BitVec.toNat_ofNat, BitVec.toNat_ofNat, Nat.mod_mul_mod]

/-- Sign extension gives the number of the low n bits. -/
theorem signFrom_eq (c : Config) (n : Nat) (x : Word) :
    signFrom c n x = narrow c (BitVec.ofInt 64 (x.setWidth n).toInt) := rfl

/-- Zero extension is the remainder modulo 2^n. -/
theorem zeroFrom_eq (c : Config) (n : Nat) (x : Word) :
    zeroFrom c n x = narrow c (BitVec.ofNat 64 (x.toNat % 2 ^ n)) := by
  have hmod : (x.setWidth n).toNat = x.toNat % 2 ^ n := BitVec.toNat_setWidth n x
  rw [zeroFrom, ← hmod, BitVec.ofNat_toNat]

/-- Settles O23: the searches and the immediates by their numbers, every other value as the instruction gives it. -/
theorem immediatesMovesSearchesAndExtensions : Obligations.ImmediatesMovesSearchesAndExtensions := by
  intro s d a b k
  refine ⟨fun h => ⟨?ori, ?xori⟩, fun h => ?movhi, fun h => ?cmov, fun h => ⟨fun hz => ?ff1Zero, fun n hn hlow => ?ff1⟩,
    fun h => ⟨fun hz => ?fl1Zero, fun n hn hhigh => ?fl1⟩, fun h => ?extbs, fun h => ?exths, fun h => ?extws,
    fun h => ?extbz, fun h => ?exthz, fun h => ?extwz⟩
  case ori => exact writesRegister_of_eq h rfl (congrArg _ (zextImm_eq k))
  case xori =>
    refine writesRegister_of_narrow_eq h rfl ?_
    rw [narrow_xor, narrow_xor, narrow_ofInt_imm, narrow_sextImm]
  case movhi => exact writesRegister_of_eq h rfl (zextImm_shiftLeft k)
  case cmov => exact writesRegister_of_writeBack h rfl
  case ff1Zero => exact writesRegister_of_eq h rfl ((congrArg _ hz).trans (findFirst_zero _))
  case ff1 => exact writesRegister_of_eq h rfl (findFirst_eq (lt_bits_of_getLsbD hn) hn hlow)
  case fl1Zero => exact writesRegister_of_eq h rfl ((congrArg _ hz).trans (findLast_zero _))
  case fl1 => exact writesRegister_of_eq h rfl (findLast_eq (lt_bits_of_getLsbD hn) hn hhigh)
  case extbs => exact writesRegister_of_eq_narrow h rfl (signFrom_eq _ _ _)
  case exths => exact writesRegister_of_eq_narrow h rfl (signFrom_eq _ _ _)
  case extws => exact writesRegister_of_eq_narrow h rfl (signFrom_eq _ _ _)
  case extbz => exact writesRegister_of_eq_narrow h rfl (zeroFrom_eq _ _ _)
  case exthz => exact writesRegister_of_eq_narrow h rfl (zeroFrom_eq _ _ _)
  case extwz => exact writesRegister_of_eq_narrow h rfl (zeroFrom_eq _ _ _)

end Sys2Proof.Machine
end

