-- ==== Sys2Proof/Proofs/Shifts.lean ====
section
/-!
PROOFS. Proofs/Shifts.lean: shifts and rotates as arithmetic on the operand's number (O24).
-/

namespace Sys2Proof.Machine

/-! ### Each shift by the operand's number -/

theorem eq_ofNat_of_toNat_eq {x : Word} {n : Nat} (h : x.toNat = n) : x = BitVec.ofNat 64 n := by
  rw [← h, BitVec.ofNat_toNat, BitVec.setWidth_eq]

theorem shiftLeft_toNat (c : Config) (x : Word) (n : Nat) :
    (shiftLeft c x n).toNat = unsignedW c x * 2 ^ n % 2 ^ c.xlen.bits := by
  have hdvd : 2 ^ c.xlen.bits ∣ 2 ^ 64 := pow_dvd_pow 2 (bits_le c.xlen)
  rw [shiftLeft, narrow_toNat, BitVec.toNat_shiftLeft, Nat.shiftLeft_eq, unsignedW_eq, Nat.mod_mod_of_dvd _ hdvd,
    Nat.mod_mul_mod]

/-- Shifting left multiplies by 2^n. -/
theorem shiftLeft_eq (c : Config) (x : Word) (n : Nat) :
    shiftLeft c x n = narrow c (BitVec.ofNat 64 (unsignedW c x * 2 ^ n)) := by
  have hdvd : 2 ^ c.xlen.bits ∣ 2 ^ 64 := pow_dvd_pow 2 (bits_le c.xlen)
  apply BitVec.eq_of_toNat_eq
  rw [shiftLeft_toNat, narrow_toNat, BitVec.toNat_ofNat, Nat.mod_mod_of_dvd _ hdvd]

theorem shiftRight_toNat (c : Config) (x : Word) (n : Nat) : (shiftRight c x n).toNat = unsignedW c x / 2 ^ n := by
  rw [shiftRight, BitVec.toNat_ushiftRight, Nat.shiftRight_eq_div_pow, unsignedW]

/-- Shifting right divides by 2^n. -/
theorem shiftRight_eq (c : Config) (x : Word) (n : Nat) :
    shiftRight c x n = BitVec.ofNat 64 (unsignedW c x / 2 ^ n) := eq_ofNat_of_toNat_eq (shiftRight_toNat c x n)

theorem lo32_ofInt (z : Int) : Word.lo32 (BitVec.ofInt 64 z) = BitVec.ofInt 32 z := by
  apply BitVec.eq_of_toNat_eq
  simp only [Word.lo32, BitVec.toNat_setWidth, BitVec.toNat_ofInt]
  omega

/-- Shifting right with the sign divides the signed number by 2^n, rounded down. -/
theorem shiftArith_eq (c : Config) (x : Word) (n : Nat) :
    shiftArith c x n = narrow c (BitVec.ofInt 64 (signedW c x / 2 ^ n)) := by
  unfold shiftArith narrow signedW
  cases c.xlen
  · simp only [lo32_ofInt, BitVec.sshiftRight_eq, Int.shiftRight_eq_div_pow, Nat.cast_pow, Nat.cast_ofNat]
  · simp only [BitVec.sshiftRight_eq, Int.shiftRight_eq_div_pow, Nat.cast_pow, Nat.cast_ofNat]

theorem rotateRight_eq_or (c : Config) (x : Word) {n : Nat} (hn : n ≠ 0) :
    rotateRight c x n = shiftRight c x n ||| shiftLeft c x (c.xlen.bits - n) := by
  rw [rotateRight, if_neg hn, shiftRight, shiftLeft]

/-- Rotating right puts the bits that leave at the right above the others; where n is 0, none leave. -/
theorem rotateRight_eq {c : Config} (x : Word) {n : Nat} (hn : n < c.xlen.bits) :
    rotateRight c x n =
      BitVec.ofNat 64 (unsignedW c x / 2 ^ n + unsignedW c x % 2 ^ n * 2 ^ (c.xlen.bits - n)) := by
  apply eq_ofNat_of_toNat_eq
  by_cases h0 : n = 0
  · subst h0
    simp [rotateRight, unsignedW, Nat.mod_one]
  · have hpow : 2 ^ c.xlen.bits = 2 ^ n * 2 ^ (c.xlen.bits - n) := by rw [← pow_add, Nat.add_sub_cancel' hn.le]
    have hlow : unsignedW c x / 2 ^ n < 2 ^ (c.xlen.bits - n) :=
      Nat.div_lt_of_lt_mul (hpow ▸ unsignedW_lt c x)
    rw [rotateRight_eq_or c x h0, BitVec.toNat_or, shiftRight_toNat, shiftLeft_toNat, hpow, Nat.mul_mod_mul_right,
      Nat.or_comm, Nat.mul_comm (_ % _), ← Nat.two_pow_add_eq_or_of_lt hlow, Nat.add_comm]

/-! ### The instructions -/

/-- Settles O24: each of the eight by its shift, and a rotate's amount is below the width. -/
theorem shiftsAndRotates : Obligations.ShiftsAndRotates := by
  intro s d a b l
  have hpos := bits_pos s.cfg.xlen
  refine ⟨fun h => ⟨?sll, ?srl, ?sra⟩, fun h => ⟨?slli, ?srli, ?srai⟩, fun h => ?ror, fun h => ?rori⟩
  case sll => exact writesRegister_of_eq_narrow h rfl (shiftLeft_eq _ _ _)
  case slli => exact writesRegister_of_eq_narrow h rfl (shiftLeft_eq _ _ _)
  case srl => exact writesRegister_of_eq h rfl (shiftRight_eq _ _ _)
  case srli => exact writesRegister_of_eq h rfl (shiftRight_eq _ _ _)
  case sra => exact writesRegister_of_eq_narrow h rfl (shiftArith_eq _ _ _)
  case srai => exact writesRegister_of_eq_narrow h rfl (shiftArith_eq _ _ _)
  case ror => exact writesRegister_of_eq h rfl (rotateRight_eq _ (Nat.mod_lt _ hpos))
  case rori => exact writesRegister_of_eq h rfl (rotateRight_eq _ (Nat.mod_lt _ hpos))

end Sys2Proof.Machine
end

