-- ==== Sys2Proof/Proofs/Compare.lean ====
section
/-!
PROOFS. Proofs/Compare.lean: the register compares (O27) and the immediate compares (O28): their words, the condition F
receives, and that nothing else changes.
-/

namespace Sys2Proof

/-! ### The word of a compare: its condition stands where rD does (41 R420) -/

/-- The word of a register compare, from the word with register numbers 0. -/
theorem Fields.toWord_of_condition {base : BitVec 32} {op : BitVec 6} {cond : BitVec 5}
    (h : base = op.setWidth 32 <<< 26 ||| cond.setWidth 32 <<< 21) (a b : Reg) :
    base ||| a.setWidth 32 <<< 16 ||| b.setWidth 32 <<< 11 = Fields.toWord ⟨op, cond, a, b, 0#11⟩ := by
  rw [h]
  exact Fields.toWord_of_base BitVec.or_zero.symm cond a b

/-- The word of an immediate compare, from the word with register number and immediate 0. -/
theorem Fields.toWord_ofImm_of_condition {base : BitVec 32} {op : BitVec 6} {cond : BitVec 5}
    (h : base = op.setWidth 32 <<< 26 ||| cond.setWidth 32 <<< 21) (a : Reg) (i : Imm16) :
    base ||| a.setWidth 32 <<< 16 ||| i.setWidth 32 = (Fields.ofImm op cond a i).toWord := by
  rw [h]
  exact Fields.toWord_ofImm_of_base rfl cond a i

end Sys2Proof

namespace Sys2Proof.Machine

/-! ### The conditions -/

/-- Values are the same unsigned number just where they agree at the register width. -/
theorem unsignedW_inj {c : Config} {x y : Word} : unsignedW c x = unsignedW c y ↔ narrow c x = narrow c y :=
  BitVec.toNat_inj

theorem cmpEq_of_narrow {c : Config} {x y : Word} (hx : narrow c x = x) (hy : narrow c y = y) :
    cmpEq c x y = decide (x = y) :=
  decide_eq_decide.2 (by rw [unsignedW_inj, hx, hy])

theorem cmpNe_of_narrow {c : Config} {x y : Word} (hx : narrow c x = x) (hy : narrow c y = y) :
    cmpNe c x y = decide (x ≠ y) :=
  decide_eq_decide.2 (by rw [Ne, unsignedW_inj, hx, hy])

/-- The unsigned number of a sign-extended immediate is the immediate's own modulo 2^W (41 R420). -/
theorem unsignedW_sextImm (c : Config) (i : Imm16) :
    unsignedW c (sextImm c i) = (i.toInt % 2 ^ c.xlen.bits).toNat := by
  rw [unsignedW, narrow_sextImm, ← toNat_sextImm, Int.toNat_natCast]

/-! ### The instructions -/

/-- A canonical word of an instruction that ends in `writeFlag` decodes to it, and available it writes F. -/
theorem decode_and_writesFlag {w : BitVec 32} {i : Instr} {s : State} {needs : Needs} {regs : List Reg} {v v' : Bool}
    (hw : w = encode i) (he : exec i s = checked s needs regs (writeFlag s v')) (hv : v' = v) :
    decode w = .ok i ∧ (available s needs regs → writesFlag i s v) :=
  ⟨decode_of_eq_encode hw, fun h => writesFlag_of_writeFlag h (hv ▸ he)⟩

/-- Settles O27: a register holds a value of the register width, so the two that are compared for equality are equal
where their numbers are; the orders are those of the numbers. -/
theorem setFlagOnRegisters : Obligations.SetFlagOnRegisters := by
  intro s a b
  have ha := narrow_gpr s a
  have hb := narrow_gpr s b
  refine ⟨?eq, ?ne, ?gtu, ?geu, ?ltu, ?leu, ?gts, ?ges, ?lts, ?les⟩
  case eq => exact decode_and_writesFlag (Fields.toWord_of_condition (by decide) a b) rfl (cmpEq_of_narrow ha hb)
  case ne => exact decode_and_writesFlag (Fields.toWord_of_condition (by decide) a b) rfl (cmpNe_of_narrow ha hb)
  case gtu | geu | ltu | leu | gts | ges | lts | les =>
    exact decode_and_writesFlag (Fields.toWord_of_condition (by decide) a b) rfl rfl

/-- Settles O28: the sign-extended immediate is a value of the register width too, and its numbers are known. -/
theorem setFlagOnImmediate : Obligations.SetFlagOnImmediate := by
  intro s a i
  have ha := narrow_gpr s a
  have hi := narrow_sextImm s.cfg i
  have hu := unsignedW_sextImm s.cfg i
  have hs := signedW_sextImm s.cfg i
  refine ⟨?eq, ?ne, ?gtu, ?geu, ?ltu, ?leu, ?gts, ?ges, ?lts, ?les⟩
  case eq => exact decode_and_writesFlag (Fields.toWord_ofImm_of_condition (by decide) a i) rfl (cmpEq_of_narrow ha hi)
  case ne => exact decode_and_writesFlag (Fields.toWord_ofImm_of_condition (by decide) a i) rfl (cmpNe_of_narrow ha hi)
  case gtu | geu | ltu | leu =>
    exact decode_and_writesFlag (Fields.toWord_ofImm_of_condition (by decide) a i) rfl (decide_eq_decide.2 (by rw [hu]))
  case gts | ges | lts | les =>
    exact decode_and_writesFlag (Fields.toWord_ofImm_of_condition (by decide) a i) rfl (decide_eq_decide.2 (by rw [hs]))

end Sys2Proof.Machine
end

