-- ==== Sys2Proof/Proofs/LoadStore.lean ====
section
/-!
PROOFS. Proofs/LoadStore.lean: what loads and stores that can be made do: the loads (O29), the stores (O30), the load
that reserves (O31) and the conditional store (O32).
-/

namespace Sys2Proof.Machine

/-! ### States alike in what a statement reads -/

/-- What a register is said to hold is said of the configuration, the register file and SR before the write. -/
theorem registerIs_of_congr {s u t : State} {d : Reg} {v : Word} (hc : u.cfg = s.cfg) (hg : u.gprs = s.gprs)
    (hs : u.sr = s.sr) (h : registerIs u t d v) : registerIs s t d v := by
  have hx : context u = context s := by unfold context; rw [hc, hs]
  unfold registerIs at h ⊢
  simpa only [gpr, hc, hx, gprOf_congr hc hg] using h

theorem flagsAre_of_congr {s u t : State} {f cy ov : Option Bool} (hs : u.sr = s.sr) (h : flagsAre u t f cy ov) :
    flagsAre s t f cy ov := by
  unfold flagsAre at h ⊢
  rwa [hs] at h

theorem ordered_congr {s t : State} (hs : t.sr = s.sr) (l : List Byte) : ordered t l = ordered s l := by
  unfold ordered srBit
  rw [hs]

theorem bytesStored_congr {s t : State} (hs : t.sr = s.sr) (pas : List Nat) (n : Nat) (v : Word) :
    bytesStored t pas n v = bytesStored s pas n v := by
  unfold bytesStored
  rw [ordered_congr hs]

/-! ### What a translation leaves -/

section
variable {s u : State} (h : mmuOnly s u)
include h

theorem mmuOnly_gprs : u.gprs = s.gprs := by
  obtain ⟨l, -, heq⟩ := h
  rw [heq]
  exact State.writeBytes_gprs s l

theorem mmuOnly_sr : u.sr = s.sr := by
  obtain ⟨l, -, heq⟩ := h
  rw [heq]
  exact State.writeBytes_sr s l

/-- A register write after a translation, seen from before it. -/
theorem registerIs_of_mmuOnly {t : State} {d : Reg} {v : Word} (hr : registerIs u t d v) : registerIs s t d v :=
  registerIs_of_congr (mmuOnly_cfg h) (mmuOnly_gprs h) (mmuOnly_sr h) hr

/-- A state with the registers that a translation left, seen from before it. -/
theorem registersKept_of_mmuOnly {t : State} (hc : t.cfg = u.cfg) (hg : t.gprs = u.gprs) : registersKept s t :=
  registersKept_of_gprs (hc.trans (mmuOnly_cfg h)) (hg.trans (mmuOnly_gprs h))

/-- Without hardware reload a translation leaves every byte of memory. -/
theorem memoryKept_of_mmuOnly (hr : reloadsInHardware s.cfg = false) : memoryKept s u :=
  memoryKept_of_mem (by rw [mmuOnly_noReload h hr])

end

/-! ### An operand has as many places as bytes -/

theorem translateAll_length {s u : State} {k : Access} {eas : List Word} {ps : List Place}
    (h : translateAll s k eas = .ok ps u) : ps.length = eas.length := by
  induction eas generalizing s ps with
  | nil => cases h; rfl
  | cons ea rest ih =>
    obtain ⟨p, v, -, h⟩ := andThen_ok.1 h
    obtain ⟨ps', w, hrest, h⟩ := andThen_ok.1 h
    cases h
    rw [List.length_cons, List.length_cons, ih hrest]

theorem dataAddresses_length {s u : State} {k : Access} {ea : Word} {n : Nat} {strict : Bool} {ps : List Place}
    (h : dataAddresses s k ea n strict = .ok ps u) : ps.length = n := by
  unfold dataAddresses at h
  split_ifs at h
  · obtain ⟨p, v, -, h⟩ := andThen_ok.1 h
    cases h
    simp
  · split at h
    · cases h
    · simpa [byteEas] using translateAll_length h

theorem addressesOf_length (ps : List Place) : (addressesOf ps).length = ps.length := by simp [addressesOf]

/-- An operand of at least one byte has a first place. -/
theorem head?_addressesOf_ne_none {ps : List Place} {n : Nat} (h : ps.length = n + 1) :
    (addressesOf ps).head? ≠ none := by
  rw [Ne, List.head?_eq_none_iff, ← List.length_eq_zero_iff, addressesOf_length, h]
  omega

/-! ### The datum of several bytes (20 R170, R171) -/

/-- Bytes in two lots: the first is worth more by the size of the second. -/
theorem joinBytes_append (l l' : List Byte) : joinBytes (l ++ l') = joinBytes l * 256 ^ l'.length + joinBytes l' := by
  induction l with
  | nil => simp [joinBytes]
  | cons b rest ih =>
    simp only [List.cons_append, joinBytes, ih, List.length_append, pow_add]
    ring

theorem datumRead_nil (s : State) : datumRead s [] = 0 := by simp [datumRead, ordered, readBytes, joinBytes]

theorem datumRead_singleton (s : State) (p : Nat) : datumRead s [p] = (readByte s p).toNat := by
  unfold datumRead ordered
  split <;> simp [readBytes, joinBytes]

theorem datumRead_append_of_bigEndian {s : State} (h : srBit s srLEE = false) (pas pas' : List Nat) :
    datumRead s (pas ++ pas') = datumRead s pas * 256 ^ pas'.length + datumRead s pas' := by
  simp only [datumRead, ordered, h, Bool.false_eq_true, if_false, readBytes, List.map_append, joinBytes_append,
    List.length_map]

theorem datumRead_append_of_littleEndian {s : State} (h : srBit s srLEE = true) (pas pas' : List Nat) :
    datumRead s (pas ++ pas') = datumRead s pas' * 256 ^ pas.length + datumRead s pas := by
  simp only [datumRead, ordered, h, if_true, readBytes, List.map_append, List.reverse_append, joinBytes_append,
    List.length_reverse, List.length_map]

theorem datumRead_cons_of_bigEndian {s : State} (h : srBit s srLEE = false) (p : Nat) (pas : List Nat) :
    datumRead s (p :: pas) = (readByte s p).toNat * 256 ^ pas.length + datumRead s pas := by
  rw [← datumRead_singleton, ← datumRead_append_of_bigEndian h, List.singleton_append]

theorem datumRead_cons_of_littleEndian {s : State} (h : srBit s srLEE = true) (p : Nat) (pas : List Nat) :
    datumRead s (p :: pas) = datumRead s pas * 256 + (readByte s p).toNat := by
  rw [← datumRead_singleton, ← List.singleton_append, datumRead_append_of_littleEndian h, List.length_singleton,
    pow_one]

/-! ### Loads -/

/-- The number of a datum's low bits, sign-extended. -/
theorem signFrom_ofNat (c : Config) {n : Nat} (hn : n ≤ 64) (k : Nat) :
    signFrom c n (BitVec.ofNat 64 k) = narrow c (BitVec.ofInt 64 (BitVec.ofNat n k).toInt) := by
  rw [signFrom_eq, BitVec.setWidth_ofNat_of_le hn]

/-- An available instruction that ends in a load: the value may differ from the stated one above the register width. -/
theorem loads_of_loadWith {i : Instr} {s : State} {needs : Needs} {regs : List Reg} {d a : Reg} {im : Imm16} {n : Nat}
    {ext : Nat → Word} {ext' : Word → Word} (h : available s needs regs)
    (he : exec i s = checked s needs regs (loadWith s d (effective s a im) n ext'))
    (hext : ∀ k : Nat, narrow s.cfg (ext' (BitVec.ofNat 64 k)) = narrow s.cfg (ext k)) : loads i s d a im n ext := by
  intro ps u hd hm
  have hmmu : mmuOnly s u := dataAddresses_frame.1 ps hd
  obtain ⟨t, ht, hreg, hmem, hrest⟩ := writeBack_spec u d (ext' (datumAt u (addressesOf ps)))
  refine ⟨t, ?_, hmmu, ?_, hmem, fun hr pa => ?_, hrest⟩
  · rw [he, checked_eq h, loadWith_eq hd hm, ht]
  · exact (registerIs_congr (hext _)).1 (registerIs_of_mmuOnly hmmu hreg)
  · exact (hmem pa).trans (memoryKept_of_mmuOnly hmmu hr pa)

/-- Settles O29: the datum byte by byte in either order; each load ends in `loadWith`. -/
theorem LoadStore.loads : Obligations.Loads := by
  refine ⟨fun s p q r t => ⟨fun hbig => ?big, fun hlittle => ?little⟩, fun s d a i => ⟨fun h => ?ld, fun h =>
    ⟨?lwz, ?lws, ?lbz, ?lbs, ?lhz, ?lhs⟩⟩⟩
  case big =>
    refine ⟨datumRead_singleton s p, ?_, ?_, fun p' q' r' t' => ?_⟩
    · simp [datumRead_cons_of_bigEndian hbig, datumRead_nil]
    · simp [datumRead_cons_of_bigEndian hbig, datumRead_nil, add_assoc]
    · exact (datumRead_append_of_bigEndian hbig [p, q, r, t] [p', q', r', t']).trans (by norm_num)
  case little =>
    refine ⟨datumRead_singleton s p, ?_, ?_, fun p' q' r' t' => ?_⟩
    · simp [datumRead_cons_of_littleEndian hlittle, datumRead_nil]
    · simp only [datumRead_cons_of_littleEndian hlittle, datumRead_nil]
      ring
    · exact (datumRead_append_of_littleEndian hlittle [p, q, r, t] [p', q', r', t']).trans (by norm_num)
  case ld | lwz | lbz | lhz => exact loads_of_loadWith h rfl fun _ => rfl
  case lws | lbs | lhs =>
    refine loads_of_loadWith h rfl fun k => ?_
    rw [signFrom_ofNat _ (by decide), narrow_narrow]

/-! ### The bytes of a store (20 R170, R171) -/

/-- The byte that stands `k` places from the most significant one. -/
theorem getElem?_splitBytes (v : Word) {k n : Nat} (h : k < n) :
    (splitBytes v.toNat n)[k]? = some (v.extractLsb' (8 * (n - 1 - k)) 8) := by
  induction n generalizing k with
  | zero => omega
  | succ n ih =>
    cases k with
    | zero =>
      rw [splitBytes, List.getElem?_cons_zero, BitVec.extractLsb', Nat.shiftRight_eq_div_pow, pow_mul]
      rfl
    | succ k =>
      rw [splitBytes, List.getElem?_cons_succ, ih (by omega), show n + 1 - 1 - (k + 1) = n - 1 - k by omega]

/-- The byte a store writes at the place `k` bytes on. -/
theorem getElem?_bytesStored (s : State) {pas : List Nat} (v : Word) {k pa : Nat} (h : pas[k]? = some pa) :
    (bytesStored s pas pas.length v)[k]? =
      some (pa, v.extractLsb' (if srBit s srLEE then 8 * k else 8 * (pas.length - 1 - k)) 8) := by
  obtain ⟨hk, -⟩ := List.getElem?_eq_some_iff.1 h
  rw [bytesStored, List.getElem?_zip_eq_some]
  refine ⟨h, ?_⟩
  unfold ordered
  split
  · rw [List.getElem?_reverse (by rwa [splitBytes_length]), splitBytes_length, getElem?_splitBytes v (by omega),
      show pas.length - 1 - (pas.length - 1 - k) = k by omega]
  · exact getElem?_splitBytes v hk

/-! ### A datum stored -/

section
variable {s : State} {ps : List Place} {n : Nat}

/-- The addresses at which a store writes. -/
theorem map_fst_bytesStored (hl : ps.length = n) (v : Word) :
    (bytesStored s (addressesOf ps) n v).map (·.1) = addressesOf ps :=
  List.map_fst_zip (by rw [ordered_length, splitBytes_length, addressesOf_length, hl])

theorem readByte_storeAt_of_notMem (hl : ps.length = n) (v : Word) {pa : Nat} (h : pa ∉ addressesOf ps) :
    readByte (s.storeAt ps n v) pa = readByte s pa := by
  rw [readByte_storeAt]
  exact storedByte_of_notMem (by rwa [map_fst_bytesStored hl]) _

theorem storeAt_resv (hl : ps.length = n) (v : Word) :
    (s.storeAt ps n v).resv = resvAfterStore s (addressesOf ps) := by
  rw [State.storeAt, State.storeBytes_resv, zip_addresses, resv_writeBytes, ← bytesStored, map_fst_bytesStored hl]

/-- What a store changes, as a record update. -/
theorem State.storeAt_eq (v : Word) : s.storeAt ps n v = { s with
    mem := (s.storeAt ps n v).mem, resv := (s.storeAt ps n v).resv, stale := (s.storeAt ps n v).stale,
    unwritten := (s.storeAt ps n v).unwritten } := by
  unfold State.storeAt
  conv_lhs => rw [State.storeBytes_eq, State.writeBytes_eq]
  rw [State.storeBytes_mem, State.storeBytes_resv]

end

/-- What memory reads after a store at places that a translation gave, whatever else changes: the bytes stored, and
elsewhere what it read before; the same as before the translation without hardware reload. -/
theorem memory_of_storeAt {s u t : State} {k : Access} {ea : Word} {n : Nat} {strict : Bool} {ps : List Place}
    (hd : dataAddresses s k ea n strict = .ok ps u) {v : Word} (ht : t.mem = (u.storeAt ps n v).mem) :
    (∀ pa : Nat, readByte t pa = storedByte (bytesStored s (addressesOf ps) n v) (readByte u pa) pa) ∧
      (∀ pa : Nat, pa ∉ addressesOf ps → readByte t pa = readByte u pa) ∧
      (reloadsInHardware s.cfg = false → ∀ pa : Nat, pa ∉ addressesOf ps → readByte t pa = readByte s pa) := by
  have hmmu : mmuOnly s u := dataAddresses_frame.1 ps hd
  have hother (pa : Nat) (hpa : pa ∉ addressesOf ps) : readByte t pa = readByte u pa :=
    (memoryKept_of_mem ht pa).trans (readByte_storeAt_of_notMem (dataAddresses_length hd) v hpa)
  refine ⟨fun pa => ?_, hother, fun hr pa hpa => (hother pa hpa).trans (memoryKept_of_mmuOnly hmmu hr pa)⟩
  rw [memoryKept_of_mem ht pa, readByte_storeAt, bytesStored_congr (mmuOnly_sr hmmu)]

/-! ### Stores -/

/-- An available instruction that ends in a store. -/
theorem stores_of_storeWith {i : Instr} {s : State} {needs : Needs} {regs : List Reg} {a b : Reg} {im : Imm16} {n : Nat}
    (h : available s needs regs)
    (he : exec i s = checked s needs regs (storeWith s (effective s a im) n (gpr s b))) : stores i s a b im n := by
  intro ps u hd pas hm
  have hmmu : mmuOnly s u := dataAddresses_frame.1 ps hd
  obtain ⟨hstored, hother, hkept⟩ :=
    memory_of_storeAt hd (t := (u.storeAt ps n (gpr s b)).advance) (v := gpr s b) rfl
  refine ⟨(u.storeAt ps n (gpr s b)).advance, ?_, hmmu, hstored, hother, hkept, ?_, ?_, ?_⟩
  · rw [he, checked_eq h, storeWith_eq hd hm]
  · exact storeAt_resv (dataAddresses_length hd) _
  · exact registersKept_of_mmuOnly hmmu (by simp) (by simp)
  · rw [State.storeAt_eq]; rfl

/-- Settles O30: the bytes of a datum by their places; each store ends in `storeWith`. -/
theorem LoadStore.stores : Obligations.Stores := by
  refine ⟨fun s pas v k pa hk => getElem?_bytesStored s v hk, fun s a b i => ⟨fun h => ?sd, fun h => ⟨?sw, ?sb, ?sh⟩⟩⟩
  case sd | sw | sb | sh => exact stores_of_storeWith h rfl

/-! ### The load that reserves -/

/-- `l.lwa` where its places are known and memory answers: the reservation is on the first place (42 R458). -/
theorem loadReserve_eq {s u : State} {ea : Word} {ps : List Place}
    (hd : dataAddresses s .load ea 4 true = .ok ps u) (hm : (addressesOf ps).all (mapped s.cfg) = true) (d : Reg) :
    loadReserve s d ea =
      writeBack { u with resv := (addressesOf ps).head? } d (datumAt u (addressesOf ps)) := by
  simp only [loadReserve, memRead_eq hd hm, Attempt.finish]

/-- Settles O31: `loadReserve_eq`, and a word has a first place. -/
theorem LoadStore.loadReserve : Obligations.LoadReserve := by
  intro s u d a i ps h pas hd hm
  have hexec : exec (.lLwa d a i) s = Machine.loadReserve s d (effective s a i) := checked_eq h _
  have hmmu : mmuOnly s u := dataAddresses_frame.1 ps hd
  obtain ⟨t, ht, hreg, hmem, hrest⟩ := writeBack_spec { u with resv := pas.head? } d (datumAt u pas)
  have hresv : t.resv = pas.head? := by rw [hrest]; rfl
  refine ⟨t, ?_, hmmu, ?_, hresv, ?_, hmem, fun hr pa => ?_, ?_⟩
  · rw [hexec, loadReserve_eq hd hm, ht]
  · exact registerIs_of_mmuOnly hmmu (registerIs_of_congr (u := { u with resv := pas.head? }) rfl rfl rfl hreg)
  · exact hresv.trans_ne (head?_addressesOf_ne_none (dataAddresses_length hd))
  · exact (hmem pa).trans (memoryKept_of_mmuOnly hmmu hr pa)
  · rw [hresv]; exact hrest

/-! ### The conditional store (42 R468) -/

section
variable {s u : State} {ea : Word} {ps : List Place} (hd : dataAddresses s .store ea 4 true = .ok ps u) (v : Word)
include hd

/-- The reservation is for this word: the store is made, or memory does not answer. -/
theorem storeConditional_reserved (hr : u.resv = (addressesOf ps).head?) :
    storeConditional s ea v =
      if (addressesOf ps).all (mapped s.cfg) then writeFlag { u.storeAt ps 4 v with resv := none } true
      else enter .busError (some ea) (s.abandon u) := by
  have hcfg : u.cfg = s.cfg := mmuOnly_cfg (dataAddresses_frame.1 ps hd)
  have hsome : u.resv ≠ none := hr.trans_ne (head?_addressesOf_ne_none (dataAddresses_length hd))
  rw [storeConditional, hd, Attempt.finish, if_pos ⟨hr, hsome⟩, hcfg]

/-- There is no reservation for this word. -/
theorem storeConditional_notReserved (hr : u.resv ≠ (addressesOf ps).head?) :
    storeConditional s ea v = writeFlag { s.abandon u with resv := none } false := by
  rw [storeConditional, hd, Attempt.finish, if_neg fun h => hr h.1]

end

/-- Settles O32: the three cases of `storeConditional`. -/
theorem LoadStore.storeConditional : Obligations.StoreConditional := by
  intro s u a b i ps h hd pas
  have hexec : exec (.lSwa a b i) s = Machine.storeConditional s (effective s a i) (gpr s b) := checked_eq h _
  have hmmu : mmuOnly s u := dataAddresses_frame.1 ps hd
  refine ⟨fun hr hm => ?stores, fun hr hm hcan => ?busError, fun hr => ?fails⟩
  case stores =>
    refine ⟨_, hexec.trans ((storeConditional_reserved hd _ hr).trans (if_pos hm)), hmmu, ?_⟩
    obtain ⟨hstored, hother, hkept⟩ := memory_of_storeAt hd rfl
    refine ⟨hstored, hother, hkept, ?_, rfl, registersKept_of_mmuOnly hmmu (by simp) (by simp), ?_⟩
    · exact flagsAre_of_congr (mmuOnly_sr hmmu) (flagsAre_setF (by simp))
    · rw [State.storeAt_eq]; rfl
  case busError =>
    rw [hexec, storeConditional_reserved hd _ hr, if_neg (by simp [pas, hm])]
    exact enter_spec (s := s.abandon u) _ hcan
  case fails =>
    refine ⟨_, hexec.trans (storeConditional_notReserved hd _ hr), memoryKept_of_mem rfl, ?_, rfl,
      registersKept_of_gprs rfl rfl, rfl⟩
    exact flagsAre_setF rfl

end Sys2Proof.Machine
end

