-- ==== Sys2Proof/Proofs/Jumps.lean ====
section
/-!
PROOFS. Proofs/Jumps.lean: where the six jumps and branches go and what they leave (O37), and what a delay slot does
between a jump and its target (O38).
-/

namespace Sys2Proof.Machine

/-! ### The target of a jump relative to pc (20 R163) -/

/-- The two zeros appended to an immediate multiply its number by 4. -/
theorem toInt_append_two_zeros (n : Imm26) : (n ++ 0#2).toInt = 4 * n.toInt := by
  have hnat : (n ++ 0#2).toNat = 4 * n.toNat := by
    rw [BitVec.toNat_append, BitVec.toNat_ofNat, Nat.zero_mod, Nat.or_zero, Nat.shiftLeft_eq]
    omega
  rw [BitVec.toInt_eq_toNat_cond, BitVec.toInt_eq_toNat_cond, hnat]
  split_ifs <;> omega

/-- The byte offset of a jump agrees with its number modulo the register width (30 R304). -/
theorem toNat_jumpOffset (c : Config) (n : Imm26) :
    ((jumpOffset c n).toNat : Int) = 4 * n.toInt % 2 ^ c.xlen.bits := by
  have hsigned : (n ++ 0#2).signExtend 64 = BitVec.ofInt 64 (4 * n.toInt) := by
    rw [← toInt_append_two_zeros, BitVec.signExtend]
  rw [jumpOffset, hsigned]
  exact wordOfInt_toNat c _

/-- The target is the exact sum modulo 2^W. -/
theorem jumpTarget_eq (s : State) (n : Imm26) :
    BitVec.ofNat 64 ((s.pc.toNat + 4 * n.toInt) % 2 ^ s.cfg.xlen.bits).toNat = jumpTarget s n := by
  have hoffset := toNat_jumpOffset s.cfg n
  have hsum : ((jumpTarget s n).toNat : Int) = (s.pc.toNat + 4 * n.toInt) % 2 ^ s.cfg.xlen.bits := by
    unfold jumpTarget
    rw [narrow_toNat, BitVec.toNat_add]
    generalize jumpOffset s.cfg n = x at hoffset ⊢
    push_cast
    cases h : s.cfg.xlen <;> simp only [h, Xlen.bits] at hoffset ⊢ <;> omega
  rw [← hsum, Int.toNat_natCast, BitVec.ofNat_toNat, BitVec.setWidth_eq]

/-! ### Branching -/

/-- The instruction after the delay slot stands eight bytes after the jump, modulo 2^W. -/
theorem narrow_narrow_add_four (c : Config) (x : Word) :
    narrow c (narrow c (x + 4#64) + 4#64) = narrow c (x + 8#64) := by
  apply BitVec.eq_of_toNat_eq
  simp only [narrow_toNat, BitVec.toNat_add, BitVec.toNat_ofNat]
  cases c.xlen <;> simp only [Xlen.bits] <;> omega

/-- Where a branch that is not taken goes on: at the next instruction, after the delay slot where there is one. -/
def notTakenPc (s : State) : Word := narrow s.cfg (s.pc + if s.cfg.nd then 4#64 else 8#64)

section
variable {s : State} (h : s.ds = none)
include h

theorem seqPc_of_noDelaySlot : seqPc s = narrow s.cfg (s.pc + 4#64) := by rw [seqPc, h]

/-- Branching, as a record update. -/
theorem branchTo_eq (a : Word) : s.branchTo a = { s with
    pc := if s.cfg.nd then a else narrow s.cfg (s.pc + 4#64)
    ppc := s.pc
    ds := if s.cfg.nd then none else some { jump := s.pc, next := a } } := by
  unfold State.branchTo
  rw [seqPc_of_noDelaySlot h]
  split <;> rfl

/-- A branch that is not taken is a branch to the instruction that would follow anyway. -/
theorem fallThrough_eq_branchTo : s.fallThrough = s.branchTo (notTakenPc s) := by
  unfold State.fallThrough State.branchTo notTakenPc State.advance
  rw [seqPc_of_noDelaySlot h, narrow_narrow_add_four]
  split <;> rfl

/-- An instruction that branches, from a state in which at most registers were written, does what `branches` says. -/
theorem branches_of_branchTo {i : Instr} {u : State} {target : Option Word} {link : Bool}
    (he : exec i s = .next (u.branchTo (target.getD (notTakenPc s)))) (hu : u = { s with gprs := u.gprs })
    (hregs : if link then registerIs s (u.branchTo (target.getD (notTakenPc s))) 9#5
        (s.pc + if s.cfg.nd then 4#64 else 8#64)
      else registersKept s (u.branchTo (target.getD (notTakenPc s)))) : branches i s target link := by
  have hds : u.ds = none := by rw [hu]; exact h
  refine ⟨_, he, hregs, ?_, ?_, ?_, ?_, ?_⟩
  all_goals rw [branchTo_eq hds, hu]
  · cases hnd : s.cfg.nd <;> simp [notTakenPc, hnd]
  · cases hnd : s.cfg.nd <;> simp [notTakenPc, hnd]
  · exact memoryKept_of_mem rfl

/-- An instruction that branches and leaves no return address. -/
theorem branches_of_jump {i : Instr} {target : Option Word}
    (he : exec i s = .next (s.branchTo (target.getD (notTakenPc s)))) : branches i s target false :=
  branches_of_branchTo h he rfl (registersKept_of_gprs (by simp) (by simp))

/-- An instruction that branches and leaves its return address. -/
theorem branches_of_link {i : Instr} {a : Word}
    (he : exec i s = .next ((s.setGpr linkReg (linkAddress s)).branchTo a)) : branches i s (some a) true := by
  refine branches_of_branchTo h he (State.setGpr_eq s _ _) ?_
  refine (registerIs_congr (narrow_narrow s.cfg _)).1 (registerIs_of_setGpr (v := linkAddress s) ?_ ?_ ?_)
  · simp
  · unfold context; simp
  · simp [linkReg]

/-- An available instruction whose meaning is a transfer of control, outside a delay slot. -/
theorem checked_transfer {needs : Needs} {regs : List Reg} (ha : available s needs regs) (t : State) :
    checked s needs regs (transfer s t) = .next t := by
  rw [checked_eq ha, transfer_eq h]

end

/-- Settles O37: each of the six is a branch to its target, or to where a branch that is not taken goes on. -/
theorem jumpsAndBranches : Obligations.JumpsAndBranches := by
  intro s b n h target
  have htarget : target = jumpTarget s n := jumpTarget_eq s n
  rw [htarget]
  refine ⟨fun ha => ⟨?j, ?jal, ?bf, ?bnf⟩, fun ha => ⟨?jr, ?jalr⟩⟩
  case j => exact branches_of_jump h (checked_transfer h ha _)
  case jal => exact branches_of_link h (checked_transfer h ha _)
  case bf =>
    refine branches_of_jump h ((checked_transfer h ha _).trans ?_)
    rw [fallThrough_eq_branchTo h]
    split <;> rfl
  case bnf =>
    refine branches_of_jump h ((checked_transfer h ha _).trans ?_)
    rw [fallThrough_eq_branchTo h]
    split <;> rfl
  case jr => exact branches_of_jump h (checked_transfer h ha _)
  case jalr => exact branches_of_link h (checked_transfer h ha _)

/-! ### The delay slot -/

theorem available_base (s : State) : available s .base [] := ⟨rfl, rfl⟩

theorem exec_lJ {s : State} (h : s.ds = none) (n : Imm26) : exec (.lJ n) s = .next (s.branchTo (jumpTarget s n)) :=
  checked_transfer h (available_base s) _

theorem exec_lNop (s : State) (k : Imm16) : exec (.lNop k) s = .next s.advance := checked_eq (available_base s) _

theorem exec_lSys (s : State) (k : Imm16) : exec (.lSys k) s = enter .systemCall none s :=
  checked_eq (available_base s) _

/-- Exception entry records that the exception was raised in a delay slot (60 R732). -/
theorem entrySr_dsx (s : State) (c : Nat) : (entrySr s c).getLsbD srDSX = s.ds.isSome := by
  unfold entrySr
  simp only [apply_ite (BitVec.getLsbD · srDSX), getLsbD_putCid_low _ _ srDSX (by decide), ite_self]
  have hbits : (~~~0x00002066#32).getLsbD srDSX = false ∧ (1#32).getLsbD srDSX = false ∧
      (0x2000#32).getLsbD srDSX = true := by decide
  obtain ⟨hcleared, hone, hmark⟩ := hbits
  rw [BitVec.getLsbD_or, BitVec.getLsbD_or, BitVec.getLsbD_and, hcleared, hone]
  cases s.ds <;> simp [hmark]

/-- An exception in a delay slot saves the jump and is marked as one (60 R731, R732). -/
theorem enter_inDelaySlot {s : State} {d : DelaySlot} {e : Exc} (hd : s.ds = some d) (hcan : canEnter s e)
    (ea : Option Word) : ∃ u : State, enter e ea s = .next u ∧ Table.read u.epcr (entryContext s) = d.jump ∧
      srBit u srDSX = true := by
  obtain ⟨u, hu, hepcr, -, -, -, hsr, -⟩ := enter_spec ea hcan
  refine ⟨u, hu, ?_, ?_⟩
  · rw [hepcr, savedPc, hd]
  · rw [srBit, hsr, entrySr_dsx, hd]; rfl

/-- An available transfer of control in a delay slot is refused (43 R479 (e)). -/
theorem checked_transfer_refused {s : State} (h : s.ds ≠ none) {needs : Needs} {regs : List Reg}
    (ha : available s needs regs) (t : State) : checked s needs regs (transfer s t) = .refused .jumpInDelaySlot := by
  rw [checked_eq ha, transfer_refused h]

/-- `l.rfe` in supervisor mode returns, but in a delay slot is refused (43 R479 (e), R489). -/
theorem exec_lRfe {s : State} (h : srBit s srSM = true) :
    exec .lRfe s = if s.ds.isSome then .refused .jumpInDelaySlot else returnFrom s := by
  show checked s .base [] (if !srBit s srSM then _ else _) = _
  rw [checked_eq (available_base s), h]
  rfl

/-- Settles O38: a jump leaves its delay slot to the instruction that follows, and each transfer of control checks that
there is none. -/
theorem delaySlotThenTarget : Obligations.DelaySlotThenTarget := by
  constructor
  · intro s t n k hds hnd hjump
    rw [exec_lJ hds, branchTo_eq hds] at hjump
    simp only [hnd, Bool.false_eq_true, if_false] at hjump
    cases hjump
    refine ⟨rfl, ⟨_, exec_lNop _ k, rfl, rfl⟩, fun hcan => ?_⟩
    rw [exec_lSys]
    exact enter_inDelaySlot rfl hcan none
  · intro s n b hds
    refine ⟨fun j hj => ?_, fun ha j hj => ?_, fun hsm => ?_⟩
    · fin_cases hj <;> exact checked_transfer_refused hds (available_base s) _
    · fin_cases hj <;> exact checked_transfer_refused hds ha _
    · rw [exec_lRfe hsm, if_pos (Option.isSome_iff_ne_none.2 hds)]

end Sys2Proof.Machine
end

