-- ==== Sys2Proof/Proofs/ExceptionReturn.lean ====
section
/-!
PROOFS. Proofs/ExceptionReturn.lean: what `l.rfe` brings back from the current context (O15).
-/

namespace Sys2Proof.Machine

/-! ### CID (10_state R62) -/

/-- The CID field is what stands above the low 28 bits. -/
theorem cidField_eq_div (v : BitVec 32) : cidField v = v.toNat / 2 ^ 28 := by
  have hv := v.isLt
  rw [cidField, BitVec.extractLsb'_toNat, Nat.shiftRight_eq_div_pow]
  omega

/-- With more than one register set a value written to SR keeps its CID field. -/
theorem cidField_srValue {c : Config} (hc : 1 < c.nsets) (v : BitVec 32) : cidField (srValue c v) = cidField v := by
  unfold cidField
  congr 1
  apply BitVec.eq_of_getLsbD_eq
  intro i hi
  have hwritable : (srWritable c).getLsbD (28 + i) = true := srWritable_cid hc (by interval_cases i <;> rfl)
  have hfixed : (0x8000#32).getLsbD (28 + i) = false := by interval_cases i <;> rfl
  simp [srValue, hwritable, hfixed]

/-! ### Returning (60 R736) -/

/-- SR after a return: the saved one, its CID the context below where contexts are switched. -/
def returnedSr (s : State) : BitVec 32 :=
  let v := srValue s.cfg (Table.read s.esr (context s))
  if 1 < s.cfg.nsets ∧ srBit s srCE = true then putCid v (context s - 1) else v

/-- The state after a return. -/
def State.returned (s : State) : State :=
  { s with pc := narrow s.cfg (Table.read s.epcr (context s)), ppc := s.pc, sr := returnedSr s, ds := none }

/-- A return completes where the context that it goes to exists. -/
theorem returnFrom_eq {s : State} (hswitch : srBit s srCE = true → s.cfg.nsets ≤ 1 ∨ 0 < context s)
    (hsaved : srBit s srCE = false →
      s.cfg.nsets ≤ 1 ∨ (Table.read s.esr (context s)).toNat / 2 ^ 28 < s.cfg.nsets) :
    returnFrom s = .next s.returned := by
  unfold returnFrom State.returned returnedSr
  by_cases hone : s.cfg.nsets ≤ 1
  · simp [hone, Nat.not_lt.2 hone]
  · have hmany : 1 < s.cfg.nsets := Nat.lt_of_not_le hone
    cases hce : srBit s srCE with
    | true =>
      have hcontext : context s ≠ 0 := ((hswitch hce).resolve_left hone).ne'
      simp [hone, hmany, hcontext]
    | false =>
      have hcid : ¬s.cfg.nsets ≤ cidField (srValue s.cfg (Table.read s.esr (context s))) := by
        rw [cidField_srValue hmany, cidField_eq_div]
        exact Nat.not_le.2 ((hsaved hce).resolve_left hone)
      simp [hone, hcid]

/-- Below CID a return brings the saved SR back. -/
theorem getLsbD_returnedSr (s : State) {n : Nat} (h : n < 28) :
    (returnedSr s).getLsbD n = (srValue s.cfg (Table.read s.esr (context s))).getLsbD n := by
  unfold returnedSr
  split
  · exact getLsbD_putCid_low _ _ n h
  · rfl

/-- The context after a return: the one below, or the one saved. -/
theorem context_returned {s : State} (h : 1 < s.cfg.nsets) :
    context s.returned =
      if srBit s srCE then context s - 1 else (Table.read s.esr (context s)).toNat / 2 ^ 28 := by
  have hlt := context_lt_16 s
  rw [context_eq_cid (s := s.returned) h]
  show cidField (returnedSr s) = _
  cases hce : srBit s srCE with
  | true => simp [returnedSr, h, hce, cidField_putCid _ (show context s - 1 < 16 by omega)]
  | false => simp [returnedSr, hce, cidField_srValue h, cidField_eq_div]

/-- Settles O15: `l.rfe` ends in `State.returned`. -/
theorem returnFromExceptionCompletes : Obligations.ReturnFromExceptionCompletes := by
  intro s hsm hds hswitch hsaved
  have hexec : exec .lRfe s = .next s.returned := by
    rw [exec_lRfe hsm, hds]
    exact returnFrom_eq hswitch hsaved
  exact ⟨s.returned, hexec, rfl, fun n hn => getLsbD_returnedSr s hn, context_returned, rfl,
    registersKept_of_gprs rfl rfl, memoryKept_of_mem rfl, rfl⟩

end Sys2Proof.Machine
end

