-- ==== Sys2Proof/Proofs/Stepping.lean ====
section
/-!
PROOFS. Proofs/Stepping.lean: a step that fetches runs the instruction it decodes, and neither the debug unit nor the
performance counters change it where they are absent (O7).
-/

namespace Sys2Proof.Machine

/-! ### Special-purpose registers keep the configuration -/

/-- Where the write is not refused, the state after it is one of the same implementation. -/
def writeKeepsCfg (s : State) (x : Except Refusal State) : Prop := ∀ t : State, x = .ok t → t.cfg = s.cfg

theorem writeKeepsCfg_ok {s t : State} (h : t.cfg = s.cfg) : writeKeepsCfg s (.ok t) := by
  intro u hu; cases hu; exact h

theorem writeKeepsCfg_error (s : State) (r : Refusal) : writeKeepsCfg s (.error r) := by intro t h; cases h

theorem writeKeepsCfg_ite {s : State} {p : Prop} [Decidable p] {x y : Except Refusal State} (hx : writeKeepsCfg s x)
    (hy : writeKeepsCfg s y) : writeKeepsCfg s (if p then x else y) := by
  split
  · exact hx
  · exact hy

theorem writeKeepsCfg_writeSr (s : State) (v : BitVec 32) : writeKeepsCfg s (writeSr s v) :=
  writeKeepsCfg_ite (writeKeepsCfg_error s _) (writeKeepsCfg_ok rfl)

theorem writeWindow_cfg (s : State) (j : Nat) (v : Word) : (s.writeWindow j v).cfg = s.cfg := by
  unfold State.writeWindow
  split
  · exact State.setGprOf_cfg ..
  · rfl

/-- The registers of group 0 in the order of `writeGroup0`. -/
theorem writeKeepsCfg_writeGroup0 (s : State) (j : Nat) (v : Word) : writeKeepsCfg s (writeGroup0 s j v) := by
  refine writeKeepsCfg_ite ?evbar <| writeKeepsCfg_ite ?aecr <| writeKeepsCfg_ite ?aesr <| writeKeepsCfg_ite ?npc <|
    writeKeepsCfg_ite ?sr <| writeKeepsCfg_ite ?ppc <| writeKeepsCfg_ite ?fpcsr <| writeKeepsCfg_ite ?epcr <|
    writeKeepsCfg_ite ?eear <| writeKeepsCfg_ite ?esr <| writeKeepsCfg_ite ?window ?unassigned
  case evbar | aecr | aesr | fpcsr | epcr | eear | esr => exact writeKeepsCfg_ok (by split <;> rfl)
  case npc | ppc => exact writeKeepsCfg_error s _
  case sr => exact writeKeepsCfg_writeSr s _
  case window => exact writeKeepsCfg_ok (writeWindow_cfg ..)
  case unassigned => exact writeKeepsCfg_ok rfl

theorem discardBlock_cfg (s : State) (ea : Word) : (s.discardBlock ea).cfg = s.cfg := by
  unfold State.discardBlock State.onBlock
  split
  · rfl
  · split_ifs
    · split
      · rw [State.updateMemory_cfg, discardBytes_shape]
      · rfl
    · rfl

theorem writeDataCache_cfg (s : State) (j : Nat) (v : Word) : (s.writeDataCache j v).cfg = s.cfg := by
  unfold State.writeDataCache
  simp only
  split_ifs
  · rfl
  · rfl
  · rw [writeBackBlock_shape]
  · exact discardBlock_cfg ..
  · rw [writeBackBlock_shape]
  · rfl

theorem writePower_cfg (s : State) (j : Nat) (x : BitVec 32) : (s.writePower j x).cfg = s.cfg := by
  unfold State.writePower
  split
  · exact State.wake_cfg _
  · rfl

/-- A write to a special-purpose register keeps the configuration. -/
theorem writeKeepsCfg_sprWrite (s : State) (addr : Nat) (v : Word) : writeKeepsCfg s (sprWrite s addr v) := by
  unfold sprWrite
  simp only
  split
  · exact writeKeepsCfg_writeGroup0 s _ v
  all_goals apply writeKeepsCfg_ok
  · rw [writeMmu_shape]
  · rw [writeMmu_shape]
  · exact writeDataCache_cfg ..
  · rw [writeInsnCache_shape]
  · split_ifs <;> rfl
  · rw [writeDebug_shape]
  · rw [writeCounters_shape]
  · exact writePower_cfg ..
  · rw [writePic_shape]
  · rw [writeTimer_shape]
  · rfl

/-! ### Instructions keep the configuration -/

/-- Where the result is a next state, it is one of the same implementation. -/
def keepsCfg (s : State) (r : Result) : Prop := ∀ t : State, r = .next t → t.cfg = s.cfg

theorem keepsCfg_next {s t : State} (h : t.cfg = s.cfg) : keepsCfg s (.next t) := by
  intro u hu; cases hu; exact h

theorem keepsCfg_refused (s : State) (r : Refusal) : keepsCfg s (.refused r) := by intro t h; cases h

theorem keepsCfg_enter {s u : State} (h : u.cfg = s.cfg) (e : Exc) (ea : Option Word) :
    keepsCfg s (enter e ea u) := by
  rcases enter_cases e ea u with ⟨-, hr⟩ | ⟨-, hr⟩ | ⟨-, hr⟩ <;> rw [hr]
  · exact keepsCfg_next h
  · exact keepsCfg_refused s _
  · exact keepsCfg_next h

theorem keepsCfg_checked {s : State} {needs : Needs} {regs : List Reg} {body : Result} (h : keepsCfg s body) :
    keepsCfg s (checked s needs regs body) := by
  rcases checked_cases s needs regs body with hr | hr | ⟨-, hr⟩ <;> rw [hr]
  · exact keepsCfg_enter rfl _ _
  · exact keepsCfg_enter rfl _ _
  · exact h

theorem keepsCfg_arithWith (s : State) (k : Causes) (cy ov : Option Bool) {store : State → State}
    (h : ∀ t : State, (store t).cfg = t.cfg) : keepsCfg s (arithWith s k cy ov store) := by
  unfold arithWith
  simp only
  split_ifs
  · exact keepsCfg_enter (by simp [h]) _ _
  · exact keepsCfg_enter (by simp) _ _
  · exact keepsCfg_next (by simp [h])

theorem keepsCfg_finish {α : Type} {x : Attempt α} {s : State} {ea : Word} {f : α → State → Result}
    (hr : ∀ e t, x = .raise e t → t.cfg = s.cfg) (hf : ∀ v t, x = .ok v t → keepsCfg s (f v t)) :
    keepsCfg s (x.finish ea f) := by
  cases x with
  | ok v t => exact hf v t rfl
  | raise e t => exact keepsCfg_enter (hr e t rfl) _ _
  | refuse r => exact keepsCfg_refused s r

theorem keepsCfg_loadWith (s : State) (d : Reg) (ea : Word) (n : Nat) (ext : Word → Word) :
    keepsCfg s (loadWith s d ea n ext) :=
  keepsCfg_finish (fun _ _ h => mmuOnly_cfg (memRead_frame.2 _ h)) fun _ _ h =>
    keepsCfg_next (by simpa using mmuOnly_cfg (memRead_frame.1 _ h))

theorem keepsCfg_loadReserve (s : State) (d : Reg) (ea : Word) : keepsCfg s (loadReserve s d ea) :=
  keepsCfg_finish (fun _ _ h => mmuOnly_cfg (memRead_frame.2 _ h)) fun _ _ h =>
    keepsCfg_next (by simpa using mmuOnly_cfg (memRead_frame.1 _ h))

theorem keepsCfg_storeWith (s : State) (ea : Word) (n : Nat) (v : Word) : keepsCfg s (storeWith s ea n v) :=
  keepsCfg_finish (fun _ _ h => mmuOnly_cfg (memWrite_frame.2 _ h)) fun _ _ h => by
    obtain ⟨u, ps, hu, rfl⟩ := memWrite_frame.1 h
    exact keepsCfg_next (by simpa using mmuOnly_cfg hu)

theorem keepsCfg_storeConditional (s : State) (ea : Word) (v : Word) : keepsCfg s (storeConditional s ea v) := by
  refine keepsCfg_finish (fun _ _ h => mmuOnly_cfg (dataAddresses_frame.2 _ h)) fun ps u h => ?_
  split_ifs
  · exact keepsCfg_next (by simpa using mmuOnly_cfg (dataAddresses_frame.1 _ h))
  · exact keepsCfg_enter rfl _ _
  · exact keepsCfg_next rfl

theorem keepsCfg_transfer {s t : State} (h : t.cfg = s.cfg) : keepsCfg s (transfer s t) := by
  unfold transfer
  split
  · exact keepsCfg_refused s _
  · exact keepsCfg_next h

theorem keepsCfg_returnFrom (s : State) : keepsCfg s (returnFrom s) := by
  unfold returnFrom
  simp only
  split_ifs
  · exact keepsCfg_next rfl
  · exact keepsCfg_refused s _
  · exact keepsCfg_next rfl
  · exact keepsCfg_refused s _
  · exact keepsCfg_next rfl

theorem keepsCfg_userViolation {s t : State} (h : t.cfg = s.cfg) : keepsCfg s (userViolation s t) := by
  unfold userViolation
  split
  · exact keepsCfg_refused s _
  · exact keepsCfg_enter rfl _ _
  · exact keepsCfg_next h

theorem keepsCfg_floatComplete (s : State) (d : Reg) (r : FloatResult) : keepsCfg s (floatComplete s d r) := by
  unfold floatComplete
  simp only
  split_ifs
  · exact keepsCfg_enter (by simp) _ _
  · exact keepsCfg_next (by simp)

theorem keepsCfg_vectorFlag (s : State) (d : Reg) (v : Bool) : keepsCfg s (vectorFlag s d v) := by
  unfold vectorFlag
  split
  · exact keepsCfg_next (by simp)
  · exact keepsCfg_next (by simp)

/-- Every ending keeps the configuration. -/
theorem keepsCfg_ending {s : State} {r : Result} (h : Ending s r) : keepsCfg s r := by
  cases h with
  | writeBack d v => exact keepsCfg_next (by simp)
  | writeFlag v => exact keepsCfg_next (by simp)
  | advance => exact keepsCfg_next rfl
  | arith k hk d r => exact keepsCfg_arithWith s k r.cy r.ov fun t => State.setGpr_cfg t d r.value
  | arithMac k hk r => exact keepsCfg_arithWith s k r.cy r.ov fun _ => rfl
  | macRead d => exact keepsCfg_next (by simp)
  | load d ea n ext => exact keepsCfg_loadWith s d ea n ext
  | loadReserve d ea => exact keepsCfg_loadReserve s d ea
  | store ea n v => exact keepsCfg_storeWith s ea n v
  | storeConditional ea v => exact keepsCfg_storeConditional s ea v
  | branch ea => exact keepsCfg_transfer (by simp)
  | fallThrough => exact keepsCfg_transfer (by simp)
  | link ea => exact keepsCfg_transfer (by simp)
  | returnFrom => exact keepsCfg_returnFrom s
  | violationRead d => exact keepsCfg_userViolation (by simp)
  | violation => exact keepsCfg_userViolation rfl
  | sprWrite addr v t hmode ht => exact keepsCfg_next (t := moveOn s t) (writeKeepsCfg_sprWrite s addr v t ht)
  | float d r => exact keepsCfg_floatComplete s d r
  | floatFlag v invalid => exact keepsCfg_next rfl
  | vectorFlag d v => exact keepsCfg_vectorFlag s d v
  | exception e ea => exact keepsCfg_enter rfl e ea
  | refused r => exact keepsCfg_refused s r

/-- Every instruction keeps the configuration. -/
theorem keepsCfg_exec (i : Instr) (s : State) : keepsCfg s (exec i s) := by
  obtain ⟨body, he, hb⟩ := exec_endsByDemands i s
  rw [he]
  exact keepsCfg_checked (keepsCfg_ending hb)

/-! ### Without a debug unit and without counters nothing is seen -/

theorem State.watch_none {s : State} (h : s.cfg.debugUnit = none) (w : BitVec 10) : s.watch w = s := by
  unfold State.watch; rw [h]

theorem debugTraps_none {s : State} (h : s.cfg.debugUnit = none) (i : Instr) (w : BitVec 10) :
    debugTraps i s w = false := by
  simp [debugTraps, h]

section
variable {i : Instr} {s : State} (hdebug : s.cfg.debugUnit = none) (hcounters : s.cfg.counters = none)
include hdebug hcounters

/-- A completed instruction, in particular, raises no trap and ends in its own state. -/
theorem observeCompleted_of_noUnits {u t : State} (hu : u.cfg = s.cfg) (ht : t.cfg = s.cfg) :
    observeCompleted i s u t = .next t := by
  have htraps (w : BitVec 10) : debugTraps i u w = false := debugTraps_none (hu ▸ hdebug) i w
  have hwatch (w : BitVec 10) : t.watch w = t := State.watch_none (ht ▸ hdebug) w
  have hcount (user : Bool) (e : PerfEvents) : t.count user e = t := State.count_none (ht ▸ hcounters) user e
  simp only [observeCompleted, htraps, hwatch, hcount, Bool.false_eq_true, if_false]

/-- Where neither unit is present the result of an instruction is the result of its step. -/
theorem observe_of_noUnits {r : Result} (hr : keepsCfg s r) : observe i s r = r := by
  cases r with
  | next t =>
    have ht : t.cfg = s.cfg := hr t rfl
    unfold observe
    simp only
    split
    · exact observeCompleted_of_noUnits hdebug hcounters ht ht
    · exact observeCompleted_of_noUnits hdebug hcounters rfl ht
    · rw [State.count_none (ht ▸ hcounters)]
  | fault f => rfl
  | refused f => rfl

end

/-! ### The step of a processor that is ready -/

section
variable {s t : State} {w : BitVec 32} (hr : ready s) (hf : fetch s.fresh = .ok w t)
include hr hf

/-- A word that decodes is executed, and the debug unit and the counters see it. -/
theorem step_of_decode {i : Instr} (hd : decode w = .ok i) : step s = observe i t (exec i t) := by
  simp only [step_of_ready hr, instructionStep, hf, hd]

/-- A word that does not decode is the illegal instruction, and the counters see it. -/
theorem step_of_decode_error {e : DecodeError} (hd : decode w = .error e) :
    step s = observeFetch s.fresh (illegal t) := by
  simp only [step_of_ready hr, instructionStep, hf, hd]

end

/-- A translation keeps pc. -/
theorem mmuOnly_pc {s t : State} (h : mmuOnly s t) : t.pc = s.pc := by
  obtain ⟨l, -, heq⟩ := h
  rw [heq]
  exact State.writeBytes_pc s l

/-- Settles O7: the two ways of a word that was fetched, and that without the two units the first is `exec`. -/
theorem stepRunsTheDecodedInstruction : Obligations.StepRunsTheDecodedInstruction := by
  intro s t w hr hf
  have hmmu : mmuOnly s.fresh t := fetch_frame.1 w hf
  refine ⟨rfl, hmmu, fun i hd => step_of_decode hr hf hd, fun e hd hcan => ?illegal,
    fun hdebug hcounters i hd => ?exec⟩
  case illegal =>
    rw [step_of_decode_error hr hf hd, illegal, mmuOnly_pc hmmu]
    exact takesExceptionCounted_observeFetch _ hcan
  case exec =>
    have hcfg : t.cfg = s.cfg := mmuOnly_cfg (s := s.fresh) hmmu
    rw [step_of_decode hr hf hd]
    exact observe_of_noUnits (hcfg ▸ hdebug) (hcfg ▸ hcounters) (keepsCfg_exec i t)

end Sys2Proof.Machine
end

