-- ==== Sys2Proof/Proofs/System.lean ====
section
/-!
PROOFS. Proofs/System.lean: system call, trap, no-operation and synchronisation (O16), reading a special-purpose
register (O40), and what user mode is turned away from (O44).
-/

namespace Sys2Proof.Machine

/-! ### Instructions that only move on, or only raise -/

/-- An available instruction whose meaning is to move on. -/
theorem onlyMovesOn_of_advance {i : Instr} {s : State} {needs : Needs} {regs : List Reg}
    (he : exec i s = checked s needs regs (.next s.advance)) (h : available s needs regs) : onlyMovesOn i s :=
  he.trans (checked_eq h _)

/-- An available instruction whose meaning is to raise an exception. -/
theorem takesException_of_enter {i : Instr} {s : State} {needs : Needs} {regs : List Reg} {e : Exc} {ea : Option Word}
    (he : exec i s = checked s needs regs (enter e ea s)) (h : available s needs regs) (hcan : canEnter s e) :
    takesException (exec i s) s e ea := by
  rw [he, checked_eq h]
  exact enter_spec ea hcan

/-- Settles O16: two of the six raise and four move on. -/
theorem systemCallTrapNopAndSynchronisation : Obligations.SystemCallTrapNopAndSynchronisation :=
  fun _ _ => ⟨takesException_of_enter rfl, takesException_of_enter rfl, onlyMovesOn_of_advance rfl,
    onlyMovesOn_of_advance rfl, onlyMovesOn_of_advance rfl, onlyMovesOn_of_advance rfl⟩

/-! ### The address of a special-purpose register (44 R513) -/

/-- The address is rA OR K, cut to 16 bits. -/
theorem sprAddr_eq (x : Word) (k : Imm16) : sprAddr x k = (x.toNat ||| k.toNat) % 2 ^ 16 := by
  have hk : (zextImm k).toNat = k.toNat := BitVec.toNat_setWidth_of_le (by omega)
  rw [sprAddr, BitVec.extractLsb'_toNat, Nat.shiftRight_zero, BitVec.toNat_or, hk]

/-- The registers user mode may read. -/
theorem userReads_iff (s : State) (addr : Nat) : userReads s addr = true ↔
    addr = 0x2801 ∨ addr = 0x2802 ∨ (srBit s srSUMRA = true ∧
      (addr = 0x0014 ∨ (0x3800 ≤ addr ∧ addr ≤ 0x3807) ∨ addr = 0x5001 ∨ (0x0020 ≤ addr ∧ addr ≤ 0x003F))) := by
  simp only [userReads, Bool.or_eq_true, Bool.and_eq_true, beq_iff_eq, decide_eq_true_eq, or_assoc]

/-- The registers user mode may write. -/
theorem userWrites_iff (addr : Nat) : userWrites addr = true ↔
    addr ∈ [0x2801, 0x2802, 0x1801, 0x1802, 0x1804, 0x1805, 0x2001, 0x2002, 0x2003] := by
  simp only [userWrites, Bool.or_eq_true, beq_iff_eq, List.mem_cons, List.not_mem_nil, or_false, or_assoc]

/-! ### Moves where the mode may access -/

section
variable {s : State} {addr : Nat} {k : Imm16}

/-- `l.mfspr` where the mode may read writes rD back. -/
theorem exec_lMfspr {d a : Reg} (h : available s .base [d, a]) (haddr : sprAddr (gpr s a) k = addr)
    (hmode : (srBit s srSM || userReads s addr) = true) :
    exec (.lMfspr d a k) s = writeBack s d (sprRead s addr) := by
  subst haddr
  exact (checked_eq h _).trans (if_pos hmode)

/-- `l.mfspr` where the mode may not read is a violation, which where it is ignored clears rD. -/
theorem exec_lMfspr_violation {d a : Reg} (h : available s .base [d, a]) (haddr : sprAddr (gpr s a) k = addr)
    (hmode : (srBit s srSM || userReads s addr) = false) :
    exec (.lMfspr d a k) s = userViolation s (s.setGpr d 0#64).advance := by
  subst haddr
  exact (checked_eq h _).trans (if_neg (Bool.eq_false_iff.1 hmode))

/-- `l.mtspr` where the mode may write, and the write is not refused. -/
theorem exec_lMtspr_ok {a b : Reg} {t : State} (h : available s .base [a, b]) (haddr : sprAddr (gpr s a) k = addr)
    (hmode : (srBit s srSM || userWrites addr) = true) (hw : sprWrite s addr (gpr s b) = .ok t) :
    exec (.lMtspr a b k) s = .next (moveOn s t) := by
  subst haddr
  refine (checked_eq h _).trans ((if_pos hmode).trans ?_)
  rw [hw]

/-- `l.mtspr` where the mode may write, and the write is refused. -/
theorem exec_lMtspr_error {a b : Reg} {r : Refusal} (h : available s .base [a, b])
    (haddr : sprAddr (gpr s a) k = addr) (hmode : (srBit s srSM || userWrites addr) = true)
    (hw : sprWrite s addr (gpr s b) = .error r) : exec (.lMtspr a b k) s = .refused r := by
  subst haddr
  refine (checked_eq h _).trans ((if_pos hmode).trans ?_)
  rw [hw]

/-- `l.mtspr` where the mode may not write is a violation. -/
theorem exec_lMtspr_violation {a b : Reg} (h : available s .base [a, b]) (haddr : sprAddr (gpr s a) k = addr)
    (hmode : (srBit s srSM || userWrites addr) = false) : exec (.lMtspr a b k) s = userViolation s s.advance := by
  subst haddr
  exact (checked_eq h _).trans (if_neg (Bool.eq_false_iff.1 hmode))

end

/-- Settles O40: where the mode may read, `l.mfspr` is a write of rD. -/
theorem moveFromSpr : Obligations.MoveFromSpr := by
  intro s d a k h addr hmode
  have hexec : exec (.lMfspr d a k) s = writeBack s d (sprRead s addr) := by
    refine exec_lMfspr h (sprAddr_eq _ _) ?_
    rwa [Bool.or_eq_true, userReads_iff]
  exact writesRegister_of_writeBack h (hexec.trans (checked_eq h _).symm)

/-! ### User mode (44 R515) -/

/-- `l.rfe` in user mode is a violation. -/
theorem exec_lRfe_violation {s : State} (h : srBit s srSM = false) :
    exec .lRfe s = userViolation s s.advance := by
  show checked s .base [] (if !srBit s srSM then _ else _) = _
  rw [checked_eq (available_base s), h]
  rfl

section
variable {i : Instr} {s ignored : State} (h : exec i s = userViolation s ignored)
include h

theorem refused_of_violation (hp : s.cfg.userSpr = .refuse) : exec i s = .refused .userViolation := by
  rw [h, userViolation, hp]

theorem takesException_of_violation (hp : s.cfg.userSpr = .illegal) (hcan : canEnter s .illegal) :
    takesException (exec i s) s .illegal (some s.pc) := by
  rw [h, userViolation, hp]
  exact enter_spec _ hcan

theorem next_of_violation (hp : s.cfg.userSpr = .ignore) : exec i s = .next ignored := by
  rw [h, userViolation, hp]

end

/-- Every register of a part of a list of registers that exist exists. -/
theorem available_of_subset {s : State} {needs : Needs} {regs regs' : List Reg} (h : available s needs regs)
    (hsub : regs' ⊆ regs) : available s needs regs' := by
  obtain ⟨hneeds, hregs⟩ := h
  exact ⟨hneeds, List.all_eq_true.2 fun r hr => List.all_eq_true.1 hregs r (hsub hr)⟩

/-- Settles O44: each of the three is a violation, and a violation is what the policy says. -/
theorem userModeIsTurnedAway : Obligations.UserModeIsTurnedAway := by
  intro s d a b k huser h addr
  have haddr : sprAddr (gpr s a) k = addr := sprAddr_eq _ _
  refine ⟨fun hread => ?mfspr, fun hwrite => ?mtspr, ?rfe⟩
  case mfspr =>
    have hda : available s .base [d, a] := available_of_subset h (by simp)
    have hexec := exec_lMfspr_violation hda haddr (by rw [huser, hread]; rfl)
    exact ⟨refused_of_violation hexec, takesException_of_violation hexec, fun hp =>
      writesRegister_of_writeBack hda ((next_of_violation hexec hp).trans (checked_eq hda _).symm)⟩
  case mtspr =>
    have hab : available s .base [a, b] := available_of_subset h (by simp)
    have hexec := exec_lMtspr_violation hab haddr (by rw [huser, hwrite]; rfl)
    exact ⟨refused_of_violation hexec, takesException_of_violation hexec, next_of_violation hexec⟩
  case rfe =>
    have hexec := exec_lRfe_violation huser
    exact ⟨refused_of_violation hexec, takesException_of_violation hexec, next_of_violation hexec⟩

end Sys2Proof.Machine
end

