-- ==== Sys2Proof/Proofs/MacUnit.lean ====
section
/-!
PROOFS. Proofs/MacUnit.lean: the eight instructions of the multiply-accumulate unit where no range exception is raised
(O39).
-/

namespace Sys2Proof.Machine

/-! ### Results of 64 bits -/

/-- Overflow of 64 bits is what the signed range does not hold. -/
theorem not_fitsSigned_64 (z : Int) : (!fitsSigned 64 z) = decide (z < -2 ^ 63 ∨ 2 ^ 63 ≤ z) := by
  unfold fitsSigned
  rw [← decide_not]
  exact decide_eq_decide.2 (by omega)

/-- MAC and a signed product by their exact sum. -/
theorem macSigned_eq (s : State) (p : Int) :
    let z := (s.machi ++ s.maclo).toInt + p
    macSigned s p = { value := BitVec.ofInt 64 z, cy := none, ov := some (decide (z < -2 ^ 63 ∨ 2 ^ 63 ≤ z)) } := by
  simp only [macSigned, macValue, not_fitsSigned_64]

/-- A signed product by its exact value. -/
theorem muldSigned_eq (p : Int) :
    muldSigned p = { value := BitVec.ofInt 64 p, cy := none, ov := some (decide (p < -2 ^ 63 ∨ 2 ^ 63 ≤ p)) } := by
  simp only [muldSigned, not_fitsSigned_64]

/-- MAC and an unsigned product by their exact sum. -/
theorem macUnsigned_natCast (s : State) (q : Nat) :
    let n := (s.machi ++ s.maclo).toNat + q
    macUnsigned s q = { value := BitVec.ofNat 64 n, cy := some (decide (2 ^ 64 ≤ n)), ov := none } := by
  simp only [macUnsigned, macValue, ← Nat.cast_add, not_fitsUnsigned_natCast, BitVec.ofInt_natCast]

/-- MAC without an unsigned product by their exact difference. -/
theorem macUnsigned_neg_natCast (s : State) (q : Nat) :
    let n := (s.machi ++ s.maclo).toNat
    macUnsigned s (-q) = { value := BitVec.ofInt 64 ((n : Int) - q), cy := some (decide (n < q)), ov := none } := by
  simp only [macUnsigned, macValue, ← sub_eq_add_neg, not_fitsUnsigned_sub (s.machi ++ s.maclo).isLt]

/-- An unsigned product by its exact value. -/
theorem muldUnsigned_natCast (q : Nat) :
    muldUnsigned q = { value := BitVec.ofNat 64 q, cy := some (decide (2 ^ 64 ≤ q)), ov := none } := by
  simp only [muldUnsigned, not_fitsUnsigned_natCast, BitVec.ofInt_natCast]

/-! ### The accumulator as destination -/

/-- An instruction that is available and ends in a result for the accumulator writes it with its flags. -/
theorem writesMac_of_eq {i : Instr} {s : State} {needs : Needs} {regs : List Reg} {k : Causes} {r : Arith}
    {v : BitVec 64} {cy ov : Option Bool}
    (he : exec i s = checked s needs regs (arithWith s k r.cy r.ov fun t => t.setMac r.value))
    (hr : r = { value := v, cy := cy, ov := ov }) (h : available s needs regs) (hfree : rangeTraps s k cy ov = false) :
    writesMac i s v cy ov := by
  subst hr
  rw [checked_eq h] at he
  obtain ⟨t, ht, hmac, hflags, hregs, hmem, hrec⟩ := arithWith_setMac_spec (r := ⟨v, cy, ov⟩) hfree
  exact ⟨t, he.trans ht, hmac, hflags, hregs, hmem, hrec⟩

/-! ### The accumulator as source -/

/-- What `l.macrc` reads is MAC cut to the register width (44 R506). -/
theorem macRead_eq (s : State) : macRead s = narrow s.cfg (BitVec.ofNat 64 (s.machi ++ s.maclo).toNat) := by
  have hlow : Word.lo32 (s.machi ++ s.maclo) = s.maclo := BitVec.setWidth_append_eq_right
  rw [BitVec.ofNat_toNat, BitVec.setWidth_eq]
  unfold macRead narrow
  cases s.cfg.xlen with
  | x32 => simp only [hlow]
  | x64 => rfl

/-- `l.macrc` moves MAC to a register and clears it. -/
theorem exec_lMacrc_spec {s : State} {d : Reg} (h : available s (.macUnit .macrc) [d]) :
    ∃ t : State, exec (.lMacrc d) s = .next t ∧
      registerIs s t d (BitVec.ofNat 64 (s.machi ++ s.maclo).toNat) ∧ t.machi = 0#32 ∧ t.maclo = 0#32 ∧
      memoryKept s t ∧ t = { movedOn s with gprs := t.gprs, machi := 0#32, maclo := 0#32 } := by
  refine ⟨((s.setGpr d (macRead s)).setMac 0#64).advance, checked_eq h _, ?_, rfl, rfl, ?_, ?_⟩
  · refine (registerIs_congr ?_).1 (registerIs_of_setGpr (v := macRead s) ?_ ?_ ?_)
    · rw [macRead_eq, narrow_narrow]
    · simp
    · unfold context; simp
    · simp
  · exact memoryKept_of_mem (by simp)
  · rw [State.setGpr_eq]; rfl

/-- Settles O39: seven end in an exact sum, difference or product, an immediate keeping its number, and `l.macrc` in
MAC. -/
theorem multiplyAccumulate : Obligations.MultiplyAccumulate := by
  intro s d a b i
  refine ⟨?mac, ?maci, ?msb, ?macu, ?msbu, ?muld, ?muldu, exec_lMacrc_spec⟩
  case mac => exact writesMac_of_eq rfl (macSigned_eq s _)
  case maci =>
    refine writesMac_of_eq rfl (Eq.trans ?_ (macSigned_eq s _))
    rw [signedW_sextImm]
  case msb => exact writesMac_of_eq rfl (macSigned_eq s _)
  case macu => exact writesMac_of_eq rfl (macUnsigned_natCast s _)
  case msbu => exact writesMac_of_eq rfl (macUnsigned_neg_natCast s _)
  case muld => exact writesMac_of_eq rfl (muldSigned_eq _)
  case muldu => exact writesMac_of_eq rfl (muldUnsigned_natCast _)

end Sys2Proof.Machine
end

