-- ==== Sys2Proof/Proofs/SprWrites.lean ====
section
/-!
PROOFS. Proofs/SprWrites.lean: what each special-purpose register reads after a write to it, and what a write does that
acts instead (O43).
-/

namespace Sys2Proof.Machine

theorem getLsbD_lo32 (v : Word) {n : Nat} (hn : n < 32) : (Word.lo32 v).getLsbD n = v.getLsbD n := by
  simp [Word.lo32, hn]

/-! ### The groups -/

section
variable (s : State) {addr : Nat} (v : Word)

theorem sprWrite_group0 (h : addr < 2048) : sprWrite s addr v = writeGroup0 s addr v := by
  simp only [sprWrite, Nat.div_eq_of_lt h, Nat.mod_eq_of_lt h]

theorem sprWrite_dmmu (h : addr / 2048 = 1) : sprWrite s addr v = .ok (s.writeMmu .load (addr % 2048) v) := by
  simp only [sprWrite, h]

theorem sprWrite_immu (h : addr / 2048 = 2) : sprWrite s addr v = .ok (s.writeMmu .fetch (addr % 2048) v) := by
  simp only [sprWrite, h]

theorem sprWrite_dataCache (h : addr / 2048 = 3) : sprWrite s addr v = .ok (s.writeDataCache (addr % 2048) v) := by
  simp only [sprWrite, h]

theorem sprWrite_insnCache (h : addr / 2048 = 4) : sprWrite s addr v = .ok (s.writeInsnCache (addr % 2048) v) := by
  simp only [sprWrite, h]

theorem sprWrite_debug (h : addr / 2048 = 6) :
    sprWrite s addr v = .ok (s.writeDebug (addr % 2048) (Word.lo32 v)) := by
  simp only [sprWrite, h]

theorem sprWrite_counters (h : addr / 2048 = 7) :
    sprWrite s addr v = .ok (s.writeCounters (addr % 2048) (Word.lo32 v)) := by
  simp only [sprWrite, h]

theorem sprWrite_power (h : addr / 2048 = 8) :
    sprWrite s addr v = .ok (s.writePower (addr % 2048) (Word.lo32 v)) := by
  simp only [sprWrite, h]

theorem sprWrite_pic (h : addr / 2048 = 9) : sprWrite s addr v = .ok (s.writePic (addr % 2048) (Word.lo32 v)) := by
  simp only [sprWrite, h]

theorem sprWrite_timer (h : addr / 2048 = 10) :
    sprWrite s addr v = .ok (s.writeTimer (addr % 2048) (Word.lo32 v)) := by
  simp only [sprWrite, h]

/-- The data MMU is written alike as the MMU of loads and as that of stores. -/
theorem sprWrite_mmu (k : Access) {j : Nat} (hj : j < 2048) :
    sprWrite s (mmuBase k + j) v = .ok (s.writeMmu k j v) := by
  have hdata : sprWrite s (0x0800 + j) v = .ok (s.writeMmu .load j v) := by
    rw [sprWrite_dmmu s v (by omega), show (0x0800 + j) % 2048 = j by omega]
  have hinsn : sprWrite s (0x1000 + j) v = .ok (s.writeMmu .fetch j v) := by
    rw [sprWrite_immu s v (by omega), show (0x1000 + j) % 2048 = j by omega]
  cases k with
  | load => exact hdata
  | store => exact hdata
  | fetch => exact hinsn

end

/-! ### Reading back -/

/-- A write of `v` is not refused, and its address then reads `w`. -/
def readsBack (s : State) (addr : Nat) (v w : Word) : Prop :=
  ∃ t : State, sprWrite s addr v = .ok t ∧ sprRead t addr = w

theorem sprRead_of_readsBack {s t : State} {addr : Nat} {v w : Word} (h : readsBack s addr v w)
    (ht : sprWrite s addr v = .ok t) : sprRead t addr = w := by
  obtain ⟨u, hu, hread⟩ := h
  cases hu.symm.trans ht
  exact hread

/-- A register of 32 bits by its number. -/
theorem sprRead_ofNat_of_readsBack {s t : State} {addr : Nat} {v : Word} {w : BitVec 32}
    (h : readsBack s addr v (Word.ofLo32 w)) (ht : sprWrite s addr v = .ok t) :
    sprRead t addr = BitVec.ofNat 64 w.toNat :=
  (sprRead_of_readsBack h ht).trans (ofLo32_eq_ofNat w)

/-- A register of 32 bits that has no reserved ones. -/
theorem sprRead_allOnes_of_readsBack {s t : State} {addr : Nat} {v : Word} {w : BitVec 32}
    (h : readsBack s addr v (Word.ofLo32 w)) (ht : sprWrite s addr v = .ok t) :
    sprRead t addr = BitVec.ofNat 64 (w &&& 0xFFFFFFFF#32).toNat := by
  rw [sprRead_ofNat_of_readsBack h ht, show 0xFFFFFFFF#32 = BitVec.allOnes 32 from rfl, BitVec.and_allOnes]

/-! ### Group 0

In the proofs below `by exact` leaves the state that is read to be found from what is to be shown: it is the one after
the write, of which the hypotheses about the configuration hold as well. -/

section
variable {s : State} (v : Word)

theorem readsBack_evbar (h : s.cfg.evbarPresent = true) :
    readsBack s 0x000B v (Word.ofLo32 (Word.lo32 v &&& 0xFFFFE000#32)) :=
  ⟨{ s with evbar := _ }, congrArg Except.ok (if_pos h), sprRead_evbar h⟩

theorem readsBack_aecr (h : s.cfg.aecsrPresent = true) :
    readsBack s 0x000C v (Word.ofLo32 (Word.lo32 v &&& 0x7F#32)) :=
  ⟨{ s with aecr := _ }, congrArg Except.ok (if_pos h), (sprRead_aecsr (by exact h)).1⟩

theorem readsBack_aesr (h : s.cfg.aecsrPresent = true) :
    readsBack s 0x000D v (Word.ofLo32 (Word.lo32 v &&& 0x7F#32)) :=
  ⟨{ s with aesr := _ }, congrArg Except.ok (if_pos h), (sprRead_aecsr (by exact h)).2⟩

theorem readsBack_fpcsr (h : s.cfg.orfpx32 = true ∨ (s.cfg.orfpx64 = true ∧ s.cfg.xlen = .x64)) :
    readsBack s 0x0014 v (Word.ofLo32 (Word.lo32 v &&& 0xFFF#32)) :=
  ⟨{ s with fpcsr := _ }, congrArg Except.ok (if_pos (by simpa [fpcsrPresent] using h)), sprRead_fpcsr h⟩

/-- EPCR0 to EPCR15. -/
theorem readsBack_epcr {j : Nat} (hj : j < 16) (hs : j < s.cfg.nsets) :
    readsBack s (0x20 + j) v (narrow s.cfg v) := by
  refine ⟨{ s with epcr := Table.write s.epcr j (narrow s.cfg v) }, ?_, ?_⟩
  · rw [sprWrite_group0 s v (by omega)]
    simp (disch := omega) only [writeGroup0, if_neg, if_pos, Nat.add_sub_cancel_left]
  · refine (sprRead_epcr _ hj (by exact hs)).trans ?_
    rw [Table.read_write_same, narrow_narrow]

/-- EEAR0 to EEAR15. -/
theorem readsBack_eear {j : Nat} (hj : j < 16) (hs : j < s.cfg.nsets) :
    readsBack s (0x30 + j) v (narrow s.cfg v) := by
  refine ⟨{ s with eear := Table.write s.eear j (narrow s.cfg v) }, ?_, ?_⟩
  · rw [sprWrite_group0 s v (by omega)]
    simp (disch := omega) only [writeGroup0, if_neg, if_pos, Nat.add_sub_cancel_left]
  · refine (sprRead_eear _ hj (by exact hs)).trans ?_
    rw [Table.read_write_same, narrow_narrow]

/-- ESR0 to ESR15. -/
theorem readsBack_esr {j : Nat} (hj : j < 16) (hs : j < s.cfg.nsets) :
    readsBack s (0x40 + j) v (Word.ofLo32 (Word.lo32 v)) := by
  refine ⟨{ s with esr := Table.write s.esr j (Word.lo32 v) }, ?_, ?_⟩
  · rw [sprWrite_group0 s v (by omega)]
    simp (disch := omega) only [writeGroup0, if_neg, if_pos, Nat.add_sub_cancel_left]
  · refine (sprRead_esr _ hj (by exact hs)).trans ?_
    rw [Table.read_write_same]

/-- The general registers, but for a hard-wired r0 (10_state R46, R49). -/
theorem readsBack_gpr {set r : Nat} (hset : set < 16) (hs : set < s.cfg.nsets) (hr : r < s.cfg.ngpr) (h32 : r < 32)
    (h0 : s.cfg.r0Hardwired = false ∨ r ≠ 0) : readsBack s (0x400 + 32 * set + r) v (narrow s.cfg v) := by
  refine ⟨s.setGprOf set r v, ?_, ?_⟩
  · have hj : 0x400 + 32 * set + r - 1024 = 32 * set + r := by omega
    have hdiv : (32 * set + r) / 32 = set := by omega
    have hmod : (32 * set + r) % 32 = r := by omega
    rw [sprWrite_group0 s v (by omega)]
    simp (disch := omega) only [writeGroup0, if_neg, if_pos, hj, State.writeWindow, hdiv, hmod]
  · have hwired : ¬(s.cfg.r0Hardwired = true ∧ r = 0) := by
      rintro ⟨hw, rfl⟩
      simp [hw] at h0
    rw [sprRead_gpr _ hset (by simpa using hs) (by simpa using hr) h32, gprOf_setGprOf _ _ _ _ _ _ h32 h32,
      if_pos ⟨rfl, rfl, hwired⟩]

end

/-! ### The masks of the MMU registers (20 R206, R211 to R223) -/

/-- On a 64-bit implementation the page number of a match register is shifted by MMU64_LAYOUT. -/
theorem fields_matchShift (c : Config) (low page32 page64 : Word) :
    fields c low page32 page64 (matchShift c) = fields c low page32 page64 c.mmu64.matchShift := by
  unfold fields matchShift
  cases c.xlen <;> rfl

/-- So is that of a translate register. -/
theorem fields_translateShift (c : Config) (low page32 page64 : Word) :
    fields c low page32 page64 (translateShift c) = fields c low page32 page64 c.mmu64.translateShift := by
  unfold fields translateShift
  cases c.xlen <;> rfl

/-- Bits that are writable beside the page number. -/
theorem fields_or (c : Config) (low low' page32 page64 : Word) (shift : Nat) :
    fields c low page32 page64 shift ||| low' = fields c (low ||| low') page32 page64 shift := by
  unfold fields
  cases c.xlen <;> simp only [BitVec.or_assoc, BitVec.or_comm low']

theorem atbMrMask_eq (c : Config) :
    atbMrMask c = fields c 0x3F#64 0xFFFFFC00#64 0x00003FFFFFFFFC00#64 c.mmu64.matchShift :=
  fields_matchShift c _ _ _

theorem tlbMrMask_eq (c : Config) :
    tlbMrMask c = fields c 0x3F#64 0xFFFFE000#64 0x00003FFFFFFFE000#64 c.mmu64.matchShift :=
  fields_matchShift c _ _ _

theorem atbTrMask_eq (c : Config) (k : Access) :
    atbTrMask c k = fields c (if k = .fetch then 0xFF#64 else 0x3FF#64) 0xFFFFFC00#64 0xFFFFFFFFFFFFFC00#64
      c.mmu64.translateShift := by
  cases k <;> exact fields_translateShift c _ _ _

theorem tlbTrMask_eq (c : Config) (k : Access) :
    tlbTrMask c k = fields c (if k = .fetch then 0xFF#64 else 0x3FF#64) 0xFFFFE000#64 0xFFFFFFFFFFFFE000#64
      c.mmu64.translateShift := by
  cases k <;> exact fields_translateShift c _ _ _

theorem protectMask_eq (k : Access) : protectMask k = if k = .fetch then 0x00003FFF#32 else 0x0FFFFFFF#32 := by
  cases k <;> rfl

/-- A value masked to the register width has it. -/
theorem narrow_and {c : Config} {m : Word} (h : narrow c m = m) (x : Word) : narrow c (x &&& m) = x &&& m := by
  have hm : m.toNat < 2 ^ c.xlen.bits := by
    rw [← h, narrow_toNat]
    exact Nat.mod_lt _ (by positivity)
  apply BitVec.eq_of_toNat_eq
  rw [narrow_toNat, BitVec.toNat_and]
  exact Nat.mod_eq_of_lt (lt_of_le_of_lt Nat.and_le_right hm)

/-- Fields that lie in 32 bits on a 32-bit implementation have the register width. -/
theorem narrow_and_fields {c : Config} {low page32 : Word}
    (h : Word.ofLo32 (Word.lo32 (low ||| page32)) = low ||| page32) (page64 : Word) (shift : Nat) (x : Word) :
    narrow c (x &&& fields c low page32 page64 shift) = x &&& fields c low page32 page64 shift := by
  apply narrow_and
  unfold narrow fields
  cases c.xlen with
  | x32 => exact h
  | x64 => rfl

/-! ### The MMU registers -/

/-- See `mmuOf_setMmu`. -/
theorem mmuOf_setMmu_self (s : State) (k : Access) (m : Mmu) : mmuOf (s.setMmu k m) k = m := by cases k <;> rfl

/-- The lowest bit of a datum after every datum had it cleared. -/
theorem getLsbD_read_mapData_clear (t : Table 64) (j : Nat) :
    (Table.read (Table.mapData (fun r => r &&& ~~~1#64) t) j).getLsbD 0 = false := by
  have hclear (r : Word) : (r &&& ~~~1#64).getLsbD 0 = false := by simp
  induction t with
  | nil => simp [Table.mapData]
  | cons c rest ih =>
    obtain ⟨i, r⟩ := c
    unfold Table.mapData
    split_ifs
    · exact ih
    · unfold Table.read
      split_ifs
      · rfl
      · exact hclear r
      · exact ih

/-- V of a match register is cleared (20 R234). -/
def clearValid (n : Nat) (t : Table 64) (y : Nat) : Table 64 :=
  Table.write t (tlbIndex y n) (Table.read t (tlbIndex y n) &&& ~~~1#64)

/-- V of the ways of a set after it was cleared in some of them. -/
theorem getLsbD_read_clearValid (n : Nat) (l : List Nat) (t : Table 64) (y : Nat) :
    (Table.read (l.foldl (clearValid n) t) (tlbIndex y n)).getLsbD 0 =
      ((Table.read t (tlbIndex y n)).getLsbD 0 && !decide (y ∈ l)) := by
  induction l generalizing t with
  | nil => simp
  | cons z rest ih =>
    rw [List.foldl_cons, ih]
    by_cases hy : y = z
    · subst hy
      simp [clearValid]
    · have hne : tlbIndex y n ≠ tlbIndex z n := by unfold tlbIndex; omega
      rw [clearValid, Table.read_write_other _ _ hne]
      simp [hy]

/-- V of the ways of a set after a write to xTLBEIR (20 R234). -/
theorem getLsbD_invalidated (s : State) (m : Mmu) (g : MmuConfig) (a : Word) {y : Nat} (hy : y < g.ways) :
    (Table.read (invalidated s m g a).tlbMr (tlbIndex y (tlbSet g a))).getLsbD 0 =
      ((Table.read m.tlbMr (tlbIndex y (tlbSet g a))).getLsbD 0 && !tlbClaims s m a (tlbSet g a) y) := by
  refine (getLsbD_read_clearValid (tlbSet g a) _ m.tlbMr y).trans ?_
  simp [List.mem_filter, hy]

/-- LRU, which stands in a table of its own, taken out of a value and put back in its place. -/
theorem lruField_extract (v : Word) : BitVec.ofNat 64 (64 * (v.extractLsb' 6 2).toNat) = v &&& 0xC0#64 := by
  rw [← lruField_eq]
  apply BitVec.eq_of_getLsbD_eq
  intro n hn
  have hmask : (0xC0#64).getLsbD n = (decide (6 ≤ n) && decide (n < 8)) := by interval_cases n <;> rfl
  rw [BitVec.getLsbD_and, hmask]
  by_cases h6 : 6 ≤ n
  · have hlt : n - 6 < 2 ↔ n < 8 := by omega
    simp [h6, hn, hlt, show 6 + (n - 6) = n by omega, Bool.and_comm]
  · simp [h6, show n < 6 by omega]

section
variable {s : State} {k : Access} {g : MmuConfig} (hg : mmuConfig s.cfg k = some g) (v : Word)
include hg

theorem mmuConfig_setMmu (m : Mmu) : mmuConfig (s.setMmu k m).cfg k = some g := by
  rwa [State.setMmu_cfg]

/-- A write of xMMUCR, which with DTF invalidates every entry of the TLB (20 R230). -/
theorem sprWrite_mmuControl (h : g.control = true) : sprWrite s (mmuBase k) v = .ok (s.setMmu k
    (let m := { mmuOf s k with control := Word.lo32 v &&& 0xFFFFFC00#32 }
     if v.getLsbD 0 then m.flush else m)) := by
  rw [← Nat.add_zero (mmuBase k), sprWrite_mmu s v k (by omega)]
  simp only [State.writeMmu, hg, h, if_true]

/-- A write of xTLBEIR (20 R234). -/
theorem sprWrite_tlbInvalidate (h : g.invalidate = true) :
    sprWrite s (mmuBase k + 2) v = .ok (s.setMmu k (invalidated s (mmuOf s k) g (narrow s.cfg v))) := by
  rw [sprWrite_mmu s v k (by omega)]
  simp (disch := omega) only [State.writeMmu, hg, if_neg, h, if_true]

theorem readsBack_mmuControl (h : g.control = true) :
    readsBack s (mmuBase k) v (Word.ofLo32 (Word.lo32 v &&& 0xFFFFFC00#32)) := by
  refine ⟨_, sprWrite_mmuControl hg v h, ?_⟩
  rw [sprRead_mmuControl (mmuConfig_setMmu hg _) h, mmuOf_setMmu_self]
  split <;> rfl

theorem readsBack_mmuProtect (h : g.protect = true) :
    readsBack s (mmuBase k + 1) v (Word.ofLo32 (Word.lo32 v &&& protectMask k)) := by
  refine ⟨s.setMmu k { mmuOf s k with protect := Word.lo32 v &&& protectMask k }, ?_, ?_⟩
  · rw [sprWrite_mmu s v k (by omega)]
    simp (disch := omega) only [State.writeMmu, hg, if_neg, h, if_true]
  · rw [sprRead_mmuProtect (mmuConfig_setMmu hg _) h, mmuOf_setMmu_self]

theorem readsBack_atbMatch {j : Nat} (hj : j < 4) (h : j < g.atbs) :
    readsBack s (mmuBase k + 4 + j) v (v &&& atbMrMask s.cfg) := by
  refine ⟨s.setMmu k { mmuOf s k with atbMr := Table.write (mmuOf s k).atbMr j (v &&& atbMrMask s.cfg) }, ?_, ?_⟩
  · rw [Nat.add_assoc, sprWrite_mmu s v k (by omega)]
    simp (disch := omega) only [State.writeMmu, hg, if_neg, if_pos, Nat.add_sub_cancel_left]
  · rw [sprRead_atbMatch (mmuConfig_setMmu hg _) hj h, mmuOf_setMmu_self, Table.read_write_same, State.setMmu_cfg]
    exact narrow_and_fields rfl _ _ v

theorem readsBack_atbTranslate {j : Nat} (hj : j < 4) (h : j < g.atbs) :
    readsBack s (mmuBase k + 8 + j) v (v &&& atbTrMask s.cfg k) := by
  refine ⟨s.setMmu k { mmuOf s k with atbTr := Table.write (mmuOf s k).atbTr j (v &&& atbTrMask s.cfg k) }, ?_, ?_⟩
  · rw [Nat.add_assoc, sprWrite_mmu s v k (by omega)]
    simp (disch := omega) only [State.writeMmu, hg, if_neg, if_pos, Nat.add_sub_cancel_left]
  · rw [sprRead_atbTranslate (mmuConfig_setMmu hg _) hj h, mmuOf_setMmu_self, Table.read_write_same, State.setMmu_cfg]
    cases k <;> exact narrow_and_fields rfl _ _ v

theorem readsBack_tlbMatch {y n : Nat} (hy4 : y < 4) (hy : y < g.ways) (hn : n < 128) (hs : n < 2 ^ g.setsLog) :
    readsBack s (mmuBase k + 512 + 256 * y + n) v (v &&& (tlbMrMask s.cfg ||| 0xC0#64)) := by
  refine ⟨s.setMmu k { mmuOf s k with
    tlbMr := Table.write (mmuOf s k).tlbMr (tlbIndex y n) (v &&& tlbMrMask s.cfg)
    tlbLru := Table.write (mmuOf s k).tlbLru (tlbIndex y n) (v.extractLsb' 6 2) }, ?_, ?_⟩
  · rw [show mmuBase k + 512 + 256 * y + n = mmuBase k + (512 + 256 * y + n) by omega, sprWrite_mmu s v k (by omega)]
    simp (disch := omega) only [State.writeMmu, hg, if_neg, if_pos, tlbRegister_match hy hn hs]
  · rw [sprRead_tlbMatch (mmuConfig_setMmu hg _) hy4 hy hn hs, mmuOf_setMmu_self, ← tlbIndex, Table.read_write_same,
      Table.read_write_same, State.setMmu_cfg, lruField_extract, ← BitVec.and_or_distrib_left, tlbMrMask, fields_or]
    exact narrow_and_fields rfl _ _ v

theorem readsBack_tlbTranslate {y n : Nat} (hy4 : y < 4) (hy : y < g.ways) (hn : n < 128) (hs : n < 2 ^ g.setsLog) :
    readsBack s (mmuBase k + 640 + 256 * y + n) v (v &&& tlbTrMask s.cfg k) := by
  refine ⟨s.setMmu k { mmuOf s k with
    tlbTr := Table.write (mmuOf s k).tlbTr (tlbIndex y n) (v &&& tlbTrMask s.cfg k) }, ?_, ?_⟩
  · rw [show mmuBase k + 640 + 256 * y + n = mmuBase k + (640 + 256 * y + n) by omega, sprWrite_mmu s v k (by omega)]
    simp (disch := omega) only [State.writeMmu, hg, if_neg, if_pos, tlbRegister_translate hy hn hs]
  · rw [sprRead_tlbTranslate (mmuConfig_setMmu hg _) hy4 hy hn hs, mmuOf_setMmu_self, ← tlbIndex,
      Table.read_write_same, State.setMmu_cfg]
    cases k <;> exact narrow_and_fields rfl _ _ v

end

/-! ### The caches, MAC, the debug unit and the counters -/

section
variable {s : State} (v : Word)

theorem readsBack_dccr {d : CacheConfig} (hd : s.cfg.dcache = some d) (h : d.control = true) :
    readsBack s 0x1800 v (Word.ofLo32 (Word.lo32 v &&& 0xFF#32)) := by
  refine ⟨{ s with dccr := _ }, ?_, sprRead_dccr hd h⟩
  rw [sprWrite_dataCache s v (by omega)]
  simp [State.writeDataCache, hasControl, hd, h]

theorem readsBack_iccr {d : CacheConfig} (hd : s.cfg.icache = some d) (h : d.control = true) :
    readsBack s 0x2000 v (Word.ofLo32 (Word.lo32 v &&& 0xFF#32)) := by
  refine ⟨{ s with iccr := _ }, ?_, sprRead_iccr hd h⟩
  rw [sprWrite_insnCache s v (by omega)]
  simp [State.writeInsnCache, hasControl, hd, h]

theorem readsBack_maclo (h : s.cfg.mac = true) : readsBack s 0x2801 v (Word.ofLo32 (Word.lo32 v)) :=
  ⟨{ s with maclo := _ }, congrArg Except.ok (if_neg (by simp [h])), (sprRead_mac (by exact h)).1⟩

theorem readsBack_machi (h : s.cfg.mac = true) : readsBack s 0x2802 v (Word.ofLo32 (Word.lo32 v)) :=
  ⟨{ s with machi := _ }, congrArg Except.ok (if_neg (by simp [h])), (sprRead_mac (by exact h)).2⟩

end

section
variable {s : State} {g : DebugConfig} (hg : s.cfg.debugUnit = some g) (v : Word)
include hg

theorem readsBack_dvr {j : Nat} (h8 : j < 8) (hj : j < g.pairs) :
    readsBack s (0x3000 + j) v (Word.ofLo32 (Word.lo32 v)) := by
  refine ⟨{ s with debugUnit := { s.debugUnit with dvr := Table.write s.debugUnit.dvr j (Word.lo32 v) } }, ?_, ?_⟩
  · rw [sprWrite_debug s v (by omega), show (0x3000 + j) % 2048 = j by omega]
    simp only [State.writeDebug, hg, h8, hj, if_true]
  · refine (sprRead_dvr (by exact hg) h8 hj).trans ?_
    rw [Table.read_write_same]

theorem readsBack_dcr {j : Nat} (h8 : j < 8) (hj : j < g.pairs) :
    readsBack s (0x3008 + j) v (Word.ofLo32 (Word.lo32 v &&& 0xFE#32 ||| 1#32)) := by
  refine ⟨{ s with debugUnit :=
    { s.debugUnit with dcr := Table.write s.debugUnit.dcr j (Word.lo32 v &&& 0xFE#32) } }, ?_, ?_⟩
  · rw [sprWrite_debug s v (by omega), show (0x3008 + j) % 2048 = 8 + j by omega]
    simp (disch := omega) only [State.writeDebug, hg, if_neg, if_pos, Nat.add_sub_cancel_left]
  · refine (sprRead_dcr (by exact hg) h8 hj).trans ?_
    rw [Table.read_write_same]

theorem readsBack_dmr1 : readsBack s 0x3010 v (Word.ofLo32 (Word.lo32 v &&& 0x00CFFFFF#32)) := by
  refine ⟨{ s with debugUnit := { s.debugUnit with dmr1 := _ } }, ?_, (sprRead_debugModes (by exact hg)).1⟩
  rw [sprWrite_debug s v (by omega)]
  simp [State.writeDebug, hg]

/-- DMR2[WBS] is cleared by zeros and not set by ones (60 R809). -/
theorem readsBack_dmr2 : readsBack s 0x3011 v
    (Word.ofLo32 (Word.lo32 v &&& 0x003FFFFF#32 ||| Word.lo32 v &&& s.debugUnit.dmr2 &&& 0xFFC00000#32)) := by
  refine ⟨{ s with debugUnit := { s.debugUnit with dmr2 := _ } }, ?_, (sprRead_debugModes (by exact hg)).2.1⟩
  rw [sprWrite_debug s v (by omega), BitVec.and_comm (Word.lo32 v) s.debugUnit.dmr2]
  simp [State.writeDebug, hg]

theorem readsBack_dwcr0 (h : g.counters = true) : readsBack s 0x3012 v (Word.ofLo32 (Word.lo32 v)) := by
  refine ⟨{ s with debugUnit := { s.debugUnit with dwcr0 := Word.lo32 v } }, ?_, (sprRead_dwcr (by exact hg) h).1⟩
  rw [sprWrite_debug s v (by omega)]
  simp [State.writeDebug, hg, h]

theorem readsBack_dwcr1 (h : g.counters = true) : readsBack s 0x3013 v (Word.ofLo32 (Word.lo32 v)) := by
  refine ⟨{ s with debugUnit := { s.debugUnit with dwcr1 := Word.lo32 v } }, ?_, (sprRead_dwcr (by exact hg) h).2⟩
  rw [sprWrite_debug s v (by omega)]
  simp [State.writeDebug, hg, h]

theorem readsBack_dsr : readsBack s 0x3014 v (Word.ofLo32 (Word.lo32 v &&& 0x3FFF#32)) := by
  refine ⟨{ s with debugUnit := { s.debugUnit with dsr := _ } }, ?_, (sprRead_debugModes (by exact hg)).2.2.1⟩
  rw [sprWrite_debug s v (by omega)]
  simp [State.writeDebug, hg]

theorem readsBack_drr : readsBack s 0x3015 v (Word.ofLo32 (Word.lo32 v &&& 0x3FFF#32)) := by
  refine ⟨{ s with debugUnit := { s.debugUnit with drr := _ } }, ?_, (sprRead_debugModes (by exact hg)).2.2.2⟩
  rw [sprWrite_debug s v (by omega)]
  simp [State.writeDebug, hg]

end

section
variable {s : State} {n : Nat} (hn : s.cfg.counters = some n) (v : Word)
include hn

theorem readsBack_pccr {j : Nat} (h8 : j < 8) (hj : j < n) :
    readsBack s (0x3800 + j) v (Word.ofLo32 (Word.lo32 v)) := by
  refine ⟨{ s with pccr := Table.write s.pccr j (Word.lo32 v) }, ?_, ?_⟩
  · rw [sprWrite_counters s v (by omega), show (0x3800 + j) % 2048 = j by omega]
    simp only [State.writeCounters, hn, h8, hj, if_true]
  · refine (sprRead_pccr (by exact hn) h8 hj).trans ?_
    rw [Table.read_write_same]

theorem readsBack_pcmr {j : Nat} (h8 : j < 8) (hj : j < n) :
    readsBack s (0x3808 + j) v (Word.ofLo32 (Word.lo32 v &&& 0x03FFFFFC#32 ||| 1#32)) := by
  refine ⟨{ s with pcmr := Table.write s.pcmr j (Word.lo32 v &&& 0x03FFFFFC#32) }, ?_, ?_⟩
  · rw [sprWrite_counters s v (by omega), show (0x3808 + j) % 2048 = 8 + j by omega]
    simp (disch := omega) only [State.writeCounters, hn, if_neg, if_pos, Nat.add_sub_cancel_left]
  · refine (sprRead_pcmr (by exact hn) h8 hj).trans ?_
    rw [Table.read_write_same]

end

/-! ### Power, interrupts and the tick timer -/

/-- A value for PMR begins doze or sleep mode, and what ends the mode holds already (60 R803). -/
def modeEndsAtOnce (s : State) (v : Word) : Prop :=
  v.getLsbD 7 = false ∧ (v.getLsbD 5 = true ∨ v.getLsbD 4 = true) ∧
    (intRequest s = true ∨ (v.getLsbD 5 = false ∧ tickPending s = true))

/-- The state with PMR written, before a mode may end. -/
def State.setPmr (s : State) (v : Word) : State := { s with pmr := Word.lo32 v &&& 0xFF#32 }

section
variable {s : State} (v : Word)

theorem getLsbD_setPmr (s : State) {n : Nat} (hn : n < 8) : (s.setPmr v).pmr.getLsbD n = v.getLsbD n := by
  have hmask : (0xFF#32).getLsbD n = true := by interval_cases n <;> rfl
  rw [State.setPmr, BitVec.getLsbD_and, hmask, getLsbD_lo32 v (by omega), Bool.and_true]

/-- When doze or sleep mode ends right after PMR is written. -/
theorem wakes_setPmr_iff (h : s.cfg.power = true) :
    (waiting (s.setPmr v) && wakes (s.setPmr v)) = true ↔ modeEndsAtOnce s v := by
  have hsuspended : suspended (s.setPmr v) = v.getLsbD 7 := by
    rw [suspended, getLsbD_setPmr v s (by omega), State.setPmr, h, Bool.true_and]
  have hsleeping : sleeping (s.setPmr v) = v.getLsbD 5 := by
    rw [sleeping, getLsbD_setPmr v s (by omega), State.setPmr, h, Bool.true_and]
  have hdozing : dozing (s.setPmr v) = v.getLsbD 4 := by
    rw [dozing, getLsbD_setPmr v s (by omega), State.setPmr, h, Bool.true_and]
  have hint : intRequest (s.setPmr v) = intRequest s := rfl
  have htick : tickPending (s.setPmr v) = tickPending s := rfl
  rw [waiting, wakes, hsuspended, hsleeping, hdozing, hint, htick, modeEndsAtOnce]
  cases v.getLsbD 7 <;> simp

/-- A write of PMR, after which a mode may end at once. -/
theorem sprWrite_pmr (h : s.cfg.power = true) : sprWrite s 0x4000 v = .ok (s.setPmr v).wake := by
  rw [sprWrite_power s v (by omega), State.writePower, if_pos ⟨rfl, h⟩, State.setPmr]

theorem readsBack_pmr_of_ends (h : s.cfg.power = true) (he : modeEndsAtOnce s v) :
    readsBack s 0x4000 v (Word.ofLo32 (Word.lo32 v &&& 0xCF#32)) := by
  refine ⟨_, sprWrite_pmr v h, ?_⟩
  rw [sprRead_pmr (by rwa [State.wake_cfg]), State.wake, if_pos ((wakes_setPmr_iff v h).2 he), State.setPmr,
    BitVec.and_assoc]
  rfl

theorem readsBack_pmr_of_not_ends (h : s.cfg.power = true) (he : ¬modeEndsAtOnce s v) :
    readsBack s 0x4000 v (Word.ofLo32 (Word.lo32 v &&& 0xFF#32)) := by
  refine ⟨_, sprWrite_pmr v h, ?_⟩
  rw [sprRead_pmr (by rwa [State.wake_cfg]), State.wake, if_neg ((wakes_setPmr_iff v h).not.2 he), State.setPmr]

/-- PICMR, of which the two lowest interrupts may be fixed unmasked (60 R781). -/
theorem readsBack_picmr (h : s.cfg.pic = true) : readsBack s 0x4800 v
    (Word.ofLo32 (if s.cfg.picFixedUnmasked then Word.lo32 v ||| 3#32 else Word.lo32 v)) := by
  refine ⟨{ s with pic := { s.pic with mask := if s.cfg.picFixedUnmasked then _ else _ } },
    congrArg Except.ok (if_neg (by simp [h])), (sprRead_pic (by exact h)).1.trans ?_⟩
  unfold picmr
  cases s.cfg.picFixedUnmasked with
  | false => rfl
  | true => simp [BitVec.or_assoc]

/-- A write of PICSR, which clears latches (60 R782). -/
theorem sprWrite_picsr (h : s.cfg.pic = true) : sprWrite s 0x4802 v = .ok { s with
    pic := { s.pic with latch := s.pic.latch &&& ~~~(Word.lo32 v &&& s.cfg.picEdge) } } :=
  congrArg Except.ok (if_neg (by simp [h]))

theorem readsBack_ttcr (h : s.cfg.tickTimer = true) : readsBack s 0x5001 v (Word.ofLo32 (Word.lo32 v)) :=
  ⟨{ s with ttcr := _ }, congrArg Except.ok (if_neg (by simp [h])), (sprRead_timer (by exact h)).2⟩

/-- A write of TTMR, whose IP is cleared by zero and not set by one (60 R793). -/
theorem sprWrite_ttmr (h : s.cfg.tickTimer = true) : sprWrite s 0x5000 v = .ok { s with
    ttmr := (Word.lo32 v &&& 0xEFFFFFFF#32) ||| (s.ttmr &&& Word.lo32 v &&& 0x10000000#32) } :=
  congrArg Except.ok (if_neg (by simp [h]))

end

/-- The level-triggered inputs of PICSR are not written; of the others ones are cleared where ones are written. -/
theorem getLsbD_picsr_of_write {s t : State} {v : Word} (h : s.cfg.pic = true) (ht : sprWrite s 0x4802 v = .ok t)
    {n : Nat} (hn : n < 32) :
    (picsr t).getLsbD n = ((picsr s).getLsbD n && !(s.cfg.picEdge.getLsbD n && v.getLsbD n)) := by
  cases (sprWrite_picsr v h).symm.trans ht
  simp only [picsr, BitVec.getLsbD_or, BitVec.getLsbD_and, BitVec.getLsbD_not, hn, decide_true, Bool.true_and,
    getLsbD_lo32 v hn]
  cases s.cfg.picEdge.getLsbD n <;> simp

/-- Every bit of TTMR but IP is written. -/
theorem getLsbD_ttmr_of_write {s t : State} {v : Word} (h : s.cfg.tickTimer = true)
    (ht : sprWrite s 0x5000 v = .ok t) {n : Nat} (hn : n < 32) :
    t.ttmr.getLsbD n = (v.getLsbD n && (decide (n ≠ 28) || s.ttmr.getLsbD 28)) := by
  have hother : (0xEFFFFFFF#32).getLsbD n = decide (n ≠ 28) := by interval_cases n <;> rfl
  have hip : (0x10000000#32).getLsbD n = decide (n = 28) := by interval_cases n <;> rfl
  cases (sprWrite_ttmr v h).symm.trans ht
  simp only [BitVec.getLsbD_or, BitVec.getLsbD_and, hother, hip, getLsbD_lo32 v hn]
  by_cases h28 : n = 28
  · subst h28
    simp [Bool.and_comm]
  · simp [h28]

/-! ### All addresses -/

section
variable {s t : State} {k : Access} {g : MmuConfig} (hg : mmuConfig s.cfg k = some g) {v : Word}
include hg

/-- V of every match register after a write of xMMUCR, whose DTF clears it. -/
theorem getLsbD_valid_of_write_control (hc : g.control = true) (ht : sprWrite s (mmuBase k) v = .ok t) (j : Nat) :
    (Table.read (mmuOf t k).tlbMr j).getLsbD 0 =
      ((Table.read (mmuOf s k).tlbMr j).getLsbD 0 && !v.getLsbD 0) := by
  cases (sprWrite_mmuControl hg v hc).symm.trans ht
  rw [mmuOf_setMmu_self]
  cases v.getLsbD 0 with
  | false => simp
  | true => simpa [Mmu.flush] using getLsbD_read_mapData_clear (mmuOf s k).tlbMr j

/-- V of the ways that an address selects after it was written to xTLBEIR. -/
theorem getLsbD_valid_of_write_invalidate (hi : g.invalidate = true) (ht : sprWrite s (mmuBase k + 2) v = .ok t)
    {y : Nat} (hy : y < g.ways) :
    let ea := narrow s.cfg v
    (Table.read (mmuOf t k).tlbMr (tlbIndex y (tlbSet g ea))).getLsbD 0 =
      ((Table.read (mmuOf s k).tlbMr (tlbIndex y (tlbSet g ea))).getLsbD 0 &&
        !tlbClaims s (mmuOf s k) ea (tlbSet g ea) y) := by
  cases (sprWrite_tlbInvalidate hg v hi).symm.trans ht
  rw [mmuOf_setMmu_self]
  exact getLsbD_invalidated s _ g _ hy

end

/-- Settles O43: a register file by the place of the register in it, then each register by its own lemma. -/
theorem sprReadsBackWhatWasWritten : Obligations.SprReadsBackWhatWasWritten := by
  intro s t addr v ht x holds back page
  refine ⟨?evbar, ?aecsr, ?fpcsr, ?epcrEear, ?esr, ?gpr, ?mmu, ?dccr, ?iccr, ?mac, ?debug, ?counters, ?pmr, ?picmr,
    ?ttcr, ?picsr, ?ttmr⟩
  case evbar =>
    rintro rfl h
    exact sprRead_ofNat_of_readsBack (readsBack_evbar v h) ht
  case aecsr =>
    rintro (rfl | rfl) h
    · exact sprRead_ofNat_of_readsBack (readsBack_aecr v h) ht
    · exact sprRead_ofNat_of_readsBack (readsBack_aesr v h) ht
  case fpcsr =>
    rintro rfl h
    exact sprRead_ofNat_of_readsBack (readsBack_fpcsr v h) ht
  case epcrEear =>
    intro hlo hhi hset
    rcases Nat.lt_or_ge addr 0x30 with h | h
    · obtain ⟨j, rfl⟩ := Nat.exists_eq_add_of_le hlo
      exact sprRead_of_readsBack (readsBack_epcr v (by omega) (by omega)) ht
    · obtain ⟨j, rfl⟩ := Nat.exists_eq_add_of_le h
      exact sprRead_of_readsBack (readsBack_eear v (by omega) (by omega)) ht
  case esr =>
    intro hlo hhi hset
    obtain ⟨j, rfl⟩ := Nat.exists_eq_add_of_le hlo
    exact sprRead_allOnes_of_readsBack (readsBack_esr v (by omega) (by omega)) ht
  case gpr =>
    intro hlo hhi hset hr h0
    obtain ⟨j, rfl⟩ := Nat.exists_eq_add_of_le hlo
    have hj : 0x400 + j = 0x400 + 32 * (j / 32) + j % 32 := by omega
    rw [hj] at ht ⊢
    exact sprRead_of_readsBack (readsBack_gpr v (by omega) (by omega) (by omega) (by omega)
      (h0.imp_right fun h => by omega)) ht
  case mmu =>
    intro k g hg base low
    refine ⟨?control, ?protect, ?invalidate, ?atbMatch, ?atbTranslate, fun y n hy4 hy hn hs =>
      ⟨?tlbMatch, ?tlbTranslate⟩⟩
    case control =>
      rintro rfl hc
      exact ⟨sprRead_ofNat_of_readsBack (readsBack_mmuControl hg v hc) ht, getLsbD_valid_of_write_control hg hc ht⟩
    case protect =>
      rintro rfl hp
      have hread := sprRead_ofNat_of_readsBack (readsBack_mmuProtect hg v hp) ht
      rwa [protectMask_eq] at hread
    case invalidate =>
      rintro rfl hi y hy
      exact getLsbD_valid_of_write_invalidate hg hi ht hy
    case atbMatch =>
      intro hlo hhi hatb
      obtain ⟨j, rfl⟩ := Nat.exists_eq_add_of_le hlo
      have hread := sprRead_of_readsBack (readsBack_atbMatch hg v (j := j) (by omega) (by omega)) ht
      rwa [atbMrMask_eq] at hread
    case atbTranslate =>
      intro hlo hhi hatb
      obtain ⟨j, rfl⟩ := Nat.exists_eq_add_of_le hlo
      have hread := sprRead_of_readsBack (readsBack_atbTranslate hg v (j := j) (by omega) (by omega)) ht
      rwa [atbTrMask_eq] at hread
    case tlbMatch =>
      rintro rfl
      have hread := sprRead_of_readsBack (readsBack_tlbMatch hg v hy4 hy hn hs) ht
      rwa [tlbMrMask_eq, fields_or] at hread
    case tlbTranslate =>
      rintro rfl
      have hread := sprRead_of_readsBack (readsBack_tlbTranslate hg v hy4 hy hn hs) ht
      rwa [tlbTrMask_eq] at hread
  case dccr =>
    rintro d rfl hd h
    exact sprRead_ofNat_of_readsBack (readsBack_dccr v hd h) ht
  case iccr =>
    rintro d rfl hd h
    exact sprRead_ofNat_of_readsBack (readsBack_iccr v hd h) ht
  case mac =>
    rintro (rfl | rfl) h
    · exact sprRead_allOnes_of_readsBack (readsBack_maclo v h) ht
    · exact sprRead_allOnes_of_readsBack (readsBack_machi v h) ht
  case debug =>
    intro g hg
    refine ⟨fun hlo hhi hj => ?dvr, fun hlo hhi hj => ?dcr, ?dmr1, ?dmr2, ?dwcr, ?dsr⟩
    case dvr =>
      obtain ⟨j, rfl⟩ := Nat.exists_eq_add_of_le hlo
      exact sprRead_allOnes_of_readsBack (readsBack_dvr hg v (by omega) (by omega)) ht
    case dcr =>
      obtain ⟨j, rfl⟩ := Nat.exists_eq_add_of_le hlo
      exact sprRead_ofNat_of_readsBack (readsBack_dcr hg v (by omega) (by omega)) ht
    case dmr1 =>
      rintro rfl
      exact sprRead_ofNat_of_readsBack (readsBack_dmr1 hg v) ht
    case dmr2 =>
      rintro rfl
      exact sprRead_ofNat_of_readsBack (readsBack_dmr2 hg v) ht
    case dwcr =>
      rintro (rfl | rfl) h
      · exact sprRead_allOnes_of_readsBack (readsBack_dwcr0 hg v h) ht
      · exact sprRead_allOnes_of_readsBack (readsBack_dwcr1 hg v h) ht
    case dsr =>
      rintro (rfl | rfl)
      · exact sprRead_ofNat_of_readsBack (readsBack_dsr hg v) ht
      · exact sprRead_ofNat_of_readsBack (readsBack_drr hg v) ht
  case counters =>
    intro n hn
    refine ⟨fun hlo hhi hj => ?pccr, fun hlo hhi hj => ?pcmr⟩
    case pccr =>
      obtain ⟨j, rfl⟩ := Nat.exists_eq_add_of_le hlo
      exact sprRead_allOnes_of_readsBack (readsBack_pccr hn v (by omega) (by omega)) ht
    case pcmr =>
      obtain ⟨j, rfl⟩ := Nat.exists_eq_add_of_le hlo
      exact sprRead_ofNat_of_readsBack (readsBack_pcmr hn v (by omega) (by omega)) ht
  case pmr =>
    rintro rfl h
    exact ⟨fun he => sprRead_ofNat_of_readsBack (readsBack_pmr_of_ends v h he) ht,
      fun he => sprRead_ofNat_of_readsBack (readsBack_pmr_of_not_ends v h he) ht⟩
  case picmr =>
    rintro rfl h
    exact sprRead_ofNat_of_readsBack (readsBack_picmr v h) ht
  case ttcr =>
    rintro rfl h
    exact sprRead_allOnes_of_readsBack (readsBack_ttcr v h) ht
  case picsr =>
    rintro rfl h n hn
    exact getLsbD_picsr_of_write h ht hn
  case ttmr =>
    rintro rfl h n hn
    exact getLsbD_ttmr_of_write h ht hn

end Sys2Proof.Machine
end

