-- ==== Sys2Proof/Proofs/MoveToSpr.lean ====
section
/-!
PROOFS. Proofs/MoveToSpr.lean: what a write to a special-purpose register can change, and what is refused (O42).
-/

namespace Sys2Proof.Machine

/-! ### SR bit by bit -/

/-- The bits of SR that a write changes (10_state R61 to R79). -/
theorem getLsbD_srWritable (c : Config) {n : Nat} (hn : n < 32) :
    (srWritable c).getLsbD n = (n ∈ [0, 1, 2, 9, 10, 11, 12, 13, 14, 16] ||
      (n == 3 && c.dcache.isSome) || (n == 4 && c.icache.isSome) || (n == 5 && c.dmmu.isSome) ||
      (n == 6 && c.immu.isSome) || (n == 7 && c.leeSupported) ||
      ((n == 8 || decide (28 ≤ n)) && decide (1 < c.nsets))) := by
  have hbase : (0x00017E07#32).getLsbD n = decide (n ∈ [0, 1, 2, 9, 10, 11, 12, 13, 14, 16]) := by
    interval_cases n <;> rfl
  have hcontexts : (0xF0000100#32).getLsbD n = (n == 8 || decide (28 ≤ n)) := by interval_cases n <;> rfl
  have hunit {i : Nat} (hi : i < 32) (b : Bool) : (flagBit b i).getLsbD n = (n == i && b) := by
    rw [getLsbD_flagBit b hi, Bool.and_comm]; rfl
  have hsets : (if c.nsets ≤ 1 then 0#32 else 0xF0000100#32).getLsbD n =
      ((n == 8 || decide (28 ≤ n)) && decide (1 < c.nsets)) := by
    by_cases h : c.nsets ≤ 1
    · simp [h, show ¬1 < c.nsets by omega]
    · rw [if_neg h, hcontexts, decide_eq_true (show 1 < c.nsets by omega), Bool.and_true]
  have hor : srWritable c = 0x00017E07#32 ||| (if c.nsets ≤ 1 then 0#32 else 0xF0000100#32) |||
      flagBit c.leeSupported 7 ||| flagBit c.immu.isSome 6 ||| flagBit c.dmmu.isSome 5 |||
      flagBit c.icache.isSome 4 ||| flagBit c.dcache.isSome 3 := rfl
  rw [hor]
  simp only [BitVec.getLsbD_or, hbase, hsets, hunit (i := 7) (by omega), hunit (i := 6) (by omega),
    hunit (i := 5) (by omega), hunit (i := 4) (by omega), hunit (i := 3) (by omega)]
  ac_rfl

/-- What SR holds after a write, bit by bit (10_state R79). -/
theorem getLsbD_srValue (c : Config) (v : BitVec 32) {n : Nat} (hn : n < 32) :
    (srValue c v).getLsbD n = (decide (n = 15) || (v.getLsbD n && (srWritable c).getLsbD n)) := by
  have hfo : (0x8000#32).getLsbD n = decide (n = 15) := by interval_cases n <;> rfl
  rw [srValue, BitVec.getLsbD_or, BitVec.getLsbD_and, hfo, Bool.or_comm]

/-! ### What is refused -/

/-- NPC and PPC (10_state R53). -/
theorem sprWrite_npc_ppc {s : State} {addr : Nat} (v : Word) (h : addr = 0x0010 ∨ addr = 0x0012) :
    sprWrite s addr v = .error .writeOfNpcOrPpc := by
  rcases h with rfl | rfl <;> rfl

/-- SR with a context that does not exist (10_state R62). -/
theorem sprWrite_sr_error {s : State} {v : Word} (h1 : 1 < s.cfg.nsets)
    (h : s.cfg.nsets ≤ (Word.lo32 v).toNat / 2 ^ 28) : sprWrite s 0x0011 v = .error .cidOutOfRange :=
  if_pos ⟨h1, (cidField_eq_div _).symm ▸ h⟩

/-- SR with a context that exists. -/
theorem sprWrite_sr {s : State} {v : Word} (h : s.cfg.nsets ≤ 1 ∨ (Word.lo32 v).toNat / 2 ^ 28 < s.cfg.nsets) :
    sprWrite s 0x0011 v = .ok { s with sr := srValue s.cfg (Word.lo32 v) } := by
  refine if_neg ?_
  rw [cidField_eq_div]
  omega

/-- Nothing else is refused. -/
theorem exists_sprWrite_ok {s : State} {addr : Nat} {v : Word} (hnpc : addr ≠ 0x0010) (hppc : addr ≠ 0x0012)
    (hsr : addr = 0x0011 → s.cfg.nsets ≤ 1 ∨ (Word.lo32 v).toNat / 2 ^ 28 < s.cfg.nsets) :
    ∃ t : State, sprWrite s addr v = .ok t := by
  by_cases h : addr < 2048
  · by_cases h17 : addr = 17
    · exact ⟨_, h17 ▸ sprWrite_sr (hsr h17)⟩
    · rw [sprWrite_group0 s v h]
      simp only [writeGroup0, if_neg hnpc, if_neg hppc, if_neg h17, ← apply_ite Except.ok, Except.ok.injEq, exists_eq']
  · obtain ⟨g, hg⟩ : ∃ g, addr / 2048 = g + 1 := ⟨addr / 2048 - 1, by omega⟩
    unfold sprWrite
    simp only [hg]
    split
    · omega
    all_goals exact ⟨_, rfl⟩

/-! ### What a write can change, group by group -/

/-- A write to an MMU replaces it. -/
theorem exists_writeMmu_eq_setMmu (s : State) (k : Access) (j : Nat) (v : Word) :
    ∃ m : Mmu, s.writeMmu k j v = s.setMmu k m := by
  have hkept : ∃ m : Mmu, s = s.setMmu k m := ⟨mmuOf s k, by cases k <;> rfl⟩
  unfold State.writeMmu
  split
  · exact hkept
  · simp only
    split_ifs <;> try first | exact hkept | exact ⟨_, rfl⟩
    split
    · exact ⟨_, rfl⟩
    · exact ⟨_, rfl⟩
    · exact hkept

/-- Where the write is not refused, the state after it is as `P` says. -/
def writeGives (P : State → Prop) (x : Except Refusal State) : Prop := ∀ t : State, x = .ok t → P t

theorem writeGives_ok {P : State → Prop} {t : State} (h : P t) : writeGives P (.ok t) := by
  intro u hu; cases hu; exact h

theorem writeGives_ok_ite {P : State → Prop} {p : Prop} [Decidable p] {t u : State} (ht : P t) (hu : P u) :
    writeGives P (.ok (if p then t else u)) := by
  apply writeGives_ok
  split
  · exact ht
  · exact hu

theorem writeGives_error (P : State → Prop) (r : Refusal) : writeGives P (.error r) := by intro t h; cases h

theorem writeGives_ite {P : State → Prop} {p : Prop} [Decidable p] {x y : Except Refusal State}
    (hx : p → writeGives P x) (hy : ¬p → writeGives P y) : writeGives P (if p then x else y) := by
  split
  · next h => exact hx h
  · next h => exact hy h

/-- The registers of group 0 below the general registers, but for SR, in the order of `writeGroup0`. -/
theorem writeGroup0_shape (s : State) {j : Nat} (v : Word) (hsr : j ≠ 17) (hj : j < 0x400) :
    writeGives (fun t => t = { s with
      evbar := t.evbar, aecr := t.aecr, aesr := t.aesr, fpcsr := t.fpcsr, epcr := t.epcr, eear := t.eear,
      esr := t.esr }) (writeGroup0 s j v) := by
  refine writeGives_ite (fun _ => ?evbar) fun _ => writeGives_ite (fun _ => ?aecr) fun _ =>
    writeGives_ite (fun _ => ?aesr) fun _ => writeGives_ite (fun _ => ?npc) fun _ =>
    writeGives_ite (fun h => absurd h hsr) fun _ => writeGives_ite (fun _ => ?ppc) fun _ =>
    writeGives_ite (fun _ => ?fpcsr) fun _ => writeGives_ite (fun _ => ?epcr) fun _ =>
    writeGives_ite (fun _ => ?eear) fun _ => writeGives_ite (fun _ => ?esr) fun _ =>
    writeGives_ite (fun h => absurd h (by omega)) fun _ => ?unassigned
  case npc | ppc => exact writeGives_error _ _
  case unassigned => exact writeGives_ok rfl
  all_goals exact writeGives_ok_ite rfl rfl

theorem writeWindow_shape (s : State) (j : Nat) (v : Word) :
    s.writeWindow j v = { s with gprs := (s.writeWindow j v).gprs } := by
  unfold State.writeWindow State.setGprOf
  split_ifs <;> rfl

/-! ### Discarding a block of the data cache (20 R279) -/

/-- A candidate chosen from a list that has one. -/
theorem getD_mod_length_mem {α : Type} (l : List α) (n : Nat) (d : α) (h : l ≠ []) : l.getD (n % l.length) d ∈ l := by
  have hlt : n % l.length < l.length := Nat.mod_lt _ (List.length_pos_iff.2 h)
  rw [List.getD_eq_getElem _ _ hlt]
  exact List.getElem_mem hlt

/-- A byte that was discarded is the newest, or an older one that main memory held. -/
theorem readByte_discardByte (s : State) (n pa q : Nat) :
    readByte (s.discardByte n q) pa = readByte s pa ∨
      (pa = q ∧ (pa, readByte (s.discardByte n q) pa) ∈ s.unwritten) := by
  by_cases h : pa = q
  · subst h
    generalize hv : readByte (s.discardByte n pa) pa = v
    have hchosen : v = (readByte s pa :: olderBytes s.unwritten pa).getD
        (Config.freeDiscard n pa % (readByte s pa :: olderBytes s.unwritten pa).length) 0#8 :=
      hv.symm.trans (Table.read_write_same _ _ _)
    have hmem : v ∈ readByte s pa :: olderBytes s.unwritten pa :=
      hchosen ▸ getD_mod_length_mem _ _ _ (List.cons_ne_nil _ _)
    rcases List.mem_cons.1 hmem with hnew | hold
    · exact .inl hnew
    · refine .inr ⟨rfl, ?_⟩
      simpa [olderBytes] using hold
  · exact .inl (Table.read_write_other _ _ h)

/-- Bytes discarded one after the other. -/
theorem readByte_discardBytes (n : Nat) (l : List Nat) (s : State) (pa : Nat) :
    readByte (l.foldl (State.discardByte · n ·) s) pa = readByte s pa ∨
      (pa ∈ l ∧ (pa, readByte (l.foldl (State.discardByte · n ·) s) pa) ∈ s.unwritten) := by
  induction l generalizing s with
  | nil => exact .inl rfl
  | cons q rest ih =>
    rw [List.foldl_cons]
    rcases ih (s.discardByte n q) with hrest | ⟨hmem, hold⟩
    · rw [hrest]
      exact (readByte_discardByte s n pa q).imp_right fun ⟨hq, hold⟩ => ⟨hq ▸ List.mem_cons_self, hold⟩
    · exact .inr ⟨List.mem_cons_of_mem q hmem, hold⟩

/-- An operation on a block does nothing, or acts on the block of the address where the cache is present. -/
theorem onBlock_cases (s : State) (k : Access) (cache : Option CacheConfig) (present : CacheConfig → Bool) (ea : Word)
    (f : State → CacheConfig → Nat → State) :
    s.onBlock k cache present ea f = s ∨ ∃ (g : CacheConfig) (q : Nat), cache = some g ∧ cacheAddress s k ea = some q ∧
      s.onBlock k cache present ea f = f { s with draws := s.draws + 1 } g q := by
  unfold State.onBlock
  split
  · exact .inl rfl
  · next g =>
    split_ifs
    · split
      · next q hq => exact .inr ⟨g, q, rfl, hq, rfl⟩
      · exact .inl rfl
    · exact .inl rfl

theorem sameBlock_iff (g : CacheConfig) (p q : Nat) : sameBlock g p q = true ↔
    p / (if g.block32 then 32 else 16) = q / (if g.block32 then 32 else 16) := by
  unfold sameBlock
  cases g.block32 <;> simp

/-- The addresses whose bytes a discarded block loses. -/
def discarded (s : State) (g : CacheConfig) (q : Nat) : List Nat :=
  ((s.unwritten.filter fun c => sameBlock g c.1 q).map (·.1)).dedup

theorem sameBlock_of_mem_discarded {s : State} {g : CacheConfig} {q pa : Nat} (h : pa ∈ discarded s g q) :
    sameBlock g pa q = true := by
  obtain ⟨c, hc, rfl⟩ := List.mem_map.1 (List.mem_dedup.1 h)
  exact (List.mem_filter.1 hc).2

/-- What discarding a block does: nothing, or it discards the bytes of the block of the address. -/
theorem discardBlock_cases (s : State) (ea : Word) :
    s.discardBlock ea = s ∨ ∃ (g : CacheConfig) (q : Nat), s.cfg.dcache = some g ∧ cacheAddress s .load ea = some q ∧
      s.discardBlock ea = ((discarded s g q).foldl (State.discardByte · (s.draws + 1) ·)
        { s with draws := s.draws + 1 }).updateMemory (sameBlock g · q) :=
  onBlock_cases s .load s.cfg.dcache (·.invalidate) ea _

/-- What discarding a block can change. -/
theorem discardBlock_shape (s : State) (ea : Word) : s.discardBlock ea = { s with
    mem := (s.discardBlock ea).mem, stale := (s.discardBlock ea).stale, unwritten := (s.discardBlock ea).unwritten,
    draws := (s.discardBlock ea).draws } := by
  rcases discardBlock_cases s ea with h | ⟨g, q, -, -, h⟩ <;> rw [h]
  rw [discardBytes_shape]
  rfl

/-- A byte of memory after a block was discarded. -/
theorem readByte_discardBlock (s : State) (ea : Word) (pa : Nat) :
    readByte (s.discardBlock ea) pa = readByte s pa ∨ ((pa, readByte (s.discardBlock ea) pa) ∈ s.unwritten ∧
      ∃ (g : CacheConfig) (q : Nat), s.cfg.dcache = some g ∧ cacheAddress s .load ea = some q ∧
        pa / (if g.block32 then 32 else 16) = q / (if g.block32 then 32 else 16)) := by
  rcases discardBlock_cases s ea with h | ⟨g, q, hg, hq, h⟩ <;> rw [h]
  · exact .inl rfl
  · refine (readByte_discardBytes (s.draws + 1) (discarded s g q) { s with draws := s.draws + 1 } pa).imp_right ?_
    rintro ⟨hmem, hold⟩
    exact ⟨hold, g, q, hg, hq, (sameBlock_iff g pa q).1 (sameBlock_of_mem_discarded hmem)⟩

/-- The registers of group 3 above the control register are operations on blocks. -/
theorem writeDataCache_shape (s : State) {j : Nat} (v : Word) (hj : j ≠ 0) : s.writeDataCache j v = { s with
    mem := (s.writeDataCache j v).mem, stale := (s.writeDataCache j v).stale
    unwritten := (s.writeDataCache j v).unwritten, draws := (s.writeDataCache j v).draws } := by
  unfold State.writeDataCache
  simp only [if_neg hj]
  split_ifs
  · rw [writeBackBlock_shape]
  · exact discardBlock_shape s _
  · rw [writeBackBlock_shape]
  · rfl

/-- Of the registers of group 3 only DCBIR changes memory. -/
theorem writeDataCache_mem (s : State) {j : Nat} (v : Word) (hj : j ≠ 3) : (s.writeDataCache j v).mem = s.mem := by
  unfold State.writeDataCache
  simp only [if_neg hj]
  split_ifs
  · rfl
  · rfl
  · rw [writeBackBlock_shape]
  · rw [writeBackBlock_shape]
  · rfl

/-! ### The state after a write -/

section
variable {s t : State} {addr : Nat} {v : Word} (ht : sprWrite s addr v = .ok t)
include ht

theorem sprWrite_shape_group0 (hsr : addr ≠ 0x0011) (h : addr < 0x0400) : t = { s with
    evbar := t.evbar, aecr := t.aecr, aesr := t.aesr, fpcsr := t.fpcsr, epcr := t.epcr, eear := t.eear,
    esr := t.esr } :=
  writeGroup0_shape s v hsr h t ((sprWrite_group0 s v (by omega)).symm.trans ht)

theorem sprWrite_shape_window (hlo : 0x0400 ≤ addr) (hhi : addr < 0x0600) : t = { s with gprs := t.gprs } := by
  rw [sprWrite_group0 s v (by omega)] at ht
  simp (disch := omega) only [writeGroup0, if_neg, if_pos] at ht
  cases ht
  exact writeWindow_shape s _ v

theorem sprWrite_shape_unassigned0 (hlo : 0x0600 ≤ addr) (hhi : addr < 0x0800) : t = s := by
  rw [sprWrite_group0 s v hhi] at ht
  simp (disch := omega) only [writeGroup0, if_neg] at ht
  cases ht
  rfl

theorem sprWrite_shape_dmmu (h : addr / 0x800 = 1) : t = { s with dmmu := t.dmmu } := by
  cases (sprWrite_dmmu s v h).symm.trans ht
  obtain ⟨m, hm⟩ := exists_writeMmu_eq_setMmu s .load (addr % 2048) v
  rw [hm]
  rfl

theorem sprWrite_shape_immu (h : addr / 0x800 = 2) : t = { s with immu := t.immu } := by
  cases (sprWrite_immu s v h).symm.trans ht
  obtain ⟨m, hm⟩ := exists_writeMmu_eq_setMmu s .fetch (addr % 2048) v
  rw [hm]
  rfl

theorem sprWrite_shape_dccr (h : addr = 0x1800) : t = { s with dccr := t.dccr } := by
  subst h
  cases (sprWrite_dataCache s v (by omega)).symm.trans ht
  unfold State.writeDataCache
  simp only [Nat.reduceMod, if_true]
  split <;> rfl

theorem sprWrite_shape_dataCache (h : addr / 0x800 = 3) (h0 : addr ≠ 0x1800) :
    t = { s with mem := t.mem, stale := t.stale, unwritten := t.unwritten, draws := t.draws } := by
  cases (sprWrite_dataCache s v h).symm.trans ht
  exact writeDataCache_shape s v (by omega)

theorem sprWrite_shape_insnCache (h : addr / 0x800 = 4) :
    t = { s with iccr := t.iccr, stale := t.stale, draws := t.draws } := by
  cases (sprWrite_insnCache s v h).symm.trans ht
  exact writeInsnCache_shape s _ v

theorem sprWrite_shape_mac (h : addr / 0x800 = 5) : t = { s with maclo := t.maclo, machi := t.machi } := by
  unfold sprWrite at ht
  simp only [h] at ht
  cases ht
  split_ifs <;> rfl

theorem sprWrite_shape_debug (h : addr / 0x800 = 6) : t = { s with debugUnit := t.debugUnit } := by
  cases (sprWrite_debug s v h).symm.trans ht
  exact writeDebug_shape s _ _

theorem sprWrite_shape_counters (h : addr / 0x800 = 7) : t = { s with pccr := t.pccr, pcmr := t.pcmr } := by
  cases (sprWrite_counters s v h).symm.trans ht
  exact writeCounters_shape s _ _

theorem sprWrite_shape_power (h : addr / 0x800 = 8) : t = { s with pmr := t.pmr } := by
  cases (sprWrite_power s v h).symm.trans ht
  unfold State.writePower
  split
  · rw [wake_shape]
  · rfl

theorem sprWrite_shape_pic (h : addr / 0x800 = 9) : t = { s with pic := t.pic } := by
  cases (sprWrite_pic s v h).symm.trans ht
  exact writePic_shape s _ _

theorem sprWrite_shape_timer (h : addr / 0x800 = 10) : t = { s with ttmr := t.ttmr, ttcr := t.ttcr } := by
  cases (sprWrite_timer s v h).symm.trans ht
  exact writeTimer_shape s _ _

theorem sprWrite_shape_unassigned (h : 11 ≤ addr / 0x800) : t = s := by
  obtain ⟨g, hg⟩ : ∃ g, addr / 2048 = g + 11 := ⟨addr / 2048 - 11, by omega⟩
  unfold sprWrite at ht
  simp only [hg] at ht
  cases ht
  rfl

/-- A write of SR. -/
theorem sprWrite_shape_sr (h : addr = 0x0011) :
    t = { s with sr := t.sr } ∧ t.sr = srValue s.cfg (Word.lo32 v) := by
  subst h
  have hw : writeSr s (Word.lo32 v) = .ok t := ht
  unfold writeSr at hw
  split at hw
  · cases hw
  · cases hw
    exact ⟨rfl, rfl⟩

/-- Every write keeps the reservation, and every write but one to DCBIR keeps memory. -/
theorem sprWrite_resv_mem : t.resv = s.resv ∧ (addr ≠ 0x1803 → t.mem = s.mem) := by
  by_cases hcache : addr / 0x800 = 3 ∧ addr ≠ 0x1800
  · obtain ⟨h, h0⟩ := hcache
    refine ⟨by rw [sprWrite_shape_dataCache ht h h0], fun hne => ?_⟩
    cases (sprWrite_dataCache s v h).symm.trans ht
    exact writeDataCache_mem s v (by omega)
  have hgroup : addr = 0x0011 ∨ (addr ≠ 0x0011 ∧ addr < 0x0400) ∨ (0x0400 ≤ addr ∧ addr < 0x0600) ∨
      (0x0600 ≤ addr ∧ addr < 0x0800) ∨ addr / 0x800 = 1 ∨ addr / 0x800 = 2 ∨ addr = 0x1800 ∨ addr / 0x800 = 4 ∨
      addr / 0x800 = 5 ∨ addr / 0x800 = 6 ∨ addr / 0x800 = 7 ∨ addr / 0x800 = 8 ∨ addr / 0x800 = 9 ∨
      addr / 0x800 = 10 ∨ 11 ≤ addr / 0x800 := by
    omega
  rcases hgroup with h | ⟨hsr, h⟩ | ⟨hlo, hhi⟩ | ⟨hlo, hhi⟩ | h | h | h | h | h | h | h | h | h | h | h
  · rw [(sprWrite_shape_sr ht h).1]; exact ⟨rfl, fun _ => rfl⟩
  · rw [sprWrite_shape_group0 ht hsr h]; exact ⟨rfl, fun _ => rfl⟩
  · rw [sprWrite_shape_window ht hlo hhi]; exact ⟨rfl, fun _ => rfl⟩
  · rw [sprWrite_shape_unassigned0 ht hlo hhi]; exact ⟨rfl, fun _ => rfl⟩
  · rw [sprWrite_shape_dmmu ht h]; exact ⟨rfl, fun _ => rfl⟩
  · rw [sprWrite_shape_immu ht h]; exact ⟨rfl, fun _ => rfl⟩
  · rw [sprWrite_shape_dccr ht h]; exact ⟨rfl, fun _ => rfl⟩
  · rw [sprWrite_shape_insnCache ht h]; exact ⟨rfl, fun _ => rfl⟩
  · rw [sprWrite_shape_mac ht h]; exact ⟨rfl, fun _ => rfl⟩
  · rw [sprWrite_shape_debug ht h]; exact ⟨rfl, fun _ => rfl⟩
  · rw [sprWrite_shape_counters ht h]; exact ⟨rfl, fun _ => rfl⟩
  · rw [sprWrite_shape_power ht h]; exact ⟨rfl, fun _ => rfl⟩
  · rw [sprWrite_shape_pic ht h]; exact ⟨rfl, fun _ => rfl⟩
  · rw [sprWrite_shape_timer ht h]; exact ⟨rfl, fun _ => rfl⟩
  · rw [sprWrite_shape_unassigned ht h]; exact ⟨rfl, fun _ => rfl⟩

/-- A byte of memory after a write: the same, or one that a write to DCBIR brings back. -/
theorem readByte_of_sprWrite (pa : Nat) :
    readByte t pa = readByte s pa ∨ ((pa, readByte t pa) ∈ s.unwritten ∧
      ∃ (g : CacheConfig) (q : Nat), s.cfg.dcache = some g ∧ cacheAddress s .load (narrow s.cfg v) = some q ∧
        pa / (if g.block32 then 32 else 16) = q / (if g.block32 then 32 else 16)) := by
  by_cases h : addr = 0x1803
  · subst h
    cases (sprWrite_dataCache s v (by omega)).symm.trans ht
    exact readByte_discardBlock s _ pa
  · exact .inl (memoryKept_of_mem ((sprWrite_resv_mem ht).2 h) pa)

end

/-! ### `l.mtspr` -/

/-- Settles O42: what the write is refused for is what `l.mtspr` is; what it changes stands in the state from which pc
moves on. -/
theorem moveToSpr : Obligations.MoveToSpr := by
  intro s a b k h addr v hmode
  have haddr : sprAddr (gpr s a) k = addr := sprAddr_eq _ _
  have hmode : (srBit s srSM || userWrites addr) = true := by rwa [Bool.or_eq_true, userWrites_iff]
  refine ⟨fun hpc => ?pc, fun hsr h1 hcid => ?cid, fun hnpc hppc hcid => ?ok⟩
  case pc => exact exec_lMtspr_error h haddr hmode (sprWrite_npc_ppc _ hpc)
  case cid => exact exec_lMtspr_error h haddr hmode (hsr ▸ sprWrite_sr_error h1 hcid)
  case ok =>
    obtain ⟨t, ht⟩ := exists_sprWrite_ok (s := s) (v := gpr s b) hnpc hppc hcid
    obtain ⟨hresv, hmem⟩ := sprWrite_resv_mem ht
    refine ⟨moveOn s t, exec_lMtspr_ok h haddr hmode ht, rfl, rfl, rfl, fun hne => memoryKept_of_mem (hmem hne),
      fun pa => ?memory, hresv, fun hsr => ⟨?sr, fun n hn => ?srBits⟩, ?_, ?_, ?_, ?_, ?_, ?_, ?_, ?_, ?_, ?_, ?_, ?_,
      ?_, ?_, ?_⟩
    case memory =>
      have hbyte := readByte_of_sprWrite ht pa
      rwa [narrow_gpr] at hbyte
    case sr => exact congrArg (moveOn s) (sprWrite_shape_sr ht hsr).1
    case srBits =>
      have hsrValue : (moveOn s t).sr = srValue s.cfg v := (sprWrite_shape_sr ht hsr).2
      rw [hsrValue, getLsbD_srValue _ _ hn, getLsbD_srWritable _ hn]
    · exact fun hne hlt => congrArg (moveOn s) (sprWrite_shape_group0 ht hne hlt)
    · exact fun hlo hhi => congrArg (moveOn s) (sprWrite_shape_window ht hlo hhi)
    · exact fun hlo hhi => congrArg (moveOn s) (sprWrite_shape_unassigned0 ht hlo hhi)
    · exact fun hg => congrArg (moveOn s) (sprWrite_shape_dmmu ht hg)
    · exact fun hg => congrArg (moveOn s) (sprWrite_shape_immu ht hg)
    · exact fun hg => congrArg (moveOn s) (sprWrite_shape_dccr ht hg)
    · exact fun hg h0 => congrArg (moveOn s) (sprWrite_shape_dataCache ht hg h0)
    · exact fun hg => congrArg (moveOn s) (sprWrite_shape_insnCache ht hg)
    · exact fun hg => congrArg (moveOn s) (sprWrite_shape_mac ht hg)
    · exact fun hg => congrArg (moveOn s) (sprWrite_shape_debug ht hg)
    · exact fun hg => congrArg (moveOn s) (sprWrite_shape_counters ht hg)
    · exact fun hg => congrArg (moveOn s) (sprWrite_shape_power ht hg)
    · exact fun hg => congrArg (moveOn s) (sprWrite_shape_pic ht hg)
    · exact fun hg => congrArg (moveOn s) (sprWrite_shape_timer ht hg)
    · exact fun hg => congrArg (moveOn s) (sprWrite_shape_unassigned ht hg)

end Sys2Proof.Machine
end

