-- ==== Sys2Proof/Proofs/Rounding.lean ====
section
/-!
PROOFS. Proofs/Rounding.lean: rounding a quotient of natural numbers to a natural number, rounding to a multiple of a
power of two (O48), and rounding of rational numbers.
-/

namespace Sys2Proof.Machine

/-! ### The directions -/

/-- The mode rounds numbers of this sign away from zero. -/
def roundsOutward (r : Rounding) (neg : Bool) : Prop := (r = .up ∧ neg = false) ∨ (r = .down ∧ neg = true)

/-- The mode rounds numbers of this sign toward zero. -/
def roundsInward (r : Rounding) (neg : Bool) : Prop :=
  r = .zero ∨ (r = .up ∧ neg = true) ∨ (r = .down ∧ neg = false)

theorem rounding_cases (r : Rounding) (neg : Bool) : r = .nearest ∨ roundsOutward r neg ∨ roundsInward r neg := by
  cases r <;> cases neg <;> simp [roundsOutward, roundsInward]

theorem roundsAway_nearest (neg : Bool) (sig rem unit : Nat) :
    roundsAway .nearest neg sig rem unit = true ↔ unit < 2 * rem ∨ (2 * rem = unit ∧ sig % 2 = 1) := by
  simp [roundsAway]

theorem roundsAway_outward {r : Rounding} {neg : Bool} (h : roundsOutward r neg) (sig rem unit : Nat) :
    roundsAway r neg sig rem unit = true ↔ rem ≠ 0 := by
  rcases h with ⟨rfl, rfl⟩ | ⟨rfl, rfl⟩ <;> simp [roundsAway]

theorem roundsAway_inward {r : Rounding} {neg : Bool} (h : roundsInward r neg) (sig rem unit : Nat) :
    roundsAway r neg sig rem unit = false := by
  rcases h with rfl | ⟨rfl, rfl⟩ | ⟨rfl, rfl⟩ <;> rfl

/-! ### The quotient of two natural numbers, rounded -/

/-- `i / j`, rounded to a natural number. -/
def roundedQuotient (r : Rounding) (neg : Bool) (i j : Nat) : Nat :=
  i / j + (roundsAway r neg (i / j) (i % j) j).toNat

/-- The natural number `k` is `i / j` rounded as 45 R542 says of each mode. -/
structure RoundsQuotient (r : Rounding) (neg : Bool) (i j k : Nat) : Prop where
  nearest : r = .nearest → 2 * i ≤ 2 * (k * j) + j ∧ 2 * (k * j) ≤ 2 * i + j ∧
    (2 * i = 2 * (k * j) + j ∨ 2 * (k * j) = 2 * i + j → k % 2 = 0)
  inward : roundsInward r neg → k * j ≤ i ∧ i < k * j + j
  outward : roundsOutward r neg → i ≤ k * j ∧ k * j < i + j

/-- The rounded quotient is the quotient, or one more where the mode says so. -/
theorem roundedQuotient_eq (r : Rounding) (neg : Bool) (i j : Nat) :
    roundedQuotient r neg i j =
      if roundsAway r neg (i / j) (i % j) j = true then i / j + 1 else i / j := by
  unfold roundedQuotient
  split <;> simp_all

theorem roundsQuotient_roundedQuotient (r : Rounding) (neg : Bool) (i : Nat) {j : Nat} (hj : 0 < j) :
    RoundsQuotient r neg i j (roundedQuotient r neg i j) := by
  have hdiv : i / j * j + i % j = i := Nat.div_add_mod' i j
  have hsucc : (i / j + 1) * j = i / j * j + j := Nat.succ_mul _ _
  have hlt : i % j < j := Nat.mod_lt _ hj
  rw [roundedQuotient_eq]
  constructor
  case nearest =>
    rintro rfl
    simp only [roundsAway_nearest]
    split <;> omega
  case inward =>
    intro h
    simp only [roundsAway_inward h, Bool.false_eq_true, if_false]
    omega
  case outward =>
    intro h
    simp only [roundsAway_outward h]
    split <;> omega

/-- Nothing is left over just where the rounded quotient is the quotient. -/
theorem roundedQuotient_mul_eq_iff (r : Rounding) (neg : Bool) (i : Nat) {j : Nat} (hj : 0 < j) :
    roundedQuotient r neg i j * j = i ↔ i % j = 0 := by
  have hdiv : i / j * j + i % j = i := Nat.div_add_mod' i j
  have hlt : i % j < j := Nat.mod_lt _ hj
  refine ⟨fun h => Nat.mod_eq_zero_of_dvd ⟨_, (Nat.mul_comm _ _).trans h |>.symm⟩, fun h => ?_⟩
  have haway : roundsAway r neg (i / j) (i % j) j = false := by
    rcases rounding_cases r neg with rfl | hr | hr
    · rw [Bool.eq_false_iff, ne_eq, roundsAway_nearest]
      omega
    · rw [Bool.eq_false_iff, ne_eq, roundsAway_outward hr, not_not]
      exact h
    · exact roundsAway_inward hr _ _ _
  rw [roundedQuotient_eq, haway]
  simp only [Bool.false_eq_true, if_false]
  omega

/-! ### Rounding to a multiple of a power of two -/

theorem roundTo_of_le (r : Rounding) (neg : Bool) (m : Nat) {e q : Int} (h : q ≤ e) :
    roundTo r neg m e q = { sig := m * 2 ^ (e - q).toNat, inexact := false } := if_pos h

theorem roundTo_of_lt (r : Rounding) (neg : Bool) (m : Nat) {e q : Int} (h : e < q) :
    roundTo r neg m e q =
      { sig := roundedQuotient r neg m (2 ^ (q - e).toNat), inexact := decide (m % 2 ^ (q - e).toNat ≠ 0) } :=
  if_neg (by omega)

/-- Settles O48: the significand is the quotient by the unit, rounded. -/
theorem roundingIsCorrect : Obligations.RoundingIsCorrect := by
  intro r neg m e q
  refine ⟨roundTo_of_le r neg m, fun h => ?_⟩
  have hunit : 0 < 2 ^ (q - e).toNat := Nat.two_pow_pos _
  obtain ⟨hnearest, hinward, houtward⟩ := roundsQuotient_roundedQuotient r neg m hunit
  simp only [roundTo_of_lt r neg m h]
  refine ⟨?_, hnearest, hinward, houtward⟩
  rw [roundedQuotient_mul_eq_iff r neg m hunit, decide_eq_false_iff_not, not_not]

/-! ### Rounding a rational number -/

section
variable {r : Rounding} {neg : Bool} {y : ℚ} {n : Nat}

theorem roundsTo_nearest : roundsTo .nearest neg y n ↔ |y - n| ≤ 1 / 2 ∧ (|y - n| = 1 / 2 → n % 2 = 0) := Iff.rfl

theorem roundsTo_inward (h : roundsInward r neg) : roundsTo r neg y n ↔ (n : ℚ) ≤ y ∧ y < n + 1 := by
  rcases h with rfl | ⟨rfl, rfl⟩ | ⟨rfl, rfl⟩ <;> rfl

theorem roundsTo_outward (h : roundsOutward r neg) : roundsTo r neg y n ↔ y ≤ n ∧ (n : ℚ) < y + 1 := by
  rcases h with ⟨rfl, rfl⟩ | ⟨rfl, rfl⟩ <;> rfl

/-- A natural number is rounded to itself. -/
theorem roundsTo_self (r : Rounding) (neg : Bool) (n : Nat) : roundsTo r neg n n := by
  rcases rounding_cases r neg with rfl | h | h
  · simp [roundsTo_nearest]
  · simp [roundsTo_outward h]
  · simp [roundsTo_inward h]

/-- Rounding does not cross a natural number from below. -/
theorem roundsTo_le {b : Nat} (h : roundsTo r neg y n) (hy : y ≤ b) : n ≤ b := by
  have hlt : (n : ℚ) < b + 1 := by
    rcases rounding_cases r neg with rfl | hr | hr
    · linarith [neg_le_of_abs_le (roundsTo_nearest.1 h).1]
    · linarith [((roundsTo_outward hr).1 h).2]
    · linarith [((roundsTo_inward hr).1 h).1]
  exact Nat.lt_succ_iff.1 (by exact_mod_cast hlt)

/-- Rounding does not cross a natural number from above. -/
theorem le_roundsTo {b : Nat} (h : roundsTo r neg y n) (hy : b ≤ y) : b ≤ n := by
  have hlt : (b : ℚ) < n + 1 := by
    rcases rounding_cases r neg with rfl | hr | hr
    · linarith [le_of_abs_le (roundsTo_nearest.1 h).1]
    · linarith [((roundsTo_outward hr).1 h).1]
    · linarith [((roundsTo_inward hr).1 h).2]
  exact Nat.lt_succ_iff.1 (by exact_mod_cast hlt)

end

/-- A rounded quotient of natural numbers is the rational quotient rounded. -/
theorem roundsTo_of_roundsQuotient {r : Rounding} {neg : Bool} {i j k : Nat} (hj : 0 < j)
    (h : RoundsQuotient r neg i j k) : roundsTo r neg ((i : ℚ) / j) k := by
  have hj' : (0 : ℚ) < j := by exact_mod_cast hj
  rcases rounding_cases r neg with rfl | hr | hr
  · obtain ⟨hlow, hhigh, htie⟩ := h.nearest rfl
    have hlow' : (2 : ℚ) * i ≤ 2 * (k * j) + j := by exact_mod_cast hlow
    have hhigh' : (2 : ℚ) * (k * j) ≤ 2 * i + j := by exact_mod_cast hhigh
    have habs : |(i : ℚ) / j - k| = |2 * (i : ℚ) - 2 * (k * j)| / (2 * j) := by
      rw [← abs_of_pos (show (0 : ℚ) < 2 * j by linarith), ← abs_div]
      congr 1
      field_simp
    rw [roundsTo_nearest, habs, div_le_iff₀ (by linarith), div_eq_iff (by linarith), abs_le]
    refine ⟨⟨by linarith, by linarith⟩, fun heq => htie ?_⟩
    rcases (abs_eq (by linarith)).1 heq with h' | h'
    · exact .inl (by exact_mod_cast (by linarith : (2 : ℚ) * i = 2 * (k * j) + j))
    · exact .inr (by exact_mod_cast (by linarith : (2 : ℚ) * (k * j) = 2 * i + j))
  · obtain ⟨hlow, hhigh⟩ := h.outward hr
    rw [roundsTo_outward hr, div_le_iff₀ hj', ← sub_lt_iff_lt_add, lt_div_iff₀ hj', sub_mul, one_mul, sub_lt_iff_lt_add]
    exact ⟨by exact_mod_cast hlow, by exact_mod_cast hhigh⟩
  · obtain ⟨hlow, hhigh⟩ := h.inward hr
    rw [roundsTo_inward hr, le_div_iff₀ hj', div_lt_iff₀ hj', add_mul, one_mul]
    exact ⟨by exact_mod_cast hlow, by exact_mod_cast hhigh⟩

/-- `i / j` rounded is the rational quotient rounded. -/
theorem roundsTo_roundedQuotient (r : Rounding) (neg : Bool) (i : Nat) {j : Nat} (hj : 0 < j) :
    roundsTo r neg ((i : ℚ) / j) (roundedQuotient r neg i j) :=
  roundsTo_of_roundsQuotient hj (roundsQuotient_roundedQuotient r neg i hj)

/-! ### Powers of two -/

theorem zpow_two_pos (e : ℤ) : (0 : ℚ) < 2 ^ e := zpow_pos two_pos e

/-- A power of two in units of a smaller one. -/
theorem cast_two_pow_toNat {e q : ℤ} (h : q ≤ e) : ((2 ^ (e - q).toNat : Nat) : ℚ) = 2 ^ e / 2 ^ q := by
  rw [← zpow_sub₀ two_ne_zero, Nat.cast_pow, Nat.cast_ofNat, ← zpow_natCast, Int.toNat_of_nonneg (by omega)]

/-- Rounding to a multiple of `2 ^ q` rounds the number counted in that unit. -/
theorem roundsTo_roundTo (r : Rounding) (neg : Bool) (m : Nat) (e q : ℤ) :
    roundsTo r neg (m * 2 ^ e / 2 ^ q) (roundTo r neg m e q).sig := by
  rcases le_or_gt q e with h | h
  · have hcount : (m : ℚ) * 2 ^ e / 2 ^ q = (m * 2 ^ (e - q).toNat : Nat) := by
      rw [Nat.cast_mul, cast_two_pow_toNat h, mul_div_assoc]
    rw [roundTo_of_le r neg m h, hcount]
    exact roundsTo_self _ _ _
  · have hcount : (m : ℚ) * 2 ^ e / 2 ^ q = (m : ℚ) / (2 ^ (q - e).toNat : Nat) := by
      rw [cast_two_pow_toNat h.le, div_div_eq_mul_div]
    rw [roundTo_of_lt r neg m h, hcount]
    exact roundsTo_roundedQuotient _ _ _ (Nat.two_pow_pos _)

/-- Rounding is exact just where it reports nothing left over. -/
theorem roundTo_inexact (r : Rounding) (neg : Bool) (m : Nat) (e q : ℤ) :
    (roundTo r neg m e q).inexact = true ↔ ((roundTo r neg m e q).sig : ℚ) * 2 ^ q ≠ m * 2 ^ e := by
  have hq := zpow_two_pos q
  rcases le_or_gt q e with h | h
  · rw [roundTo_of_le r neg m h]
    simp only [Bool.false_eq_true, false_iff, not_not]
    rw [Nat.cast_mul, cast_two_pow_toNat h, mul_assoc, div_mul_cancel₀ _ hq.ne']
  · have he := zpow_two_pos e
    have hunit : (2 : ℚ) ^ q = (2 ^ (q - e).toNat : Nat) * 2 ^ e := by
      rw [cast_two_pow_toNat h.le, div_mul_cancel₀ _ he.ne']
    have hexact : (roundedQuotient r neg m (2 ^ (q - e).toNat) : ℚ) * (2 ^ (q - e).toNat : Nat) = m ↔
        m % 2 ^ (q - e).toNat = 0 := by
      rw [← roundedQuotient_mul_eq_iff r neg m (Nat.two_pow_pos _), ← Nat.cast_mul, Nat.cast_inj]
    simp only [roundTo_of_lt r neg m h, decide_eq_true_iff]
    rw [hunit, ← mul_assoc, ne_eq, ne_eq, mul_left_inj' he.ne', hexact]

end Sys2Proof.Machine
end

