-- ==== Sys2Proof/Proofs/FloatValues.lean ====
section
/-!
PROOFS. Proofs/FloatValues.lean: the numbers that finite values stand for, and the values that the patterns of a format
stand for (45 R541).
-/

namespace Sys2Proof.Machine

/-! ### Formats -/

/-- What the statements on patterns need of a format; the two formats of 45 R541 meet it. -/
structure FloatFormat.Fits (f : FloatFormat) : Prop where
  expBits : 2 ≤ f.expBits
  fracBits : 1 ≤ f.fracBits
  width : f.width ≤ 64

theorem fits_of_format {f : FloatFormat} (h : f = singleFormat ∨ f = doubleFormat) : f.Fits := by
  rcases h with rfl | rfl <;> constructor <;> decide

/-- The number of exponents, by the bias. -/
theorem FloatFormat.two_pow_expBits {f : FloatFormat} (hf : f.Fits) : (2 : ℤ) ^ f.expBits = 2 * f.bias + 2 := by
  obtain ⟨n, hn⟩ : ∃ n, f.expBits = n + 1 := ⟨f.expBits - 1, by have := hf.expBits; omega⟩
  rw [bias, hn, Nat.add_sub_cancel, pow_succ]
  ring

theorem FloatFormat.bias_pos {f : FloatFormat} (hf : f.Fits) : 1 ≤ f.bias := by
  have h : (2 : ℤ) ^ 1 ≤ 2 ^ (f.expBits - 1) := pow_le_pow_right₀ (by decide) (by have := hf.expBits; omega)
  rw [bias]
  omega

theorem FloatFormat.two_pow_width (f : FloatFormat) : 2 ^ f.width = 2 * (2 ^ f.expBits * 2 ^ f.fracBits) := by
  rw [width, Nat.add_assoc, pow_add, pow_one, pow_add]

theorem FloatFormat.two_pow_width_le {f : FloatFormat} (hf : f.Fits) : 2 ^ f.width ≤ 2 ^ 64 :=
  Nat.pow_le_pow_right two_pos hf.width

theorem FloatFormat.infCode_lt (f : FloatFormat) : f.infCode < 2 ^ f.expBits * 2 ^ f.fracBits :=
  Nat.mul_lt_mul_of_pos_right (Nat.sub_lt (Nat.two_pow_pos _) one_pos) (Nat.two_pow_pos _)

/-! ### The fields of a pattern -/

section
variable {f : FloatFormat} {code : Nat}

/-- A pattern as a number: the sign above exponent and fraction. -/
theorem FloatFormat.pattern_toNat (hf : f.Fits) (neg : Bool) (hcode : code < 2 ^ f.expBits * 2 ^ f.fracBits) :
    (f.pattern neg code).toNat = 2 ^ f.fracBits * (2 ^ f.expBits * neg.toNat) + code := by
  have hwidth := FloatFormat.two_pow_width_le hf
  rw [FloatFormat.two_pow_width] at hwidth
  have hfits : (if neg then 2 ^ (f.expBits + f.fracBits) else 0) + code < 2 ^ 64 := by
    rw [pow_add]
    split <;> omega
  rw [pattern, BitVec.toNat_ofNat, Nat.mod_eq_of_lt hfits, pow_add]
  cases neg <;> simp [Nat.mul_comm]

theorem FloatFormat.pattern_fraction (hf : f.Fits) (neg : Bool) (hcode : code < 2 ^ f.expBits * 2 ^ f.fracBits) :
    (f.pattern neg code).toNat % 2 ^ f.fracBits = code % 2 ^ f.fracBits := by
  rw [f.pattern_toNat hf neg hcode, Nat.mul_add_mod]

theorem FloatFormat.pattern_exponent (hf : f.Fits) (neg : Bool) (hcode : code < 2 ^ f.expBits * 2 ^ f.fracBits) :
    (f.pattern neg code).toNat / 2 ^ f.fracBits % 2 ^ f.expBits = code / 2 ^ f.fracBits := by
  rw [f.pattern_toNat hf neg hcode, Nat.mul_add_div (Nat.two_pow_pos _), Nat.mul_add_mod,
    Nat.mod_eq_of_lt (Nat.div_lt_of_lt_mul (by rwa [Nat.mul_comm]))]

theorem FloatFormat.pattern_sign (hf : f.Fits) (neg : Bool) (hcode : code < 2 ^ f.expBits * 2 ^ f.fracBits) :
    (f.pattern neg code).getLsbD (f.expBits + f.fracBits) = neg := by
  rw [BitVec.getLsbD, f.pattern_toNat hf neg hcode, Nat.testBit_eq_decide_div_mod_eq, ← mul_assoc, pow_add,
    Nat.mul_comm (2 ^ f.fracBits), Nat.mul_add_div (by positivity), Nat.div_eq_of_lt hcode]
  cases neg <;> rfl

/-! ### The values of patterns -/

theorem floatValue_pattern_infCode (c : Config) (hf : f.Fits) (neg : Bool) :
    floatValue c f (f.pattern neg f.infCode) = .infinity neg := by
  have hcode := f.infCode_lt
  simp only [floatValue, f.pattern_fraction hf neg hcode, f.pattern_exponent hf neg hcode, f.pattern_sign hf neg hcode]
  rw [FloatFormat.infCode, Nat.mul_div_cancel _ (Nat.two_pow_pos _), Nat.mul_mod_left, if_pos rfl, if_pos rfl]

/-- The pattern of a normal number. -/
theorem floatValue_pattern_normal (c : Config) (hf : f.Fits) (neg : Bool) (hlow : 2 ^ f.fracBits ≤ code)
    (hinf : code < f.infCode) :
    floatValue c f (f.pattern neg code) =
      .finite neg (2 ^ f.fracBits + code % 2 ^ f.fracBits)
        ((code / 2 ^ f.fracBits : Nat) - f.bias - f.fracBits) := by
  have hcode := hinf.trans f.infCode_lt
  have hexp : code / 2 ^ f.fracBits < 2 ^ f.expBits - 1 := Nat.div_lt_of_lt_mul (by rwa [Nat.mul_comm])
  have hexp0 : 0 < code / 2 ^ f.fracBits := Nat.div_pos hlow (Nat.two_pow_pos _)
  simp only [floatValue, f.pattern_fraction hf neg hcode, f.pattern_exponent hf neg hcode, f.pattern_sign hf neg hcode]
  rw [if_neg hexp.ne, if_neg hexp0.ne']

/-- The exponent and the fraction of a pattern below the normal ones. -/
theorem FloatFormat.pattern_low (hf : f.Fits) (neg : Bool) (hlow : code < 2 ^ f.fracBits) :
    (f.pattern neg code).toNat % 2 ^ f.fracBits = code ∧
      (f.pattern neg code).toNat / 2 ^ f.fracBits % 2 ^ f.expBits = 0 ∧ 0 ≠ 2 ^ f.expBits - 1 ∧
      (f.pattern neg code).getLsbD (f.expBits + f.fracBits) = neg := by
  have hexp : 2 ^ 2 ≤ 2 ^ f.expBits := Nat.pow_le_pow_right two_pos hf.expBits
  have hcode : code < 2 ^ f.expBits * 2 ^ f.fracBits := hlow.trans_le (Nat.le_mul_of_pos_left _ (by omega))
  rw [f.pattern_fraction hf neg hcode, f.pattern_exponent hf neg hcode, f.pattern_sign hf neg hcode,
    Nat.mod_eq_of_lt hlow, Nat.div_eq_of_lt hlow]
  exact ⟨rfl, rfl, by omega, rfl⟩

/-- The pattern of a number below the normal ones, or of zero. -/
theorem floatValue_pattern_subnormal {c : Config} (hc : c.denormals = .ieee) (hf : f.Fits) (neg : Bool)
    (hlow : code < 2 ^ f.fracBits) :
    floatValue c f (f.pattern neg code) = .finite neg code (f.emin - f.fracBits) := by
  obtain ⟨hfrac, hexp, hne, hsign⟩ := f.pattern_low hf neg hlow
  simp only [floatValue, hfrac, hexp, hsign, hc, if_neg hne, if_true]

/-- The pattern of a number below the normal ones, or of zero, where such numbers are flushed. -/
theorem floatValue_pattern_flushed {c : Config} (hc : c.denormals = .flush) (hf : f.Fits) (neg : Bool)
    (hlow : code < 2 ^ f.fracBits) : floatValue c f (f.pattern neg code) = .finite neg 0 0 := by
  obtain ⟨hfrac, hexp, hne, hsign⟩ := f.pattern_low hf neg hlow
  simp only [floatValue, hexp, hsign, hc, if_neg hne, if_true]

/-- The pattern of a zero. -/
theorem floatValue_pattern_zero (c : Config) (hf : f.Fits) (neg : Bool) :
    ∃ e : Int, floatValue c f (f.pattern neg 0) = .finite neg 0 e := by
  have hlow : 0 < 2 ^ f.fracBits := Nat.two_pow_pos _
  cases hc : c.denormals with
  | ieee => exact ⟨_, floatValue_pattern_subnormal hc hf neg hlow⟩
  | flush => exact ⟨_, floatValue_pattern_flushed hc hf neg hlow⟩

/-- The bits of a number between zero and infinity: `t` exponents above the smallest, and a significand `n` that may
carry into the next exponent. -/
theorem floatValue_pattern_magnitude (c : Config) (hf : f.Fits) (neg : Bool) {t n : Nat} (hn : n ≤ 2 ^ (f.fracBits + 1))
    (ht : t = 0 ∨ 2 ^ f.fracBits ≤ n) (hcode : code = t * 2 ^ f.fracBits + n) (hinf : code < f.infCode)
    (hflush : c.denormals = .flush → 2 ^ f.fracBits ≤ code) :
    ∃ (m : Nat) (e : Int), floatValue c f (f.pattern neg code) = .finite neg m e ∧
      (m : ℚ) * 2 ^ e = n * 2 ^ (t + f.emin - f.fracBits) := by
  have hone : 0 < 2 ^ f.fracBits := Nat.two_pow_pos _
  rcases lt_or_ge code (2 ^ f.fracBits) with hlow | hlow
  · have ht0 : t = 0 := by
      rcases ht with ht | ht
      · exact ht
      · omega
    subst ht0
    cases hc : c.denormals with
    | flush => exact absurd (hflush hc) (by omega)
    | ieee => exact ⟨code, _, floatValue_pattern_subnormal hc hf neg hlow, by rw [hcode]; simp⟩
  · have hn' : 2 ^ f.fracBits ≤ n := by
      rcases ht with ht | ht
      · simpa [ht, hcode] using hlow
      · exact ht
    obtain ⟨j, rfl⟩ := Nat.exists_eq_add_of_le hn'
    have hcode' : code = 2 ^ f.fracBits * (t + 1) + j := by rw [hcode]; ring
    have hj : j ≤ 2 ^ f.fracBits := by rw [pow_succ] at hn; omega
    refine ⟨_, _, floatValue_pattern_normal c hf neg hlow hinf, ?_⟩
    rcases hj.lt_or_eq with hj | rfl
    · rw [hcode', Nat.mul_add_mod, Nat.mul_add_div hone, Nat.mod_eq_of_lt hj, Nat.div_eq_of_lt hj]
      congr 2
      simp only [FloatFormat.emin]
      push_cast
      ring
    · have hcarry : 2 ^ f.fracBits * (t + 1) + 2 ^ f.fracBits = 2 ^ f.fracBits * (t + 2) := by ring
      have hexp : ((t + 2 : Nat) : ℤ) - f.bias - f.fracBits = t + f.emin - f.fracBits + 1 := by
        simp only [FloatFormat.emin]
        push_cast
        ring
      rw [hcode', hcarry, Nat.mul_mod_right, Nat.mul_div_cancel_left _ hone, hexp, zpow_add_one₀ two_ne_zero]
      push_cast
      ring

/-- An exponent of all ones and the first bit of the fraction set make a quiet NaN, whatever the other bits. -/
theorem floatValue_quiet (c : Config) (hf : f.Fits) {x : Word}
    (hexp : x.toNat / 2 ^ f.fracBits % 2 ^ f.expBits = 2 ^ f.expBits - 1)
    (hquiet : x.getLsbD (f.fracBits - 1) = true) : floatValue c f x = .nan false := by
  have hfrac : x.toNat % 2 ^ f.fracBits ≠ 0 := by
    intro h0
    have hbit : (x.toNat % 2 ^ f.fracBits).testBit (f.fracBits - 1) = true := by
      rw [Nat.testBit_mod_two_pow, decide_eq_true (by have := hf.fracBits; omega)]
      exact hquiet
    rw [h0, Nat.zero_testBit] at hbit
    exact absurd hbit (by decide)
  simp only [floatValue, hexp, if_true, if_neg hfrac, hquiet, Bool.not_true]

end

/-- A NaN result is a quiet NaN, whatever value the free pattern takes. -/
theorem floatValue_nanResult (c : Config) {f : FloatFormat} (hf : f.Fits) (op : Nat) (a b : Word) (flags : BitVec 9) :
    floatValue c f (nanResult f op a b flags).value = .nan false := by
  obtain ⟨n, hn⟩ : ∃ n, f.fracBits = n + 1 := ⟨f.fracBits - 1, by have := hf.fracBits; omega⟩
  have hones : 0 < 2 ^ f.expBits := Nat.two_pow_pos _
  have hhalf : 2 ^ f.fracBits = 2 ^ n * 2 := by rw [hn, pow_succ]
  have hquiet : f.infCode + 2 ^ (f.fracBits - 1) = 2 ^ n * (2 * (2 ^ f.expBits - 1) + 1) := by
    rw [FloatFormat.infCode, hhalf, hn, Nat.add_sub_cancel]
    ring
  have hcode : f.infCode + 2 ^ (f.fracBits - 1) < 2 ^ f.expBits * 2 ^ f.fracBits := by
    rw [hquiet, hhalf, Nat.mul_left_comm]
    exact Nat.mul_lt_mul_of_pos_left (by omega) (Nat.two_pow_pos n)
  refine floatValue_quiet c hf ?_ ?_
  · have hexp : (f.infCode + 2 ^ (f.fracBits - 1)) / 2 ^ f.fracBits = 2 ^ f.expBits - 1 := by
      rw [FloatFormat.infCode, Nat.mul_comm, Nat.mul_add_div (Nat.two_pow_pos _), hn, Nat.add_sub_cancel,
        Nat.div_eq_of_lt (Nat.pow_lt_pow_right one_lt_two n.lt_succ_self), Nat.add_zero]
    rw [nanResult, BitVec.toNat_or, Nat.or_div_two_pow, Nat.or_mod_two_pow, f.pattern_exponent hf false hcode, hexp]
    refine Nat.le_antisymm (Nat.le_sub_one_of_lt (Nat.or_lt_two_pow (Nat.mod_lt _ hones) (by omega))) Nat.right_le_or
  · have hbit : (f.pattern false (f.infCode + 2 ^ (f.fracBits - 1))).getLsbD (f.fracBits - 1) = true := by
      rw [BitVec.getLsbD, f.pattern_toNat hf false hcode, Nat.testBit_eq_decide_div_mod_eq, hquiet, hn,
        Nat.add_sub_cancel, Bool.toNat_false, Nat.mul_zero, Nat.mul_zero, Nat.zero_add,
        Nat.mul_div_cancel_left _ (Nat.two_pow_pos n)]
      simp
    rw [nanResult, BitVec.getLsbD_or, hbit, Bool.or_true]

/-! ### The numbers of finite values -/

/-- The sign of a number, as a factor. -/
def signFactor (neg : Bool) : ℚ := if neg then -1 else 1

theorem signFactor_true : signFactor true = -1 := rfl

theorem signFactor_false : signFactor false = 1 := rfl

theorem abs_signFactor_mul (neg : Bool) {w : ℚ} (hw : 0 ≤ w) : |signFactor neg * w| = w := by
  cases neg
  · rw [signFactor_false, one_mul, abs_of_nonneg hw]
  · rw [signFactor_true, neg_one_mul, abs_neg, abs_of_nonneg hw]

theorem signFactor_mul_lt_zero (neg : Bool) {w : ℚ} (hw : 0 < w) : decide (signFactor neg * w < 0) = neg := by
  cases neg
  · simp [signFactor_false, hw.le]
  · simp [signFactor_true, hw]

theorem signFactor_not (neg : Bool) : signFactor (!neg) = -signFactor neg := by
  cases neg <;> simp [signFactor]

theorem signFactor_bne (n n' : Bool) : signFactor (n != n') = signFactor n * signFactor n' := by
  cases n <;> cases n' <;> simp [signFactor]

theorem FloatValue.number_finite (neg : Bool) (m : Nat) (e : Int) :
    (finite neg m e).number = signFactor neg * (m * 2 ^ e) := mul_assoc _ _ _

theorem FloatValue.abs_number (neg : Bool) (m : Nat) (e : Int) : |(finite neg m e).number| = m * 2 ^ e := by
  rw [number_finite, abs_signFactor_mul neg (by positivity)]

/-- A magnitude counted in a unit that divides it. -/
theorem cast_mul_two_pow_toNat (m : Nat) {e q : ℤ} (h : q ≤ e) :
    ((m * 2 ^ (e - q).toNat : Nat) : ℚ) * 2 ^ q = m * 2 ^ e := by
  rw [Nat.cast_mul, cast_two_pow_toNat h, mul_assoc, div_mul_cancel₀ _ (zpow_two_pos q).ne']

/-- A finite value is its count of units. -/
theorem signedUnits_mul (neg : Bool) (m : Nat) {e q : ℤ} (h : q ≤ e) :
    (signedUnits neg m e q : ℚ) * 2 ^ q = (FloatValue.finite neg m e).number := by
  rw [FloatValue.number_finite, ← cast_mul_two_pow_toNat m h, ← mul_assoc]
  cases neg <;> simp [signedUnits, signFactor]

/-- The significand of a finite operand. -/
theorem significand_lt {c : Config} {f : FloatFormat} {x : Word} {neg : Bool} {m : Nat} {e : Int}
    (h : floatValue c f x = .finite neg m e) : m < 2 ^ (f.fracBits + 1) := by
  have hfrac : x.toNat % 2 ^ f.fracBits < 2 ^ f.fracBits := Nat.mod_lt _ (Nat.two_pow_pos _)
  rw [pow_succ]
  simp only [floatValue] at h
  split_ifs at h
  · cases hd : c.denormals <;> simp only [hd, FloatValue.finite.injEq] at h <;> omega
  · simp only [FloatValue.finite.injEq] at h
    omega

end Sys2Proof.Machine
end

