-- ==== Sys2Proof/Proofs/FloatInstructions.lean ====
section
/-!
PROOFS. Proofs/FloatInstructions.lean: what the floating-point operations write and when they raise the exception (O46),
and the floating-point comparisons (O47).
-/

namespace Sys2Proof.Machine

/-! ### Operations (45 R543) -/

/-- A state with the result and the flags of an operation written, and PPC its address: the one the exception is taken
in. -/
def floatWritten (s : State) (d : Reg) (r : FloatResult) : State :=
  { s.setGpr d r.value with fpcsr := fpcsrAfter s r.flags, ppc := s.pc }

theorem floatComplete_eq (s : State) (d : Reg) (r : FloatResult) :
    floatComplete s d r =
      if floatTraps s r.flags = true then enter .floatingPoint none (floatWritten s d r)
      else .next (floatWritten s d r).advance := rfl

theorem floatTraps_iff (s : State) (flags : BitVec 9) :
    floatTraps s flags = true ↔ s.fpcsr.getLsbD 0 = true ∧ flags &&& s.cfg.trapMask ≠ 0#9 := by
  simp [floatTraps]

theorem floatWritten_eq (s : State) (d : Reg) (r : FloatResult) :
    floatWritten s d r = { s with
      gprs := (floatWritten s d r).gprs, fpcsr := fpcsrAfter s r.flags, ppc := s.pc } := by
  unfold floatWritten
  rw [State.setGpr_eq]

theorem canEnter_floatWritten {s : State} {e : Exc} (h : canEnter s e) (d : Reg) (r : FloatResult) :
    canEnter (floatWritten s d r) e := by
  rw [floatWritten_eq]
  exact h

theorem registerIs_floatWritten (s : State) (d : Reg) (r : FloatResult) :
    registerIs s (floatWritten s d r) d r.value :=
  registerIs_of_setGpr (by rw [floatWritten_eq]) (by rw [floatWritten_eq]; rfl) rfl

/-- An operation that raises no exception completes. -/
theorem floatComplete_next {s : State} {r : FloatResult} (h : floatTraps s r.flags = false) (d : Reg) :
    ∃ t, floatComplete s d r = .next t ∧ registerIs s t d r.value ∧ t.fpcsr = fpcsrAfter s r.flags ∧
      memoryKept s t ∧ t = { movedOn s with gprs := t.gprs, fpcsr := t.fpcsr } := by
  refine ⟨(floatWritten s d r).advance, ?_, registerIs_of_setGpr ?_ ?_ rfl, rfl, memoryKept_of_mem ?_, ?_⟩
  · rw [floatComplete_eq, h, if_neg Bool.false_ne_true]
  all_goals
    rw [floatWritten_eq]
    rfl

section
variable {i : Instr} {s : State} {needs : Needs} {regs : List Reg} {d : Reg} {r : FloatResult}

/-- An available operation of which no exception is asked completes. -/
theorem writesFloat_of_floatComplete (h : available s needs regs)
    (he : exec i s = checked s needs regs (floatComplete s d r))
    (hno : s.fpcsr.getLsbD 0 = false ∨ r.flags &&& s.cfg.trapMask = 0#9) : writesFloat i s d r := by
  rw [checked_eq h] at he
  have htraps : floatTraps s r.flags = false := by
    rw [Bool.eq_false_iff, ne_eq, floatTraps_iff]
    rintro ⟨hen, hflags⟩
    rcases hno with hno | hno
    · exact absurd (hen.symm.trans hno) (by decide)
    · exact hflags hno
  obtain ⟨t, ht, hreg, hfpcsr, hmem, hframe⟩ := floatComplete_next htraps d
  exact ⟨t, he.trans ht, hreg, hfpcsr, hmem, hframe⟩

/-- An available operation that raises the exception takes it in the state with its result and flags written. -/
theorem takesException_of_floatComplete (h : available s needs regs)
    (he : exec i s = checked s needs regs (floatComplete s d r)) (hen : s.fpcsr.getLsbD 0 = true)
    (hflags : r.flags &&& s.cfg.trapMask ≠ 0#9) (hcan : canEnter s .floatingPoint) :
    ∃ u : State, takesException (exec i s) u .floatingPoint none ∧ registerIs s u d r.value ∧
      u.fpcsr = fpcsrAfter s r.flags ∧ u = { s with gprs := u.gprs, fpcsr := u.fpcsr, ppc := s.pc } := by
  rw [checked_eq h, floatComplete_eq, if_pos ((floatTraps_iff s r.flags).2 ⟨hen, hflags⟩)] at he
  exact ⟨floatWritten s d r, he ▸ enter_spec none (canEnter_floatWritten hcan d r), registerIs_floatWritten s d r, rfl,
    floatWritten_eq s d r⟩

end

/-- Settles O46: all fourteen end in `floatComplete`. -/
theorem floatingPointArithmetic : Obligations.FloatingPointArithmetic := by
  intro s d a b
  refine ⟨fun h => ⟨?_, ?_, ?_, ?_, ?_⟩, fun h => ⟨?_, ?_, ?_, ?_, ?_⟩, fun h => ⟨?_, ?_⟩, fun h => ⟨?_, ?_⟩⟩
  all_goals exact ⟨writesFloat_of_floatComplete h rfl, takesException_of_floatComplete h rfl⟩

/-! ### Comparisons (45 R545 (d)) -/

theorem relOfInts_eq_less {i j : Int} : relOfInts i j = .less ↔ i < j := by
  unfold relOfInts
  split_ifs <;> simp <;> omega

theorem relOfInts_eq_equal {i j : Int} : relOfInts i j = .equal ↔ i = j := by
  unfold relOfInts
  split_ifs <;> simp <;> omega

theorem relOfInts_eq_greater {i j : Int} : relOfInts i j = .greater ↔ j < i := by
  unfold relOfInts
  split_ifs <;> simp <;> omega

/-- The relation of two finite values is that of their numbers: both are counted in the smaller unit. -/
theorem relOfValues_finite (n n' : Bool) (m m' : Nat) (e e' : Int) :
    let x := FloatValue.finite n m e
    let y := FloatValue.finite n' m' e'
    (relOfValues x y = .less ↔ x.number < y.number) ∧ (relOfValues x y = .equal ↔ x.number = y.number) ∧
      (relOfValues x y = .greater ↔ y.number < x.number) := by
  intro x y
  have hunit := zpow_two_pos (min e e')
  have hx : x.number = signedUnits n m e (min e e') * 2 ^ min e e' := (signedUnits_mul n m (min_le_left e e')).symm
  have hy : y.number = signedUnits n' m' e' (min e e') * 2 ^ min e e' :=
    (signedUnits_mul n' m' (min_le_right e e')).symm
  rw [hx, hy, mul_lt_mul_iff_left₀ hunit, mul_lt_mul_iff_left₀ hunit, mul_left_inj' hunit.ne', Int.cast_lt, Int.cast_lt,
    Int.cast_inj]
  exact ⟨relOfInts_eq_less, relOfInts_eq_equal, relOfInts_eq_greater⟩

theorem relOfValues_nan (b : Bool) (z : FloatValue) :
    relOfValues (.nan b) z = .unordered ∧ relOfValues z (.nan b) = .unordered := by
  cases z <;> exact ⟨rfl, rfl⟩

theorem floatEq_iff (r : FloatRel) : floatEq r = true ↔ r = .equal := by simp [floatEq]

theorem floatNe_iff (r : FloatRel) : floatNe r = true ↔ r ≠ .equal := by simp [floatNe]

theorem floatGt_iff (r : FloatRel) : floatGt r = true ↔ r = .greater := by simp [floatGt]

theorem floatGe_iff (r : FloatRel) : floatGe r = true ↔ r = .greater ∨ r = .equal := by simp [floatGe]

theorem floatLt_iff (r : FloatRel) : floatLt r = true ↔ r = .less := by simp [floatLt]

theorem floatLe_iff (r : FloatRel) : floatLe r = true ↔ r = .less ∨ r = .equal := by simp [floatLe]

theorem FloatValue.isSignaling_iff (x : FloatValue) : x.isSignaling = true ↔ x = .nan true := by
  cases x <;> simp [isSignaling]

theorem FloatValue.isNan_iff (x : FloatValue) : x.isNan = true ↔ x = .nan true ∨ x = .nan false := by
  rcases x with ⟨_ | _⟩ | _ | _ <;> simp [isNan]

/-- A comparison is invalid on a signalling NaN, an ordering one on a quiet NaN too. -/
theorem compareInvalid_eq (c : Config) (f : FloatFormat) (ordering : Bool) (a b : Word) :
    compareInvalid c f ordering a b =
      decide (floatValue c f a = .nan true ∨ floatValue c f b = .nan true ∨
        (ordering = true ∧ (floatValue c f a = .nan false ∨ floatValue c f b = .nan false))) := by
  rw [Bool.eq_iff_iff, decide_eq_true_iff]
  simp only [compareInvalid, Bool.or_eq_true, Bool.and_eq_true, FloatValue.isSignaling_iff, FloatValue.isNan_iff]
  tauto

/-- IVF is bit 9 of FPCSR (45 R544). -/
theorem getLsbD_or_ivf (x : BitVec 32) {n : Nat} (hn : n < 32) :
    (x ||| 0x200#32).getLsbD n = (x.getLsbD n || decide (n = 9)) := by
  rw [BitVec.getLsbD_or]
  congr 1
  interval_cases n <;> rfl

/-- An instruction that is available and ends in `floatFlag` writes F, and IVF where it is invalid. -/
theorem writesFloatFlag_of_floatFlag {i : Instr} {s : State} {needs : Needs} {regs : List Reg} {v invalid : Bool}
    (h : available s needs regs) (he : exec i s = checked s needs regs (floatFlag s v invalid)) :
    writesFloatFlag i s v invalid := by
  rw [checked_eq h] at he
  refine ⟨_, he, flagsAre_setF (by simp), fun n hn => ?_, registersKept_of_gprs rfl rfl, memoryKept_of_mem rfl,
    rfl⟩
  show (if (s.cfg.fpCmpFlags && invalid) = true then s.fpcsr ||| 0x200#32 else s.fpcsr).getLsbD n = _
  split
  case isTrue hset => rw [getLsbD_or_ivf _ hn, Bool.and_assoc, hset, Bool.and_true]
  case isFalse hset => rw [Bool.and_assoc, Bool.eq_false_iff.2 hset, Bool.and_false, Bool.or_false]

/-- An available comparison: F by its condition on the relation of the two values, IVF by their kinds. -/
theorem compares {i : Instr} {s : State} {needs : Needs} {f : FloatFormat} {a b : Reg} {ordering : Bool}
    {cond : FloatRel → Bool} {holds : FloatRel → Prop} (hcond : ∀ r, cond r = true ↔ holds r)
    (h : available s needs [a, b])
    (he : exec i s = checked s needs [a, b]
      (floatFlag s (cond (floatCompare s.cfg f (gpr s a) (gpr s b)))
        (compareInvalid s.cfg f ordering (gpr s a) (gpr s b)))) :
    let x := floatValue s.cfg f (gpr s a)
    let y := floatValue s.cfg f (gpr s b)
    ∃ v : Bool, (v = true ↔ holds (relOfValues x y)) ∧
      writesFloatFlag i s v (decide (x = .nan true ∨ y = .nan true ∨
        (ordering = true ∧ (x = .nan false ∨ y = .nan false)))) := by
  have hw := writesFloatFlag_of_floatFlag h he
  rw [compareInvalid_eq] at hw
  exact ⟨_, hcond _, hw⟩

/-- Settles O47: finite values by their numbers, the others by their kinds; all twelve instructions end in
`floatFlag`. -/
theorem floatingPointComparison : Obligations.FloatingPointComparison := by
  refine ⟨fun n n' m m' e e' => ?values, fun s a b => ⟨fun h => ?single, fun h => ?double⟩⟩
  case values =>
    obtain ⟨hless, hequal, hgreater⟩ := relOfValues_finite n n' m m' e e'
    refine ⟨hless, hequal, hgreater, ?_, ?_, by decide, relOfValues_nan⟩
    · simp [relOfValues]
    · simp [relOfValues]
  case single =>
    exact ⟨compares floatEq_iff h rfl, compares floatNe_iff h rfl, compares floatGt_iff h rfl,
      compares floatGe_iff h rfl, compares floatLt_iff h rfl, compares floatLe_iff h rfl⟩
  case double =>
    exact ⟨compares floatEq_iff h rfl, compares floatNe_iff h rfl, compares floatGt_iff h rfl,
      compares floatGe_iff h rfl, compares floatLt_iff h rfl, compares floatLe_iff h rfl⟩

end Sys2Proof.Machine
end

