-- ==== Sys2Proof/Proofs/RoundingBoundaries.lean ====
section
/-!
PROOFS. Proofs/RoundingBoundaries.lean: what a format delivers of a number (45 R541, R542, R544) depends only on which
of the boundaries of the format it lies between.
-/

namespace Sys2Proof.Machine

/-! ### Numbers that no boundary separates -/

/-- No multiple of `h` tells the two numbers apart. -/
def SameSides (h y y' : ℚ) : Prop := ∀ k : ℤ, (k * h ≤ y ↔ k * h ≤ y') ∧ (y ≤ k * h ↔ y' ≤ k * h)

section
variable {h y y' : ℚ}

theorem SameSides.lt_iff (hs : SameSides h y y') (k : ℤ) : y < k * h ↔ y' < k * h := by
  rw [← not_le, ← not_le, (hs k).1]

theorem SameSides.eq_iff (hs : SameSides h y y') (k : ℤ) : k * h = y ↔ k * h = y' := by
  rw [le_antisymm_iff, le_antisymm_iff, (hs k).1, (hs k).2]

/-- A multiple of a multiple is a multiple. -/
theorem SameSides.mul_left (hs : SameSides h y y') (n : ℤ) : SameSides (n * h) y y' := by
  intro k
  have hk := hs (k * n)
  rwa [Int.cast_mul, mul_assoc] at hk

theorem SameSides.zpow_mono {p q : ℤ} (hs : SameSides (2 ^ p) y y') (hpq : p ≤ q) : SameSides (2 ^ q) y y' := by
  have hmul := hs.mul_left (2 ^ (q - p).toNat : Nat)
  rwa [Int.cast_natCast, cast_two_pow_toNat hpq, div_mul_cancel₀ _ (zpow_two_pos p).ne'] at hmul

theorem SameSides.div (hs : SameSides h y y') {u : ℚ} (hu : 0 < u) : SameSides (h / u) (y / u) (y' / u) := by
  intro k
  rw [← mul_div_assoc, div_le_div_iff_of_pos_right hu, div_le_div_iff_of_pos_right hu, div_le_div_iff_of_pos_right hu,
    div_le_div_iff_of_pos_right hu]
  exact hs k

theorem SameSides.mul_right (hs : SameSides h y y') {u : ℚ} (hu : 0 < u) : SameSides (h * u) (y * u) (y' * u) := by
  intro k
  rw [← mul_assoc, mul_le_mul_iff_left₀ hu, mul_le_mul_iff_left₀ hu, mul_le_mul_iff_left₀ hu, mul_le_mul_iff_left₀ hu]
  exact hs k

/-- Rounding to an integer looks at the multiples of one half alone. -/
theorem roundsTo_congr {r : Rounding} {neg : Bool} {n : Nat} (hs : SameSides (1 / 2) y y') :
    roundsTo r neg y n ↔ roundsTo r neg y' n := by
  rcases rounding_cases r neg with rfl | hr | hr
  · have hle (x : ℚ) : |x - n| ≤ 1 / 2 ↔ (2 * n - 1 : ℤ) * (1 / 2) ≤ x ∧ x ≤ (2 * n + 1 : ℤ) * (1 / 2) := by
      push_cast
      rw [abs_le]
      constructor <;> rintro ⟨h1, h2⟩ <;> constructor <;> linarith
    have heq (x : ℚ) : |x - n| = 1 / 2 ↔ (2 * n + 1 : ℤ) * (1 / 2) = x ∨ (2 * n - 1 : ℤ) * (1 / 2) = x := by
      push_cast
      rw [abs_eq (by norm_num)]
      constructor <;> rintro (h | h) <;> [left; right; left; right] <;> linarith
    rw [roundsTo_nearest, roundsTo_nearest, hle, hle, heq, heq, (hs _).1, (hs _).2, hs.eq_iff, hs.eq_iff]
  · have hlt (x : ℚ) : (n : ℚ) < x + 1 ↔ (2 * n - 2 : ℤ) * (1 / 2) < x := by
      push_cast
      constructor <;> intro <;> linarith
    have hle (x : ℚ) : x ≤ n ↔ x ≤ (2 * n : ℤ) * (1 / 2) := by
      push_cast
      constructor <;> intro <;> linarith
    rw [roundsTo_outward hr, roundsTo_outward hr, hlt, hlt, hle, hle, (hs _).2, ← not_le, (hs _).2, not_le]
  · have hlt (x : ℚ) : x < n + 1 ↔ x < (2 * n + 2 : ℤ) * (1 / 2) := by
      push_cast
      constructor <;> intro <;> linarith
    have hle (x : ℚ) : n ≤ x ↔ (2 * n : ℤ) * (1 / 2) ≤ x := by
      push_cast
      constructor <;> intro <;> linarith
    rw [roundsTo_inward hr, roundsTo_inward hr, hlt, hlt, hle, hle, (hs _).1, hs.lt_iff]

end

/-! ### Results depend on the boundaries alone -/

/-- Below the smallest normal number by at least half a unit of the last place there: certain underflow. -/
theorem underflowBound_eq (f : FloatFormat) :
    (2 : ℚ) ^ f.emin - 2 ^ (f.emin - 1 - f.fracBits) =
      ((2 ^ (f.fracBits + 1) - 1 : Nat) : ℤ) * 2 ^ (f.emin - 1 - f.fracBits) := by
  have hsplit : (2 : ℚ) ^ f.emin = 2 ^ (f.fracBits + 1) * 2 ^ (f.emin - 1 - f.fracBits) := by
    rw [← zpow_natCast, ← zpow_add₀ two_ne_zero]
    congr 1
    push_cast
    ring
  rw [hsplit, Int.cast_natCast, Nat.cast_sub Nat.one_le_two_pow]
  push_cast
  ring

/-- Where no boundary of the format separates two numbers other than zero of the same sign, what is delivered of one is
delivered of the other. -/
theorem delivers_congr {c : Config} {f : FloatFormat} {r : Rounding} {neg : Bool} {z z' : ℚ} {x : FloatResult}
    (hz : z ≠ 0) (hz' : z' ≠ 0) (hsign : decide (z < 0) = decide (z' < 0))
    (hs : ∀ top : ℤ, (2 : ℚ) ^ top ≤ |z'| → |z'| < 2 ^ (top + 1) → SameSides (2 ^ (top - 1 - f.fracBits)) |z| |z'|)
    (h : delivers c f r neg z' x) : delivers c f r neg z x := by
  refine ⟨fun h0 => absurd h0 hz, fun _ => ?_⟩
  obtain ⟨top, n, hlow, hhigh, hround, hover, hin⟩ := h.2 hz'
  have hs := hs top hlow hhigh
  have hpow {p : ℤ} (hp : top - 1 - f.fracBits ≤ p) : SameSides (2 ^ p) |z| |z'| := hs.zpow_mono hp
  have hlow' : (2 : ℚ) ^ top ≤ |z| := by
    have hk := (hpow (p := top) (by omega) 1).1
    simp only [Int.cast_one, one_mul] at hk
    exact hk.2 hlow
  have hhigh' : |z| < 2 ^ (top + 1) := by
    have hk := (hpow (p := top + 1) (by omega)).lt_iff 1
    simp only [Int.cast_one, one_mul] at hk
    exact hk.2 hhigh
  -- Every boundary is a multiple of half a unit in the last place, or lies at or below `2 ^ top`.
  have hexact : n * (2 : ℚ) ^ (max top f.emin - f.fracBits) ≠ |z'| ↔
      n * (2 : ℚ) ^ (max top f.emin - f.fracBits) ≠ |z| :=
    not_congr ((hpow (by omega)).eq_iff n).symm
  have hnormal : |z'| < (2 : ℚ) ^ f.emin ↔ |z| < (2 : ℚ) ^ f.emin := by
    rcases le_or_gt f.emin top with ht | ht
    · have hle : (2 : ℚ) ^ f.emin ≤ 2 ^ top := zpow_le_zpow_right₀ one_le_two ht
      exact iff_of_false (hle.trans hlow).not_gt (hle.trans hlow').not_gt
    · have hk := (hpow (p := f.emin) (by omega)).lt_iff 1
      simp only [Int.cast_one, one_mul] at hk
      exact hk.symm
  have htiny : |z'| ≤ (2 : ℚ) ^ f.emin - 2 ^ (f.emin - 1 - f.fracBits) ↔
      |z| ≤ (2 : ℚ) ^ f.emin - 2 ^ (f.emin - 1 - f.fracBits) := by
    rcases le_or_gt top f.emin with ht | ht
    · rw [underflowBound_eq, (hpow (by omega) _).2]
    · have hle : (2 : ℚ) ^ f.emin ≤ 2 ^ top := zpow_le_zpow_right₀ one_le_two ht.le
      have hpos := zpow_two_pos (f.emin - 1 - f.fracBits)
      exact iff_of_false (by linarith) (by linarith)
  refine ⟨top, n, hlow', hhigh', ?_, hsign ▸ hover, fun hy => ?_⟩
  · have hhalf := (hpow (p := max top f.emin - f.fracBits - 1) (by omega)).div
      (zpow_two_pos (max top f.emin - f.fracBits))
    rw [zpow_sub_one₀ two_ne_zero, mul_comm, mul_div_assoc, div_self (zpow_two_pos _).ne', mul_one, ← one_div] at hhalf
    rw [hsign]
    exact (roundsTo_congr hhalf).2 hround
  · have hin := hin hy
    simp only [hexact, hnormal, htiny, ← hsign] at hin
    exact hin

end Sys2Proof.Machine
end

