-- ==== Sys2Proof/Proofs/RoundResult.lean ====
section
/-!
PROOFS. Proofs/RoundResult.lean: `roundResult` delivers the number it is given, as IEEE 754 says (45 R541, R542, R544).
-/

namespace Sys2Proof.Machine

/-! ### The code of a magnitude -/

section
variable {f : FloatFormat} {t n : Nat}

/-- Codes from that of infinity on are those of the magnitudes beyond the format. -/
theorem infCode_le_iff (hf : f.Fits) (hn : n ≤ 2 ^ (f.fracBits + 1)) (ht : t = 0 ∨ 2 ^ f.fracBits ≤ n) :
    f.infCode ≤ t * 2 ^ f.fracBits + n ↔ (2 : ℚ) ^ (f.bias + 1) ≤ n * 2 ^ (t + f.emin - f.fracBits) := by
  have hbias := f.bias_pos hf
  obtain ⟨b, hb⟩ : ∃ b : Nat, f.bias = b := ⟨f.bias.toNat, by omega⟩
  have hexp : 2 ^ f.expBits - 1 = 2 * b + 1 := by
    have hpow := f.two_pow_expBits hf
    have hcast : ((2 ^ f.expBits : Nat) : ℤ) = 2 * b + 2 := by
      push_cast
      omega
    omega
  have hnat : (2 : ℚ) ^ (f.bias + 1) ≤ n * 2 ^ (t + f.emin - f.fracBits) ↔
      2 ^ (2 * b) * 2 ^ f.fracBits ≤ 2 ^ t * n := by
    have hbound : (2 : ℚ) ^ (f.bias + 1) = (2 ^ (2 * b) * 2 ^ f.fracBits) * 2 ^ (f.emin - f.fracBits) := by
      rw [← zpow_natCast, ← zpow_natCast, ← zpow_add₀ two_ne_zero, ← zpow_add₀ two_ne_zero, FloatFormat.emin, hb]
      congr 1
      push_cast
      ring
    have hmag : (n : ℚ) * 2 ^ (t + f.emin - f.fracBits) = (2 ^ t * n) * 2 ^ (f.emin - f.fracBits) := by
      rw [add_sub_assoc, zpow_add₀ two_ne_zero, zpow_natCast]
      ring
    rw [hbound, hmag, mul_le_mul_iff_left₀ (zpow_two_pos _)]
    exact_mod_cast Iff.rfl
  have hunit : 0 < 2 ^ f.fracBits := Nat.two_pow_pos _
  rw [pow_succ] at hn
  rw [hnat, FloatFormat.infCode, hexp]
  rcases lt_trichotomy (t + 1) (2 * b) with hlt | heq | hgt
  · have hcode : t * 2 ^ f.fracBits + 2 ^ f.fracBits * 2 < (2 * b + 1) * 2 ^ f.fracBits := by nlinarith
    have hmag : 2 ^ t * n < 2 ^ (2 * b) * 2 ^ f.fracBits :=
      calc 2 ^ t * n ≤ 2 ^ t * (2 ^ f.fracBits * 2) := Nat.mul_le_mul_left _ hn
        _ = 2 ^ (t + 1) * 2 ^ f.fracBits := by ring
        _ < 2 ^ (2 * b) * 2 ^ f.fracBits := Nat.mul_lt_mul_of_pos_right (Nat.pow_lt_pow_right one_lt_two hlt) hunit
    exact iff_of_false (by omega) (by omega)
  · have hcode : (2 * b + 1) * 2 ^ f.fracBits = t * 2 ^ f.fracBits + 2 * 2 ^ f.fracBits := by
      rw [← heq]
      ring
    have hmag : 2 ^ (2 * b) * 2 ^ f.fracBits = 2 ^ t * (2 * 2 ^ f.fracBits) := by
      rw [← heq]
      ring
    rw [hcode, hmag, Nat.add_le_add_iff_left, Nat.mul_le_mul_left_iff (Nat.two_pow_pos t)]
  · have hn' : 2 ^ f.fracBits ≤ n := ht.resolve_left (by omega)
    have hcode : (2 * b + 1) * 2 ^ f.fracBits ≤ (t + 1) * 2 ^ f.fracBits := Nat.mul_le_mul_right _ (by omega)
    rw [Nat.succ_mul t] at hcode
    exact iff_of_true (by omega) (Nat.mul_le_mul (Nat.pow_le_pow_right two_pos (by omega)) hn')

/-- Codes whose exponent field is 0 are those of the magnitudes below the normal numbers. -/
theorem code_lt_iff (ht : t = 0 ∨ 2 ^ f.fracBits ≤ n) :
    t * 2 ^ f.fracBits + n < 2 ^ f.fracBits ↔ (n : ℚ) * 2 ^ (t + f.emin - f.fracBits) < 2 ^ f.emin := by
  have hmag : (n : ℚ) * 2 ^ (t + f.emin - f.fracBits) < 2 ^ f.emin ↔ 2 ^ t * n < 2 ^ f.fracBits := by
    have hunit : (2 : ℚ) ^ f.emin = 2 ^ f.fracBits * 2 ^ (f.emin - f.fracBits) := by
      rw [← zpow_natCast, ← zpow_add₀ two_ne_zero]
      congr 1
      ring
    have hmag : (n : ℚ) * 2 ^ (t + f.emin - f.fracBits) = (2 ^ t * n) * 2 ^ (f.emin - f.fracBits) := by
      rw [add_sub_assoc, zpow_add₀ two_ne_zero, zpow_natCast]
      ring
    rw [hunit, hmag, mul_lt_mul_iff_left₀ (zpow_two_pos _)]
    exact_mod_cast Iff.rfl
  rw [hmag]
  rcases ht with rfl | ht
  · simp
  · exact iff_of_false (by omega) (not_lt.2 (ht.trans (Nat.le_mul_of_pos_left _ (Nat.two_pow_pos t))))

end

/-! ### What `roundResult` rounds to -/

/-- The exponent that `roundResult` rounds at: that of the number, or the smallest one. -/
def roundingTop (f : FloatFormat) (m : Nat) (e : Int) : Int := max (e + Nat.log2 m) f.emin

/-- The number in units of the last place there, rounded. -/
def roundedSig (f : FloatFormat) (r : Rounding) (neg : Bool) (m : Nat) (e : Int) : Nat :=
  (roundTo r neg m e (roundingTop f m e - f.fracBits)).sig

/-- Exponent and fraction of the rounded number, as one number. -/
def roundedCode (f : FloatFormat) (r : Rounding) (neg : Bool) (m : Nat) (e : Int) : Nat :=
  (roundingTop f m e - f.emin).toNat * 2 ^ f.fracBits + roundedSig f r neg m e

/-- The rounded number. -/
def roundedMagnitude (f : FloatFormat) (r : Rounding) (neg : Bool) (m : Nat) (e : Int) : ℚ :=
  roundedSig f r neg m e * 2 ^ (roundingTop f m e - f.fracBits)

/-- The flags of a result that lies within the format. -/
def roundedFlags (inexact tiny zero : Bool) : BitVec 9 :=
  flagIf inexact flagIxf ||| flagIf (inexact && tiny) flagUnf ||| flagIf zero flagZf

theorem roundedFlags_bits (inexact tiny zero : Bool) :
    (roundedFlags inexact tiny zero).getLsbD 5 = inexact ∧ (roundedFlags inexact tiny zero).getLsbD 4 = zero ∧
      (roundedFlags inexact tiny zero).getLsbD 1 = (inexact && tiny) ∧
      roundedFlags inexact tiny zero &&& 0x1CD#9 = 0#9 := by
  revert inexact tiny zero
  decide

section
variable {f : FloatFormat} {m : Nat}

theorem two_pow_log2_le (hm : m ≠ 0) (e : ℤ) : (2 : ℚ) ^ (e + Nat.log2 m) ≤ m * 2 ^ e := by
  rw [add_comm, zpow_add₀ two_ne_zero, zpow_natCast, mul_le_mul_iff_left₀ (zpow_two_pos e)]
  exact_mod_cast Nat.log2_self_le hm

theorem lt_two_pow_log2_succ (m : Nat) (e : ℤ) : (m : ℚ) * 2 ^ e < 2 ^ (e + Nat.log2 m + 1) := by
  rw [add_assoc, add_comm, zpow_add₀ two_ne_zero, ← Nat.cast_add_one, zpow_natCast,
    mul_lt_mul_iff_left₀ (zpow_two_pos e)]
  exact_mod_cast Nat.lt_log2_self

/-- The number in units of the last place, rounded to an integer. -/
theorem roundsTo_roundedSig (f : FloatFormat) (r : Rounding) (neg : Bool) (m : Nat) (e : Int) :
    roundsTo r neg (m * 2 ^ e / 2 ^ (roundingTop f m e - f.fracBits)) (roundedSig f r neg m e) :=
  roundsTo_roundTo r neg m e _

theorem roundedSig_le (f : FloatFormat) (r : Rounding) (neg : Bool) (m : Nat) (e : Int) :
    roundedSig f r neg m e ≤ 2 ^ (f.fracBits + 1) := by
  refine roundsTo_le (roundsTo_roundedSig f r neg m e) ?_
  have htop : e + Nat.log2 m + 1 ≤ (f.fracBits + 1 : Nat) + (roundingTop f m e - f.fracBits) := by
    unfold roundingTop
    omega
  rw [div_le_iff₀ (zpow_two_pos _), Nat.cast_pow, Nat.cast_ofNat, ← zpow_natCast, ← zpow_add₀ two_ne_zero]
  exact (lt_two_pow_log2_succ m e).le.trans (zpow_le_zpow_right₀ one_le_two htop)

/-- The significand of a normal number has its leading bit. -/
theorem le_roundedSig (r : Rounding) (neg : Bool) (hm : m ≠ 0) {e : Int} (htop : f.emin ≤ e + Nat.log2 m) :
    2 ^ f.fracBits ≤ roundedSig f r neg m e := by
  refine le_roundsTo (roundsTo_roundedSig f r neg m e) ?_
  rw [le_div_iff₀ (zpow_two_pos _), Nat.cast_pow, Nat.cast_ofNat, ← zpow_natCast, ← zpow_add₀ two_ne_zero,
    roundingTop, max_eq_left htop, add_sub_cancel]
  exact two_pow_log2_le hm e

/-- The exponent field is 0 or the significand has its leading bit. -/
theorem roundingTop_or_roundedSig (r : Rounding) (neg : Bool) (hm : m ≠ 0) (e : Int) :
    (roundingTop f m e - f.emin).toNat = 0 ∨ 2 ^ f.fracBits ≤ roundedSig f r neg m e := by
  rcases le_or_gt f.emin (e + Nat.log2 m) with h | h
  · exact .inr (le_roundedSig r neg hm h)
  · rw [roundingTop, max_eq_right h.le]
    exact .inl (by omega)

/-- The exponent field above the smallest exponent is the exponent. -/
theorem roundingTop_eq (f : FloatFormat) (m : Nat) (e : Int) :
    ((roundingTop f m e - f.emin).toNat : ℤ) + f.emin - f.fracBits = roundingTop f m e - f.fracBits := by
  unfold roundingTop
  omega

theorem infCode_le_roundedCode_iff (hf : f.Fits) (r : Rounding) (neg : Bool) (hm : m ≠ 0) (e : Int) :
    f.infCode ≤ roundedCode f r neg m e ↔ (2 : ℚ) ^ (f.bias + 1) ≤ roundedMagnitude f r neg m e := by
  have h := infCode_le_iff hf (roundedSig_le f r neg m e) (roundingTop_or_roundedSig r neg hm e)
  rwa [roundingTop_eq] at h

theorem roundedCode_lt_iff (r : Rounding) (neg : Bool) (hm : m ≠ 0) (e : Int) :
    roundedCode f r neg m e < 2 ^ f.fracBits ↔ roundedMagnitude f r neg m e < 2 ^ f.emin := by
  have h := code_lt_iff (roundingTop_or_roundedSig (f := f) r neg hm e)
  rwa [roundingTop_eq] at h

theorem roundedCode_eq_zero_iff (r : Rounding) (neg : Bool) (hm : m ≠ 0) (e : Int) :
    roundedCode f r neg m e = 0 ↔ roundedSig f r neg m e = 0 := by
  have hpos : 0 < 2 ^ f.fracBits := Nat.two_pow_pos _
  have h := roundingTop_or_roundedSig (f := f) r neg hm e
  rw [roundedCode, Nat.add_eq_zero_iff, Nat.mul_eq_zero]
  omega

/-- The pattern of the rounded number, where it lies within the format and is not flushed. -/
theorem floatValue_roundedCode {c : Config} (hf : f.Fits) (r : Rounding) (neg : Bool) (hm : m ≠ 0) (e : Int)
    (hinf : roundedCode f r neg m e < f.infCode)
    (hflush : c.denormals = .flush → 2 ^ f.fracBits ≤ roundedCode f r neg m e) :
    ∃ (m' : Nat) (e' : Int), floatValue c f (f.pattern neg (roundedCode f r neg m e)) = .finite neg m' e' ∧
      (m' : ℚ) * 2 ^ e' = roundedMagnitude f r neg m e := by
  have h := floatValue_pattern_magnitude c hf neg (roundedSig_le f r neg m e) (roundingTop_or_roundedSig r neg hm e) rfl
    hinf hflush
  rwa [roundingTop_eq] at h

theorem roundTo_inexact_iff (f : FloatFormat) (r : Rounding) (neg : Bool) (m : Nat) (e : Int) :
    (roundTo r neg m e (roundingTop f m e - f.fracBits)).inexact = true ↔
      roundedMagnitude f r neg m e ≠ m * 2 ^ e :=
  roundTo_inexact r neg m e _

/-! ### The cases of `roundResult` -/

theorem roundResult_zero (c : Config) (f : FloatFormat) (r : Rounding) (neg : Bool) (e : Int) :
    roundResult c f r neg 0 e = zeroResult f neg := if_pos rfl

section
variable {c : Config} {r : Rounding} {neg : Bool} {e : Int}

theorem roundResult_overflow (hm : m ≠ 0) (h : f.infCode ≤ roundedCode f r neg m e) :
    roundResult c f r neg m e = overflowResult f r neg := (if_neg hm).trans (if_pos h)

theorem roundResult_flushed (hm : m ≠ 0) (h : roundedCode f r neg m e < f.infCode)
    (hflush : c.denormals = .flush ∧ roundedCode f r neg m e < 2 ^ f.fracBits) :
    roundResult c f r neg m e = { value := f.pattern neg 0, flags := flagUnf ||| flagIxf ||| flagZf } :=
  (if_neg hm).trans ((if_neg h.not_ge).trans (if_pos hflush))

theorem roundResult_within (hm : m ≠ 0) (h : roundedCode f r neg m e < f.infCode)
    (hflush : ¬ (c.denormals = .flush ∧ roundedCode f r neg m e < 2 ^ f.fracBits)) :
    roundResult c f r neg m e =
      { value := f.pattern neg (roundedCode f r neg m e)
        flags := roundedFlags (roundTo r neg m e (roundingTop f m e - f.fracBits)).inexact (isTiny f r neg m e)
          (decide (roundedCode f r neg m e = 0)) } :=
  (if_neg hm).trans ((if_neg h.not_ge).trans (if_neg hflush))

end
end

/-! ### Overflow and underflow -/

theorem overflowResult_away (f : FloatFormat) {r : Rounding} {neg : Bool} (h : r = .nearest ∨ roundsOutward r neg) :
    overflowResult f r neg = infResult f neg (flagOvf ||| flagIxf) := by
  rcases h with rfl | ⟨rfl, rfl⟩ | ⟨rfl, rfl⟩ <;> rfl

theorem overflowResult_inward (f : FloatFormat) {r : Rounding} {neg : Bool} (h : roundsInward r neg) :
    overflowResult f r neg = { value := f.pattern neg (f.infCode - 1), flags := flagOvf ||| flagIxf } := by
  rcases h with rfl | ⟨rfl, rfl⟩ | ⟨rfl, rfl⟩ <;> rfl

/-- The largest finite number. -/
theorem floatValue_largest (c : Config) {f : FloatFormat} (hf : f.Fits) (neg : Bool) :
    ∃ (m : Nat) (e : Int), floatValue c f (f.pattern neg (f.infCode - 1)) = .finite neg m e ∧
      (m : ℚ) * 2 ^ e = (2 - 2 ^ (-(f.fracBits : ℤ))) * 2 ^ f.bias := by
  have hbias := f.bias_pos hf
  obtain ⟨b, hb⟩ : ∃ b : Nat, f.bias = b + 1 := ⟨(f.bias - 1).toNat, by omega⟩
  have hpow := f.two_pow_expBits hf
  have hexp : 2 ^ f.expBits - 1 = 2 * b + 3 := by
    have hcast : ((2 ^ f.expBits : Nat) : ℤ) = 2 * b + 4 := by
      push_cast
      omega
    omega
  have hunit : 1 ≤ 2 ^ f.fracBits := Nat.one_le_two_pow
  have hsig : 2 ^ (f.fracBits + 1) = 2 * 2 ^ f.fracBits := pow_succ' 2 _
  have hcode : f.infCode = (2 * b + 3) * 2 ^ f.fracBits := by rw [FloatFormat.infCode, hexp]
  have hcode' : f.infCode - 1 = (2 * b + 1) * 2 ^ f.fracBits + (2 ^ (f.fracBits + 1) - 1) := by
    rw [hcode, hsig, show 2 * b + 3 = (2 * b + 1) + 2 from rfl, Nat.add_mul]
    omega
  obtain ⟨m, e, hv, hmag⟩ := floatValue_pattern_magnitude c hf neg (Nat.sub_le _ 1)
    (.inr (by rw [hsig]; omega)) hcode' (by rw [hcode]; exact Nat.sub_lt (by positivity) one_pos)
    (fun _ => by rw [hcode', hsig]; omega)
  refine ⟨m, e, hv, hmag.trans ?_⟩
  have hexp' : ((2 * b + 1 : Nat) : ℤ) + f.emin - f.fracBits = f.bias + -(f.fracBits : ℤ) := by
    rw [FloatFormat.emin, hb]
    push_cast
    ring
  have hinv : (2 : ℚ) ^ f.fracBits * 2 ^ (-(f.fracBits : ℤ)) = 1 := by
    rw [← zpow_natCast, ← zpow_add₀ two_ne_zero, add_neg_cancel, zpow_zero]
  rw [hexp', zpow_add₀ two_ne_zero, Nat.cast_sub Nat.one_le_two_pow, Nat.cast_pow, pow_succ]
  push_cast
  linear_combination (2 * (2 : ℚ) ^ f.bias) * hinv

/-- A number detected as tiny lies below the normal numbers. -/
theorem lt_of_isTiny {f : FloatFormat} {r : Rounding} {neg : Bool} {m : Nat} {e : Int}
    (h : isTiny f r neg m e = true) : (m : ℚ) * 2 ^ e < 2 ^ f.emin := by
  rw [isTiny, Bool.and_eq_true, decide_eq_true_iff] at h
  exact (lt_two_pow_log2_succ m e).trans_le (zpow_le_zpow_right₀ one_le_two (by omega))

/-- A number that stays below the normal numbers when rounded as if the exponent had no bound is tiny, before and
after rounding. -/
theorem isTiny_of_le {f : FloatFormat} (r : Rounding) (neg : Bool) {m : Nat} {e : Int} (hm : m ≠ 0)
    (h : (m : ℚ) * 2 ^ e ≤ 2 ^ f.emin - 2 ^ (f.emin - 1 - f.fracBits)) : isTiny f r neg m e = true := by
  have htop : e + Nat.log2 m < f.emin := by
    rw [← zpow_lt_zpow_iff_right₀ (one_lt_two : (1 : ℚ) < 2)]
    linarith [two_pow_log2_le hm e, zpow_two_pos (f.emin - 1 - f.fracBits)]
  have hafter : tinyAfter f r neg m e = true := by
    rw [tinyAfter, decide_eq_true htop, Bool.true_and, Bool.not_eq_true', Bool.and_eq_false_iff]
    rcases eq_or_ne (e + Nat.log2 m + 1) f.emin with heq | hne
    · refine .inr (decide_eq_false ?_)
      have hq : e + Nat.log2 m - f.fracBits = f.emin - 1 - f.fracBits := by omega
      have hsig : (roundTo r neg m e (e + Nat.log2 m - f.fracBits)).sig ≤ 2 ^ (f.fracBits + 1) - 1 := by
        refine roundsTo_le (roundsTo_roundTo r neg m e _) ?_
        rw [hq, div_le_iff₀ (zpow_two_pos _)]
        rw [underflowBound_eq] at h
        exact h
      have hpos : 0 < 2 ^ (f.fracBits + 1) := Nat.two_pow_pos _
      omega
    · exact .inl (decide_eq_false hne)
  rw [isTiny, decide_eq_true htop, hafter]
  rfl

/-! ### What is delivered -/

theorem delivers_zeroResult (c : Config) {f : FloatFormat} (hf : f.Fits) (r : Rounding) (neg : Bool) :
    delivers c f r neg 0 (zeroResult f neg) :=
  ⟨fun _ => ⟨floatValue_pattern_zero c hf neg, rfl⟩, fun h => absurd rfl h⟩

/-- The sign of a zero is said of an exact zero alone. -/
theorem delivers_of_ne_zero {c : Config} {f : FloatFormat} {r : Rounding} {neg neg' : Bool} {z : ℚ} {x : FloatResult}
    (hz : z ≠ 0) (h : delivers c f r neg z x) : delivers c f r neg' z x := ⟨fun h0 => absurd h0 hz, h.2⟩

/-- `roundResult` delivers the finite number it is given. -/
theorem delivers_roundResult (c : Config) {f : FloatFormat} (hf : f.Fits) (r : Rounding) (neg : Bool) (m : Nat)
    (e : Int) : delivers c f r neg (FloatValue.finite neg m e).number (roundResult c f r neg m e) := by
  rcases eq_or_ne m 0 with rfl | hm
  · have hz : (FloatValue.finite neg 0 e).number = 0 := by simp [FloatValue.number_finite]
    rw [hz, roundResult_zero]
    exact delivers_zeroResult c hf r neg
  have hpos : (0 : ℚ) < m * 2 ^ e := by positivity
  have habs := FloatValue.abs_number neg m e
  have hsign : decide ((FloatValue.finite neg m e).number < 0) = neg := by
    rw [FloatValue.number_finite, signFactor_mul_lt_zero neg hpos]
  have hz : (FloatValue.finite neg m e).number ≠ 0 := by
    rw [← abs_pos, habs]
    exact hpos
  refine ⟨fun h0 => absurd h0 hz, fun _ => ⟨e + Nat.log2 m, roundedSig f r neg m e, ?_⟩⟩
  rw [habs, hsign]
  refine ⟨two_pow_log2_le hm e, lt_two_pow_log2_succ m e, roundsTo_roundedSig f r neg m e, fun hover => ?overflow,
    fun hin => ?within⟩
  case overflow =>
    rw [roundResult_overflow hm ((infCode_le_roundedCode_iff hf r neg hm e).2 hover)]
    split
    case isTrue hr =>
      rw [overflowResult_away f hr]
      exact ⟨floatValue_pattern_infCode c hf neg, rfl⟩
    case isFalse hr =>
      have hinward : roundsInward r neg := by
        rcases rounding_cases r neg with h | h | h
        · exact absurd (.inl h) hr
        · exact absurd (.inr h) hr
        · exact h
      rw [overflowResult_inward f hinward]
      exact ⟨floatValue_largest c hf neg, rfl⟩
  case within =>
    have hcode : roundedCode f r neg m e < f.infCode := by
      rw [← not_le, infCode_le_roundedCode_iff hf r neg hm e, not_le]
      exact hin
    split
    case isTrue hflush =>
      rw [roundResult_flushed hm hcode ⟨hflush.1, (roundedCode_lt_iff r neg hm e).2 hflush.2⟩]
      exact ⟨floatValue_pattern_zero c hf neg, rfl⟩
    case isFalse hflush =>
      have hflush' : ¬ (c.denormals = .flush ∧ roundedCode f r neg m e < 2 ^ f.fracBits) := by
        rw [roundedCode_lt_iff r neg hm e]
        exact hflush
      have hinexact := roundTo_inexact_iff f r neg m e
      rw [roundResult_within hm hcode hflush']
      obtain ⟨hixf, hzf, hunf, hothers⟩ := roundedFlags_bits
        (roundTo r neg m e (roundingTop f m e - f.fracBits)).inexact (isTiny f r neg m e)
        (decide (roundedCode f r neg m e = 0))
      refine ⟨floatValue_roundedCode hf r neg hm e hcode fun hd => not_lt.1 fun hlt => hflush' ⟨hd, hlt⟩, ?_, ?_,
        fun hu => ?_, fun hne hle => ?_, hothers⟩
      · rw [hixf]
        exact hinexact
      · rw [hzf, decide_eq_true_iff, roundedCode_eq_zero_iff r neg hm e]
      · rw [hunf, Bool.and_eq_true] at hu
        exact ⟨hinexact.1 hu.1, lt_of_isTiny hu.2⟩
      · rw [hunf, hinexact.2 hne, isTiny_of_le r neg hm hle]
        rfl

end Sys2Proof.Machine
end

