-- ==== Sys2Proof/Proofs/FloatResults.lean ====
section
/-!
PROOFS. Proofs/FloatResults.lean: the results of the floating-point operations: of finite operands the exact value
rounded once (O49), and of the other operands infinities, zeros and quiet NaNs (O50).
-/

namespace Sys2Proof.Machine

/-! ### Sums, products and integers -/

/-- An integer in units of `2 ^ q`, as a finite value. -/
theorem FloatValue.number_of_int (i q : Int) : (finite (decide (i < 0)) i.natAbs q).number = i * 2 ^ q := by
  rw [number_finite, ← mul_assoc]
  congr 1
  rcases lt_or_ge i 0 with h | h
  · rw [decide_eq_true h, signFactor_true, Nat.cast_natAbs, abs_of_neg h]
    push_cast
    ring
  · rw [decide_eq_false h.not_gt, signFactor_false, Nat.cast_natAbs, abs_of_nonneg h, one_mul]

theorem FloatValue.number_negated (n : Bool) (m : Nat) (e : Int) :
    (finite n m e).negated.number = -(finite n m e).number := by
  rw [negated, number_finite, number_finite, signFactor_not, neg_mul]

theorem FloatValue.number_mul (n n' : Bool) (m m' : Nat) (e e' : Int) :
    (finite n m e).number * (finite n' m' e').number = (finite (n != n') (m * m') (e + e')).number := by
  rw [number_finite, number_finite, number_finite, signFactor_bne, zpow_add₀ two_ne_zero]
  push_cast
  ring

/-- A sum of finite values is delivered; the sign of a zero is that of 45 R546. -/
theorem delivers_floatSum (c : Config) {f : FloatFormat} (hf : f.Fits) (r : Rounding) (op : Nat) (a b : Word)
    (n n' : Bool) (m m' : Nat) (e e' : Int) :
    delivers c f r (if n = n' then n else decide (r = .down))
      ((FloatValue.finite n m e).number + (FloatValue.finite n' m' e').number)
      (floatSum c f r op a b (.finite n m e) (.finite n' m' e')) := by
  rw [← signedUnits_mul n m (min_le_left e e'), ← signedUnits_mul n' m' (min_le_right e e'), ← add_mul, ← Int.cast_add]
  simp only [floatSum]
  generalize signedUnits n m e (min e e') + signedUnits n' m' e' (min e e') = t
  rcases eq_or_ne t 0 with h0 | h0
  · rw [if_pos h0, h0, Int.cast_zero, zero_mul]
    exact delivers_zeroResult c hf r _
  · have hne : (t : ℚ) * 2 ^ min e e' ≠ 0 := mul_ne_zero (Int.cast_ne_zero.2 h0) (zpow_two_pos _).ne'
    rw [if_neg h0]
    refine delivers_of_ne_zero hne (neg := decide (t < 0)) ?_
    rw [← FloatValue.number_of_int]
    exact delivers_roundResult c hf r _ _ _

theorem delivers_floatOfInt (c : Config) {f : FloatFormat} (hf : f.Fits) (r : Rounding) (i : Int) :
    delivers c f r false i (floatOfInt c f r i) := by
  have h := delivers_roundResult c hf r (decide (i < 0)) i.natAbs 0
  rw [FloatValue.number_of_int, zpow_zero, mul_one] at h
  rcases eq_or_ne i 0 with rfl | h0
  · exact h
  · exact delivers_of_ne_zero (Int.cast_ne_zero.2 h0) h

/-! ### Quotients -/

/-- The scaled quotient with its sticky bit lies between the same even numbers as twice the exact one. -/
theorem sameSides_stickyQuotient (m k : Nat) {m' : Nat} (hm' : 0 < m') :
    SameSides 2 (2 * ((m * 2 ^ k : Nat) / m')) (stickyQuotient m m' k) := by
  intro i
  have hm'q : (0 : ℚ) < m' := by exact_mod_cast hm'
  have hsticky : (stickyQuotient m m' k : ℤ) =
      2 * ((m * 2 ^ k : Nat) / m' : ℤ) + if ((m * 2 ^ k : Nat) % m' : ℤ) = 0 then 0 else 1 := by
    rw [stickyQuotient]
    split <;> rename_i h <;> norm_cast at h <;> simp [h]
  generalize stickyQuotient m m' k = s at hsticky ⊢
  generalize m * 2 ^ k = a at hsticky ⊢
  have hlow : (i : ℚ) * 2 ≤ 2 * (a / m') ↔ i ≤ (a / m' : ℤ) := by
    rw [Int.le_ediv_iff_mul_le (by exact_mod_cast hm'), mul_comm, mul_le_mul_iff_right₀ two_pos, le_div_iff₀ hm'q]
    exact_mod_cast Iff.rfl
  have hhigh : 2 * ((a : ℚ) / m') ≤ i * 2 ↔ (a : ℤ) ≤ i * m' := by
    rw [mul_comm (i : ℚ), mul_le_mul_iff_right₀ two_pos, div_le_iff₀ hm'q]
    exact_mod_cast Iff.rfl
  have hcast (s : ℤ) : (i : ℚ) * 2 ≤ s ↔ i * 2 ≤ s := by exact_mod_cast Iff.rfl
  have hcast' (s : ℤ) : (s : ℚ) ≤ i * 2 ↔ s ≤ i * 2 := by exact_mod_cast Iff.rfl
  have hm'z : (0 : ℤ) < m' := by exact_mod_cast hm'
  rw [hlow, hhigh, ← Int.cast_natCast s, hcast, hcast', hsticky]
  refine ⟨by split <;> omega, ?_⟩
  split
  case isTrue h =>
    have hle := mul_le_mul_iff_left₀ (b := (a / m' : ℤ)) (c := i) hm'z
    rw [Int.ediv_mul_cancel_of_emod_eq_zero h] at hle
    rw [hle]
    omega
  case isFalse h =>
    have hlt : (a : ℤ) ≤ i * m' ↔ (a / m' : ℤ) < i := by
      rw [Int.ediv_lt_iff_lt_mul hm'z, le_iff_lt_or_eq, or_iff_left]
      exact fun heq => h (Int.emod_eq_zero_of_dvd ⟨i, by rw [heq, mul_comm]⟩)
    rw [hlt]
    omega

/-- A quotient of finite values, the divisor not zero, is delivered: what rounding its first bits and the sticky bit
gives is what rounding the quotient gives. -/
theorem delivers_quotient (c : Config) {f : FloatFormat} (hf : f.Fits) (r : Rounding) (n n' : Bool) {m m' : Nat}
    (e e' : Int) (hm : m' ≠ 0) (hlt : m' < 2 ^ (f.fracBits + 1)) :
    delivers c f r (n != n') ((FloatValue.finite n m e).number / (FloatValue.finite n' m' e').number)
      (roundResult c f r (n != n') (stickyQuotient m m' (2 * f.fracBits + 6))
        (e - e' - (2 * f.fracBits + 6 : Nat) - 1)) := by
  generalize hk : 2 * f.fracBits + 6 = k
  generalize hE : e - e' - k - 1 = E
  have hdelivers := delivers_roundResult c hf r (n != n') (stickyQuotient m m' k) E
  rcases Nat.eq_zero_or_pos m with rfl | hmpos
  · have hsticky : stickyQuotient 0 m' k = 0 := by simp [stickyQuotient]
    rw [hsticky, FloatValue.number_finite, Nat.cast_zero, zero_mul, mul_zero] at hdelivers
    rw [hsticky, FloatValue.number_finite n, Nat.cast_zero, zero_mul, mul_zero, zero_div]
    exact hdelivers
  have hpos' : 0 < m' := Nat.pos_of_ne_zero hm
  have hquot : (FloatValue.finite n m e).number / (FloatValue.finite n' m' e').number =
      signFactor (n != n') * (2 * ((m * 2 ^ k : Nat) / m') * 2 ^ E) := by
    have hinv : (signFactor n')⁻¹ = signFactor n' := by cases n' <;> norm_num [signFactor]
    have hexp : (2 : ℚ) ^ e = 2 ^ E * 2 * 2 ^ k * 2 ^ e' := by
      rw [← zpow_natCast, ← zpow_add_one₀ two_ne_zero, ← zpow_add₀ two_ne_zero, ← zpow_add₀ two_ne_zero]
      congr 1
      omega
    have hcast' : (m' : ℚ) ≠ 0 := by exact_mod_cast hm
    rw [FloatValue.number_finite, FloatValue.number_finite, mul_div_mul_comm, div_eq_mul_inv (signFactor n), hinv,
      signFactor_bne, hexp]
    congr 1
    push_cast
    field_simp
  have hpos : (0 : ℚ) < 2 * ((m * 2 ^ k : Nat) / m') * 2 ^ E := by positivity
  have hbits : 2 ^ (f.fracBits + 6) ≤ stickyQuotient m m' k := by
    have hdiv : 2 ^ (f.fracBits + 5) ≤ m * 2 ^ k / m' := by
      rw [Nat.le_div_iff_mul_le hpos']
      calc 2 ^ (f.fracBits + 5) * m' ≤ 2 ^ (f.fracBits + 5) * 2 ^ (f.fracBits + 1) := Nat.mul_le_mul_left _ hlt.le
        _ = 2 ^ k := by rw [← pow_add, ← hk]; congr 1; omega
        _ ≤ m * 2 ^ k := Nat.le_mul_of_pos_left _ hmpos
    rw [stickyQuotient, pow_succ]
    omega
  have hbits' : (2 : ℚ) ^ ((f.fracBits : ℤ) + 6) ≤ stickyQuotient m m' k := by exact_mod_cast hbits
  have hpos'' : (0 : ℚ) < stickyQuotient m m' k * 2 ^ E := mul_pos ((zpow_two_pos _).trans_le hbits') (zpow_two_pos E)
  refine delivers_congr ?_ ?_ ?_ (fun top hlow hhigh => ?_) hdelivers
  · rw [hquot, ← abs_pos, abs_signFactor_mul _ hpos.le]
    exact hpos
  · rw [← abs_pos, FloatValue.abs_number]
    exact hpos''
  · rw [hquot, FloatValue.number_finite, signFactor_mul_lt_zero _ hpos, signFactor_mul_lt_zero _ hpos'']
  · rw [FloatValue.abs_number] at hhigh ⊢
    rw [hquot, abs_signFactor_mul _ hpos.le]
    have hsides := (sameSides_stickyQuotient m k hpos').mul_right (zpow_two_pos E)
    rw [mul_comm (2 : ℚ) (2 ^ E), ← zpow_add_one₀ two_ne_zero] at hsides
    refine hsides.zpow_mono ?_
    have htop : (2 : ℚ) ^ ((f.fracBits : ℤ) + 6 + E) < 2 ^ (top + 1) := by
      rw [zpow_add₀ two_ne_zero]
      exact (mul_le_mul_of_nonneg_right hbits' (zpow_two_pos E).le).trans_lt hhigh
    have := (zpow_lt_zpow_iff_right₀ one_lt_two).1 htop
    omega

/-! ### Remainders (45 R554) -/

/-- How the quotient of a remainder is rounded. -/
def remainderMode : RemKind → Rounding
  | .ieeeRemainder => .nearest
  | .fmod => .zero

/-- The remainder with its sign is what the rounded quotient leaves. -/
theorem remainderUnits_eq (kind : RemKind) (i : Nat) {j : Nat} (hj : 0 < j) :
    (if (remainderUnits kind i j).2 then ((remainderUnits kind i j).1 : ℤ) else -(remainderUnits kind i j).1) =
      i - j * roundedQuotient (remainderMode kind) false i j := by
  have hdiv : (j * (i / j : Nat) + (i % j : Nat) : ℤ) = i := by exact_mod_cast Nat.div_add_mod i j
  have hlt : i % j < j := Nat.mod_lt _ hj
  rw [roundedQuotient_eq]
  cases kind with
  | fmod =>
    simp only [remainderUnits, remainderMode, roundsAway_inward (Or.inl rfl), if_true, Bool.false_eq_true, if_false]
    omega
  | ieeeRemainder =>
    simp only [remainderUnits, remainderMode, roundsAway_nearest]
    split
    · simp only [Bool.false_eq_true, if_false]
      rw [Nat.cast_sub hlt.le, Nat.cast_add_one]
      linarith
    · simp only [if_true]
      omega

/-- The remainder that `floatRem` rounds, in units of `2 ^ q`, as a finite value. -/
theorem FloatValue.number_remainder (kind : RemKind) (n : Bool) (i : Nat) {j : Nat} (hj : 0 < j) (q : Int) :
    (finite (if (remainderUnits kind i j).1 = 0 || (remainderUnits kind i j).2 then n else !n)
        (remainderUnits kind i j).1 q).number =
      signFactor n * (i * 2 ^ q - j * 2 ^ q * roundedQuotient (remainderMode kind) false i j) := by
  have hrest : (i : ℚ) * 2 ^ q - j * 2 ^ q * roundedQuotient (remainderMode kind) false i j =
      (i - j * roundedQuotient (remainderMode kind) false i j : ℤ) * 2 ^ q := by
    push_cast
    ring
  rw [number_finite, hrest, ← remainderUnits_eq kind i hj]
  rcases Nat.eq_zero_or_pos (remainderUnits kind i j).1 with h0 | hpos
  · simp [h0]
  · cases (remainderUnits kind i j).2 <;> simp [hpos.ne', signFactor_not]

/-- A remainder of finite values, the divisor not zero, is delivered; a zero has the sign of the dividend. -/
theorem delivers_remainder (c : Config) {f : FloatFormat} (hf : f.Fits) (kind : RemKind) (n : Bool) (i : Nat) {j : Nat}
    (hj : 0 < j) (q : Int) :
    delivers c f .nearest n
      (signFactor n * (i * 2 ^ q - j * 2 ^ q * roundedQuotient (remainderMode kind) false i j))
      (roundResult c f .nearest
        (if (remainderUnits kind i j).1 = 0 || (remainderUnits kind i j).2 then n else !n)
        (remainderUnits kind i j).1 q) := by
  rw [← FloatValue.number_remainder kind n i hj q]
  have hdelivers := delivers_roundResult c hf .nearest
    (if (remainderUnits kind i j).1 = 0 || (remainderUnits kind i j).2 then n else !n) (remainderUnits kind i j).1 q
  rcases Nat.eq_zero_or_pos (remainderUnits kind i j).1 with h0 | hpos
  · simp only [h0, decide_true, Bool.true_or, if_true] at hdelivers ⊢
    exact hdelivers
  · refine delivers_of_ne_zero ?_ hdelivers
    rw [← abs_pos, FloatValue.abs_number]
    positivity

/-! ### The operations on finite operands -/

section
variable {c : Config} {f : FloatFormat} {a b : Word} {n n' : Bool} {m m' : Nat} {e e' : Int}
  (ha : floatValue c f a = .finite n m e) (hb : floatValue c f b = .finite n' m' e')
include ha hb

theorem delivers_floatAdd (hf : f.Fits) (r : Rounding) :
    delivers c f r (if n = n' then n else decide (r = .down))
      ((FloatValue.finite n m e).number + (FloatValue.finite n' m' e').number) (floatAdd c f r a b) := by
  rw [floatAdd, ha, hb]
  exact delivers_floatSum c hf r 0 a b n n' m m' e e'

theorem delivers_floatSub (hf : f.Fits) (r : Rounding) :
    delivers c f r (if n = !n' then n else decide (r = .down))
      ((FloatValue.finite n m e).number - (FloatValue.finite n' m' e').number) (floatSub c f r a b) := by
  rw [floatSub, ha, hb, sub_eq_add_neg, ← FloatValue.number_negated]
  exact delivers_floatSum c hf r 1 a b n (!n') m m' e e'

theorem delivers_floatMul (hf : f.Fits) (r : Rounding) :
    delivers c f r (n != n') ((FloatValue.finite n m e).number * (FloatValue.finite n' m' e').number)
      (floatMul c f r a b) := by
  rw [FloatValue.number_mul]
  simp only [floatMul, ha, hb]
  exact delivers_roundResult c hf r _ _ _

theorem delivers_floatDiv (hf : f.Fits) (r : Rounding) (hm : m' ≠ 0) :
    delivers c f r (n != n') ((FloatValue.finite n m e).number / (FloatValue.finite n' m' e').number)
      (floatDiv c f r a b) := by
  have h := delivers_quotient c hf r n n' (m := m) e e' hm (significand_lt hb)
  simp only [floatDiv, ha, hb, if_neg hm]
  exact h

theorem delivers_floatRem (hf : f.Fits) (hm : m' ≠ 0) :
    ∃ k : Nat,
      roundsTo (remainderMode c.remKind) false
        (|(FloatValue.finite n m e).number| / |(FloatValue.finite n' m' e').number|) k ∧
      delivers c f .nearest n
        (signFactor n * (|(FloatValue.finite n m e).number| - |(FloatValue.finite n' m' e').number| * k))
        (floatRem c f a b) := by
  have hj : 0 < m' * 2 ^ (e' - min e e').toNat := by positivity
  rw [FloatValue.abs_number, FloatValue.abs_number, ← cast_mul_two_pow_toNat m (min_le_left e e'),
    ← cast_mul_two_pow_toNat m' (min_le_right e e')]
  simp only [floatRem, ha, hb, if_neg hm]
  refine ⟨_, ?_, delivers_remainder c hf c.remKind n _ hj _⟩
  rw [mul_div_mul_right _ _ (zpow_two_pos _).ne']
  exact roundsTo_roundedQuotient _ _ _ hj

end

/-- A number that the format holds is its own result: no flag, and the pattern stands for it. -/
theorem roundResult_exact {c : Config} {f : FloatFormat} (hf : f.Fits) (r : Rounding) (neg : Bool) {m : Nat} {e : Int}
    (hc : c.denormals = .ieee) (hm : m ≠ 0) (hsig : m < 2 ^ (f.fracBits + 1)) (hlow : f.emin - f.fracBits ≤ e)
    (hhigh : e + Nat.log2 m ≤ f.bias) :
    (roundResult c f r neg m e).flags = 0#9 ∧
      ∃ (m' : Nat) (e' : Int), floatValue c f (roundResult c f r neg m e).value = .finite neg m' e' ∧
        (m' : ℚ) * 2 ^ e' = m * 2 ^ e := by
  have hlog : Nat.log2 m < f.fracBits + 1 := (Nat.log2_lt hm).2 hsig
  have hunit : roundingTop f m e - f.fracBits ≤ e := by
    unfold roundingTop
    omega
  have hround := roundTo_of_le r neg m hunit
  have hmag : roundedMagnitude f r neg m e = m * 2 ^ e := by
    rw [roundedMagnitude, roundedSig, hround, cast_mul_two_pow_toNat m hunit]
  have hcode : roundedCode f r neg m e < f.infCode := by
    rw [← not_le, infCode_le_roundedCode_iff hf r neg hm e, not_le, hmag]
    exact (lt_two_pow_log2_succ m e).trans_le (zpow_le_zpow_right₀ one_le_two (by omega))
  have hne : roundedCode f r neg m e ≠ 0 := by
    rw [Ne, roundedCode_eq_zero_iff r neg hm e, roundedSig, hround]
    positivity
  have hdenormal : c.denormals ≠ .flush := by simp [hc]
  rw [roundResult_within hm hcode fun h => hdenormal h.1, hround]
  refine ⟨?_, hmag ▸ floatValue_roundedCode hf r neg hm e hcode fun h => absurd h hdenormal⟩
  simp [roundedFlags, flagIf, hne]

/-! ### Conversion to an integer (45 R560) -/

theorem floatToInt_flags_bits (inexact zero : Bool) :
    (flagIf inexact flagIxf ||| flagIf zero flagZf).getLsbD 5 = inexact ∧
      (flagIf inexact flagIxf ||| flagIf zero flagZf).getLsbD 4 = zero ∧
      (flagIf inexact flagIxf ||| flagIf zero flagZf) &&& 0x1CF#9 = 0#9 := by
  revert inexact zero
  decide

/-- An integer modulo the width of a format stands in a word as it is. -/
theorem toNat_ofNat_emod {f : FloatFormat} (hf : f.Fits) (z : Int) :
    (BitVec.ofNat 64 (z % (2 : Int) ^ f.width).toNat).toNat = (z % (2 : Int) ^ f.width).toNat := by
  have hlt : z % (2 : Int) ^ f.width < 2 ^ f.width := Int.emod_lt_of_pos z (by positivity)
  have hwidth : (2 : Int) ^ f.width ≤ 2 ^ 64 := pow_le_pow_right₀ (by decide) hf.width
  rw [BitVec.toNat_ofNat, Nat.mod_eq_of_lt]
  omega

/-- The integer a finite value is rounded to. -/
def convertedInt (c : Config) (r : Rounding) (neg : Bool) (m : Nat) (e : Int) : Int :=
  if neg then -((roundTo (ftoiRounding c r) neg m e 0).sig : Int) else (roundTo (ftoiRounding c r) neg m e 0).sig

theorem convertedInt_eq_zero_iff (c : Config) (r : Rounding) (neg : Bool) (m : Nat) (e : Int) :
    convertedInt c r neg m e = 0 ↔ (roundTo (ftoiRounding c r) neg m e 0).sig = 0 := by
  cases neg <;> simp [convertedInt]

section
variable {c : Config} {f : FloatFormat} {r : Rounding} {a : Word} {neg : Bool} {m : Nat} {e : Int}

theorem floatToInt_within (ha : floatValue c f a = .finite neg m e)
    (hin : -(2 : Int) ^ (f.width - 1) ≤ convertedInt c r neg m e ∧ convertedInt c r neg m e < 2 ^ (f.width - 1)) :
    floatToInt c f r a =
      { value := BitVec.ofNat 64 (convertedInt c r neg m e % (2 : Int) ^ f.width).toNat
        flags := flagIf (roundTo (ftoiRounding c r) neg m e 0).inexact flagIxf |||
          flagIf (decide (convertedInt c r neg m e = 0)) flagZf } := by
  simp only [floatToInt, ha]
  exact if_pos hin

theorem floatToInt_beyond (ha : floatValue c f a = .finite neg m e)
    (hout : ¬ (-(2 : Int) ^ (f.width - 1) ≤ convertedInt c r neg m e ∧
      convertedInt c r neg m e < 2 ^ (f.width - 1))) :
    (floatToInt c f r a).flags = flagIvf := by
  simp only [floatToInt, ha]
  exact congrArg FloatResult.flags (if_neg hout)

end

/-- Settles O49: every operation ends in `roundResult` of the exact number, or for a quotient of a number that no
boundary of the format separates from it. -/
theorem exactResultsAreRoundedOnce : Obligations.ExactResultsAreRoundedOnce := by
  intro c f r hformat
  have hf := fits_of_format hformat
  refine ⟨fun neg m e hc hm hsig hlow hhigh => ?exact, fun a b n n' m m' e e' ha hb => ?finite,
    delivers_floatOfInt c hf r, fun a n m e ha => ?toInt⟩
  case exact =>
    obtain ⟨hflags, m', e', hv, hnum⟩ := roundResult_exact hf r neg hc hm hsig hlow hhigh
    refine ⟨hflags, m', e', hv, ?_⟩
    rw [← cast_mul_two_pow_toNat m' (min_le_right e e'), ← cast_mul_two_pow_toNat m (min_le_left e e'),
      mul_left_inj' (zpow_two_pos _).ne', Nat.cast_inj] at hnum
    exact hnum
  case finite =>
    rw [ha, hb]
    refine ⟨delivers_floatAdd ha hb hf r, delivers_floatSub ha hb hf r, delivers_floatMul ha hb hf r,
      fun hm => ⟨delivers_floatDiv ha hb hf r hm, ?_⟩⟩
    obtain ⟨k, hk, hrem⟩ := delivers_floatRem ha hb hf hm
    refine ⟨k, ?_, hrem⟩
    cases hkind : c.remKind <;> exact hkind ▸ hk
  case toInt =>
    have hround := roundsTo_roundTo (ftoiRounding c r) n m e 0
    have hinexact := roundTo_inexact (ftoiRounding c r) n m e 0
    rw [zpow_zero, div_one] at hround
    rw [zpow_zero, mul_one] at hinexact
    rw [ha, FloatValue.abs_number]
    refine ⟨(roundTo (ftoiRounding c r) n m e 0).sig, ?_, ?_⟩
    · cases hmode : c.ftoiRound <;> simpa only [ftoiRounding, hmode] using hround
    · change if -(2 : Int) ^ (f.width - 1) ≤ convertedInt c r n m e ∧ convertedInt c r n m e < 2 ^ (f.width - 1)
        then _ else _
      split
      case isTrue hin =>
        rw [floatToInt_within ha hin]
        obtain ⟨hixf, hzf, hothers⟩ := floatToInt_flags_bits (roundTo (ftoiRounding c r) n m e 0).inexact
          (decide (convertedInt c r n m e = 0))
        refine ⟨toNat_ofNat_emod hf _, ?_, ?_, hothers⟩
        · rw [hixf, hinexact]
        · rw [hzf, decide_eq_true_iff, convertedInt_eq_zero_iff]
      case isFalse hout => exact floatToInt_beyond ha hout

/-! ### Operands that are no ordinary numbers -/

/-- A result with its value and its flags. -/
def Gives (c : Config) (f : FloatFormat) (z : FloatResult) (v : FloatValue) (flags : BitVec 9) : Prop :=
  floatValue c f z.value = v ∧ z.flags = flags

section
variable (c : Config) {f : FloatFormat} (hf : f.Fits)
include hf

theorem gives_infResult (neg : Bool) (flags : BitVec 9) :
    Gives c f (infResult f neg flags) (.infinity neg) (flags ||| flagInf) :=
  ⟨floatValue_pattern_infCode c hf neg, rfl⟩

theorem gives_zeroResult (neg : Bool) : ∃ e : Int, Gives c f (zeroResult f neg) (.finite neg 0 e) flagZf := by
  obtain ⟨e, he⟩ := floatValue_pattern_zero c hf neg
  exact ⟨e, he, rfl⟩

theorem gives_invalidResult (op : Nat) (a b : Word) : Gives c f (invalidResult f op a b) (.nan false) 0x048#9 :=
  ⟨floatValue_nanResult c hf op a b _, rfl⟩

theorem gives_nanOperand (op : Nat) (a b : Word) (signaling : Bool) :
    Gives c f (nanOperand f op a b signaling) (.nan false) (0x008#9 ||| if signaling = true then 0x040#9 else 0#9) :=
  ⟨floatValue_nanResult c hf op a b _, by cases signaling <;> rfl⟩

end

section
variable {c : Config} {f : FloatFormat} {r : Rounding} {a b : Word}

/-- Of a NaN operand every operation makes a NaN, invalid where an operand is signalling. -/
theorem operations_of_isNan (r : Rounding) (h : (floatValue c f a).isNan = true ∨ (floatValue c f b).isNan = true) :
    let signaling := (floatValue c f a).isSignaling || (floatValue c f b).isSignaling
    floatAdd c f r a b = nanOperand f 0 a b signaling ∧ floatSub c f r a b = nanOperand f 1 a b signaling ∧
      floatMul c f r a b = nanOperand f 2 a b signaling ∧ floatDiv c f r a b = nanOperand f 3 a b signaling ∧
      floatRem c f a b = nanOperand f 4 a b signaling := by
  unfold floatAdd floatSub floatMul floatDiv floatRem
  generalize floatValue c f a = x at h ⊢
  generalize floatValue c f b = y at h ⊢
  cases x with
  | nan p =>
    cases y with
    | nan q => exact ⟨rfl, rfl, rfl, rfl, rfl⟩
    | infinity _ | finite _ _ _ =>
      cases p <;> exact ⟨rfl, rfl, rfl, rfl, rfl⟩
  | infinity _ | finite _ _ _ =>
    cases y with
    | nan q => exact ⟨rfl, rfl, rfl, rfl, rfl⟩
    | infinity _ | finite _ _ _ => simp [FloatValue.isNan] at h

variable {n n' : Bool} {m : Nat} {e : Int}

/-- Two infinities. -/
theorem operations_of_infinities (r : Rounding) (ha : floatValue c f a = .infinity n)
    (hb : floatValue c f b = .infinity n') :
    floatAdd c f r a b = (if n = n' then infResult f n 0#9 else invalidResult f 0 a b) ∧
      floatSub c f r a b = (if n = n' then invalidResult f 1 a b else infResult f n 0#9) ∧
      floatMul c f r a b = infResult f (n != n') 0#9 ∧ floatDiv c f r a b = invalidResult f 3 a b ∧
      floatRem c f a b = invalidResult f 4 a b := by
  unfold floatAdd floatSub floatMul floatDiv floatRem
  rw [ha, hb]
  refine ⟨rfl, ?_, rfl, rfl, rfl⟩
  cases n <;> cases n' <;> rfl

/-- An infinity and a finite value. -/
theorem operations_of_infinity_left (r : Rounding) (ha : floatValue c f a = .infinity n)
    (hb : floatValue c f b = .finite n' m e) :
    floatAdd c f r a b = infResult f n 0#9 ∧ floatSub c f r a b = infResult f n 0#9 ∧
      floatMul c f r a b = (if m = 0 then invalidResult f 2 a b else infResult f (n != n') 0#9) ∧
      floatDiv c f r a b = infResult f (n != n') 0#9 ∧ floatRem c f a b = invalidResult f 4 a b := by
  unfold floatAdd floatSub floatMul floatDiv floatRem
  rw [ha, hb]
  exact ⟨rfl, rfl, rfl, rfl, rfl⟩

/-- A finite value and an infinity. -/
theorem operations_of_infinity_right (r : Rounding) (ha : floatValue c f a = .finite n m e)
    (hb : floatValue c f b = .infinity n') :
    floatAdd c f r a b = infResult f n' 0#9 ∧ floatSub c f r a b = infResult f (!n') 0#9 ∧
      floatMul c f r a b = (if m = 0 then invalidResult f 2 a b else infResult f (n != n') 0#9) ∧
      floatDiv c f r a b = zeroResult f (n != n') ∧ floatRem c f a b = roundResult c f .nearest n m e := by
  unfold floatAdd floatSub floatMul floatDiv floatRem
  rw [ha, hb]
  exact ⟨rfl, rfl, rfl, rfl, rfl⟩

/-- A finite value divided by zero. -/
theorem operations_of_zero_divisor (r : Rounding) {e' : Int} (ha : floatValue c f a = .finite n m e)
    (hb : floatValue c f b = .finite n' 0 e') :
    floatDiv c f r a b = (if m = 0 then invalidResult f 3 a b else infResult f (n != n') flagDzf) ∧
      floatRem c f a b = invalidResult f 4 a b := by
  unfold floatDiv floatRem
  rw [ha, hb]
  exact ⟨rfl, rfl⟩

theorem floatToInt_special (r : Rounding) (h : (floatValue c f a).isNan = true ∨ ∃ n, floatValue c f a = .infinity n) :
    (floatToInt c f r a).flags = flagIvf := by
  unfold floatToInt
  generalize floatValue c f a = x at h ⊢
  cases x with
  | nan p => rfl
  | infinity n => rfl
  | finite n m e => simp [FloatValue.isNan] at h

end

/-- Settles O50: by the kinds of the operands every operation ends in an infinity, a zero, an invalid operation or, of
a finite dividend, in `roundResult`. -/
theorem specialOperands : Obligations.SpecialOperands := by
  intro c f r a b hformat
  have hf := fits_of_format hformat
  have inf (n : Bool) := gives_infResult c hf n 0#9
  have invalid (op : Nat) := gives_invalidResult c hf op a b
  refine ⟨fun h => ?nan, fun n n' ha hb => ?infinities, fun n n' m e ha hb => ?left, fun n n' m e ha hb => ?right,
    fun n n' m e e' ha hb => ?zeroDivisor, floatToInt_special r⟩
  case nan =>
    obtain ⟨hadd, hsub, hmul, hdiv, hrem⟩ := operations_of_isNan r h
    have hgives (op : Nat) := gives_nanOperand c hf op a b
      ((floatValue c f a).isSignaling || (floatValue c f b).isSignaling)
    simp only [Bool.or_eq_true] at hgives
    simp only [List.forall_mem_cons]
    rw [hadd, hsub, hmul, hdiv, hrem]
    exact ⟨hgives 0, hgives 1, hgives 2, hgives 3, hgives 4, by simp⟩
  case infinities =>
    obtain ⟨hadd, hsub, hmul, hdiv, hrem⟩ := operations_of_infinities r ha hb
    rw [hadd, hsub, hmul, hdiv, hrem]
    refine ⟨?_, inf _, invalid 3, invalid 4⟩
    split
    · exact ⟨inf n, invalid 1⟩
    · exact ⟨invalid 0, inf n⟩
  case left =>
    obtain ⟨hadd, hsub, hmul, hdiv, hrem⟩ := operations_of_infinity_left r ha hb
    rw [hadd, hsub, hmul, hdiv, hrem]
    refine ⟨inf n, inf n, ?_, inf _, invalid 4⟩
    split
    · exact invalid 2
    · exact inf _
  case right =>
    obtain ⟨hadd, hsub, hmul, hdiv, hrem⟩ := operations_of_infinity_right r ha hb
    rw [hadd, hsub, hmul, hdiv, hrem, ha]
    refine ⟨inf n', inf (!n'), ?_, gives_zeroResult c hf _, delivers_roundResult c hf .nearest n m e⟩
    split
    · exact invalid 2
    · exact inf _
  case zeroDivisor =>
    obtain ⟨hdiv, hrem⟩ := operations_of_zero_divisor r ha hb
    rw [hdiv, hrem]
    refine ⟨?_, invalid 4⟩
    split
    · exact invalid 3
    · exact gives_infResult c hf _ flagDzf

end Sys2Proof.Machine
end

