-- ==== Sys2Proof/Proofs/VectorElements.lean ====
section
/-!
PROOFS. Proofs/VectorElements.lean: the number of an element, results computed element by element, and by them sums,
differences and products (O51) and selections and logic (O52).
-/

namespace Sys2Proof.Machine

/-! ### The number of an element -/

theorem elemInt_inj (c : Config) {w : Nat} {x y : BitVec w} : elemInt c x = elemInt c y ↔ x = y := by
  unfold elemInt
  split
  · exact BitVec.toInt_inj
  · exact Int.natCast_inj.trans BitVec.toNat_inj

/-- An integer between the numbers of two elements is the number of the element it is put in. -/
theorem elemInt_ofInt_of_between {c : Config} {w : Nat} {x y : BitVec w} {z : Int}
    (hlow : min (elemInt c x) (elemInt c y) ≤ z) (hhigh : z ≤ max (elemInt c x) (elemInt c y)) :
    elemInt c (BitVec.ofInt w z) = z := by
  unfold elemInt at hlow hhigh ⊢
  split_ifs at hlow hhigh ⊢
  case pos =>
    have hx := BitVec.le_two_mul_toInt (x := x)
    have hy := BitVec.le_two_mul_toInt (x := y)
    have hx' := BitVec.two_mul_toInt_lt (x := x)
    have hy' := BitVec.two_mul_toInt_lt (x := y)
    rw [BitVec.toInt_ofInt]
    exact Int.bmod_eq_of_le_mul_two (by push_cast; omega) (by push_cast; omega)
  case neg =>
    have hx := x.isLt
    have hy := y.isLt
    rw [BitVec.toNat_ofInt, Int.emod_eq_of_lt (by omega) (by omega), Int.toNat_of_nonneg (by omega)]

theorem elemInt_avg (c : Config) {w : Nat} (x y : BitVec w) :
    elemInt c (avg c x y) = (elemInt c x + elemInt c y) / 2 :=
  elemInt_ofInt_of_between (x := x) (y := y) (by omega) (by omega)

theorem elemInt_maxElem (c : Config) {w : Nat} (x y : BitVec w) :
    elemInt c (maxElem c x y) = max (elemInt c x) (elemInt c y) := by
  simp only [maxElem, relGt, decide_eq_true_eq]
  split <;> omega

theorem elemInt_minElem (c : Config) {w : Nat} (x y : BitVec w) :
    elemInt c (minElem c x y) = min (elemInt c x) (elemInt c y) := by
  simp only [minElem, relLt, decide_eq_true_eq]
  split <;> omega

/-! ### Results by their elements -/

section
variable {i : Instr} {s : State} {needs : Needs} {regs : List Reg} {d : Reg} {w n : Nat} {x y : Word}
  (h : available s needs regs) (hn : w * n ≤ 64)
include h hn

/-- An available instruction that computes element by element with `f`, where `read` of what `f` gives is `g`. -/
theorem writesRegister_mapElems {α : Type} {f : BitVec w → BitVec w → BitVec w} (read : BitVec w → α)
    {g : BitVec w → BitVec w → α} (hg : ∀ p q : BitVec w, read (f p q) = g p q)
    (he : exec i s = checked s needs regs (writeBack s d (mapElems w n f x y))) :
    ∃ v : Word, writesRegister i s d v ∧ ∀ k : Nat, k < n → read (elem w v k) = g (elem w x k) (elem w y k) :=
  ⟨_, writesRegister_of_writeBack h he, fun k hk => by rw [elem_mapElems f x y hk hn, hg]⟩

theorem writesElements_mapElems {f : BitVec w → BitVec w → BitVec w}
    (he : exec i s = checked s needs regs (writeBack s d (mapElems w n f x y))) :
    writesElements i s d w n (fun k => f (elem w x k) (elem w y k)) :=
  writesRegister_mapElems h hn id (fun _ _ => rfl) he

/-- An available instruction that saturates a function of the signed elements. -/
theorem writesRegister_satS (op : Int → Int → Int) (hw : 0 < w)
    (he : exec i s = checked s needs regs
      (writeBack s d (mapElems w n (fun p q => satS w (op p.toInt q.toInt)) x y))) :
    ∃ v : Word, writesRegister i s d v ∧ ∀ k : Nat, k < n → (elem w v k).toInt =
      max (-(2 ^ (w - 1))) (min (2 ^ (w - 1) - 1) (op (elem w x k).toInt (elem w y k).toInt)) :=
  writesRegister_mapElems h hn BitVec.toInt (fun _ _ => satS_toInt hw _) he

/-- An available instruction that saturates a function of the unsigned elements. -/
theorem writesRegister_satU (op : Int → Int → Int)
    (he : exec i s = checked s needs regs
      (writeBack s d (mapElems w n (fun p q => satU w (op (uInt p) (uInt q))) x y))) :
    ∃ v : Word, writesRegister i s d v ∧ ∀ k : Nat, k < n → ((elem w v k).toNat : Int) =
      max 0 (min (2 ^ w - 1) (op (elem w x k).toNat (elem w y k).toNat)) :=
  writesRegister_mapElems h hn uInt (fun _ _ => satU_toNat w _) he

end

/-! ### The instructions -/

/-- Settles O51: a sum or difference modulo 2^w is the model's own, and a saturated result is clamped. -/
theorem vectorSums : Obligations.VectorSums := by
  intro s d a b x y signed unsigned saturates saturatesU zs zu
  refine ⟨fun h => ?sums, fun h => ?products⟩
  case sums =>
    refine ⟨?addB, ?addH, ?adduB, ?adduH, ?subB, ?subH, ?subuB, ?subuH, ?addsB, ?addsH, ?subsB, ?subsH, ?addusB,
      ?addusH, ?subusB, ?subusH⟩
    case addB | addH | adduB | adduH | subB | subH | subuB | subuH => exact writesElements_mapElems h (by decide) rfl
    case addsB | addsH => exact writesRegister_satS h (by decide) (· + ·) (by decide) rfl
    case subsB | subsH => exact writesRegister_satS h (by decide) (· - ·) (by decide) rfl
    case addusB | addusH => exact writesRegister_satU h (by decide) (· + ·) rfl
    case subusB | subusH => exact writesRegister_satU h (by decide) (· - ·) rfl
  case products => exact writesRegister_satS h (by decide) (· * ·) (by decide) rfl

/-- Settles O52: the average, the greater and the lesser of two elements by their numbers; the logic operations are the
model's own. -/
theorem vectorSelectionsAndLogic : Obligations.VectorSelectionsAndLogic := by
  intro s d a b h x y num yields
  refine ⟨?avgB, ?avgH, ?maxB, ?maxH, ?minB, ?minH, ?and, ?or, ?xor, ?nand, ?nor⟩
  case avgB | avgH => exact writesRegister_mapElems h (by decide) (elemInt s.cfg) (elemInt_avg s.cfg) rfl
  case maxB | maxH => exact writesRegister_mapElems h (by decide) (elemInt s.cfg) (elemInt_maxElem s.cfg) rfl
  case minB | minH => exact writesRegister_mapElems h (by decide) (elemInt s.cfg) (elemInt_minElem s.cfg) rfl
  case and | or | xor | nand | nor => exact writesRegister_of_writeBack h rfl

end Sys2Proof.Machine
end

