-- ==== Sys2Proof/Proofs/VectorRelations.lean ====
section
/-!
PROOFS. Proofs/VectorRelations.lean: the vector instructions that compare elements: the masks (O53), and the reductions
to a flag in rD and in F (O54).
-/

namespace Sys2Proof.Machine

/-! ### Relations by the numbers of the elements -/

/-- The relation of elements `r` is the relation `R` of their numbers (46 R592 (a)). -/
def Compares (c : Config) {w : Nat} (r : BitVec w → BitVec w → Bool) (R : Int → Int → Prop) : Prop :=
  ∀ x y : BitVec w, r x y = true ↔ R (elemInt c x) (elemInt c y)

section
variable (c : Config) {w : Nat}

theorem compares_relEq : Compares c (relEq c (w := w)) (· = ·) := fun _ _ =>
  decide_eq_true_iff.trans (elemInt_inj c).symm

theorem compares_relNe : Compares c (relNe c (w := w)) (· ≠ ·) := fun _ _ =>
  decide_eq_true_iff.trans (elemInt_inj c).symm.not

theorem compares_relGe : Compares c (relGe c (w := w)) (· ≥ ·) := fun _ _ => decide_eq_true_iff

theorem compares_relGt : Compares c (relGt c (w := w)) (· > ·) := fun _ _ => decide_eq_true_iff

theorem compares_relLe : Compares c (relLe c (w := w)) (· ≤ ·) := fun _ _ => decide_eq_true_iff

theorem compares_relLt : Compares c (relLt c (w := w)) (· < ·) := fun _ _ => decide_eq_true_iff

end

theorem allElems_iff {w n : Nat} {r : BitVec w → BitVec w → Bool} {a b : Word} :
    allElems w n r a b = true ↔ ∀ k : Nat, k < n → r (elem w a k) (elem w b k) = true := by
  simp [allElems]

theorem anyElems_iff {w n : Nat} {r : BitVec w → BitVec w → Bool} {a b : Word} :
    anyElems w n r a b = true ↔ ∃ k : Nat, k < n ∧ r (elem w a k) (elem w b k) = true := by
  simp [anyElems]

/-! ### A flag in rD and in F -/

/-- Writing F leaves the register file, and so what a register write makes of it. -/
theorem setGpr_setSrBit_srF_gprs (s : State) (f : Bool) (d : Reg) (v : Word) :
    ((s.setSrBit srF f).setGpr d v).gprs = (s.setGpr d v).gprs := by
  unfold State.setGpr State.setGprOf
  rw [context_setSrBit_srF, State.setSrBit_cfg]
  split <;> rfl

/-- Writing a flag to a register, to F where the implementation has it so, and moving on. -/
theorem vectorFlag_spec (s : State) (d : Reg) (v : Bool) :
    ∃ t : State, vectorFlag s d v = .next t ∧ registerIs s t d (repl 64 v) ∧
      flagsAre s t (if s.cfg.lvWritesF then some v else none) none none ∧ memoryKept s t ∧
      t = { movedOn s with gprs := t.gprs, sr := t.sr } := by
  unfold vectorFlag
  split
  case isTrue =>
    refine ⟨((s.setSrBit srF v).setGpr d (repl 64 v)).advance, rfl, registerIs_of_setGpr ?_ ?_ ?_, flagsAre_setF ?_,
      memoryKept_of_mem ?_, ?_⟩
    · simp
    · simp
    · simp [setGpr_setSrBit_srF_gprs]
    · simp
    · simp
    · rw [State.setGpr_eq]; rfl
  case isFalse =>
    obtain ⟨t, ht, hreg, hmem, hrest⟩ := writeBack_spec s d (repl 64 v)
    have hsr : t.sr = s.sr := by rw [hrest]; rfl
    exact ⟨t, ht, hreg, flagsAre_setFlags hsr, hmem, by rw [hsr]; exact hrest⟩

/-- The instruction completes, writes to rD, and to F where the implementation has it so, whether `holds`, and changes
nothing else (46 R592 (b)). -/
def writesReduction (i : Instr) (s : State) (d : Reg) (holds : Prop) : Prop :=
  ∃ (t : State) (v : Bool), (v = true ↔ holds) ∧ exec i s = .next t ∧ registerIs s t d (repl 64 v) ∧
    flagsAre s t (if s.cfg.lvWritesF then some v else none) none none ∧ memoryKept s t ∧
    t = { movedOn s with gprs := t.gprs, sr := t.sr }

/-! ### The instructions -/

section
variable {i : Instr} {s : State} {needs : Needs} {regs : List Reg} {d : Reg} {w n : Nat} {x y : Word}
  {r : BitVec w → BitVec w → Bool} {R : Int → Int → Prop} (h : available s needs regs) (hr : Compares s.cfg r R)
include h

theorem writesReduction_of_vectorFlag {v : Bool} {holds : Prop} (hv : v = true ↔ holds)
    (he : exec i s = checked s needs regs (vectorFlag s d v)) : writesReduction i s d holds := by
  rw [checked_eq h] at he
  obtain ⟨t, ht, hrest⟩ := vectorFlag_spec s d v
  exact ⟨t, v, hv, he.trans ht, hrest⟩

include hr

theorem writesReduction_allElems (he : exec i s = checked s needs regs (vectorFlag s d (allElems w n r x y))) :
    writesReduction i s d (∀ k : Nat, k < n → R (elemInt s.cfg (elem w x k)) (elemInt s.cfg (elem w y k))) :=
  writesReduction_of_vectorFlag h (allElems_iff.trans (forall₂_congr fun _ _ => hr _ _)) he

theorem writesReduction_anyElems (he : exec i s = checked s needs regs (vectorFlag s d (anyElems w n r x y))) :
    writesReduction i s d (∃ k : Nat, k < n ∧ R (elemInt s.cfg (elem w x k)) (elemInt s.cfg (elem w y k))) :=
  writesReduction_of_vectorFlag h (anyElems_iff.trans (exists_congr fun _ => and_congr_right fun _ => hr _ _)) he

/-- An available instruction that gives the mask of a relation. -/
theorem writesElements_cmpElems [DecidableRel R] (hn : w * n ≤ 64)
    (he : exec i s = checked s needs regs (writeBack s d (cmpElems w n r x y))) :
    writesElements i s d w n (fun k =>
      if decide (R (elemInt s.cfg (elem w x k)) (elemInt s.cfg (elem w y k))) then BitVec.allOnes w else 0#w) := by
  have hmask (p q : BitVec w) :
      repl w (r p q) = if decide (R (elemInt s.cfg p) (elemInt s.cfg q)) then BitVec.allOnes w else 0#w := by
    rw [repl, Bool.eq_iff_iff.2 ((hr p q).trans decide_eq_true_iff.symm)]
  exact writesRegister_mapElems h hn id hmask he

end

/-- Settles O53: each comparison gives the mask of its relation, which is one of the elements' numbers. -/
theorem vectorCompareMasks : Obligations.VectorCompareMasks := by
  intro s d a b h num x y masks
  refine ⟨?eqB, ?eqH, ?neB, ?neH, ?geB, ?geH, ?gtB, ?gtH, ?leB, ?leH, ?ltB, ?ltH⟩
  case eqB | eqH => exact writesElements_cmpElems h (compares_relEq s.cfg) (by decide) rfl
  case neB | neH => exact writesElements_cmpElems h (compares_relNe s.cfg) (by decide) rfl
  case geB | geH => exact writesElements_cmpElems h (compares_relGe s.cfg) (by decide) rfl
  case gtB | gtH => exact writesElements_cmpElems h (compares_relGt s.cfg) (by decide) rfl
  case leB | leH => exact writesElements_cmpElems h (compares_relLe s.cfg) (by decide) rfl
  case ltB | ltH => exact writesElements_cmpElems h (compares_relLt s.cfg) (by decide) rfl

/-- Settles O54: each reduction ends in `vectorFlag`, its flag the relation of every or of some pair. -/
theorem vectorAllAndAny : Obligations.VectorAllAndAny := by
  intro s d a b h num x y reduces all any
  refine ⟨?allEqB, ?allEqH, ?allNeB, ?allNeH, ?allGeB, ?allGeH, ?allGtB, ?allGtH, ?allLeB, ?allLeH, ?allLtB, ?allLtH,
    ?anyEqB, ?anyEqH, ?anyNeB, ?anyNeH, ?anyGeB, ?anyGeH, ?anyGtB, ?anyGtH, ?anyLeB, ?anyLeH, ?anyLtB, ?anyLtH⟩
  case allEqB | allEqH => exact writesReduction_allElems h (compares_relEq s.cfg) rfl
  case allNeB | allNeH => exact writesReduction_allElems h (compares_relNe s.cfg) rfl
  case allGeB | allGeH => exact writesReduction_allElems h (compares_relGe s.cfg) rfl
  case allGtB | allGtH => exact writesReduction_allElems h (compares_relGt s.cfg) rfl
  case allLeB | allLeH => exact writesReduction_allElems h (compares_relLe s.cfg) rfl
  case allLtB | allLtH => exact writesReduction_allElems h (compares_relLt s.cfg) rfl
  case anyEqB | anyEqH => exact writesReduction_anyElems h (compares_relEq s.cfg) rfl
  case anyNeB | anyNeH => exact writesReduction_anyElems h (compares_relNe s.cfg) rfl
  case anyGeB | anyGeH => exact writesReduction_anyElems h (compares_relGe s.cfg) rfl
  case anyGtB | anyGtH => exact writesReduction_anyElems h (compares_relGt s.cfg) rfl
  case anyLeB | anyLeH => exact writesReduction_anyElems h (compares_relLe s.cfg) rfl
  case anyLtB | anyLtH => exact writesReduction_anyElems h (compares_relLt s.cfg) rfl

end Sys2Proof.Machine
end

section
/-!
PROOFS. Proofs/VectorShifts.lean: the vector instructions that shift and rotate (O55), and the two that are refused
(O18).
-/

namespace Sys2Proof.Machine

/-! ### Shifts and rotates by the number of the element -/

section
variable {w : Nat} (x : BitVec w)

theorem shiftLeft_eq_ofNat (n : Nat) : x <<< n = BitVec.ofNat w (x.toNat * 2 ^ n) := by
  apply BitVec.eq_of_toNat_eq
  rw [BitVec.toNat_shiftLeft, Nat.shiftLeft_eq, BitVec.toNat_ofNat]

theorem ushiftRight_eq_ofNat (n : Nat) : x >>> n = BitVec.ofNat w (x.toNat / 2 ^ n) := by
  rw [← Nat.shiftRight_eq_div_pow, ← BitVec.toNat_ushiftRight, BitVec.ofNat_toNat, BitVec.setWidth_eq]

theorem sshiftRight_eq_ofInt (n : Nat) : x.sshiftRight n = BitVec.ofInt w (x.toInt / 2 ^ n) := by
  rw [BitVec.sshiftRight_eq, Int.shiftRight_eq_div_pow, Nat.cast_pow, Nat.cast_ofNat]

/-- The bits that a rotate moves up and those that come round at the bottom do not meet. -/
theorem shiftLeft_and_ushiftRight (n : Nat) : x <<< n &&& x >>> (w - n) = 0#w := by
  apply BitVec.eq_of_getLsbD_eq
  intro i hi
  rw [BitVec.getLsbD_and, BitVec.getLsbD_shiftLeft, BitVec.getLsbD_ushiftRight, BitVec.getLsbD_zero]
  by_cases hn : i < n
  · simp [hn]
  · simp [BitVec.getLsbD_of_ge x (w - n + i) (by omega)]

/-- A rotate is the sum of its two pieces (46 R591). -/
theorem rotl_eq_ofNat (n : Nat) : rotl x n = BitVec.ofNat w (x.toNat * 2 ^ n + x.toNat / 2 ^ (w - n)) := by
  rw [rotl, ← BitVec.add_eq_or_of_and_eq_zero _ _ (shiftLeft_and_ushiftRight x n), shiftLeft_eq_ofNat,
    ushiftRight_eq_ofNat, BitVec.ofNat_add]

end

/-! ### The instructions -/

/-- An available instruction that computes element by element with a function written otherwise. -/
theorem writesElements_mapElems_of_eq {i : Instr} {s : State} {needs : Needs} {regs : List Reg} {d : Reg} {w n : Nat}
    {x y : Word} (h : available s needs regs) (hn : w * n ≤ 64) {f g : BitVec w → BitVec w → BitVec w}
    (hfg : ∀ p q : BitVec w, f p q = g p q)
    (he : exec i s = checked s needs regs (writeBack s d (mapElems w n f x y))) :
    writesElements i s d w n (fun k => g (elem w x k) (elem w y k)) :=
  writesRegister_mapElems h hn id hfg he

theorem flagged_asWritten {s : State} (h : s.cfg.lvFlagged = .asWritten) (body : Result) : flagged s body = body := by
  rw [flagged, h]

theorem flagged_refuse {s : State} (h : s.cfg.lvFlagged = .refuse) (body : Result) :
    flagged s body = .refused .vectorFlagged := by
  rw [flagged, h]

/-- Settles O55: each shift and rotate by the number of its element; the two flagged ones by what `flagged` makes of
them. -/
theorem vectorShifts : Obligations.VectorShifts := by
  intro s d a b h u z n left right arith rotate
  refine ⟨?sllB, ?sllH, ?srlB, ?srlH, ?sraB, ?sraH, ?rlB, ?rlH, fun hf => ⟨?sll, ?srl⟩,
    fun hf => ⟨?sllRefused, ?srlRefused⟩⟩
  case sllB | sllH =>
    exact writesElements_mapElems_of_eq h (by decide) (fun p q => shiftLeft_eq_ofNat p (elemCount q)) rfl
  case srlB | srlH =>
    exact writesElements_mapElems_of_eq h (by decide) (fun p q => ushiftRight_eq_ofNat p (elemCount q)) rfl
  case sraB | sraH =>
    exact writesElements_mapElems_of_eq h (by decide) (fun p q => sshiftRight_eq_ofInt p (elemCount q)) rfl
  case rlB | rlH =>
    exact writesElements_mapElems_of_eq h (by decide) (fun p q => rotl_eq_ofNat p (elemCount q)) rfl
  case sll =>
    exact writesRegister_of_eq h (congrArg (checked s .vector [d, a, b]) (flagged_asWritten hf _))
      (shiftLeft_eq_ofNat _ _)
  case srl =>
    exact writesRegister_of_eq h (congrArg (checked s .vector [d, a, b]) (flagged_asWritten hf _))
      (ushiftRight_eq_ofNat _ _)
  case sllRefused | srlRefused => exact (checked_eq h _).trans (flagged_refuse hf _)

/-- Settles O18: past the check of its demands, neither has a meaning. -/
theorem vectorAccumulateIsRefused : Obligations.VectorAccumulateIsRefused := by
  intro s d a b h
  exact ⟨checked_eq h _, checked_eq h _⟩

end Sys2Proof.Machine
end

section
/-!
PROOFS. Proofs/VectorRearrangements.lean: the vector instructions that merge, pack, unpack and permute elements (O56).
-/

namespace Sys2Proof.Machine

/-! ### The elements of a rearranged value -/

section
variable {w n k : Nat} (hk : k < n) (hn : w * n ≤ 64)
include hk hn

/-- Where an element of a merge comes from: the register by its parity, the place by the policy (47 R664, log 45). -/
theorem elem_mergeElems (c : Config) (x y : Word) :
    elem w (mergeElems c w n x y) k =
      elem w (if k % 2 = 0 then y else x) (if c.lvMergeInterleave then k / 2 else k) := by
  unfold mergeElems
  split <;> rw [elem_ofElems _ hk hn] <;> split <;> rfl

theorem elem_unpackElems (h : Nat) (x : Word) :
    elem w (unpackElems h w n x) k = BitVec.ofInt w (elem h x k).toInt := elem_ofElems _ hk hn

end

theorem elem_permNibbles (x y : Word) {k : Nat} (hk : k < 16) :
    elem 4 (permNibbles x y) k = elem 4 x (elem 4 y k).toNat := elem_ofElems _ hk (by decide)

section
variable {w h n k : Nat} (f : BitVec w → BitVec h) (x y : Word) (hk : k < n) (hn : h * (2 * n) ≤ 64)
include hk hn

theorem elem_packElems_low : elem h (packElems w h n f x y) k = f (elem w y k) := by
  rw [packElems, elem_ofElems _ (by omega) hn, if_pos hk]

theorem elem_packElems_high : elem h (packElems w h n f x y) (n + k) = f (elem w x k) := by
  rw [packElems, elem_ofElems _ (by omega) hn, if_neg (by omega), Nat.add_sub_cancel_left]

end

/-! ### Narrowing by the number of the element -/

theorem satS_toInt_four {w : Nat} (p : BitVec w) : satS 4 p.toInt = BitVec.ofInt 4 (max (-8) (min 7 p.toInt)) := rfl

theorem satS_toInt_eight {w : Nat} (p : BitVec w) :
    satS 8 p.toInt = BitVec.ofInt 8 (max (-128) (min 127 p.toInt)) := rfl

theorem setWidth_eq_ofInt {w : Nat} (h : Nat) (p : BitVec w) : p.setWidth h = BitVec.ofInt h p.toNat := by
  rw [BitVec.ofInt_natCast, BitVec.ofNat_toNat]

/-- A number that is not negative is clamped from above only. -/
theorem satU_uInt {w : Nat} (h : Nat) (p : BitVec w) : satU h (uInt p) = BitVec.ofInt h (min (2 ^ h - 1) p.toNat) := by
  have hpow : (0 : Int) < 2 ^ h := by positivity
  rw [satU, uInt, max_eq_right (by omega)]

/-! ### The instructions -/

section
variable {i : Instr} {s : State} {needs : Needs} {regs : List Reg} {d : Reg} (ha : available s needs regs)
include ha

/-- An available instruction that ends in `writeBack` of a value whose elements are known. -/
theorem writesElements_of_writeBack {w n : Nat} {v : Word} {f : Nat → BitVec w}
    (he : exec i s = checked s needs regs (writeBack s d v)) (hv : ∀ k : Nat, k < n → elem w v k = f k) :
    writesElements i s d w n f := ⟨v, writesRegister_of_writeBack ha he, hv⟩

/-- An available instruction that packs, where `f` narrows an element by the integer `g`. -/
theorem writesRegister_packElems {w h n : Nat} {x y : Word} {f : BitVec w → BitVec h} {g : BitVec w → Int}
    (hn : h * (2 * n) ≤ 64) (hfg : ∀ p : BitVec w, f p = BitVec.ofInt h (g p))
    (he : exec i s = checked s needs regs (writeBack s d (packElems w h n f x y))) :
    ∃ v : Word, writesRegister i s d v ∧ ∀ k : Nat, k < n →
      elem h v k = BitVec.ofInt h (g (elem w y k)) ∧ elem h v (n + k) = BitVec.ofInt h (g (elem w x k)) :=
  ⟨_, writesRegister_of_writeBack ha he, fun _ hk =>
    ⟨(elem_packElems_low f x y hk hn).trans (hfg _), (elem_packElems_high f x y hk hn).trans (hfg _)⟩⟩

end

/-- Settles O56: each by the elements of the value it writes, an element that is narrowed by its number. -/
theorem vectorRearrangements : Obligations.VectorRearrangements := by
  intro s d a b x y place packs
  refine ⟨fun h => ⟨?mergeB, ?mergeH, ?packB, ?packH, ?packsB, ?packsH, ?packusB, ?packusH, ?permN⟩,
    fun h => ⟨?unpackB, ?unpackH⟩⟩
  case mergeB | mergeH =>
    exact writesElements_of_writeBack h rfl fun _ hk => elem_mergeElems hk (by decide) s.cfg x y
  case packB | packH => exact writesRegister_packElems h (by decide) (setWidth_eq_ofInt _) rfl
  case packsB => exact writesRegister_packElems h (by decide) satS_toInt_four rfl
  case packsH => exact writesRegister_packElems h (by decide) satS_toInt_eight rfl
  case packusB | packusH => exact writesRegister_packElems h (by decide) (satU_uInt _) rfl
  case permN => exact writesElements_of_writeBack h rfl fun _ hk => elem_permNibbles x y hk
  case unpackB | unpackH =>
    exact writesElements_of_writeBack h rfl fun _ hk => elem_unpackElems hk (by decide) _ x

end Sys2Proof.Machine
end

