-- ==== Sys2Proof/Proofs/Isolation.lean ====
section
/-!
PROOFS. Proofs/Isolation.lean: an instruction in user mode leaves the privileged state as it was, or takes an exception
in a state that has it as it was (O45).
-/

namespace Sys2Proof.Machine

/-! ### What user mode may change -/

/-- The privileged state is kept, AESR too: the cause of an exception is noted only where one is raised. -/
def userKept (s t : State) : Prop := privilegedKept s t ∧ t.aesr = s.aesr

theorem privilegedKept_cfg {s t : State} (h : privilegedKept s t) : t.cfg = s.cfg := by
  obtain ⟨-, -, -, -, -, -, -, -, heq⟩ := h
  rw [heq]

/-- The privileged bits of SR hold the context. -/
theorem privilegedKept_context {s t : State} (h : privilegedKept s t) : context t = context s := by
  have hcfg := privilegedKept_cfg h
  obtain ⟨hsr, -⟩ := h
  refine context_congr hcfg fun n hn => ?_
  by_cases h32 : n < 32
  · exact hsr n h32 (by omega) (by omega) (by omega)
  · rw [srBit, srBit, BitVec.getLsbD_of_ge _ _ (by omega), BitVec.getLsbD_of_ge _ _ (by omega)]

theorem privilegedKept_trans {s t u : State} (h : privilegedKept s t) (h' : privilegedKept t u) :
    privilegedKept s u := by
  have hcontext := privilegedKept_context h
  obtain ⟨hsr, hfpcsr, hgprs, hcontrol, hprotect, htlbMr, hatbMr, htr, heq⟩ := h
  obtain ⟨hsr', hfpcsr', hgprs', hcontrol', hprotect', htlbMr', hatbMr', htr', heq'⟩ := h'
  refine ⟨fun n hn h9 h10 h11 => (hsr' n hn h9 h10 h11).trans (hsr n hn h9 h10 h11),
    fun n hn hfield => (hfpcsr' n hn hfield).trans (hfpcsr n hn hfield),
    fun set r hr hset => (hgprs' set r hr (hcontext ▸ hset)).trans (hgprs set r hr hset),
    hcontrol'.trans hcontrol, hprotect'.trans hprotect, htlbMr'.trans htlbMr, hatbMr'.trans hatbMr,
    fun j n h4 h5 => ⟨(htr' j n h4 h5).1.trans (htr j n h4 h5).1, (htr' j n h4 h5).2.trans (htr j n h4 h5).2⟩, ?_⟩
  rw [heq', heq]

theorem userKept_trans {s t u : State} (h : userKept s t) (h' : userKept t u) : userKept s u :=
  ⟨privilegedKept_trans h.1 h'.1, h'.2.trans h.2⟩

/-- What no mode guards is not privileged: pc and the delay slot, the accumulator, memory with what is known of it, the
reservation, AESR after a cause, and the model's own record. -/
theorem privilegedKept_of_frame {s t : State} (h : t = { s with
    pc := t.pc, ppc := t.ppc, ds := t.ds, machi := t.machi, maclo := t.maclo, aesr := t.aesr, stale := t.stale,
    unwritten := t.unwritten, mem := t.mem, resv := t.resv, draws := t.draws, dtlbMisses := t.dtlbMisses }) :
    privilegedKept s t := by
  rw [h]
  exact ⟨fun _ _ _ _ _ => rfl, fun _ _ _ => rfl, fun _ _ _ _ => rfl, rfl, rfl, rfl, rfl, fun _ _ _ _ => ⟨rfl, rfl⟩,
    rfl⟩

/-- The same without AESR. -/
theorem userKept_of_frame {s t : State} (h : t = { s with
    pc := t.pc, ppc := t.ppc, ds := t.ds, machi := t.machi, maclo := t.maclo, stale := t.stale,
    unwritten := t.unwritten, mem := t.mem, resv := t.resv, draws := t.draws, dtlbMisses := t.dtlbMisses }) :
    userKept s t :=
  ⟨privilegedKept_of_frame (by rw [h]), by rw [h]⟩

theorem userKept_refl (s : State) : userKept s s := userKept_of_frame rfl

/-- Flags are not privileged. -/
theorem userKept_of_sr {s t : State} (h : t = { s with sr := t.sr })
    (hsr : ∀ n : Nat, n < 32 → n ≠ 9 → n ≠ 10 → n ≠ 11 → t.sr.getLsbD n = s.sr.getLsbD n) : userKept s t := by
  refine ⟨⟨hsr, ?_⟩, by rw [h]⟩
  rw [h]
  exact ⟨fun _ _ _ => rfl, fun _ _ _ _ => rfl, rfl, rfl, rfl, rfl, fun _ _ _ _ => ⟨rfl, rfl⟩, rfl⟩

/-- The flags of FPCSR are not privileged. -/
theorem userKept_of_fpcsr {s t : State} (h : t = { s with fpcsr := t.fpcsr })
    (hfpcsr : ∀ n : Nat, n < 32 → n < 3 ∨ 12 ≤ n → t.fpcsr.getLsbD n = s.fpcsr.getLsbD n) : userKept s t := by
  refine ⟨⟨fun _ _ _ _ _ => by rw [h], hfpcsr, ?_⟩, by rw [h]⟩
  rw [h]
  exact ⟨fun _ _ _ _ => rfl, rfl, rfl, rfl, rfl, fun _ _ _ _ => ⟨rfl, rfl⟩, rfl⟩

/-! ### The updates of an instruction -/

/-- A register write goes to the current set. -/
theorem userKept_setGpr (s : State) (d : Reg) (v : Word) : userKept s (s.setGpr d v) := by
  have hother : ∀ set r : Nat, r < 32 → set ≠ context s → gprOf (s.setGpr d v) set r = gprOf s set r := by
    intro set r hr hset
    rw [State.setGpr, gprOf_setGprOf _ _ _ _ _ _ d.isLt hr, if_neg fun h => hset h.1]
  refine ⟨⟨fun _ _ _ _ _ => by simp, fun _ _ _ => by simp, hother, ?_⟩, by simp⟩
  rw [State.setGpr_eq]
  exact ⟨rfl, rfl, rfl, rfl, fun _ _ _ _ => ⟨rfl, rfl⟩, rfl⟩

theorem userKept_setFlags (s : State) (cy ov : Option Bool) : userKept s (s.setFlags cy ov) := by
  refine userKept_of_sr (State.setFlags_eq s cy ov) fun n _ _ h10 h11 => ?_
  exact (srBit_setFlags s cy ov n).trans ((if_neg h10).trans (if_neg h11))

theorem userKept_setF (s : State) (v : Bool) : userKept s (s.setSrBit srF v) :=
  userKept_of_sr rfl fun n _ h9 _ _ => (srBit_setSrBit s srF v n (by decide)).trans (if_neg h9)

/-- Outside the flags FPCSR keeps its bits after an operation. -/
theorem getLsbD_fpcsrAfter (s : State) (flags : BitVec 9) {n : Nat} (hn : n < 32) (hfield : n < 3 ∨ 12 ≤ n) :
    (fpcsrAfter s flags).getLsbD n = s.fpcsr.getLsbD n := by
  have hflags : (flags.setWidth 32 <<< 3).getLsbD n = false := by
    rw [BitVec.getLsbD_shiftLeft, BitVec.getLsbD_setWidth]
    rcases hfield with h | h
    · simp [h]
    · rw [BitVec.getLsbD_of_ge flags _ (by omega)]; simp
  have hmask : (0xFFFFF007#32).getLsbD n = true := by
    have hcases : n < 3 ∨ 12 ≤ n ∧ n < 32 := hfield.imp_right fun h => ⟨h, hn⟩
    rcases hcases with h | ⟨h, h'⟩ <;> interval_cases n <;> rfl
  unfold fpcsrAfter
  split <;> simp [hflags, hmask]

theorem userKept_floatWritten (s : State) (d : Reg) (r : FloatResult) : userKept s (floatWritten s d r) := by
  have hgpr := userKept_setGpr s d r.value
  refine userKept_trans (userKept_trans hgpr ?_)
    (userKept_of_frame (s := { s.setGpr d r.value with fpcsr := fpcsrAfter s r.flags }) rfl)
  refine userKept_of_fpcsr rfl fun n hn hfield => ?_
  rw [State.setGpr_fpcsr]
  exact getLsbD_fpcsrAfter s r.flags hn hfield

/-- IVF is a flag. -/
theorem userKept_ivf (s : State) (b : Bool) :
    userKept s { s with fpcsr := if b then s.fpcsr ||| 0x200#32 else s.fpcsr } := by
  refine userKept_of_fpcsr rfl fun n hn hfield => ?_
  show (if b = true then s.fpcsr ||| 0x200#32 else s.fpcsr).getLsbD n = _
  split
  · rw [getLsbD_or_ivf _ hn, decide_eq_false (show n ≠ 9 by omega), Bool.or_false]
  · rfl

theorem userKept_advance {s t : State} (h : userKept s t) : userKept s t.advance :=
  userKept_trans h (userKept_of_frame rfl)

theorem userKept_branchTo {s t : State} (h : userKept s t) (ea : Word) : userKept s (t.branchTo ea) := by
  refine userKept_trans h (userKept_of_frame ?_)
  unfold State.branchTo
  split <;> rfl

theorem userKept_fallThrough (s : State) : userKept s s.fallThrough := by
  refine userKept_of_frame ?_
  unfold State.fallThrough
  split <;> rfl

theorem userKept_setMac {s t : State} (h : userKept s t) (v : BitVec 64) : userKept s (t.setMac v) :=
  userKept_trans h (userKept_of_frame rfl)

theorem userKept_storeAt {s t : State} (h : userKept s t) (ps : List Place) (n : Nat) (v : Word) :
    userKept s (t.storeAt ps n v) := by
  refine userKept_trans h (userKept_of_frame ?_)
  unfold State.storeAt
  rw [State.storeBytes_eq, State.writeBytes_eq]

/-- What is left of an access that comes to nothing: free values drawn and misses counted. -/
theorem userKept_abandon {s t : State} (h : userKept s t) : userKept s (s.abandon t) := by
  refine userKept_of_frame ?_
  obtain ⟨⟨-, -, -, -, -, -, -, -, heq⟩, -⟩ := h
  have hitlb : t.itlbMisses = s.itlbMisses := by rw [heq]
  unfold State.abandon
  rw [hitlb]

/-! ### Accesses through a data MMU that software reloads -/

/-- The data MMU, where there is one, is reloaded by software. -/
def softwareReload (c : Config) : Prop := ∀ g : MmuConfig, c.dmmu = some g → g.reload = false

/-- An access leaves the privileged state, whether it succeeds or raises. -/
def accessKept {α : Type} (s : State) : Attempt α → Prop
  | .ok _ t => userKept s t
  | .raise _ t => userKept s t
  | .refuse _ => True

theorem accessKept_trans {α : Type} {s t : State} {x : Attempt α} (h : userKept s t) (hx : accessKept t x) :
    accessKept s x := by
  cases x with
  | ok v u => exact userKept_trans h hx
  | raise e u => exact userKept_trans h hx
  | refuse r => trivial

theorem accessKept_andThen {α β : Type} {s : State} {x : Attempt α} {f : α → State → Attempt β}
    (hx : accessKept s x) (hf : ∀ v t, userKept s t → accessKept s (f v t)) : accessKept s (x.andThen f) := by
  cases x with
  | ok v t => exact hf v t hx
  | raise e t => exact hx
  | refuse r => trivial

/-- The marks that an access leaves are no privileged bits of a translate register. -/
theorem getLsbD_markUsed (k : Access) (r : Word) {n : Nat} (h4 : n ≠ 4) (h5 : n ≠ 5) :
    (markUsed k r).getLsbD n = r.getLsbD n := by
  have h16 : (0x10#64).getLsbD n = false := by
    rw [show 0x10#64 = 1#64 <<< 4 from rfl, BitVec.getLsbD_shiftLeft, BitVec.getLsbD_one]
    by_cases h : n < 4
    · simp [h]
    · simp [show n - 4 ≠ 0 by omega]
  have h48 : (0x30#64).getLsbD n = false := by
    rw [show 0x30#64 = 1#64 <<< 5 ||| 0x10#64 from rfl, BitVec.getLsbD_or, h16, BitVec.getLsbD_shiftLeft,
      BitVec.getLsbD_one]
    by_cases h : n < 5
    · simp [h]
    · simp [show n - 5 ≠ 0 by omega]
  unfold markUsed
  cases k <;> simp [h16, h48]

/-- Marking an entry changes no privileged bit of any translate register. -/
theorem getLsbD_setTranslate_markUsed (m : Mmu) (e : Entry) (k : Access) (j : Nat) {n : Nat} (h4 : n ≠ 4)
    (h5 : n ≠ 5) :
    (Table.read (m.setTranslate e (markUsed k (e.translate m))).tlbTr j).getLsbD n =
        (Table.read m.tlbTr j).getLsbD n ∧
      (Table.read (m.setTranslate e (markUsed k (e.translate m))).atbTr j).getLsbD n =
        (Table.read m.atbTr j).getLsbD n := by
  have hread (t : Table 64) (i : Nat) :
      (Table.read (Table.write t i (markUsed k (Table.read t i))) j).getLsbD n = (Table.read t j).getLsbD n := by
    rw [Table.read_write]
    split
    · next hj => rw [hj, getLsbD_markUsed k _ h4 h5]
    · rfl
  cases e with
  | tlb i => exact ⟨hread m.tlbTr i, rfl⟩
  | atb i => exact ⟨rfl, hread m.atbTr i⟩

/-- The data MMU with an entry marked and, where the access is made, the LRU fields of its set touched. -/
theorem userKept_marked (s : State) (e : Entry) (k : Access) (lru : Table 2) (n : Nat) :
    userKept s { s with
      dmmu := { s.dmmu.setTranslate e (markUsed k (e.translate s.dmmu)) with tlbLru := lru }, draws := n } := by
  refine ⟨⟨fun _ _ _ _ _ => rfl, fun _ _ _ => rfl, fun _ _ _ _ => rfl, ?_, ?_, ?_, ?_,
    fun j _ h4 h5 => getLsbD_setTranslate_markUsed s.dmmu e k j h4 h5, rfl⟩, rfl⟩
  all_goals
    cases e <;> rfl

section
variable {k : Access} (hk : k ≠ .fetch)
include hk

/-- A load or store goes through the data MMU, and its misses are counted there. -/
theorem dataAccess_eq (s : State) : mmuOf s k = s.dmmu ∧ (∀ m : Mmu, s.setMmu k m = { s with dmmu := m }) ∧
    mmuConfig s.cfg k = s.cfg.dmmu ∧ s.countMiss k = { s with dtlbMisses := s.dtlbMisses + 1 } := by
  cases k with
  | load | store => exact ⟨rfl, fun _ => rfl, rfl, rfl⟩
  | fetch => exact absurd rfl hk

theorem accessKept_translateHit (s : State) {g : MmuConfig} (hg : g.reload = false) (ea : Word) (e : Entry) :
    accessKept s (translateHit s k g ea e) := by
  obtain ⟨hmmu, hset, -⟩ := dataAccess_eq hk s
  unfold translateHit
  simp only [useTable_noReload hg, hmmu, hset]
  split_ifs
  · exact userKept_marked s e k _ _
  · have htlbLru (v : Word) : (s.dmmu.setTranslate e v).tlbLru = s.dmmu.tlbLru := setTranslate_tlbLru _ _ _
    have h := userKept_marked s e .load s.dmmu.tlbLru (s.draws + 1)
    rw [← htlbLru (markUsed .load (e.translate s.dmmu))] at h
    exact h
  · exact userKept_of_frame rfl

theorem accessKept_translate {s : State} (hsoft : softwareReload s.cfg) (ea : Word) :
    accessKept s (translate s k ea) := by
  obtain ⟨-, -, hconfig, hmiss⟩ := dataAccess_eq hk s
  unfold translate
  split
  · next g _ hg =>
    have hreload : g.reload = false := hsoft g (hconfig ▸ hg)
    split
    · trivial
    · rw [hreload, if_neg Bool.false_ne_true]
      rw [hmiss]
      exact userKept_of_frame rfl
    · exact accessKept_translateHit hk s hreload ea _
  · exact userKept_refl s

theorem accessKept_translateAll {s : State} (hsoft : softwareReload s.cfg) (eas : List Word) :
    accessKept s (translateAll s k eas) := by
  induction eas generalizing s with
  | nil => exact userKept_refl s
  | cons ea rest ih =>
    refine accessKept_andThen (accessKept_translate hk hsoft ea) fun p t ht => ?_
    have hsoft' : softwareReload t.cfg := by rw [privilegedKept_cfg ht.1]; exact hsoft
    exact accessKept_trans ht (accessKept_andThen (ih hsoft') fun _ _ hu => hu)

theorem accessKept_dataAddresses {s : State} (hsoft : softwareReload s.cfg) (ea : Word) (n : Nat) (strict : Bool) :
    accessKept s (dataAddresses s k ea n strict) := by
  unfold dataAddresses
  split_ifs
  · exact accessKept_andThen (accessKept_translate hk hsoft ea) fun _ _ ht => ht
  · have hall := accessKept_translateAll hk hsoft (byteEas s.cfg ea n)
    split
    · next t ht =>
      rw [ht] at hall
      exact userKept_abandon hall
    · exact hall
  · exact userKept_refl s

end

theorem accessKept_memRead {s : State} (hsoft : softwareReload s.cfg) (ea : Word) (n : Nat) (strict : Bool) :
    accessKept s (memRead s ea n strict) := by
  refine accessKept_andThen (accessKept_dataAddresses (by decide) hsoft ea n strict) fun ps t ht => ?_
  split
  · exact ht
  · exact userKept_abandon ht

theorem accessKept_memWrite {s : State} (hsoft : softwareReload s.cfg) (ea : Word) (n : Nat) (v : Word) :
    accessKept s (memWrite s ea n v) := by
  refine accessKept_andThen (accessKept_dataAddresses (by decide) hsoft ea n false) fun ps t ht => ?_
  split
  · exact userKept_storeAt ht ps n v
  · exact userKept_abandon ht

/-! ### Isolation -/

/-- What O45 says of a result: the privileged state is kept, or an exception is taken, or DSR stops the processor at one,
in a state in which it is. -/
def isolates (s : State) (r : Result) : Prop :=
  ∀ t : State, r = .next t → userKept s t ∨
    ∃ (u : State) (e : Exc) (ea : Option Word), privilegedKept s u ∧ (e ≠ .range → u.aesr = s.aesr) ∧
      (takesException (.next t) u e ea ∨
        (debugTakes u e = true ∧
          t = { u with debugUnit := { u.debugUnit with drr := t.debugUnit.drr }, stopped := true, raised := some e }))

theorem isolates_next {s t : State} (h : userKept s t) : isolates s (.next t) := by
  intro u hu; cases hu; exact .inl h

theorem isolates_refused (s : State) (r : Refusal) : isolates s (.refused r) := by
  intro t h; cases h

/-- An exception raised in a state in which the privileged state is kept. -/
theorem isolates_raise {s u : State} {e : Exc} (h : privilegedKept s u) (haesr : e ≠ .range → u.aesr = s.aesr)
    (ea : Option Word) : isolates s (enter e ea u) := by
  intro t ht
  refine .inr ⟨u, e, ea, h, haesr, ?_⟩
  rcases enter_cases e ea u with ⟨hdsr, hr⟩ | ⟨-, hr⟩ | ⟨hcan, hr⟩
  · cases hr.symm.trans ht
    exact .inr ⟨hdsr, rfl⟩
  · cases hr.symm.trans ht
  · rw [← ht]
    exact .inl (enter_spec ea hcan)

theorem isolates_enter {s u : State} (h : userKept s u) (e : Exc) (ea : Option Word) : isolates s (enter e ea u) :=
  isolates_raise h.1 (fun _ => h.2) ea

theorem isolates_checked {s : State} {needs : Needs} {regs : List Reg} {body : Result} (h : isolates s body) :
    isolates s (checked s needs regs body) := by
  rcases checked_cases s needs regs body with hr | hr | ⟨-, hr⟩ <;> rw [hr]
  · exact isolates_enter (userKept_refl s) _ _
  · exact isolates_enter (userKept_refl s) _ _
  · exact h

/-- The range exception is raised with its cause in AESR. -/
theorem isolates_arithWith (s : State) (k : Causes) (cy ov : Option Bool) {store : State → State}
    (h : ∀ t : State, userKept t (store t)) : isolates s (arithWith s k cy ov store) := by
  have hflags := userKept_setFlags s cy ov
  have hcause : privilegedKept s { s.setFlags cy ov with aesr := aesrAfter s k cy ov } :=
    privilegedKept_trans hflags.1 (privilegedKept_of_frame rfl)
  unfold arithWith
  simp only
  split_ifs
  · exact isolates_raise (privilegedKept_trans hcause (h _).1) (absurd rfl) none
  · exact isolates_raise hcause (absurd rfl) none
  · exact isolates_next (userKept_advance (userKept_trans hflags (h _)))

theorem isolates_finish {α : Type} {s : State} {x : Attempt α} {ea : Word} {f : α → State → Result}
    (hx : accessKept s x) (hf : ∀ v t, userKept s t → isolates s (f v t)) : isolates s (x.finish ea f) := by
  cases x with
  | ok v t => exact hf v t hx
  | raise e t => exact isolates_enter hx e _
  | refuse r => exact isolates_refused s r

theorem isolates_transfer {s t : State} (h : userKept s t) : isolates s (transfer s t) := by
  unfold transfer
  split
  · exact isolates_refused s _
  · exact isolates_next h

theorem isolates_userViolation {s t : State} (h : userKept s t) : isolates s (userViolation s t) := by
  unfold userViolation
  split
  · exact isolates_refused s _
  · exact isolates_enter (userKept_refl s) _ _
  · exact isolates_next h

theorem isolates_storeConditional {s : State} (hsoft : softwareReload s.cfg) (ea : Word) (v : Word) :
    isolates s (storeConditional s ea v) := by
  refine isolates_finish (accessKept_dataAddresses (by decide) hsoft ea 4 true) fun ps t ht => ?_
  have hwrite {u : State} (hu : userKept s u) (f : Bool) : isolates s (writeFlag { u with resv := none } f) :=
    isolates_next (userKept_advance (userKept_trans (userKept_trans hu (userKept_of_frame rfl)) (userKept_setF _ f)))
  split_ifs
  · exact hwrite (userKept_storeAt ht ps 4 v) true
  · exact isolates_enter (userKept_abandon ht) _ _
  · exact hwrite (userKept_abandon ht) false

theorem isolates_floatComplete (s : State) (d : Reg) (r : FloatResult) : isolates s (floatComplete s d r) := by
  have hwritten := userKept_floatWritten s d r
  rw [floatComplete_eq]
  split
  · exact isolates_enter hwritten _ _
  · exact isolates_next (userKept_advance hwritten)

theorem isolates_vectorFlag (s : State) (d : Reg) (v : Bool) : isolates s (vectorFlag s d v) := by
  unfold vectorFlag
  split
  · exact isolates_next (userKept_advance (userKept_trans (userKept_setF s v) (userKept_setGpr _ d _)))
  · exact isolates_next (userKept_advance (userKept_setGpr s d _))

/-! ### The special-purpose registers user mode may write (44 R515) -/

/-- An operation on a block of the instruction cache changes what the cache may hold. -/
theorem writeInsnCache_operation (s : State) {j : Nat} (v : Word) (hj : j ≠ 0) :
    s.writeInsnCache j v =
      { s with stale := (s.writeInsnCache j v).stale, draws := (s.writeInsnCache j v).draws } := by
  unfold State.writeInsnCache
  rw [if_neg hj]
  split
  · unfold State.invalidateBlock
    rcases onBlock_cases s .fetch s.cfg.icache (·.invalidate) (narrow s.cfg v) _ with h | ⟨g, q, -, -, h⟩ <;> rw [h]
  · rfl

/-- A register that user mode may write is the accumulator's, or an operation on a cache. -/
theorem userKept_sprWrite {s t : State} {addr : Nat} {v : Word} (haddr : userWrites addr = true)
    (ht : sprWrite s addr v = .ok t) : userKept s t := by
  refine userKept_of_frame ?_
  have hgroup : addr / 0x800 = 5 ∨ (addr / 0x800 = 3 ∧ addr ≠ 0x1800) ∨
      (addr / 0x800 = 4 ∧ addr % 2048 ≠ 0) := by
    rw [userWrites_iff] at haddr
    fin_cases haddr <;> decide
  rcases hgroup with h | ⟨h, h0⟩ | ⟨h, h0⟩
  · rw [sprWrite_shape_mac ht h]
  · rw [sprWrite_shape_dataCache ht h h0]
  · cases (sprWrite_insnCache s v h).symm.trans ht
    rw [writeInsnCache_operation s v h0]

/-! ### Every instruction -/

/-- In user mode every ending keeps the privileged state or takes an exception. -/
theorem isolates_ending {s : State} {r : Result} (hsoft : softwareReload s.cfg) (huser : srBit s srSM = false)
    (h : Ending s r) : isolates s r := by
  have hread {d : Reg} {v : Word} {t : State} (ht : userKept s t) : isolates s (writeBack t d v) :=
    isolates_next (userKept_advance (userKept_trans ht (userKept_setGpr t d v)))
  cases h with
  | writeBack d v => exact hread (userKept_refl s)
  | writeFlag v => exact isolates_next (userKept_advance (userKept_setF s v))
  | advance => exact isolates_next (userKept_advance (userKept_refl s))
  | arith k hk d r => exact isolates_arithWith s k r.cy r.ov fun t => userKept_setGpr t d r.value
  | arithMac k hk r => exact isolates_arithWith s k r.cy r.ov fun t => userKept_setMac (userKept_refl t) r.value
  | macRead d => exact isolates_next (userKept_advance (userKept_setMac (userKept_setGpr s d _) _))
  | load d ea n ext => exact isolates_finish (accessKept_memRead hsoft ea n false) fun _ _ ht => hread ht
  | loadReserve d ea =>
    exact isolates_finish (accessKept_memRead hsoft ea 4 true) fun _ _ ht =>
      hread (userKept_trans ht (userKept_of_frame rfl))
  | store ea n v =>
    exact isolates_finish (accessKept_memWrite hsoft ea n v) fun _ _ ht => isolates_next (userKept_advance ht)
  | storeConditional ea v => exact isolates_storeConditional hsoft ea v
  | branch ea => exact isolates_transfer (userKept_branchTo (userKept_refl s) ea)
  | fallThrough => exact isolates_transfer (userKept_fallThrough s)
  | link ea => exact isolates_transfer (userKept_branchTo (userKept_setGpr s _ _) ea)
  | returnFrom hsm => exact absurd (hsm.symm.trans huser) (by decide)
  | violationRead d => exact isolates_userViolation (userKept_advance (userKept_setGpr s d _))
  | violation => exact isolates_userViolation (userKept_advance (userKept_refl s))
  | sprWrite addr v t hmode ht =>
    rw [huser, Bool.false_or] at hmode
    exact isolates_next (t := moveOn s t) (userKept_trans (userKept_sprWrite hmode ht) (userKept_of_frame rfl))
  | float d r => exact isolates_floatComplete s d r
  | floatFlag v invalid =>
    exact isolates_next (userKept_advance (userKept_trans (userKept_ivf s _) (userKept_setF _ v)))
  | vectorFlag d v => exact isolates_vectorFlag s d v
  | exception e ea => exact isolates_enter (userKept_refl s) e ea
  | refused r => exact isolates_refused s r

/-- Settles O45: an instruction ends by its demands, and in user mode each ending keeps the privileged state or takes an
exception. -/
theorem userModeKeepsPrivilegedState : Obligations.UserModeKeepsPrivilegedState := by
  intro s t i hsoft huser ht
  obtain ⟨body, he, hbody⟩ := exec_endsByDemands i s
  rw [he] at ht
  exact isolates_checked (isolates_ending hsoft huser hbody) t ht

end Sys2Proof.Machine
end

