-- ==== Sys2Proof/Proofs/ExceptionEntry.lean ====
section
/-!
PROOFS. Proofs/ExceptionEntry.lean: what taking an exception saves and sets (O10 to O13), and that `l.rfe` undoes it
(O14).
-/

namespace Sys2Proof.Machine

/-- Settles O10: it is what `enter` does where the exception can be taken. -/
theorem exceptionEntrySavesAndVectors : Obligations.ExceptionEntrySavesAndVectors := fun _ _ ea hcan => enter_spec ea hcan

/-- The state after an exception that can be taken. -/
theorem eq_enterAt_of_enter {s t : State} {e : Exc} {ea : Option Word} (hcan : canEnter s e)
    (h : enter e ea s = .next t) : t = enterAt e ea (entryContext s) s := by
  obtain ⟨hdsr, hcontext⟩ := hcan
  simp only [enter, hdsr, Nat.not_le.2 hcontext, Bool.false_eq_true, if_false] at h
  cases h
  rfl

/-! ### The new SR (60 R732) -/

/-- Below CID: SM is set, the enables and the translation bits are cleared, DSX tells the delay slot. -/
theorem getLsbD_entrySr_low (s : State) (c : Nat) {n : Nat} (hn : n < 28) : (entrySr s c).getLsbD n =
    if n = 0 then true
    else if n = 1 ∨ n = 2 ∨ n = 5 ∨ n = 6 then false
    else if n = 13 then s.ds.isSome
    else s.sr.getLsbD n := by
  have hbelow : (entrySr s c).getLsbD n =
      ((s.sr &&& ~~~0x00002066#32) ||| 1#32 ||| (if s.ds.isSome then 0x2000#32 else 0#32)).getLsbD n := by
    by_cases hone : s.cfg.nsets ≤ 1
    · rw [entrySr, if_pos hone]
    · rw [entrySr, if_neg hone, getLsbD_putCid_low _ _ n hn]
  have hkept : (~~~0x00002066#32).getLsbD n = !decide (n = 1 ∨ n = 2 ∨ n = 5 ∨ n = 6 ∨ n = 13) := by
    interval_cases n <;> rfl
  have hsm : (1#32).getLsbD n = decide (n = 0) := by interval_cases n <;> rfl
  have hdsx : (if s.ds.isSome then 0x2000#32 else 0#32).getLsbD n = (s.ds.isSome && decide (n = 13)) := by
    cases s.ds.isSome <;> interval_cases n <;> rfl
  rw [hbelow, BitVec.getLsbD_or, BitVec.getLsbD_or, BitVec.getLsbD_and, hkept, hsm, hdsx]
  split_ifs with h0 hcleared h13
  · simp [h0]
  · rw [decide_eq_true (show n = 1 ∨ n = 2 ∨ n = 5 ∨ n = 6 ∨ n = 13 by omega), decide_eq_false h0,
      decide_eq_false (show n ≠ 13 by omega)]
    simp
  · simp [h13]
  · rw [decide_eq_false (show ¬(n = 1 ∨ n = 2 ∨ n = 5 ∨ n = 6 ∨ n = 13) by omega), decide_eq_false h0,
      decide_eq_false h13]
    simp

theorem getLsbD_putCid_high (v : BitVec 32) (c : Nat) {n : Nat} (h28 : 28 ≤ n) (hn : n < 32) :
    (putCid v c).getLsbD n = c.testBit (n - 28) := by
  have hlow : (0x0FFFFFFF#32).getLsbD n = false := by interval_cases n <;> rfl
  simp only [putCid, BitVec.getLsbD_or, BitVec.getLsbD_and, hlow, Bool.and_false, Bool.false_or,
    BitVec.getLsbD_append, if_neg (Nat.not_lt.2 h28), BitVec.getLsbD_ofNat,
    decide_eq_true (show n - 28 < 4 by omega), Bool.true_and]

/-- With one register set the invariant has no bit in CID. -/
theorem getLsbD_cid_of_oneSet {s : State} (h : srOk s) (hone : s.cfg.nsets ≤ 1) {n : Nat} (h28 : 28 ≤ n) (hn : n < 32) :
    s.sr.getLsbD n = false := by
  obtain ⟨hvalue, -⟩ := h
  have hfixed : (srWritable s.cfg).getLsbD n = false := by
    rw [getLsbD_srWritable _ hn]
    simp [show ¬1 < s.cfg.nsets by omega]
    omega
  rw [← hvalue, getLsbD_srValue _ _ hn, hfixed, decide_eq_false (show n ≠ 15 by omega), Bool.and_false, Bool.false_or]

/-- CID is the context that the exception uses. -/
theorem getLsbD_entrySr_cid {s : State} (h : srOk s) {n : Nat} (h28 : 28 ≤ n) (hn : n < 32) :
    (entrySr s (entryContext s)).getLsbD n = (entryContext s).testBit (n - 28) := by
  by_cases hone : s.cfg.nsets ≤ 1
  · have hold := getLsbD_cid_of_oneSet h hone h28 hn
    have hother : (1#32).getLsbD n = false ∧ (if s.ds.isSome then 0x2000#32 else 0#32).getLsbD n = false := by
      cases s.ds.isSome <;> interval_cases n <;> exact ⟨rfl, rfl⟩
    obtain ⟨hsm, hdsx⟩ := hother
    simp only [entrySr, entryContext, if_pos hone, BitVec.getLsbD_or, BitVec.getLsbD_and, hold, hsm, hdsx,
      Bool.false_and, Bool.or_false, Nat.zero_testBit]
  · rw [entrySr, if_neg hone, getLsbD_putCid_high _ _ h28 hn]

/-- Settles O11: the bits below CID, and CID. -/
theorem exceptionEntrySetsSr : Obligations.ExceptionEntrySetsSr := by
  intro s t e ea hwf hcan h n hn
  obtain ⟨-, -, -, hsr, -⟩ := (wf_iff s).1 hwf
  rw [eq_enterAt_of_enter hcan h]
  show (entrySr s (entryContext s)).getLsbD n = _
  by_cases h28 : 28 ≤ n
  · rw [getLsbD_entrySr_cid hsr h28 hn, if_neg (by omega), if_neg (by omega), if_neg (by omega), if_pos h28]
  · rw [getLsbD_entrySr_low s _ (by omega), if_neg h28]

/-! ### The vector (60 R733) -/

/-- The base of the vectors: EVBAR, where it exists, joined with the high bits that SR[EPH] selects. -/
def vectorBase (s : State) : BitVec 32 :=
  (if s.cfg.evbarPresent then s.evbar &&& 0xFFFFE000#32 else 0#32) |||
    (if srBit s srEPH then 0xF0000000#32 else 0#32)

/-- The base has its low 13 bits clear. -/
theorem vectorBase_dvd (s : State) : 2 ^ 13 ∣ (vectorBase s).toNat := by
  rw [Nat.dvd_iff_mod_eq_zero]
  refine Nat.eq_of_testBit_eq fun i => ?_
  rw [Nat.testBit_mod_two_pow, Nat.zero_testBit]
  by_cases hi : i < 13
  · show (decide (i < 13) && (vectorBase s).getLsbD i) = false
    have hevbar : (0xFFFFE000#32).getLsbD i = false := by interval_cases i <;> rfl
    have hprefix : (0xF0000000#32).getLsbD i = false := by interval_cases i <;> rfl
    unfold vectorBase
    split <;> split <;> simp [hevbar, hprefix]
  · simp [hi]

/-- Base and offset do not meet. -/
theorem toNat_vectorOf (s : State) (e : Exc) : (vectorOf s e).toNat = (vectorBase s).toNat + 256 * e.number := by
  obtain ⟨a, ha⟩ := vectorBase_dvd s
  have hoffset : 256 * e.number < 2 ^ 13 := by cases e <;> decide
  have hbase := (vectorBase s).isLt
  show (Word.ofLo32 (vectorBase s ||| BitVec.ofNat 32 (256 * e.number))).toNat = _
  rw [Word.ofLo32, BitVec.toNat_setWidth, BitVec.toNat_or, BitVec.toNat_ofNat, Nat.mod_eq_of_lt (a := 256 * e.number)
    (by omega), ha, ← Nat.two_pow_add_eq_or_of_lt hoffset]
  omega

/-- Settles O12: the base and the exception's offset. -/
theorem exceptionVectors : Obligations.ExceptionVectors := by
  intro s t e ea hcan h
  rw [eq_enterAt_of_enter hcan h]
  show (vectorOf s e).toNat = _
  rw [toNat_vectorOf]
  cases e <;> rfl

/-! ### The saved pc (60 R731, R741) -/

theorem savesNext_iff (e : Exc) : e.savesNext = true ↔ e = .systemCall ∨ e = .floatingPoint := by
  cases e <;> decide

/-- Settles O13: the cases of the saved pc. -/
theorem exceptionEntrySavesPc : Obligations.ExceptionEntrySavesPc := by
  intro s t e ea hcan h
  have hsaved : Table.read t.epcr (entryContext s) = savedPc s e := by
    rw [eq_enterAt_of_enter hcan h]
    exact Table.read_write_same ..
  rw [hsaved]
  refine ⟨fun d hd => ?slot, fun hd he => ?next, fun hd hsys hfp => ?this⟩
  case slot => rw [savedPc, hd]
  case next =>
    have hnext : savedPc s e = narrow s.cfg (s.pc + 4#64) := by
      simp only [savedPc, hd]
      exact if_pos ((savesNext_iff e).2 he)
    have hdvd : 2 ^ s.cfg.xlen.bits ∣ 2 ^ 64 := Nat.pow_dvd_pow 2 (by cases s.cfg.xlen <;> decide)
    rw [hnext, narrow_toNat, BitVec.toNat_add, BitVec.toNat_ofNat, Nat.mod_mod_of_dvd _ hdvd]
  case this =>
    simp only [savedPc, hd]
    exact if_neg fun he => ((savesNext_iff e).1 he).elim hsys hfp

/-! ### Entry and return -/

/-- A value with its own CID put in. -/
theorem putCid_cidField (v : BitVec 32) : putCid v (cidField v) = v := by
  refine BitVec.eq_of_getLsbD_eq fun n hn => ?_
  by_cases h28 : 28 ≤ n
  · rw [getLsbD_putCid_high _ _ h28 hn]
    show (v.extractLsb' 28 4).getLsbD (n - 28) = _
    rw [BitVec.getLsbD_extractLsb', decide_eq_true (show n - 28 < 4 by omega), Bool.true_and]
    congr 1
    omega
  · exact getLsbD_putCid_low _ _ n (by omega)

/-- The context after exception entry is the one the exception uses. -/
theorem context_enterAt {s : State} (e : Exc) (ea : Option Word) (h : entryContext s < 16) :
    context (enterAt e ea (entryContext s) s) = entryContext s := by
  by_cases hone : s.cfg.nsets ≤ 1
  · rw [context, if_pos (show (enterAt e ea (entryContext s) s).cfg.nsets ≤ 1 from hone), entryContext, if_pos hone]
  · rw [context_eq_cid (s := enterAt e ea (entryContext s) s) (Nat.lt_of_not_le hone)]
    show cidField (entrySr s (entryContext s)) = _
    rw [entrySr, if_neg hone, cidField_putCid _ h]

/-- The saved pc is of the register width. -/
theorem narrow_savedPc {s : State} (h : pcOk s) (e : Exc) : narrow s.cfg (savedPc s e) = savedPc s e := by
  obtain ⟨hpc, hslot⟩ := h
  unfold savedPc
  split
  · next d hd => exact of_decide_eq_true (hslot d hd).1
  · split
    · exact narrow_narrow ..
    · exact of_decide_eq_true hpc

section
variable {s : State} (hwf : s.wf = true) (hcontext : entryContext s < s.cfg.nsets) (e : Exc) (ea : Option Word)
include hwf hcontext

/-- Contexts have numbers of four bits. -/
theorem entryContext_lt_16 : entryContext s < 16 :=
  lt_of_lt_of_le hcontext (nsets_le_of_wf ((wf_iff s).1 hwf).1).2

/-- A return brings back the SR that entry saved. -/
theorem returnedSr_enterAt : returnedSr (enterAt e ea (entryContext s) s) = s.sr := by
  obtain ⟨-, -, -, ⟨hvalue, -⟩, -⟩ := (wf_iff s).1 hwf
  have hsaved : Table.read (enterAt e ea (entryContext s) s).esr (entryContext s) = s.sr := Table.read_write_same ..
  have hce : srBit (enterAt e ea (entryContext s) s) srCE = srBit s srCE := by
    show (entrySr s (entryContext s)).getLsbD 8 = _
    rw [getLsbD_entrySr_low s _ (by decide)]
    rfl
  unfold returnedSr
  rw [context_enterAt e ea (entryContext_lt_16 hwf hcontext), hsaved, hce]
  show (if 1 < s.cfg.nsets ∧ _ then putCid (srValue s.cfg s.sr) _ else srValue s.cfg s.sr) = _
  rw [hvalue]
  by_cases hswitch : 1 < s.cfg.nsets ∧ srBit s srCE = true
  · refine (if_pos hswitch).trans ?_
    obtain ⟨hmany, hce⟩ := hswitch
    rw [entryContext, if_neg (Nat.not_le.2 hmany), if_pos hce, Nat.add_sub_cancel, context_eq_cid hmany,
      putCid_cidField]
  · exact if_neg hswitch

/-- `l.rfe` right after exception entry returns. -/
theorem exec_lRfe_enterAt : exec .lRfe (enterAt e ea (entryContext s) s) =
    .next (enterAt e ea (entryContext s) s).returned := by
  obtain ⟨-, -, -, ⟨-, hexists⟩, -⟩ := (wf_iff s).1 hwf
  have hsm : srBit (enterAt e ea (entryContext s) s) srSM = true := getLsbD_entrySr_low s _ (by decide)
  have hce : srBit (enterAt e ea (entryContext s) s) srCE = srBit s srCE := getLsbD_entrySr_low s _ (by decide)
  have hnow := context_enterAt e ea (entryContext_lt_16 hwf hcontext)
  rw [exec_lRfe hsm]
  refine (if_neg Bool.false_ne_true).trans (returnFrom_eq (fun hset => ?_) fun _ => ?_)
  · rw [hnow, entryContext]
    rw [hce] at hset
    by_cases hone : s.cfg.nsets ≤ 1
    · exact .inl hone
    · exact .inr (by rw [if_neg hone, if_pos hset]; omega)
  · rw [hnow, show Table.read (enterAt e ea (entryContext s) s).esr (entryContext s) = s.sr from
      Table.read_write_same .., ← cidField_eq_div]
    by_cases hone : s.cfg.nsets ≤ 1
    · exact .inl hone
    · exact .inr (context_eq_cid (Nat.lt_of_not_le hone) ▸ hexists)

end

/-- Settles O14: `l.rfe` reads what entry wrote. -/
theorem returnUndoesEntry : Obligations.ReturnUndoesEntry := by
  intro s t e ea hwf hcan h
  obtain ⟨-, -, -, -, hpc, -⟩ := (wf_iff s).1 hwf
  have hcontext := hcan.2
  cases eq_enterAt_of_enter hcan h
  have hsr : (enterAt e ea (entryContext s) s).returned.sr = s.sr := returnedSr_enterAt hwf hcontext e ea
  have hregs : registersKept s (enterAt e ea (entryContext s) s).returned := registersKept_of_gprs rfl rfl
  have hset : context (enterAt e ea (entryContext s) s).returned = context s :=
    context_congr rfl fun n _ => congrArg (BitVec.getLsbD · n) hsr
  refine ⟨_, exec_lRfe_enterAt hwf hcontext e ea, hsr, ?_, rfl, hregs, fun r => ?_, memoryKept_of_mem rfl⟩
  · show narrow s.cfg (Table.read _ (context (enterAt e ea (entryContext s) s))) = _
    rw [context_enterAt e ea (entryContext_lt_16 hwf hcontext)]
    show narrow s.cfg (Table.read (Table.write s.epcr _ (savedPc s e)) _) = _
    rw [Table.read_write_same, narrow_savedPc hpc]
  · rw [gpr, gpr, hregs, hset]

end Sys2Proof.Machine
end

