-- ==== Sys2Proof/Proofs/Events.lean ====
section
/-!
PROOFS. Proofs/Events.lean: reset (O4), the power modes and what ends them (O58), the tick timer (O57), and the
interrupts and the events of the environment between instructions (O9).
-/

namespace Sys2Proof.Machine

/-! ### The two kinds of step -/

/-- Without an event to come the processor has its turn. -/
theorem step_of_noInputs {s : State} (h : s.inputs = []) : step s = processorStep s := by
  show cycle s = _
  rw [cycle, h]

/-- An event of the environment is the step, up to the power mode it ends. -/
theorem step_of_event {s : State} {e : Input} {rest : List Input} (h : s.inputs = e :: rest) (he : e ≠ .cpu) :
    step s = .next (({ s with inputs := rest } : State).happen e).wake := by
  show cycle s = _
  unfold cycle
  rw [h]
  cases e with
  | cpu => exact absurd rfl he
  | _ => rfl

/-! ### Power modes -/

/-- Doze or sleep mode is on, and what ends it holds (60 R803). -/
def endsMode (s : State) : Prop :=
  s.cfg.power = true ∧ s.pmr.getLsbD 7 = false ∧ (s.pmr.getLsbD 5 = true ∨ s.pmr.getLsbD 4 = true) ∧
    (intRequest s = true ∨ (s.pmr.getLsbD 5 = false ∧ tickPending s = true))

theorem waiting_iff (s : State) : waiting s = true ↔
    s.cfg.power = true ∧ (s.pmr.getLsbD 7 = true ∨ s.pmr.getLsbD 5 = true ∨ s.pmr.getLsbD 4 = true) := by
  simp only [waiting, suspended, sleeping, dozing, Bool.or_eq_true, Bool.and_eq_true]
  tauto

/-- Where power management is present the mode bits alone decide what ends a mode. -/
theorem wakes_iff {s : State} (h : s.cfg.power = true) : wakes s = true ↔ s.pmr.getLsbD 7 = false ∧
    (intRequest s = true ∨ (s.pmr.getLsbD 5 = false ∧ tickPending s = true)) := by
  simp only [wakes, suspended, sleeping, h, Bool.true_and, Bool.and_eq_true, Bool.or_eq_true, Bool.not_eq_true']

theorem waiting_and_wakes_iff (s : State) : (waiting s && wakes s) = true ↔ endsMode s := by
  rw [Bool.and_eq_true, waiting_iff, endsMode]
  constructor
  · rintro ⟨⟨hpower, hmode⟩, hwakes⟩
    obtain ⟨hsuspend, hevent⟩ := (wakes_iff hpower).1 hwakes
    exact ⟨hpower, hsuspend, hmode.resolve_left (Bool.eq_false_iff.1 hsuspend), hevent⟩
  · rintro ⟨hpower, hsuspend, hmode, hevent⟩
    exact ⟨⟨hpower, .inr hmode⟩, (wakes_iff hpower).2 ⟨hsuspend, hevent⟩⟩

theorem wake_of_not_endsMode {s : State} (h : ¬endsMode s) : s.wake = s :=
  if_neg (mt (waiting_and_wakes_iff s).1 h)

/-- DME and SME are cleared where a mode ends. -/
theorem getLsbD_wake_pmr {s : State} (h : endsMode s) {n : Nat} (hn : n < 32) :
    s.wake.pmr.getLsbD n = (s.pmr.getLsbD n && decide (n ≠ 4) && decide (n ≠ 5)) := by
  have hmask : (0xFFFFFFCF#32).getLsbD n = (decide (n ≠ 4) && decide (n ≠ 5)) := by interval_cases n <;> rfl
  rw [State.wake, if_pos ((waiting_and_wakes_iff s).2 h), Bool.and_assoc, ← hmask]
  exact BitVec.getLsbD_and

/-- An interrupt request and a pending tick do not depend on the power mode. -/
theorem requests_wake (s : State) : intRequest s.wake = intRequest s ∧ tickPending s.wake = tickPending s := by
  rw [wake_shape]
  exact ⟨rfl, rfl⟩

/-- No event but reset touches the implementation or PMR. -/
theorem happen_cfg_pmr (s : State) {e : Input} (he : e ≠ .reset) :
    (s.happen e).cfg = s.cfg ∧ (s.happen e).pmr = s.pmr := by
  cases e with
  | reset => exact absurd rfl he
  | tick =>
    show s.tick.cfg = _ ∧ s.tick.pmr = _
    unfold State.tick
    split <;> exact ⟨rfl, rfl⟩
  | write pa v =>
    show (if _ then _ else _ : State).cfg = _ ∧ (if _ then _ else _ : State).pmr = _
    split <;> exact ⟨rfl, rfl⟩
  | cpu | irq | watch | loseReservation => exact ⟨rfl, rfl⟩

/-- A processor in a power mode waits for what ends it. -/
theorem step_of_waiting {s : State} (hinputs : s.inputs = []) (hstopped : s.stopped = false)
    (hwaiting : waiting s = true) : step s = .next s.wake := by
  rw [step_of_noInputs hinputs, processorStep, hstopped, hwaiting]
  rfl

/-- Settles O58: a mode ends, at the processor's turn or with an event, where `endsMode` holds. -/
theorem powerModes : Obligations.PowerModes := by
  refine ⟨fun s hinputs hstopped hpower => ⟨fun hsuspend => ?suspend, fun hsuspend hmode => ⟨fun hint htick => ?stay,
    fun hevent => ?ends⟩⟩, fun s e rest hinputs hcpu hreset => ?event⟩
  case suspend =>
    have hnot : ¬endsMode s := by rintro ⟨-, h, -⟩; exact absurd (hsuspend.symm.trans h) (by decide)
    rw [step_of_waiting hinputs hstopped ((waiting_iff s).2 ⟨hpower, .inl hsuspend⟩), wake_of_not_endsMode hnot]
  case stay =>
    have hnot : ¬endsMode s := by
      rintro ⟨-, -, -, hrequest | ⟨hawake, hpending⟩⟩
      · exact absurd (hint.symm.trans hrequest) (by decide)
      · exact htick.elim (Bool.eq_false_iff.1 hawake) (fun hnone => Bool.eq_false_iff.1 hnone hpending)
    rw [step_of_waiting hinputs hstopped ((waiting_iff s).2 ⟨hpower, .inr hmode⟩), wake_of_not_endsMode hnot]
  case ends =>
    exact ⟨s.wake, step_of_waiting hinputs hstopped ((waiting_iff s).2 ⟨hpower, .inr hmode⟩), wake_shape s,
      fun n hn => getLsbD_wake_pmr ⟨hpower, hsuspend, hmode, hevent⟩ hn⟩
  case event =>
    refine ⟨_, step_of_event hinputs hcpu, ?_⟩
    obtain ⟨hcfg, hpmr⟩ := happen_cfg_pmr { s with inputs := rest } hreset
    obtain ⟨hint, htick⟩ := requests_wake (({ s with inputs := rest } : State).happen e)
    intro ends
    have hends : ends ↔ endsMode (({ s with inputs := rest } : State).happen e) := by
      rw [endsMode, hcfg, hpmr, ← hint, ← htick]
    rw [hends]
    refine ⟨fun h n hn => ?_, fun h => ?_⟩
    · rw [getLsbD_wake_pmr h hn, hpmr]
    · rw [wake_of_not_endsMode h, hpmr]

/-! ### Reset -/

/-- The reset event is the reset: no power mode survives it. -/
theorem step_of_reset {s : State} {rest : List Input} (h : s.inputs = .reset :: rest) :
    step s = .next ({ s with inputs := rest } : State).warmReset := by
  have hnot : ¬endsMode ({ s with inputs := rest } : State).warmReset := by
    rintro ⟨-, -, hsleep | hdoze, -⟩
    · exact absurd (show (0#32).getLsbD 5 = true from hsleep) (by decide)
    · exact absurd (show (0#32).getLsbD 4 = true from hdoze) (by decide)
  rw [step_of_event h (by decide)]
  exact congrArg _ (wake_of_not_endsMode hnot)

/-- A property of every value written holds of what is read from a table built by writing. -/
theorem read_tabulate {w : Nat} (P : BitVec w → Prop) (hzero : P 0#w) (n : Nat) (f : Nat → BitVec w)
    (hf : ∀ k, P (f k)) (j : Nat) : P (Table.read (Table.tabulate n f) j) := by
  have hwrites (l : List Nat) (t : Table w) (ht : P (Table.read t j)) :
      P (Table.read (l.foldl (fun t k => Table.write t k (f k)) t) j) := by
    induction l generalizing t with
    | nil => exact ht
    | cons k rest ih =>
      refine ih _ ?_
      rw [Table.read_write]
      split
      · exact hf k
      · exact ht
  exact hwrites _ [] hzero

/-- A register whose reset clears its lowest bit. -/
theorem getLsbD_freeTable (draw file n : Nat) {mask : Word} (hmask : mask.getLsbD 0 = false) (j : Nat) :
    (Table.read (freeTable draw file n mask) j).getLsbD 0 = false :=
  read_tabulate (fun v => v.getLsbD 0 = false) rfl n _ (fun k => by rw [BitVec.getLsbD_and, hmask, Bool.and_false]) j

/-- No entry of an MMU is valid after power-on. -/
theorem reset_invalid (j : Nat) :
    (Table.read Mmu.reset.tlbMr j).getLsbD 0 = false ∧ (Table.read Mmu.reset.atbMr j).getLsbD 0 = false := by
  have hempty : (Table.read ([] : Table 64) j).getLsbD 0 = false := BitVec.getLsbD_zero
  exact ⟨hempty, hempty⟩

/-- Nor after a later reset. -/
theorem freeMmu_invalid (c : Config) (k : Access) (draw file j : Nat) :
    (Table.read (freeMmu c k draw file).tlbMr j).getLsbD 0 = false ∧
      (Table.read (freeMmu c k draw file).atbMr j).getLsbD 0 = false := by
  have htlb : (tlbMrMask c &&& ~~~3#64).getLsbD 0 = false := by
    rw [BitVec.getLsbD_and, show (~~~3#64).getLsbD 0 = false by decide, Bool.and_false]
  have hatb : (atbMrMask c &&& ~~~0x3F#64).getLsbD 0 = false := by
    rw [BitVec.getLsbD_and, show (~~~0x3F#64).getLsbD 0 = false by decide, Bool.and_false]
  unfold freeMmu
  split
  · exact reset_invalid j
  · dsimp only
    exact ⟨getLsbD_freeTable draw file 1024 htlb j, getLsbD_freeTable draw (file + 2) 4 hatb j⟩

/-- SR right after reset: supervisor mode and FO. -/
theorem sr_of_reset {s : State} (h : (∃ c : Config, s = State.resetOf c) ∨ ∃ t : State, s = t.warmReset) :
    s.sr = 0x00008001#32 := by
  rcases h with ⟨c, rfl⟩ | ⟨t, rfl⟩ <;> rfl

/-- The tick timer is stopped after a reset, and no tick is pending. -/
theorem ttmr_of_reset {s : State} (h : (∃ c : Config, s = State.resetOf c) ∨ ∃ t : State, s = t.warmReset) :
    s.ttmr.extractLsb' 30 2 = 0#2 ∧ s.ttmr.getLsbD 28 = false := by
  have hbits {n : Nat} (hn : 28 ≤ n) (h32 : n < 32) : s.ttmr.getLsbD n = false := by
    rcases h with ⟨c, rfl⟩ | ⟨t, rfl⟩
    · exact BitVec.getLsbD_zero
    · have hmask : (0x0FFFFFFF#32).getLsbD n = false := by interval_cases n <;> rfl
      show (Word.lo32 _ &&& 0x0FFFFFFF#32).getLsbD n = false
      rw [BitVec.getLsbD_and, hmask, Bool.and_false]
  refine ⟨BitVec.eq_of_getLsbD_eq fun i hi => ?_, hbits le_rfl (by decide)⟩
  rw [BitVec.getLsbD_extractLsb', hbits (by omega) (by omega), Bool.and_false, BitVec.getLsbD_zero]

/-- With SR as after reset no access is translated. -/
theorem translates_of_reset {s : State} (h : s.sr = 0x00008001#32) (k : Access) : translates s k = false := by
  have hoff : srBit s srDME = false ∧ srBit s srIME = false := by
    rw [srBit, srBit, h]
    exact ⟨rfl, rfl⟩
  obtain ⟨hdme, hime⟩ := hoff
  unfold translates
  cases k with
  | fetch => rw [hime, Bool.and_false]
  | load | store => rw [hdme, Bool.and_false]

/-- Settles O4: either reset sets these fields, the MMUs of a later one by `freeMmu`. -/
theorem resetIsWhatSoftwareReliesOn : Obligations.ResetIsWhatSoftwareReliesOn := by
  refine ⟨fun s rest => step_of_reset, fun s h => ?_⟩
  have hsr := sr_of_reset h
  have hbit (n : Nat) : srBit s n = (0x00008001#32).getLsbD n := by rw [srBit, hsr]
  obtain ⟨hmode, hpending⟩ := ttmr_of_reset h
  refine ⟨hbit 0, fun k ea => translate_off (translates_of_reset hsr k) ea, hbit 4, hbit 3, hbit 7, hbit 2, hbit 1, ?_,
    hmode, hpending, ?_, fun j => ?_, hbit 12, hbit 9, hbit 10, hbit 11, ?_⟩
  all_goals rcases h with ⟨c, rfl⟩ | ⟨t, rfl⟩
  case refine_1.inl | refine_1.inr | refine_2.inl | refine_2.inr => rfl
  case refine_3.inl =>
    obtain ⟨htlb, hatb⟩ := reset_invalid j
    exact ⟨htlb, htlb, hatb, hatb⟩
  case refine_3.inr =>
    obtain ⟨hdtlb, hdatb⟩ := freeMmu_invalid t.cfg .load t.draws 2 j
    obtain ⟨hitlb, hiatb⟩ := freeMmu_invalid t.cfg .fetch t.draws 6 j
    exact ⟨hdtlb, hitlb, hdatb, hiatb⟩
  case refine_4.inl | refine_4.inr => exact ⟨rfl, rfl, rfl, rfl⟩

/-! ### The tick timer -/

/-- The match compares the low 28 bits. -/
theorem tickMatch_eq (s : State) : tickMatch s = decide (s.ttcr.toNat % 2 ^ 28 = s.ttmr.toNat % 2 ^ 28) := by
  have hlow (v : BitVec 32) : (v.extractLsb' 0 28).toNat = v.toNat % 2 ^ 28 := by
    rw [BitVec.extractLsb'_toNat, Nat.shiftRight_zero]
  rw [tickMatch, Bool.eq_iff_iff, beq_iff_eq, decide_eq_true_iff, ← BitVec.toNat_inj, hlow, hlow]

/-- In sleep and suspend mode the timer stands still. -/
theorem tick_of_stopped {s : State} (hpower : s.cfg.power = true)
    (h : s.pmr.getLsbD 7 = true ∨ s.pmr.getLsbD 5 = true) : s.tick = s := by
  refine if_pos ?_
  rcases h with h | h <;> simp [suspended, sleeping, hpower, h]

/-- Else it counts. -/
theorem tick_of_running {s : State} (htimer : s.cfg.tickTimer = true)
    (h : s.cfg.power = false ∨ (s.pmr.getLsbD 7 = false ∧ s.pmr.getLsbD 5 = false)) :
    s.tick = { s with
      ttmr := if tickMatch s && s.ttmr.getLsbD 29 then s.ttmr ||| 0x10000000#32 else s.ttmr
      ttcr := ttcrAfterTick s } := by
  refine if_neg ?_
  rcases h with h | ⟨h7, h5⟩
  · simp [suspended, sleeping, htimer, h]
  · simp only [suspended, sleeping, htimer, h7, h5, Bool.and_false, Bool.or_false, Bool.not_true]
    exact Bool.false_ne_true

theorem tick_shape (s : State) : s.tick = { s with ttmr := s.tick.ttmr, ttcr := s.tick.ttcr } := by
  unfold State.tick
  split <;> rfl

/-- A match with the interrupt enabled sets IP, bit 28. -/
theorem getLsbD_or_pending (v : BitVec 32) (b : Bool) {n : Nat} (hn : n < 32) :
    (if b then v ||| 0x10000000#32 else v).getLsbD n = (v.getLsbD n || (decide (n = 28) && b)) := by
  have hbit : (0x10000000#32).getLsbD n = decide (n = 28) := by interval_cases n <;> rfl
  cases b
  · simp
  · simp [hbit]

/-- The counter in each of the four modes. -/
theorem toNat_ttcrAfterTick (s : State) : (ttcrAfterTick s).toNat = match s.ttmr.toNat / 2 ^ 30 with
    | 0 => s.ttcr.toNat
    | 1 => if tickMatch s then 0 else (s.ttcr.toNat + 1) % 2 ^ 32
    | 2 => if tickMatch s then s.ttcr.toNat else (s.ttcr.toNat + 1) % 2 ^ 32
    | _ => (s.ttcr.toNat + 1) % 2 ^ 32 := by
  have hlt := s.ttmr.isLt
  have h31 : s.ttmr.getLsbD 31 = decide (s.ttmr.toNat / 2 ^ 31 % 2 = 1) := Nat.testBit_eq_decide_div_mod_eq
  have h30 : s.ttmr.getLsbD 30 = decide (s.ttmr.toNat / 2 ^ 30 % 2 = 1) := Nat.testBit_eq_decide_div_mod_eq
  have hnext : (s.ttcr + 1#32).toNat = (s.ttcr.toNat + 1) % 2 ^ 32 := by rw [BitVec.toNat_add]; rfl
  have hmode : s.ttmr.toNat / 2 ^ 30 < 4 := by omega
  unfold ttcrAfterTick
  rw [h31, h30]
  obtain h | h | h | h : s.ttmr.toNat / 2 ^ 30 = 0 ∨ s.ttmr.toNat / 2 ^ 30 = 1 ∨ s.ttmr.toNat / 2 ^ 30 = 2 ∨
      s.ttmr.toNat / 2 ^ 30 = 3 := by omega
  · rw [h, decide_eq_false (show ¬s.ttmr.toNat / 2 ^ 31 % 2 = 1 by omega)]
    rfl
  · rw [h, decide_eq_false (show ¬s.ttmr.toNat / 2 ^ 31 % 2 = 1 by omega)]
    show (if tickMatch s = true then 0#32 else s.ttcr + 1#32).toNat = if _ then _ else _
    rw [apply_ite BitVec.toNat, hnext]
    rfl
  · rw [h, decide_eq_true (show s.ttmr.toNat / 2 ^ 31 % 2 = 1 by omega)]
    show (if tickMatch s = true then s.ttcr else s.ttcr + 1#32).toNat = if _ then _ else _
    rw [apply_ite BitVec.toNat, hnext]
  · rw [h, decide_eq_true (show s.ttmr.toNat / 2 ^ 31 % 2 = 1 by omega)]
    exact hnext

/-- Settles O57: the event is `State.tick`, up to the power mode it ends. -/
theorem tickTimer : Obligations.TickTimer := by
  intro s rest hinputs htimer hit
  have hmatch : tickMatch s = hit := tickMatch_eq s
  let s' : State := { s with inputs := rest }
  have hwake : s'.tick.wake.ttmr = s'.tick.ttmr ∧ s'.tick.wake.ttcr = s'.tick.ttcr := by simp
  obtain ⟨httmr, httcr⟩ := hwake
  refine ⟨s'.tick.wake, step_of_event hinputs (by decide), ?_, fun ⟨hpower, hmode⟩ => ?_, fun hrunning => ?_⟩
  · rw [wake_shape, tick_shape]
  · rw [httmr, httcr, tick_of_stopped (s := s') hpower hmode]
    exact ⟨rfl, rfl⟩
  · rw [httmr, httcr, tick_of_running (s := s') htimer hrunning]
    refine ⟨fun n hn => ?_, ?_⟩
    · rw [← hmatch, Bool.and_assoc]
      exact getLsbD_or_pending s.ttmr _ hn
    · rw [← hmatch]
      exact toNat_ttcrAfterTick s

/-! ### Interrupts -/

/-- An interrupt in place of an instruction is taken, and the counters see it. -/
theorem takesExceptionCounted_observeEntry {s u : State} {e : Exc} (ea : Option Word) (h : canEnter u e) :
    takesExceptionCounted (observeEntry s (enter e ea u)) u e ea := by
  obtain ⟨t, ht, hspec⟩ := enter_spec ea h
  have hcfg : t.cfg = u.cfg := by
    obtain ⟨-, -, -, -, -, -, -, -, -, -, heq⟩ := hspec
    rw [heq]
  refine ⟨t, t.count (!srBit s srSM) noEvents, ⟨t, rfl, hspec⟩, by rw [ht, observeEntry], State.count_eq t _ _,
    fun hn => State.count_none (by rw [hcfg]; exact hn) _ _⟩

section
variable {s : State} (hinputs : s.inputs = []) (hstopped : s.stopped = false) (hwaiting : waiting s = false)
include hinputs hstopped hwaiting

/-- A pending and enabled tick interrupt is taken. -/
theorem step_of_tick (h : (tickPending s && srBit s srTEE) = true) (hcan : canEnter s .tick) :
    takesExceptionCounted (step s) s.fresh .tick none := by
  have hstep : step s = observeEntry s.fresh (enter .tick none s.fresh) := by
    rw [step_of_noInputs hinputs, processorStep, hstopped, hwaiting]
    exact if_pos h
  rw [hstep]
  exact takesExceptionCounted_observeEntry none hcan

/-- Without one, a requested and enabled external interrupt is taken. -/
theorem step_of_external (hno : (tickPending s && srBit s srTEE) = false) (hrequest : intRequest s = true)
    (henabled : srBit s srIEE = true) (hcan : canEnter s .external) :
    takesExceptionCounted (step s) s.fresh .external none := by
  have hstep : step s = observeEntry s.fresh (enter .external none s.fresh) := by
    rw [step_of_noInputs hinputs, processorStep, hstopped, hwaiting]
    refine (if_neg (Bool.eq_false_iff.1 hno)).trans (if_pos ?_)
    exact (congrArg₂ _ hrequest henabled).trans (Bool.and_self true)
  rw [hstep]
  exact takesExceptionCounted_observeEntry none hcan

end

/-- No tick interrupt is taken where one of the three conditions fails. -/
theorem tick_not_taken {s : State}
    (h : s.cfg.tickTimer = false ∨ s.ttmr.getLsbD 28 = false ∨ srBit s srTEE = false) :
    (tickPending s && srBit s srTEE) = false := by
  rcases h with h | h | h <;> simp only [tickPending, h, Bool.false_and, Bool.and_false]

/-- With a PIC, an unmasked input that PICSR shows is a request. -/
theorem intRequest_of_input {s : State} (hpic : s.cfg.pic = true) {n : Nat} (hn : n < 32)
    (hmask : s.pic.mask.getLsbD n = true ∨ (s.cfg.picFixedUnmasked = true ∧ n < 2))
    (hpending : (if s.cfg.picEdge.getLsbD n then s.pic.latch.getLsbD n else s.pic.irq.getLsbD n) = true) :
    intRequest s = true := by
  have hpicsr : (picsr s).getLsbD n = true := by
    simp only [picsr, BitVec.getLsbD_or, BitVec.getLsbD_and, BitVec.getLsbD_not, hn, decide_true, Bool.true_and]
    cases hedge : s.cfg.picEdge.getLsbD n <;> simpa [hedge] using hpending
  have hpicmr : (picmr s).getLsbD n = true := by
    unfold picmr
    rcases hmask with hmask | ⟨hfixed, hlow⟩
    · split <;> simp [hmask]
    · rw [if_pos hfixed, BitVec.getLsbD_or, show (3#32).getLsbD n = true by interval_cases n <;> rfl, Bool.or_true]
  rw [intRequest, if_pos hpic, decide_eq_true_iff]
  intro hzero
  have hbit := congrArg (BitVec.getLsbD · n) hzero
  simp [hpicsr, hpicmr] at hbit

/-! ### What an event changes -/

/-- Another master's byte reaches memory where memory answers, and takes the reservation of its granule. -/
theorem happen_write (s : State) (pa : Nat) (v : Byte) :
    (∀ q : Nat, readByte (s.happen (.write pa v)) q = if q = pa ∧ mapped s.cfg pa = true then v else readByte s q) ∧
    (s.happen (.write pa v)).resv =
      (if mapped s.cfg pa = true ∧ (∃ p : Nat, s.resv = some p ∧ sameGranule s.cfg p pa = true) then none
      else s.resv) ∧
    s.happen (.write pa v) = { s with
      mem := (s.happen (.write pa v)).mem, resv := (s.happen (.write pa v)).resv,
      stale := (s.happen (.write pa v)).stale, unwritten := (s.happen (.write pa v)).unwritten } := by
  have hhappen : s.happen (.write pa v) = if mapped s.cfg pa then s.writeByte pa v else s := rfl
  rw [hhappen]
  by_cases hm : mapped s.cfg pa = true
  · simp only [hm, if_true, and_true, true_and]
    refine ⟨fun q => ?_, ?_, rfl⟩
    · rw [readByte, State.writeByte_mem, Table.read_write]
      rfl
    · rw [State.writeByte_resv, resvAfterWrite_eq]
      exact if_congr (Option.any_eq_true ..) rfl rfl
  · simp [hm]

/-- Settles O9: the turn of a processor that may be interrupted, and each event, up to the power mode it ends. -/
theorem interruptsAreTakenBetweenInstructions : Obligations.InterruptsAreTakenBetweenInstructions := by
  refine ⟨fun s hinputs hstopped hwaiting => ⟨fun htimer hip htee hcan => ?tick, fun hno hiee hcan =>
    ⟨fun hpic hinput => ?withPic, fun hpic hline => ?withoutPic⟩⟩, fun s rest => ⟨fun lines h => ?irq,
    fun pa v h => ?write, fun h => ?loseReservation, fun level h => ?watch⟩⟩
  case tick => exact step_of_tick hinputs hstopped hwaiting (by simp [tickPending, htimer, hip, htee]) hcan
  case withPic =>
    obtain ⟨n, hn, hmask, hpending⟩ := hinput
    exact step_of_external hinputs hstopped hwaiting (tick_not_taken hno) (intRequest_of_input hpic hn hmask hpending)
      hiee hcan
  case withoutPic =>
    have hrequest : intRequest s = true := by rw [intRequest, hpic]; exact hline
    exact step_of_external hinputs hstopped hwaiting (tick_not_taken hno) hrequest hiee hcan
  case irq =>
    refine ⟨_, step_of_event h nofun, ?_, ?_, fun n hn => ?_, ?_⟩
    all_goals rw [wake_shape]
    · rfl
    · rfl
    · show (s.pic.latch ||| (lines &&& ~~~s.pic.irq &&& s.cfg.picEdge)).getLsbD n = _
      simp only [BitVec.getLsbD_or, BitVec.getLsbD_and, BitVec.getLsbD_not, hn, decide_true, Bool.true_and]
      congr 1
      rw [Bool.and_comm, Bool.and_assoc]
    · rfl
  case write =>
    obtain ⟨hread, hresv, hshape⟩ := happen_write { s with inputs := rest } pa v
    refine ⟨_, step_of_event h nofun, fun q => ?_, ?_, ?_⟩
    · rw [readByte, State.wake_mem]
      exact hread q
    · rw [State.wake_resv]
      exact hresv
    · rw [wake_shape, hshape]
  case loseReservation => exact ⟨_, step_of_event h nofun, by rw [wake_shape]; rfl⟩
  case watch => exact ⟨_, step_of_event h nofun, by rw [wake_shape]; rfl⟩

end Sys2Proof.Machine
end

