-- ==== Sys2Proof/Proofs/Counters.lean ====
section
/-!
PROOFS. Proofs/Counters.lean: what the performance counters add after a step, without a debug unit (O60).
-/

namespace Sys2Proof.Machine

/-! ### Counting -/

/-- Writing a table at the numbers below a bound puts the values there. -/
theorem read_foldl_range {w : Nat} (f : Nat → BitVec w) (t : Table w) (n k : Nat) :
    Table.read ((List.range n).foldl (fun t k => Table.write t k (f k)) t) k =
      if k < n then f k else Table.read t k := by
  induction n with
  | zero => rfl
  | succ n ih =>
    rw [List.range_succ, List.foldl_append, List.foldl_cons, List.foldl_nil, Table.read_write, ih]
    by_cases hk : k = n
    · rw [if_pos hk, if_pos (by omega), hk]
    · rw [if_neg hk, if_congr (show k < n ↔ k < n + 1 by omega) rfl rfl]

/-- A counter whose PCMR selects nothing of the caches or the pipeline adds the events it selects in the mode it is
enabled for. -/
theorem read_count_pccr {s : State} {n k : Nat} (hcounters : s.cfg.counters = some n) (hk : k < n) (user : Bool)
    (e : PerfEvents) (hselect : Table.read s.pcmr k &&& 0x4F80#32 = 0#32) :
    Table.read (s.count user e).pccr k = Table.read s.pccr k + BitVec.ofNat 32
      (if (Table.read s.pcmr k).getLsbD (if user then 3 else 2) then selectedEvents (Table.read s.pcmr k) e else 0) := by
  unfold State.count
  rw [hcounters]
  by_cases hempty : s.pcmr.isEmpty = true
  · have hread : Table.read s.pcmr k = 0#32 := by rw [List.isEmpty_iff.1 hempty, Table.read_nil]
    simp only [hempty, if_true, hread, BitVec.getLsbD_zero, Bool.false_eq_true, if_false, BitVec.add_zero]
  · have hpipeline : selectsPipeline (Table.read s.pcmr k) = false := decide_eq_false (not_not.2 hselect)
    simp only [hempty, Bool.false_eq_true, if_false, read_foldl_range, if_pos hk, pccrAfter, hpipeline,
      BitVec.add_zero]
    cases (Table.read s.pcmr k).getLsbD (if user then 3 else 2)
    · exact (BitVec.add_zero _).symm
    · rfl

/-! ### The events of a step -/

/-- Where no watchpoint fires a PCMR selects of the other events. -/
theorem selectedEvents_of_noWatch (m : BitVec 32) {e : PerfEvents} (h : e.watch = 0#10) :
    selectedEvents m e = (if m.getLsbD 13 then e.itlbMisses else 0) + (if m.getLsbD 12 then e.dtlbMisses else 0) +
      (m.getLsbD 6 && e.fetch).toNat + (m.getLsbD 5 && e.store).toNat + (m.getLsbD 4 && e.load).toNat := by
  have hnone : popCount (m.extractLsb' 15 10 &&& 0#10) = 0 := by rw [BitVec.and_zero]; rfl
  rw [selectedEvents, h, hnone, Nat.add_zero]

theorem firedWatchpoints_none {t : State} (h : t.cfg.debugUnit = none) (i : Instr) (s : State) :
    firedWatchpoints i s t = 0#10 := by
  rw [firedWatchpoints, h]

/-- Without a debug unit the counters alone see an instruction, whether it completed or raised. -/
theorem observe_of_noDebugUnit {s t : State} (hdebug : t.cfg.debugUnit = none) (hcfg : s.cfg = t.cfg) (i : Instr) :
    observe i s (.next t) = .next (t.count (!srBit s srSM) (instructionEvents i s t 0#10)) := by
  have hcompleted {u : State} (hu : u.cfg.debugUnit = none) :
      observeCompleted i s u t = .next (t.count (!srBit s srSM) (instructionEvents i s t 0#10)) := by
    simp only [observeCompleted, firedWatchpoints_none hu, debugTraps_none hu, State.watch_none hdebug,
      Bool.false_eq_true, if_false]
  unfold observe
  simp only
  split
  · exact hcompleted hdebug
  · exact hcompleted (u := floatCompleted s t) (show s.cfg.debugUnit = none by rw [hcfg]; exact hdebug)
  · rfl

/-- What O60 says of a result: each counter adds what `sum` gives for its PCMR, in the mode it is enabled for. -/
def adds (s t : State) (n : Nat) (r : Result) (sum : BitVec 32 → Nat) : Prop :=
  ∃ u : State, r = .next u ∧ u = { t with pccr := u.pccr, draws := u.draws } ∧
    ∀ k : Nat, k < n → Table.read t.pcmr k &&& 0x4F80#32 = 0#32 → Table.read u.pccr k = Table.read t.pccr k +
      BitVec.ofNat 32
        (if (Table.read t.pcmr k).getLsbD (if srBit s srSM then 2 else 3) then sum (Table.read t.pcmr k) else 0)

/-- A result that is a count of events adds what the events come to. -/
theorem adds_of_count {s t : State} {n : Nat} (hcounters : t.cfg.counters = some n) {r : Result} {e : PerfEvents}
    {sum : BitVec 32 → Nat} (hr : r = .next (t.count (!srBit s srSM) e)) (hsum : ∀ m, selectedEvents m e = sum m) :
    adds s t n r sum := by
  refine ⟨_, hr, count_shape _ _ _, fun k hk hselect => ?_⟩
  rw [read_count_pccr hcounters hk _ e hselect, hsum]
  cases srBit s srSM <;> rfl

/-- Settles O60: each of the three is a count, of the events of an instruction, of a fetch, or of none. -/
theorem performanceCounters : Obligations.PerformanceCounters := by
  intro s t i n hdebug hcounters hcfg adds' one misses
  have hadds : adds' = adds s t n := rfl
  rw [hadds]
  refine ⟨?instruction, ?fetch, ?entry⟩
  case instruction =>
    refine adds_of_count hcounters (observe_of_noDebugUnit hdebug hcfg i) fun m => ?_
    rw [selectedEvents_of_noWatch m rfl]
    simp only [one, misses, instructionEvents]
    omega
  case fetch =>
    refine adds_of_count (e := fetchEvents t) hcounters rfl fun m => ?_
    rw [selectedEvents_of_noWatch m rfl]
    simp only [one, misses, fetchEvents, noEvents, Bool.and_false, Bool.toNat_false, ite_self, Nat.add_zero]
    omega
  case entry =>
    refine adds_of_count (e := noEvents) hcounters rfl fun m => ?_
    rw [selectedEvents_of_noWatch m rfl]
    simp only [noEvents, Bool.and_false, Bool.toNat_false, ite_self, Nat.add_zero]

end Sys2Proof.Machine
end

