-- ==== Sys2Proof/Proofs/DebugUnit.lean ====
section
/-!
PROOFS. Proofs/DebugUnit.lean: the matches, watchpoints, counters and traps of the debug unit, and the stop by DSR
(O59).
-/

namespace Sys2Proof.Machine

/-! ### Matches (60 R807) -/

/-- The quantity DCR[CT] selects, loads and stores apart. -/
def matchQuantity (s : State) (x : Option DataAccess) (ct : Nat) : Option (BitVec 32) :=
  let loaded (f : DataAccess → Word) : Option (BitVec 32) :=
    (x.filter fun y => !y.store).map fun y => (f y).setWidth 32
  let stored (f : DataAccess → Word) : Option (BitVec 32) := (x.filter (·.store)).map fun y => (f y).setWidth 32
  match ct with
  | 1 => some (s.pc.setWidth 32)
  | 2 => loaded (·.ea)
  | 3 => stored (·.ea)
  | 4 => loaded (accessDatum s)
  | 5 => stored (·.datum)
  | 6 => x.map fun y => y.ea.setWidth 32
  | 7 => x.map fun y => (if y.store then y.datum else accessDatum s y).setWidth 32
  | _ => none

/-- The condition DCR[CC] selects, between integers. -/
def matchRelation (cc : Nat) (p q : Int) : Prop :=
  match cc with
  | 1 => p = q
  | 2 => p < q
  | 3 => p ≤ q
  | 4 => q < p
  | 5 => q ≤ p
  | 6 => p ≠ q
  | _ => False

/-- A quantity as the integer DCR[SC] asks for. -/
def matchNumber (signed : Bool) (v : BitVec 32) : Int := if signed then v.toInt else v.toNat

/-- The datum of a store is what it stores. -/
theorem accessDatum_store {y : DataAccess} (h : y.store = true) (s : State) : accessDatum s y = y.datum := by
  rw [accessDatum, if_pos h]

theorem filter_all (x : Option DataAccess) : x.filter (fun _ => true) = x := by
  cases x <;> rfl

/-- What the model compares is the quantity that DCR[CT] selects. -/
theorem compared_eq (s : State) (x : Option DataAccess) (ct : Nat) : compared s x ct = matchQuantity s x ct := by
  have hstored : (x.filter (·.store)).map (fun y => Word.lo32 (accessDatum s y)) =
      (x.filter (·.store)).map fun y => y.datum.setWidth 32 := by
    refine Option.map_congr fun y hy => ?_
    rw [accessDatum_store (Option.mem_filter_iff.1 hy).2]
    rfl
  have hany : (x.filter fun _ => true).map (fun y => Word.lo32 (accessDatum s y)) =
      x.map fun y => (if y.store then y.datum else accessDatum s y).setWidth 32 := by
    rw [filter_all]
    refine Option.map_congr fun y _ => ?_
    split
    · next h => rw [accessDatum_store h]; rfl
    · rfl
  match ct with
  | 0 | 1 | 2 | 3 | 4 | _ + 8 => rfl
  | 5 => exact hstored
  | 6 => exact congrArg (Option.map _) (filter_all x)
  | 7 => exact hany

/-- The less-than of the comparator is the one of the integers. -/
theorem matchNumber_lt (signed : Bool) (q v : BitVec 32) :
    (if signed then q.slt v else q.ult v) = decide (matchNumber signed q < matchNumber signed v) := by
  cases signed
  · simp [matchNumber, BitVec.ult]
  · simp [matchNumber, BitVec.slt]

theorem matchNumber_inj (signed : Bool) (q v : BitVec 32) : q = v ↔ matchNumber signed q = matchNumber signed v := by
  cases signed
  · simp [matchNumber, BitVec.toNat_inj]
  · simp [matchNumber, BitVec.toInt_inj]

theorem compareHolds_iff (signed : Bool) (cc : Nat) (q v : BitVec 32) :
    compareHolds signed cc q v = true ↔ matchRelation cc (matchNumber signed q) (matchNumber signed v) := by
  have heq : (q == v) = decide (matchNumber signed q = matchNumber signed v) := by
    rw [Bool.eq_iff_iff, beq_iff_eq, decide_eq_true_iff, matchNumber_inj signed]
  unfold compareHolds matchRelation
  simp only [matchNumber_lt, bne, heq]
  split <;> simp <;> omega

/-- A field of a 32-bit register as a number. -/
theorem toNat_extractLsb' (v : BitVec 32) (i w : Nat) : (v.extractLsb' i w).toNat = v.toNat / 2 ^ i % 2 ^ w := by
  rw [BitVec.extractLsb'_toNat, Nat.shiftRight_eq_div_pow]

/-- A match compares the quantity of its pair. -/
theorem matchHolds_iff (d : Debug) (s : State) (x : Option DataAccess) (n : Nat) :
    let c := Table.read d.dcr n
    matchHolds d s x n = true ↔ ∃ q : BitVec 32, matchQuantity s x (c.toNat / 32 % 8) = some q ∧
      matchRelation (c.toNat / 2 % 8) (matchNumber (c.getLsbD 4) q)
        (matchNumber (c.getLsbD 4) (Table.read d.dvr n)) := by
  intro c
  have hct : (c.extractLsb' 5 3).toNat = c.toNat / 32 % 8 := toNat_extractLsb' c 5 3
  have hcc : (c.extractLsb' 1 3).toNat = c.toNat / 2 % 8 := toNat_extractLsb' c 1 3
  show (match compared s x (c.extractLsb' 5 3).toNat with
    | some q => compareHolds (c.getLsbD 4) (c.extractLsb' 1 3).toNat q (Table.read d.dvr n)
    | none => false) = true ↔ _
  rw [hct, hcc, compared_eq]
  cases matchQuantity s x (c.toNat / 32 % 8) with
  | none => simp
  | some q => simp [compareHolds_iff]

/-! ### Watchpoints (60 R808) -/

theorem length_watchpointsFrom (c : Config) (d : Debug) (own : Nat → Bool) (k n : Nat) (before : Bool) :
    (watchpointsFrom c d own k n before).length = k := by
  induction k generalizing n before with
  | zero => rfl
  | succ k ih => exact congrArg (· + 1) (ih _ _)

/-- Each of the watchpoints from `n` on is chained to the one before it. -/
theorem getD_watchpointsFrom (c : Config) (d : Debug) (own : Nat → Bool) {k j : Nat} (hj : j < k) (n : Nat)
    (before : Bool) :
    (watchpointsFrom c d own k n before).getD j false =
      chain c d (n + j) (own (n + j)) (if (n + j) % 4 = 0 then d.extWatch
        else if j = 0 then before else (watchpointsFrom c d own k n before).getD (j - 1) false) := by
  induction k generalizing j n before with
  | zero => omega
  | succ k ih =>
    cases j with
    | zero => rfl
    | succ j =>
      rw [watchpointsFrom, List.getD_cons_succ, ih (by omega)]
      rw [show n + 1 + j = n + (j + 1) by omega, if_neg (Nat.succ_ne_zero j), Nat.add_sub_cancel]
      cases j <;> rfl

/-- Setting the bits that a list of flags names. -/
theorem getLsbD_foldl_zipIdx (l : List Bool) (i : Nat) (v : BitVec 10) {n : Nat} (hn : n < 10) :
    ((l.zipIdx i).foldl (fun v x => if x.1 then v ||| (1#10 <<< x.2) else v) v).getLsbD n =
      (v.getLsbD n || (decide (i ≤ n) && l.getD (n - i) false)) := by
  induction l generalizing i v with
  | nil => simp
  | cons b rest ih =>
    have hbit : (if b then v ||| (1#10 <<< i) else v).getLsbD n = (v.getLsbD n || (decide (n = i) && b)) := by
      have hone : (1#10 <<< i).getLsbD n = decide (n = i) := by
        rw [BitVec.getLsbD_shiftLeft, BitVec.getLsbD_one, decide_eq_true hn, Bool.true_and, Bool.eq_iff_iff]
        simp
        omega
      cases b
      · simp
      · simp [hone]
    rw [List.zipIdx_cons, List.foldl_cons, ih, hbit, Bool.or_assoc]
    congr 1
    rcases Nat.lt_trichotomy n i with h | h | h
    · simp [show ¬i ≤ n by omega, show ¬i + 1 ≤ n by omega, show n ≠ i by omega]
    · subst h
      simp
    · obtain ⟨k, rfl⟩ := Nat.exists_eq_add_of_lt h
      simp [show i + k + 1 - i = k + 1 by omega, show i + k + 1 - (i + 1) = k by omega, show i ≤ i + k + 1 by omega,
        show i + k + 1 ≠ i by omega]

section
variable (c : Config) (g : DebugConfig) (d : Debug) (own : Nat → Bool)

/-- The first eight watchpoints, of the pairs that exist. -/
def firstWatchpoints : List Bool := watchpointsFrom c d (fun n => decide (n < g.pairs) && own n) 8 0 false

theorem length_firstWatchpoints : (firstWatchpoints c g d own).length = 8 := length_watchpointsFrom ..

/-- The bits of the ten watchpoints are the first eight and the two of the counters. -/
theorem getLsbD_watchpoints {n : Nat} (hn : n < 10) : (watchpoints c g d own).getLsbD n =
    (firstWatchpoints c g d own ++
      [chain c d 8 (g.counters && counterMatch d.dwcr0) ((firstWatchpoints c g d own).getD 3 false),
        chain c d 9 (g.counters && counterMatch d.dwcr1) ((firstWatchpoints c g d own).getD 7 false)]).getD n
      false := by
  refine (getLsbD_foldl_zipIdx _ 0 0#10 hn).trans ?_
  rw [BitVec.getLsbD_zero, Bool.false_or, decide_eq_true (Nat.zero_le n), Bool.true_and, Nat.sub_zero]
  rfl

theorem getLsbD_watchpoints_first {n : Nat} (hn : n < 8) :
    (watchpoints c g d own).getLsbD n = (firstWatchpoints c g d own).getD n false := by
  rw [getLsbD_watchpoints c g d own (by omega), List.getD_append _ _ _ _ (by rw [length_firstWatchpoints]; exact hn)]

/-- The first eight are chained to the one before; 0 and 4 to the external one. -/
theorem getLsbD_watchpoints_chain {n : Nat} (hn : n < 8) : (watchpoints c g d own).getLsbD n =
    chain c d n (decide (n < g.pairs) && own n)
      (if n % 4 = 0 then d.extWatch else (watchpoints c g d own).getLsbD (n - 1)) := by
  rw [getLsbD_watchpoints_first c g d own hn, firstWatchpoints, getD_watchpointsFrom c d _ hn, Nat.zero_add]
  by_cases h4 : n % 4 = 0
  · rw [if_pos h4, if_pos h4]
  · rw [if_neg h4, if_neg h4, if_neg (show n ≠ 0 by omega), getLsbD_watchpoints_first c g d own (by omega),
      firstWatchpoints]

/-- The last two are the matches of the counters, chained to watchpoints 3 and 7. -/
theorem getLsbD_watchpoints_counters :
    (watchpoints c g d own).getLsbD 8 =
        chain c d 8 (g.counters && counterMatch d.dwcr0) ((watchpoints c g d own).getLsbD 3) ∧
      (watchpoints c g d own).getLsbD 9 =
        chain c d 9 (g.counters && counterMatch d.dwcr1) ((watchpoints c g d own).getLsbD 7) := by
  have hlength := length_firstWatchpoints c g d own
  rw [getLsbD_watchpoints_first c g d own (show 3 < 8 by decide),
    getLsbD_watchpoints_first c g d own (show 7 < 8 by decide)]
  constructor
  · rw [getLsbD_watchpoints c g d own (by decide), List.getD_append_right _ _ _ _ (by omega), hlength]
    rfl
  · rw [getLsbD_watchpoints c g d own (by decide), List.getD_append_right _ _ _ _ (by omega), hlength]
    rfl

end

/-- The field of DMR1 that chains watchpoint `n`. -/
theorem chain_eq (c : Config) (d : Debug) (n : Nat) (own before : Bool) :
    chain c d n own before = match d.dmr1.toNat / 4 ^ n % 4 with
      | 0 => own
      | 1 => own && before
      | 2 => if c.cw10Or then own || before else own && before
      | _ => false := by
  have hfield : (d.dmr1.extractLsb' (2 * n) 2).toNat = d.dmr1.toNat / 4 ^ n % 4 := by
    rw [toNat_extractLsb', pow_mul]
    rfl
  rw [chain, hfield] <;> rfl

/-- A counter matches where its two halves are equal (60 R810). -/
theorem counterMatch_eq (v : BitVec 32) : counterMatch v = decide (v.toNat % 2 ^ 16 = v.toNat / 2 ^ 16) := by
  have hv := v.isLt
  rw [counterMatch, Bool.eq_iff_iff, beq_iff_eq, decide_eq_true_iff, ← BitVec.toNat_inj, toNat_extractLsb',
    toNat_extractLsb']
  omega

/-! ### What watchpoints do -/

/-- A counter after more watchpoints: COUNT modulo 2^16 (60 R810). -/
theorem toNat_dwcrAfter (v : BitVec 32) (n : Nat) :
    (dwcrAfter v n).toNat = v.toNat / 2 ^ 16 * 2 ^ 16 + (v.toNat % 2 ^ 16 + n) % 2 ^ 16 := by
  have hv := v.isLt
  have hlow : (v.extractLsb' 0 16 + BitVec.ofNat 16 n).toNat = (v.toNat % 2 ^ 16 + n) % 2 ^ 16 := by
    rw [BitVec.toNat_add, toNat_extractLsb', BitVec.toNat_ofNat]
    omega
  have hhigh : (v.extractLsb' 16 16).toNat = v.toNat / 2 ^ 16 := by
    rw [toNat_extractLsb']
    omega
  rw [dwcrAfter, BitVec.toNat_append, hlow, hhigh, ← Nat.shiftLeft_add_eq_or_of_lt (by omega), Nat.shiftLeft_eq]

/-- A counter after an instruction: where it is enabled it counts the watchpoints that DMR2[AWTC] gives it. -/
def countedAfter (g : DebugConfig) (d : Debug) (w : BitVec 10) (c : BitVec 32) (k : Nat) : Nat :=
  c.toNat / 2 ^ 16 * 2 ^ 16 + (c.toNat % 2 ^ 16 +
    if g.counters = true ∧ d.dmr2.getLsbD k = true then
      ((List.range 10).filter fun n => w.getLsbD n && (d.dmr2.getLsbD (2 + n) == decide (k = 1))).length
    else 0) % 2 ^ 16

theorem getLsbD_assignMask (d : Debug) {n : Nat} (hn : n < 10) : (assignMask d).getLsbD n = d.dmr2.getLsbD (2 + n) := by
  rw [assignMask, BitVec.getLsbD_extractLsb', decide_eq_true hn, Bool.true_and]

theorem getLsbD_breakpointMask (d : Debug) {n : Nat} (hn : n < 10) :
    (breakpointMask d).getLsbD n = d.dmr2.getLsbD (12 + n) := by
  rw [breakpointMask, BitVec.getLsbD_extractLsb', decide_eq_true hn, Bool.true_and]

/-- Counting bits is counting the numbers of the bits. -/
theorem popCount_congr {v : BitVec 10} {f : Nat → Bool} (h : ∀ n, n < 10 → v.getLsbD n = f n) :
    popCount v = ((List.range 10).filter f).length := by
  rw [popCount, List.filter_congr fun n hn => h n (List.mem_range.1 hn)]

/-- A counter after an instruction, enabled or not. -/
theorem toNat_ite_dwcrAfter (g : DebugConfig) (d : Debug) (w : BitVec 10) (c : BitVec 32) (k : Nat) {v : BitVec 10}
    (hv : ∀ n, n < 10 → v.getLsbD n = (w.getLsbD n && (d.dmr2.getLsbD (2 + n) == decide (k = 1)))) :
    (if g.counters && d.dmr2.getLsbD k then dwcrAfter c (popCount v) else c).toNat = countedAfter g d w c k := by
  unfold countedAfter
  by_cases h : g.counters = true ∧ d.dmr2.getLsbD k = true
  · rw [if_pos h, if_pos (Bool.and_eq_true_iff.2 h), toNat_dwcrAfter, popCount_congr hv]
  · rw [if_neg h, if_neg (mt Bool.and_eq_true_iff.1 h)]
    omega

section
variable (d : Debug) (g : DebugConfig) (w : BitVec 10)

/-- WBS notes the watchpoints that cause a breakpoint (60 R809). -/
theorem getLsbD_after_dmr2 {n : Nat} (hn : n < 32) : (d.after g w).dmr2.getLsbD n =
    (d.dmr2.getLsbD n || (decide (22 ≤ n) && w.getLsbD (n - 22) && d.dmr2.getLsbD (n - 10))) := by
  show (d.dmr2 ||| ((w &&& breakpointMask d) ++ 0#22)).getLsbD n = _
  rw [BitVec.getLsbD_or, BitVec.getLsbD_append]
  congr 1
  by_cases h : n < 22
  · rw [if_pos h, decide_eq_false (Nat.not_le.2 h), BitVec.getLsbD_zero]
    rfl
  · rw [if_neg h, BitVec.getLsbD_and, getLsbD_breakpointMask d (by omega), decide_eq_true (Nat.not_lt.1 h),
      Bool.true_and, show 12 + (n - 22) = n - 10 by omega]

theorem toNat_after_dwcr :
    (d.after g w).dwcr0.toNat = countedAfter g d w d.dwcr0 0 ∧
      (d.after g w).dwcr1.toNat = countedAfter g d w d.dwcr1 1 := by
  constructor
  · refine toNat_ite_dwcrAfter g d w d.dwcr0 0 fun n hn => ?_
    rw [BitVec.getLsbD_and, BitVec.getLsbD_not, getLsbD_assignMask d hn, decide_eq_true hn, Bool.true_and]
    cases d.dmr2.getLsbD (2 + n) <;> rfl
  · refine toNat_ite_dwcrAfter g d w d.dwcr1 1 fun n hn => ?_
    rw [BitVec.getLsbD_and, getLsbD_assignMask d hn]
    cases d.dmr2.getLsbD (2 + n) <;> rfl

end

/-- What the debug unit and the counters leave of a state in which an instruction has completed. -/
def watchedAfter (g : DebugConfig) (w : BitVec 10) (t u : State) : Prop :=
  let d := t.debugUnit
  (∀ n : Nat, n < 32 → u.debugUnit.dmr2.getLsbD n =
    (d.dmr2.getLsbD n || (decide (22 ≤ n) && w.getLsbD (n - 22) && d.dmr2.getLsbD (n - 10)))) ∧
  u.debugUnit.dwcr0.toNat = countedAfter g d w d.dwcr0 0 ∧ u.debugUnit.dwcr1.toNat = countedAfter g d w d.dwcr1 1 ∧
  u.debugUnit = { d with dmr2 := u.debugUnit.dmr2, dwcr0 := u.debugUnit.dwcr0, dwcr1 := u.debugUnit.dwcr1 } ∧
  u = { t with debugUnit := u.debugUnit, pccr := u.pccr, draws := u.draws }

theorem watch_eq {t : State} {g : DebugConfig} (hg : t.cfg.debugUnit = some g) (w : BitVec 10) :
    t.watch w = { t with debugUnit := t.debugUnit.after g w } := by
  rw [State.watch, hg]

theorem watchedAfter_count {t : State} {g : DebugConfig} (hg : t.cfg.debugUnit = some g) (w : BitVec 10) (user : Bool)
    (e : PerfEvents) : watchedAfter g w t ((t.watch w).count user e) := by
  obtain ⟨hdwcr0, hdwcr1⟩ := toNat_after_dwcr t.debugUnit g w
  rw [watch_eq hg, count_shape]
  exact ⟨fun n hn => getLsbD_after_dmr2 t.debugUnit g w hn, hdwcr0, hdwcr1, rfl, rfl⟩

/-! ### Traps (60 R808, R809) -/

/-- A breakpoint is a watchpoint that fired and is one of DMR2[WGB]. -/
theorem and_breakpointMask_ne_zero (d : Debug) (w : BitVec 10) :
    w &&& breakpointMask d ≠ 0#10 ↔ ∃ n : Nat, n < 10 ∧ w.getLsbD n = true ∧ d.dmr2.getLsbD (12 + n) = true := by
  constructor
  · intro h
    by_contra hno
    refine h (BitVec.eq_of_getLsbD_eq fun n hn => ?_)
    rw [BitVec.getLsbD_and, getLsbD_breakpointMask d hn, BitVec.getLsbD_zero, Bool.and_eq_false_iff]
    by_contra hboth
    simp only [not_or, Bool.not_eq_false] at hboth
    exact hno ⟨n, hn, hboth⟩
  · rintro ⟨n, hn, hfired, hmask⟩ hzero
    have hbit := congrArg (BitVec.getLsbD · n) hzero
    simp only [BitVec.getLsbD_and, getLsbD_breakpointMask d hn, hfired, hmask, BitVec.getLsbD_zero] at hbit
    exact absurd hbit (by decide)

/-- The jumps and branches. -/
theorem isBranch_iff (i : Instr) : isBranch i = true ↔
    ∃ (n : Imm26) (b : Reg), i ∈ [Instr.lJ n, .lJal n, .lBf n, .lBnf n, .lJr b, .lJalr b] := by
  constructor
  · intro h
    unfold isBranch at h
    split at h
    case h_1 n | h_2 n | h_3 n | h_4 n => exact ⟨n, 0#5, by simp⟩
    case h_5 b | h_6 b => exact ⟨0#26, b, by simp⟩
    case h_7 => cases h
  · rintro ⟨n, b, h⟩
    fin_cases h <;> rfl

theorem debugTraps_iff {u : State} (h : u.cfg.debugUnit.isSome = true) (i : Instr) (w : BitVec 10) :
    debugTraps i u w = true ↔
      (∃ n : Nat, n < 10 ∧ w.getLsbD n = true ∧ u.debugUnit.dmr2.getLsbD (12 + n) = true) ∨
        u.debugUnit.dmr1.getLsbD 22 = true ∨ (u.debugUnit.dmr1.getLsbD 23 = true ∧
          ∃ (n : Imm26) (b : Reg), i ∈ [Instr.lJ n, .lJal n, .lBf n, .lBnf n, .lJr b, .lJalr b]) := by
  rw [debugTraps, h, Bool.true_and, Bool.or_eq_true, Bool.or_eq_true, decide_eq_true_iff, Bool.and_eq_true,
    and_breakpointMask_ne_zero, isBranch_iff, or_assoc]

/-- The debug unit and the counters do not keep an exception from being taken. -/
theorem canEnter_watch_count {t : State} {e : Exc} (h : canEnter t e) (w : BitVec 10) (user : Bool) (v : PerfEvents) :
    canEnter ((t.watch w).count user v) e := by
  rw [count_shape]
  cases hg : t.cfg.debugUnit with
  | none => rw [State.watch_none hg]; exact h
  | some g => rw [watch_eq hg]; exact h

section
variable {i : Instr} {s u t : State}

/-- Where the debug unit asks for the trap exception it is taken in the state that it leaves. -/
theorem observeCompleted_traps (htraps : debugTraps i u (firedWatchpoints i s u) = true) (hcan : canEnter u .trap) :
    takesException (observeCompleted i s u t)
      ((u.watch (firedWatchpoints i s u)).count (!srBit s srSM)
        (instructionEvents i s t (firedWatchpoints i s u))) .trap none := by
  rw [observeCompleted]
  simp only [htraps, if_true]
  exact enter_spec none (canEnter_watch_count hcan _ _ _)

/-- Where it does not the step ends in the state that it leaves. -/
theorem observeCompleted_next (htraps : debugTraps i u (firedWatchpoints i s u) = false) :
    observeCompleted i s u t = .next ((t.watch (firedWatchpoints i s u)).count (!srBit s srSM)
      (instructionEvents i s t (firedWatchpoints i s u))) := by
  simp only [observeCompleted, htraps, Bool.false_eq_true, if_false]

end

theorem observe_of_completed {t : State} (h : t.raised = none) (i : Instr) (s : State) :
    observe i s (.next t) = observeCompleted i s t t := by
  simp only [observe, h]

theorem observe_of_float {t : State} (h : t.raised = some .floatingPoint) (i : Instr) (s : State) :
    observe i s (.next t) = observeCompleted i s (floatCompleted s t) t := by
  simp only [observe, h]

/-- A floating-point instruction that raises its exception under single-step trace takes the trap alone (log 65). -/
theorem observe_float_trap {s t : State} {i : Instr} (hraised : t.raised = some .floatingPoint)
    (hunit : s.cfg.debugUnit.isSome = true) (hstep : s.debugUnit.dmr1.getLsbD 22 = true) (hcan : canEnter s .trap) :
    ∃ u : State, takesException (observe i s (.next t)) u .trap none ∧ u.pc = seqPc s ∧ u.ppc = s.pc ∧ u.ds = none ∧
      u.gprs = t.gprs ∧ u.fpcsr = t.fpcsr ∧ u.sr = s.sr ∧ memoryKept s u := by
  obtain ⟨g, hg⟩ := Option.isSome_iff_exists.1 hunit
  have htraps : debugTraps i (floatCompleted s t) (firedWatchpoints i s (floatCompleted s t)) = true :=
    (debugTraps_iff (u := floatCompleted s t) hunit i _).2 (.inr (.inl hstep))
  have htakes := observeCompleted_traps (t := t) htraps hcan
  rw [← observe_of_float hraised, watch_eq (t := floatCompleted s t) hg, count_shape] at htakes
  exact ⟨_, htakes, rfl, rfl, rfl, rfl, rfl, rfl, memoryKept_of_mem rfl⟩

/-! ### The stop by DSR (60 R811) -/

/-- The debug unit takes over an exception that DSR selects: it notes it in DRR and stops the processor. -/
theorem enter_of_debugTakes {s : State} {e : Exc} (h : debugTakes s e = true) (ea : Option Word) :
    ∃ t : State, enter e ea s = .next t ∧ (∀ k : Nat, k < 32 → t.debugUnit.drr.getLsbD k =
        (s.debugUnit.drr.getLsbD k || decide (k = e.number - 1))) ∧
      t = { s with debugUnit := { s.debugUnit with drr := t.debugUnit.drr }, stopped := true, raised := some e } := by
  have hnumber : e.number - 1 < 32 := by cases e <;> decide
  refine ⟨_, if_pos h, fun k _ => ?_, rfl⟩
  show (putBit s.debugUnit.drr (e.number - 1) true).getLsbD k = _
  rw [getLsbD_putBit _ _ _ _ hnumber]
  split
  · next hk => rw [decide_eq_true hk, Bool.or_true]
  · next hk => rw [decide_eq_false hk, Bool.or_false]

/-- A stopped processor does nothing. -/
theorem step_of_stopped {s : State} (hinputs : s.inputs = []) (hstopped : s.stopped = true) :
    step s = .fault .debugStopped := by
  rw [step_of_noInputs hinputs, processorStep, if_pos hstopped]

/-- Settles O59: matches, watchpoints and traps of an instruction that completed, the trap of a floating-point one, and
the stop by DSR. -/
theorem debugUnit : Obligations.DebugUnit := by
  refine ⟨?completed, fun s t i hraised hunit hstep hcan => observe_float_trap hraised hunit hstep hcan, ?stop,
    fun s => step_of_stopped⟩
  case completed =>
    intro s t i g hg hraised d x w loaded stored quantity relation chained traps counted after hcfg
    have hw : w = watchpoints t.cfg g d (matchHolds d s x) := by
      show firedWatchpoints i s t = _
      rw [firedWatchpoints, hg]
    have hchain (k : Nat) (own before : Bool) : chain t.cfg d k own before = chained k own before := by
      rw [chain_eq, ← hcfg] <;> rfl
    have hunit : t.cfg.debugUnit.isSome = true := by rw [hg]; rfl
    obtain ⟨h8, h9⟩ := getLsbD_watchpoints_counters t.cfg g d (matchHolds d s x)
    refine ⟨matchHolds_iff d s x, fun n hn => ?_, ?_, ?_, fun htraps hcan => ?_, fun htraps => ?_⟩
    · rw [hw, getLsbD_watchpoints_chain t.cfg g d _ hn, hchain]
    · rw [hw, h8, hchain, counterMatch_eq]
    · rw [hw, h9, hchain, counterMatch_eq]
    · rw [observe_of_completed hraised]
      exact ⟨_, observeCompleted_traps ((debugTraps_iff hunit i w).2 htraps) hcan, watchedAfter_count hg w _ _⟩
    · rw [observe_of_completed hraised]
      have hno : debugTraps i t w = false := Bool.eq_false_iff.2 (mt (debugTraps_iff hunit i w).1 htraps)
      exact ⟨_, observeCompleted_next hno, watchedAfter_count hg w _ _⟩
  case stop =>
    intro s e ea hunit n hdsr
    have hn : n = e.number - 1 := by cases e <;> rfl
    rw [hn] at hdsr ⊢
    exact enter_of_debugTakes (Bool.and_eq_true_iff.2 ⟨hunit, hdsr⟩) ea

end Sys2Proof.Machine
end
